-- ==== Sys2Proof/Word.lean ====
section
/-! DEFINITION. The word types of the C264: 32-bit words, bytes, and one flag bit. -/

namespace Sys2Proof

/-- A register value, a host address or one word of a host-memory record (00_scope.md, Registers). -/
abbrev Word := BitVec 32

/-- One byte of the Bank, of a packet or of a host-memory buffer. -/
abbrev Byte := BitVec 8

/-- A Station Table index, 0..63 (R64). -/
abbrev EntryIx := BitVec 6

/-- A flag as one bit: 1 when it holds. -/
def flagBit (b : Bool) : BitVec 1 := if b then 1#1 else 0#1

end Sys2Proof
end

