-- ==== Sys2Proof/Syntax.lean ====
section
/-! DEFINITION. The commands of the C264: one constructor for each row of spec/opcode_table.json, with the operands
its rules name (the table itself gives the rows no bits). -/

namespace Sys2Proof

/-- The two bus segments (Chapter 3). -/
inductive Seg where
  | a
  | b
  deriving DecidableEq, Repr

/-- The four classes of standing work (R78); class code 0, 1, 2, 3 in this order. -/
inductive RingClass where
  | service
  | bulk
  | timed
  | stream
  deriving DecidableEq, Repr

/-- The two channels of the bus-master engine (R12). -/
inductive Chan where
  | read
  | write
  deriving DecidableEq, Repr

/-- The width of a host access (R1, R5); `dword` stands for an access wider than 32 bits, taken as two
32-bit accesses in ascending address order. -/
inductive Width where
  | byte
  | half
  | word
  | dword
  deriving DecidableEq, Repr

/-- The frame kinds of R100. -/
inductive FrameKind where
  | push
  | pull
  | open
  | peek
  | poke
  | accept
  | data
  | defer
  | refuse
  | garbled
  | beacon
  deriving DecidableEq, Repr

/-- A frame as the named fields the master builds and reads (R100). For a received frame `payload` holds the
bytes that arrived; the CRC is not a field (a frame with a bad CRC is `Reply.broken`). -/
structure Frame where
  kind : FrameKind
  address : BitVec 5
  channel : BitVec 4
  seqBit : Bool
  size : BitVec 10
  payload : List Byte
  deriving DecidableEq, Repr

/-- What ended the reply window after a reply was begun (R104, R105): a complete frame with a good CRC, or
anything else (bad CRC, broken-off frame, noise, wake pattern, several stations at once). -/
inductive Reply where
  | frame (f : Frame)
  | broken
  deriving DecidableEq, Repr

/-- Station line activity (R44): its segment, and whether the master's own frame was going out there meanwhile, which
suspends the babble watch; it is looked at where State does not tell (log 30, log 33). -/
structure Activity where
  seg : Seg
  driving : Bool
  deriving DecidableEq, Repr

/-- One row of spec/opcode_table.json each. -/
inductive Instr where
  /-- POWER_ON_RESET (R8): the input is released; the sensed bias levels are those of that moment (R34). -/
  | powerOnReset (biasA biasB : Bool)
  /-- HARD_RESET (R8): a 32-bit write of GLOBAL_CTL with hard_reset = 1; the sensed bias levels as above. -/
  | hardReset (biasA biasB : Bool)
  /-- NOP (R20): the pending command, a NOP, is taken with its seg_op. -/
  | nop
  /-- CONFIGURE (R21). -/
  | configure
  /-- RUN (R22). -/
  | run
  /-- STOP (R23). -/
  | stop
  /-- RESTART (R24): acceptance, up to the wait. -/
  | restart
  /-- RESTART_ACTIONS (R162): the end of the wait. -/
  | restartActions
  /-- OFFLINE (R25, R161). -/
  | offline
  /-- POWER (R37) offered to one segment. -/
  | power (g : Seg)
  /-- RESET (R38) offered to one segment. -/
  | reset (g : Seg)
  /-- DISABLE (R43) offered to one segment. -/
  | disable (g : Seg)
  /-- DOZE (R41) offered to one segment. -/
  | doze (g : Seg)
  /-- WAKE (R42) offered to one segment. -/
  | wake (g : Seg)
  /-- RELEASE (R158) offered to one segment. -/
  | release (g : Seg)
  /-- BIAS_CHANGE (R34, R35): a change to `level` has held for 64 symbols on segment `g`. -/
  | biasChange (g : Seg) (level : Bool)
  /-- BABBLE (R44): line activity of 64 symbols with no reply due. -/
  | babble (a : Activity)
  /-- WAKE_REQUEST (R42) on segment `g`; `atCycleStart`: it is taken at the same moment as a cycle start (R54). -/
  | wakeRequest (g : Seg) (atCycleStart : Bool)
  /-- CYCLE_START (R54); the raw bias levels at that moment, which R40 checks. -/
  | cycleStart (biasA biasB : Bool)
  /-- BEACON_END (R57): every beacon started at the cycle start has ended. -/
  | beaconEnd
  /-- PERIODIC_OPEN_REACHED (R57): CYCLE_REMAIN reaches the sampled PERIODIC_OPEN. -/
  | periodicOpenReached
  /-- CYCLE_END_CUTOFF (R63): CYCLE_REMAIN reaches 0. -/
  | cycleEndCutoff
  /-- WALKER_DECISION (R95). -/
  | walkerDecision
  /-- REQUEST_SENT (R103). -/
  | requestSent
  /-- REPLY_TIMEOUT (R103). -/
  | replyTimeout
  /-- REPLY_END (R105) with what arrived. -/
  | replyEnd (r : Reply)
  /-- ACCEPT_SENT (R103). -/
  | acceptSent
  /-- STAGING_FILL_DONE (R117) with the bytes of the data fetch, in ascending address order. -/
  | stagingFillDone (bytes : List Byte)
  /-- RECORD_FETCH_DONE (R10) with the snapshot's words W0 to W3. -/
  | recordFetchDone (w0 w1 w2 w3 : Word)
  /-- HOST_WRITE_COMPLETE (R12). -/
  | hostWriteComplete
  /-- HOST_MEMORY_FAULT (R13): an error completion on the channel; `offset` is how far into a packet's bytes the
  failing host-bus access starts (R11 leaves the split of a packet to the engine; it is 0 for a record). -/
  | hostMemoryFault (c : Chan) (offset : BitVec 10)
  /-- SEAL_COMPLETION (R159, steps 5 to 7). -/
  | sealCompletion
  /-- SEQ_STATUS_WRITE (R30). -/
  | seqStatusWrite (v : Word)
  /-- SEG_STATUS_READ (R48): a 32-bit read of the segment's status register. -/
  | segStatusRead (g : Seg)
  /-- SEG_CFG_WRITE (R47). -/
  | segCfgWrite (v : Word)
  /-- CYCLE_LEN_WRITE (R50). -/
  | cycleLenWrite (v : Word)
  /-- CYCLE_NUMBER_WRITE (R52). -/
  | cycleNumberWrite (v : Word)
  /-- RING_ANCHOR_WRITE (R78) of the class's anchor register. -/
  | ringAnchorWrite (c : RingClass) (v : Word)
  /-- RX_RING_BASE_WRITE (R122). -/
  | rxRingBaseWrite (v : Word)
  /-- RX_RING_SIZE_WRITE (R122). -/
  | rxRingSizeWrite (v : Word)
  /-- RX_RETURN_WRITE (R123). -/
  | rxReturnWrite (v : Word)
  /-- ENTRY_W0_WRITE (R71) of the selected entry. -/
  | entryW0Write (v : Word)
  /-- ENTRY_W1_WRITE (R71) of the selected entry. -/
  | entryW1Write (v : Word)
  /-- ATTN_POP (R147): a 32-bit read of ATTN_POP. -/
  | attnPop
  /-- ATTN_STATUS_WRITE (R148). -/
  | attnStatusWrite (v : Word)
  /-- PEEK_REQUEST (R134): a write of DIRECT_REQ with op PEEK and these fields. -/
  | peekRequest (entry : BitVec 6) (offset : BitVec 6) (tag : BitVec 4)
  /-- POKE_REQUEST (R134): a write of DIRECT_REQ with op POKE and these fields. -/
  | pokeRequest (entry : BitVec 6) (offset : BitVec 6) (tag : BitVec 4)
  /-- DIRECT_STATUS_WRITE (R142). -/
  | directStatusWrite (v : Word)
  /-- DIRECT_DONE_POP (R141): a 32-bit read of DIRECT_DONE. -/
  | directDonePop
  /-- IRQ_PENDING_WRITE (R149). -/
  | irqPendingWrite (v : Word)
  /-- IRQ_MASK_WRITE (R150). -/
  | irqMaskWrite (v : Word)
  /-- BUS_WIPE (R154): a write of LOG_CTL with bus_wipe = 1; `v` gives the other bits of the written value. -/
  | busWipe (v : Word)
  /-- HOST_WIPE (R154): a write of LOG_CTL with host_wipe = 1; `v` gives the other bits of the written value. -/
  | hostWipe (v : Word)
  /-- BANK_WRITE (R5, R136) at a Bank offset; the access uses the low bits of `v` its width names. -/
  | bankWrite (offset : BitVec 6) (w : Width) (v : BitVec 64)
  /-- REGISTER_WRITE (R3): a write at an offset of the register window, of any width. -/
  | registerWrite (offset : BitVec 9) (w : Width) (v : BitVec 64)
  /-- EXCHANGE_START (R69). -/
  | exchangeStart
  /-- CONSUME_RECORD (R90): the refetched snapshot is at hand and the record is consumed. -/
  | consumeRecord
  /-- SKIP_STEP (R89): the snapshot of the record to skip is at hand. -/
  | skipStep
  /-- SEQ_CMD_WRITE (R17). -/
  | seqCmdWrite (v : Word)
  /-- ILLEGAL_OP_REFUSED (R18): the pending command's ctrl_op is 6 or 7. -/
  | illegalOpRefused
  /-- POWER_ON_RESET_ASSERTED (R8). -/
  | powerOnResetAsserted
  /-- REPLY_BEGUN (R103, R104). -/
  | replyBegun
  deriving DecidableEq, Repr

end Sys2Proof
end

