-- ==== Sys2Proof/Decode.lean ====
section
/-! DEFINITION. Decoding of command words. The C264 is a block, not a processor, and spec/opcode_table.json gives none of
its rows any bits (every row's `fields` is empty and no row has `fixed` bits), so no word spells a command (log 36). -/

namespace Sys2Proof

/-- The command a word spells by the table's bits: no row of this table has bits, so no word spells one. -/
def decodeTableWord (_nbits _w : Nat) : Option Instr := none

end Sys2Proof
end

