-- ==== Sys2Proof/Config.lean ====
section
/-! DEFINITION. What one C264 fixes and the rules leave open, as constants with no body: nothing can be proved of
their values. The fixed sizes the rules give (queue lengths, FIFO size) are plain definitions. -/

namespace Sys2Proof

/-- How the cycle-end cut-off ends an exchange that is still waiting for a reply to begin (R63 covers a reply that is
arriving, and a frame held back or being sent, and no other case): `true` for SILENCE, `false` for CUT. Applied to the
number of free values drawn so far (log 11). -/
opaque Config.cutoffWhileWaitingIsSilence : Nat → Bool

/-- The Write Queue's length (R127). -/
def Config.writeQueueSize : Nat := 32

/-- The Receive FIFO's size in bytes (R120). -/
def Config.fifoSize : Nat := 1024

/-- The attention queue's length (R146). -/
def Config.attnQueueSize : Nat := 16

/-- The length of the Pending list and of the Done list (R134, R141). -/
def Config.directListSize : Nat := 4

/-- How many heads one traversal may fetch (R79). -/
def Config.traversalLimit : Nat := 256

/-- The part's identity register (R6). -/
def Config.ident : Word := 0xC2640003#32

end Sys2Proof
end

