-- ==== Sys2Proof/Machine/State.lean ====
section
/-! DEFINITION. The state of the C264, block by block (INVENTORY.md lists every field with its rule and reset value),
and the state right after a hard reset. -/

namespace Sys2Proof.Machine

/-- No row of the table stops the controller: every fault the rules describe is a quarantine or a seal, which are
states (R155, R156, R159). The type has no constructor, so no step can answer a fault. -/
inductive Fault where
  deriving DecidableEq, Repr

/-- Why a command could have no meaning. -/
inductive Refusal where
  /-- Raised by `exec` for a command the model gives no meaning (none is left). Safe: the run stops. -/
  | notModelled (mnemonic : String)
  deriving DecidableEq, Repr

/-- The six controller states (R15). -/
inductive CtrlState where
  | offline
  | ready
  | armed
  | running
  | stopping
  | sealed
  deriving DecidableEq, Repr

/-- SEQ_STATUS.refuse_reason (2.7). -/
inductive RefuseReason where
  | none
  | busy
  | illegalOp
  | wrongState
  | noSegment
  | logFatal
  deriving DecidableEq, Repr

/-- The Sequencer (Chapter 2). -/
structure Sequencer where
  /-- SEQ_STATUS.state (R15). -/
  state : CtrlState
  /-- SEQ_STATUS.busy (R17). -/
  busy : Bool
  /-- SEQ_STATUS.refuse_reason (R30). -/
  refuseReason : RefuseReason
  /-- SEQ_STATUS.cmd_refused (R30). -/
  cmdRefused : Bool
  /-- SEQ_STATUS.table_refused (R30). -/
  tableRefused : Bool
  /-- SEQ_STATUS.writes_discarded (R30). -/
  writesDiscarded : Bool
  /-- The command written and not yet taken (R17). -/
  command : Option Word
  /-- RESTART accepted, its wait not ended (R24). -/
  restartInHand : Bool
  /-- A fault was taken during the wait of RESTART (R24). -/
  restartFaulted : Bool
  /-- The second part of a seal is still to be taken (R159, steps 5 to 7). -/
  sealPending : Bool
  deriving DecidableEq, Repr

/-- The eight segment states (3.1). -/
inductive SegMode where
  | dark
  | idle
  | present
  | resetting
  | enabled
  | dozing
  | waking
  | faulted
  deriving DecidableEq, Repr

/-- A BEACON started at a cycle start (R56). -/
structure Beacon where
  /-- The low 16 bits of CYCLE_NUMBER. -/
  payload : BitVec 16
  /-- Its own end is earlier than the moment of BEACON_END: it was started at Standard rate beside one at Reduced rate (44 and
  176 ticks, R56), whose time BEACON_END stands for also if that one is abandoned (R57; log 30, log 56). -/
  outlived : Bool
  deriving DecidableEq, Repr

/-- One Segment Manager (Chapter 3). -/
structure Segment where
  /-- The state field of the status register (R32). -/
  mode : SegMode
  /-- The filtered bias (R34). -/
  bias : Bool
  /-- The raw level at the bias sense input when it was last looked at (R34, R40). -/
  biasPin : Bool
  /-- The quarantine flag (R156). -/
  quarantined : Bool
  /-- Change flag state_changed (R48). -/
  stateChanged : Bool
  /-- Change flag wake_seen (R48). -/
  wakeSeen : Bool
  /-- Change flag fault_seen (R48). -/
  faultSeen : Bool
  /-- cmd_ignored (R46, R47). -/
  cmdIgnored : Bool
  /-- SEG_CFG.allow (3.8). -/
  allow : Bool
  /-- SEG_CFG.trust: true for Guarded (3.8). -/
  guarded : Bool
  /-- SEG_CFG.rate: true for Reduced (3.8). -/
  reduced : Bool
  /-- SEG_CFG.timeout (3.8). -/
  timeout : BitVec 2
  /-- Cycle starts counted since RESETTING or WAKING was entered (R40, R42). -/
  counted : Nat
  /-- WAKING was entered at the moment of the coming cycle start, which it does not count (R42, R54). -/
  wakeAtStart : Bool
  /-- The BEACON being driven (R56), until it ends or is abandoned. -/
  beacon : Option Beacon
  deriving DecidableEq, Repr

/-- The Cycle Timer (Chapter 4). -/
structure CycleTimer where
  /-- The effective CYCLE_LEN (R49, R51). -/
  len : BitVec 13
  /-- The pending CYCLE_LEN (R51). -/
  lenPending : Option (BitVec 13)
  /-- CYCLE_REMAIN (R49). -/
  remain : BitVec 13
  /-- CYCLE_NUMBER (R52). -/
  number : Word
  /-- PERIODIC_OPEN (R53). -/
  periodicOpen : BitVec 13
  /-- LATE_MARK (R53). -/
  lateMark : BitVec 10
  /-- PERIODIC_OPEN as sampled at step 2 of the cycle start (R53). -/
  openSampled : BitVec 13
  /-- LATE_MARK as sampled at step 2 of the cycle start (R53). -/
  markSampled : BitVec 10
  deriving DecidableEq, Repr

/-- The fault field of an entry's W1 (5.2). -/
inductive EntryFault where
  | none
  | refused
  | strikeOut
  deriving DecidableEq, Repr

/-- One Station Table entry (5.2). -/
structure Entry where
  valid : Bool
  fence : Bool
  fenceGranted : Bool
  segment : Seg
  address : BitVec 5
  channel : BitVec 4
  payloadCode : BitVec 3
  classLock : BitVec 3
  seqOut : Bool
  seqIn : Bool
  strikesOut : BitVec 2
  strikesIn : BitVec 2
  halted : Bool
  fault : EntryFault
  doneCount : BitVec 16
  deferCount : BitVec 16
  deriving DecidableEq, Repr

/-- An entry with every word 0: entry 0 always (R64), every entry after a hard reset (R77). -/
def Entry.null : Entry :=
  { valid := false, fence := false, fenceGranted := false, segment := .a, address := 0, channel := 0,
    payloadCode := 0, classLock := 0, seqOut := false, seqIn := false, strikesOut := 0, strikesIn := 0,
    halted := false, fault := .none, doneCount := 0, deferCount := 0 }

/-- The snapshot of a 16-byte host-memory record (R10). -/
structure Rec where
  w0 : Word
  w1 : Word
  w2 : Word
  w3 : Word
  deriving DecidableEq, Repr

/-- A rotation cursor: the head last given a turn and its W0 in the snapshot of that turn (R96). -/
structure Cursor where
  head : Word
  link : Word
  deriving DecidableEq, Repr

/-- The rotation state of the SERVICE or the BULK ring (R96). -/
structure Rotation where
  high : Option Cursor
  low : Option Cursor
  lowTurn : Bool
  deriving DecidableEq, Repr

/-- Both cursors empty and the flag clear (R78, R96). -/
def Rotation.empty : Rotation := { high := none, low := none, lowTurn := false }

/-- The kind field of a segment record (6.3), in code order. -/
inductive RecKind where
  | push
  | pull
  | open
  | nudge
  deriving DecidableEq, Repr

/-- A progress slot in use (R85). -/
structure Slot where
  record : Word
  kind : RecKind
  progress : Nat
  tailOnly : Bool
  deriving DecidableEq, Repr

/-- Where in the cycle the walker is (R57, R58): the timer stopped, beacons still going out, or one of the windows. -/
inductive Window where
  | stopped
  | starting
  | early
  | periodic
  | late
  deriving DecidableEq, Repr

/-- The position of a periodic pass (6.9): the head it was at last (none before the first), the link to the next
head to consider, the head the pass began at and the heads fetched before that next one (R79; log 67). -/
structure PassPos where
  prev : Option Word
  next : Word
  start : Option Word
  fetched : Nat
  deriving DecidableEq, Repr

/-- The three searches of R96. -/
inductive Search where
  | high
  | low
  | second
  deriving DecidableEq, Repr

/-- Which traversal is under way: a periodic pass or a search of a rotation (R79). -/
inductive Stage where
  | pass (c : RingClass)
  | search (c : RingClass) (n : Search)
  deriving DecidableEq, Repr

/-- A traversal under way: its stage, the head it began at, the heads fetched, the head being looked at, the rotation
state as the traversal has left it, and whether its first search was made from an empty cursor (R79, R96). -/
structure Seek where
  stage : Stage
  start : Option Word
  fetched : Nat
  cur : Word
  rot : Rotation
  firstEmpty : Bool
  deriving DecidableEq, Repr

/-- Completion codes of a segment record's W3 (6.3). -/
inductive RecCode where
  | ok
  | short
  | skipped
  | refused
  | strikeOut
  | missed
  | kindMismatch
  deriving DecidableEq, Repr

/-- Outcomes of an exchange (7.4, R115). -/
inductive XOutcome where
  | success
  | duplicate
  | deferred
  | refused
  | silence
  | corrupt
  | garbled
  | overlong
  | unsolicited
  | overrun
  | cut
  deriving DecidableEq, Repr

/-- Attention causes (10.1). -/
inductive Cause where
  | refused
  | strikeOut
  | badEntry
  | kindMismatch
  | badLink
  | rxOverrun
  | late
  | visit
  | complete
  | stationHalted
  | miss
  deriving DecidableEq, Repr

/-- How far a turn has come. -/
inductive TurnPhase where
  /-- Its exchange is in the Exchange Engine. -/
  | exchanging
  /-- The record is complete and is being fetched again (R90). -/
  | refetch (code : RecCode) (count : Nat)
  /-- The fresh snapshot is at hand (R90). -/
  | refetched (code : RecCode) (count : Nat) (snap : Rec)
  /-- The record named by the link is being fetched to be skipped (R89). -/
  | skipFetch (link : Word)
  /-- The record to skip is at hand (R89). -/
  | skipGot (link : Word) (snap : Rec)
  /-- A burst's next record is being fetched (R97). -/
  | burstFetch
  /-- A burst's next exchange waits for its staging and start-rule tests (R97). -/
  | burstReady
  deriving DecidableEq, Repr

/-- A turn or pass step with the head held on chip (R80, R91, R97). -/
structure Turn where
  cls : RingClass
  /-- The head's address. -/
  addr : Word
  /-- The head's snapshot; W2 is kept up to date on chip (R90). -/
  head : Rec
  /-- The current record's address. -/
  record : Word
  /-- The current record's snapshot. -/
  seg : Rec
  /-- Exchanges given so far. -/
  made : Nat
  /-- The outcome of the last one. -/
  last : Option XOutcome
  /-- What the turn's skip steps left in skipping; none if it made none (R89). -/
  skipping : Option Bool
  /-- The rotation before this turn's decision, put back if its first exchange does not start (log 14). -/
  undo : Option Rotation
  /-- The turn is a step of the pass in progress. -/
  inPass : Bool
  /-- The records this turn has queued a write-back for, and so does not fetch again (R91). -/
  written : List Word := []
  phase : TurnPhase
  deriving DecidableEq, Repr

/-- What the walker has in hand. -/
inductive Hand where
  | nothing
  /-- A head fetch is outstanding. -/
  | headWait (k : Seek)
  /-- A segment record fetch for the head at `k.cur` is outstanding. -/
  | recordWait (k : Seek) (head : Rec)
  /-- A candidate has passed R83 and R87 and waits for the decision's start rule and staging tests. -/
  | candidate (k : Seek) (t : Turn)
  /-- A turn or pass step is under way. -/
  | turn (t : Turn)
  deriving DecidableEq, Repr

/-- A look-ahead under way (R118). -/
inductive Look where
  | nothing
  | headWait (k : Seek)
  | recordWait (k : Seek) (head : Rec)
  /-- The next record of the burst in hand is being fetched; W2 of the head names it. -/
  | burstWait (head : Rec)
  deriving DecidableEq, Repr

/-- The Schedule Walker (Chapter 6). Vectors over classes are indexed by class code. -/
structure Walker where
  /-- The RING_ANCHOR registers (R78). -/
  anchorReg : Vector Word 4
  /-- Written since the last latch (R78). -/
  anchorWritten : Vector Bool 4
  /-- The latched anchors (R78). -/
  latched : Vector Word 4
  /-- Rotation state of SERVICE (R96). -/
  service : Rotation
  /-- Rotation state of BULK (R96). -/
  bulk : Rotation
  /-- The progress slots, by entry index (R85); slot 0 is never used. -/
  slots : Vector (Option Slot) 64
  window : Window
  /-- The TIMED pass is done for the cycle (R54 step 5, R58). -/
  timedDone : Bool
  /-- The STREAM pass is done for the cycle. -/
  streamDone : Bool
  /-- The pass in progress (6.9). -/
  pass : Option PassPos
  /-- No further aperiodic exchange starts in this cycle (R62). -/
  aperiodicOver : Bool
  /-- None of the events of R95 has come since the last decision began: with nothing in hand the walker waits. -/
  waiting : Bool
  /-- The turn in hand gets no further exchange, whatever follows (R99: STOP, then RUN; log 23). -/
  turnOver : Bool
  hand : Hand
  look : Look
  deriving DecidableEq, Repr

/-- What an exchange requests (R101): a PUSH packet of n bytes (a NUDGE or a tail is one of 0), an OPEN, a PULL that
permits p bytes, a PEEK or a POKE of len bytes. -/
inductive Request where
  | push (n : Nat)
  | open
  | pull (p : Nat)
  | peek (len : Nat)
  | poke (len : Nat)
  deriving DecidableEq, Repr

/-- The phases of R103; `held` is a chosen exchange whose request frame has not begun (R101, log 7). -/
inductive XPhase where
  | held
  | sending
  | window
  | receiving
  | accepting
  deriving DecidableEq, Repr

/-- The exchange in the Exchange Engine (Chapter 7). -/
structure Exchange where
  phase : XPhase
  request : Request
  /-- A direct exchange (PEEK or POKE of the Pending list's front). -/
  direct : Bool
  entry : EntryIx
  segment : Seg
  /-- The entry's maximum payload when the packet was prepared (R86, R88). -/
  maxPayload : Nat
  /-- The packet is the zero-length tail of a PUSH record (R86). -/
  tail : Bool
  /-- The request frame, from the moment it begins (R100). -/
  frame : Option Frame
  /-- Room of the Receive FIFO when the reply began (R110). -/
  room : Nat
  /-- Bytes received: the tentative packet (R120) or the PEEK's holding area (R111). -/
  data : List Byte
  /-- The outcome that stands when the ACCEPT has been sent (R103), and the ACCEPT frame. -/
  accept : Option (XOutcome × Frame)
  /-- Software rewrote the entry during the engagement (R72). -/
  rewritten : Bool
  deriving DecidableEq, Repr

/-- The tag of a staged packet (R117): a record's packet, or the front direct request for a POKE. -/
inductive StageTag where
  | packet (entry : EntryIx) (record : Word) (offset : Nat) (len : Nat)
  | poke
  deriving DecidableEq, Repr

/-- The staging buffer (R117); a FILLING buffer without a tag completes into nothing. -/
inductive StageBuf where
  | empty
  | filling (tag : Option StageTag)
  | staged (tag : StageTag) (bytes : List Byte)
  deriving DecidableEq, Repr

/-- A fill request with the host address its data stands at; `late` marks one made for a periodic head that was then not
served, which the next cycle start drops (R119). -/
structure FillReq where
  tag : StageTag
  addr : Word
  len : Nat
  late : Bool := false
  deriving DecidableEq, Repr

/-- The staging buffer and the one waiting request (R117). -/
structure Staging where
  buf : StageBuf
  waiting : Option FillReq
  deriving DecidableEq, Repr

/-- The receive path (8.1, 8.2). -/
structure Receive where
  /-- Committed packets, oldest first, each with the bytes not yet freed (R120). -/
  fifo : List (List Byte)
  base : Word
  size : BitVec 11
  fill : BitVec 10
  ret : BitVec 10
  deriving DecidableEq, Repr

/-- An item of the Write Queue (R127) with the reports it carries (R128). -/
inductive WqItem where
  /-- Receive packet (R125): length, entry, class, cycle low 16 bits, end_xfer mark. -/
  | packet (len : Nat) (entry : EntryIx) (cls : RingClass) (cycle : BitVec 16) (endXfer : Bool)
  /-- Segment write-back of W3 of the record at `record`; class, entry and head for the reports. -/
  | segment (record : Word) (word : Word) (code : RecCode) (endXfer notify : Bool) (cls : RingClass)
      (entry : EntryIx) (head : Word)
  /-- Head link update of W2 of the head at `head`; `next` is the head's W0 as held on chip (log 12). -/
  | link (head : Word) (word : Word) (next : Word)
  /-- Head status write of W3 of the head at `head`: VISIT to release, stop cause to release, the head's W0. -/
  | status (head : Word) (word : Word) (cls : RingClass) (entry : EntryIx) (visit : Bool) (stopCause : Option Cause)
      (next : Word)
  deriving DecidableEq, Repr

/-- The step of the receive packet item at the front (R125, R126). A descriptor that has been fetched keeps its address until it
is written back (R124), since a write of the present ring size may clear RX_FILL under it (R122, log 40). -/
inductive Drain where
  | needs
  | waits
  | fetching
  /-- The descriptor's address, its buffer and the bytes that takes. -/
  | holds (desc buffer : Word) (size : Nat)
  /-- The descriptor's address, and the bytes being written into its buffer. -/
  | writing (desc : Word) (n : Nat)
  | written (desc : Word) (n : Nat)
  /-- The bytes the descriptor took. -/
  | writingBack (n : Nat)
  deriving DecidableEq, Repr

/-- The Write Queue (8.6, 8.7). -/
structure WriteQueue where
  items : List WqItem
  /-- The reservation count (R129). -/
  reserved : Nat
  /-- The front item has been started (R127). -/
  started : Bool
  drain : Drain
  deriving DecidableEq, Repr

/-- Completion statuses of a direct request (9.6). -/
inductive DirStatus where
  | ok
  | failed
  | deferLimit
  | refused
  | notReady
  | quarantined
  | fenced
  | sealed
  deriving DecidableEq, Repr

/-- A record of the Pending list (R135). -/
structure DirReq where
  /-- true for POKE. -/
  poke : Bool
  entry : EntryIx
  offset : BitVec 6
  len : Nat
  tag : BitVec 4
  regnum : BitVec 16
  tries : Nat
  defers : Nat
  /-- The snapshot of a POKE's range; empty for a PEEK. -/
  data : List Byte
  deriving DecidableEq, Repr

/-- A record of the Done list (R140). -/
structure DoneRec where
  poke : Bool
  tag : BitVec 4
  status : DirStatus
  count : Nat
  deriving DecidableEq, Repr

/-- DIRECT_STATUS.reject_reason (9.7). -/
inductive RejectReason where
  | none
  | notRunning
  | full
  | badEntry
  | overlap
  deriving DecidableEq, Repr

/-- The Direct Access Unit (Chapter 9). -/
structure Direct where
  bank : Vector Byte 64
  arg : BitVec 16
  pending : List DirReq
  done : List DoneRec
  rejectReason : RejectReason
  rejected : Bool
  bankWriteDropped : Bool
  directFlushed : Bool
  deriving DecidableEq, Repr

/-- An attention record (10.1). -/
structure Attn where
  cause : Cause
  cls : RingClass
  entry : EntryIx
  cycle : BitVec 12
  head : Word
  deriving DecidableEq, Repr

/-- The Attention and Interrupt Unit (10.1 to 10.4). -/
structure Aiu where
  queue : List Attn
  lost : BitVec 8
  overflow : Bool
  attnHead : Word
  /-- Edge bits of IRQ_PENDING; bits 1 and 9 are level bits and stay 0 here (R149). -/
  edges : BitVec 11
  mask : BitVec 11
  deriving DecidableEq, Repr

/-- The two error logs and LOG_CTL (10.5). -/
structure ErrorLogs where
  busCode : BitVec 8
  busOverflow : Bool
  busSegment : BitVec 2
  busEntry : EntryIx
  busCycle : BitVec 12
  hostCode : BitVec 8
  hostOverflow : Bool
  hostKind : BitVec 4
  hostAddr : Word
  busPermit : Bool
  hostPermit : Bool
  deriving DecidableEq, Repr

/-- Who asked for a read, and so who gets its data; `discard` reads are thrown away when they complete. -/
inductive Reader where
  | head
  | record
  | refetch
  | skip
  | burst
  | lookHead
  | lookRecord
  | descriptor
  | staging
  | discard
  deriving DecidableEq, Repr

/-- A read of the read channel's stream (R9, R12): kind code, address, bytes, requester, whether an OFFLINE has left it
outstanding, so that its fault does not seal (R14, R25), and whether it became due at the moment whose rows are being taken, so
that another request of that moment may still join the stream before it (R12). -/
structure ReadReq where
  kind : BitVec 4
  addr : Word
  len : Nat
  reader : Reader
  left : Bool := false
  fresh : Bool := false
  deriving DecidableEq, Repr

/-- The outstanding write (R9, R12): kind code, address, bytes, whether its completion still counts for the front item of
the Write Queue (R14), and whether an OFFLINE has left it outstanding, so that its fault does not seal (R14, R25). -/
structure WriteAcc where
  kind : BitVec 4
  addr : Word
  bytes : List Byte
  live : Bool
  left : Bool := false
  deriving DecidableEq, Repr

/-- The Host Port (Chapter 1). -/
structure HostPort where
  /-- GLOBAL_CTL.fill (R7). -/
  fill : Bool
  /-- The power-on reset input is asserted (R8). -/
  heldInReset : Bool
  /-- The read channel's stream, the front one outstanding (R12). -/
  reads : List ReadReq
  /-- The write channel's outstanding access (R12). -/
  write : Option WriteAcc
  /-- Rows due at one moment are being taken, so that the reads they request join the stream together (R12): the model's own
  field (log 61). -/
  moment : Bool
  /-- The value the last 32-bit read access returned: the model's own field (log 10). -/
  readData : Word
  deriving DecidableEq, Repr

/-- The whole state of the block, and the queue of commands waiting. -/
structure State where
  seq : Sequencer
  segA : Segment
  segB : Segment
  ctim : CycleTimer
  table : Vector Entry 64
  /-- ENTRY_SELECT (R65). -/
  select : EntryIx
  walk : Walker
  xeng : Option Exchange
  stage : Staging
  rx : Receive
  wq : WriteQueue
  dau : Direct
  aiu : Aiu
  elog : ErrorLogs
  hport : HostPort
  /-- How many free values have been drawn (log 11). -/
  freeDraws : Nat
  /-- The commands waiting, first in first out (log 1). -/
  pending : List Instr
  deriving DecidableEq, Repr

/-- A segment after hard reset (R48, 3.8), with the filtered bias at the sensed level (R34). -/
def Segment.afterReset (level : Bool) : Segment :=
  { mode := .dark, bias := level, biasPin := level, quarantined := false, stateChanged := false, wakeSeen := false,
    faultSeen := false, cmdIgnored := false, allow := false, guarded := false, reduced := false, timeout := 1,
    counted := 0, wakeAtStart := false, beacon := none }

/-- The state right after a hard reset with the given sensed bias levels and nothing queued (R8, R34 and the reset
column of every register; 11.5). -/
def State.afterReset (biasA biasB : Bool) : State :=
  { seq := { state := .offline, busy := false, refuseReason := .none, cmdRefused := false, tableRefused := false,
             writesDiscarded := false, command := none, restartInHand := false, restartFaulted := false,
             sealPending := false },
    segA := Segment.afterReset biasA,
    segB := Segment.afterReset biasB,
    ctim := { len := 7999, lenPending := none, remain := 7999, number := 0, periodicOpen := 7200, lateMark := 160,
              openSampled := 7200, markSampled := 160 },
    table := Vector.replicate 64 Entry.null,
    select := 0,
    walk := { anchorReg := Vector.replicate 4 0, anchorWritten := Vector.replicate 4 false,
              latched := Vector.replicate 4 0, service := Rotation.empty, bulk := Rotation.empty,
              slots := Vector.replicate 64 none, window := .stopped, timedDone := false, streamDone := false,
              pass := none, aperiodicOver := false, waiting := false, turnOver := false, hand := .nothing, look := .nothing },
    xeng := none,
    stage := { buf := .empty, waiting := none },
    rx := { fifo := [], base := 0, size := 8, fill := 0, ret := 0 },
    wq := { items := [], reserved := 0, started := false, drain := .needs },
    dau := { bank := Vector.replicate 64 0, arg := 0, pending := [], done := [], rejectReason := .none,
             rejected := false, bankWriteDropped := false, directFlushed := false },
    aiu := { queue := [], lost := 0, overflow := false, attnHead := 0, edges := 0, mask := 0 },
    elog := { busCode := 0, busOverflow := false, busSegment := 0, busEntry := 0, busCycle := 0, hostCode := 0,
              hostOverflow := false, hostKind := 0, hostAddr := 0, busPermit := false, hostPermit := false },
    hport := { fill := true, heldInReset := false, reads := [], write := none, moment := false,
               readData := 0 },
    freeDraws := 0,
    pending := [] }

/-- The machine right after reset: no bias sensed on either segment (log 8), nothing queued. -/
def State.reset : State := State.afterReset false false

end Sys2Proof.Machine
end

