-- ==== Sys2Proof/Machine/Operands.lean ====
section
/-! DEFINITION. The layouts of everything the controller reads or builds field by field: codes, the Station Table words,
head and segment records, receive descriptors, command words and SEG_CFG. -/

namespace Sys2Proof.Machine

/-! ### Words -/

/-- The field of `n` bits of a word that starts at bit `lo`. -/
def field (w : Word) (lo n : Nat) : BitVec n := w.extractLsb' lo n

/-- One bit of a word. -/
def bitAt (w : Word) (i : Nat) : Bool := w.getLsbD i

/-- A link or record address is 16-byte aligned (00_scope.md, Host memory). -/
def aligned (w : Word) : Bool := field w 0 4 == 0

/-- The low `n` bits of a number placed at bit `lo` of an otherwise empty word. -/
def place {n : Nat} (v : BitVec n) (lo : Nat) : Word := (v.setWidth 32) <<< lo

/-- A flag at bit `lo` of an otherwise empty word. -/
def placeFlag (b : Bool) (lo : Nat) : Word := place (flagBit b) lo

/-- The bytes of a 32-bit word in host-memory order, lowest address first (R10). -/
def wordBytes (w : Word) : List Byte := [field w 0 8, field w 8 8, field w 16 8, field w 24 8]

/-! ### Codes -/

/-- A class's place in vectors over classes: its class code (6.1). -/
def classIx : RingClass → Fin 4
  | .service => 0
  | .bulk => 1
  | .timed => 2
  | .stream => 3

/-- The class code (6.1). -/
def classCode (c : RingClass) : BitVec 2 := BitVec.ofNat 2 (classIx c).val

/-- The class_lock value of a class: its class code plus 1 (R66, 6.1). -/
def lockCode (c : RingClass) : BitVec 3 := BitVec.ofNat 3 ((classIx c).val + 1)

/-- Cause codes (10.1); a stop's cause is also its stop_cause in a head's W3 (6.2). -/
def causeCode : Cause → BitVec 4
  | .refused => 1
  | .strikeOut => 2
  | .badEntry => 3
  | .kindMismatch => 4
  | .badLink => 5
  | .rxOverrun => 6
  | .late => 7
  | .visit => 8
  | .complete => 9
  | .stationHalted => 10
  | .miss => 11

/-- last_outcome codes (6.2). -/
def outcomeCode : XOutcome → BitVec 4
  | .success => 1
  | .duplicate => 2
  | .deferred => 3
  | .refused => 4
  | .silence => 5
  | .corrupt => 6
  | .garbled => 7
  | .overlong => 8
  | .unsolicited => 9
  | .overrun => 10
  | .cut => 11

/-- Completion codes of a segment record (6.3). -/
def recCode : RecCode → BitVec 4
  | .ok => 1
  | .short => 2
  | .skipped => 3
  | .refused => 4
  | .strikeOut => 5
  | .missed => 6
  | .kindMismatch => 7

/-- SEQ_STATUS.state codes (2.7). -/
def ctrlCode : CtrlState → BitVec 3
  | .offline => 0
  | .ready => 1
  | .armed => 2
  | .running => 3
  | .stopping => 4
  | .sealed => 5

/-- refuse_reason codes (2.7). -/
def refuseCode : RefuseReason → BitVec 3
  | .none => 0
  | .busy => 1
  | .illegalOp => 2
  | .wrongState => 3
  | .noSegment => 4
  | .logFatal => 5

/-- Segment state codes (3.9). -/
def segModeCode : SegMode → BitVec 3
  | .dark => 0
  | .idle => 1
  | .present => 2
  | .resetting => 3
  | .enabled => 4
  | .dozing => 5
  | .waking => 6
  | .faulted => 7

/-- reject_reason codes (9.7). -/
def rejectCode : RejectReason → BitVec 3
  | .none => 0
  | .notRunning => 1
  | .full => 2
  | .badEntry => 3
  | .overlap => 4

/-- Direct completion status codes (9.6). -/
def dirStatusCode : DirStatus → BitVec 4
  | .ok => 1
  | .failed => 2
  | .deferLimit => 3
  | .refused => 4
  | .notReady => 5
  | .quarantined => 6
  | .fenced => 7
  | .sealed => 8

/-- The segment as a log detail names it: 1 A, 2 B (10.5). -/
def segDetail : Seg → BitVec 2
  | .a => 1
  | .b => 2

/-- Bus and Host Log codes (10.5). -/
def codeTableWriteRefused : BitVec 8 := 0x01
def codeSegCmdIgnored : BitVec 8 := 0x02
def codeCycleLenRefused : BitVec 8 := 0x03
def codeStrikeOut : BitVec 8 := 0x10
def codeLineFault : BitVec 8 := 0x23
def codeRxConfigRefused : BitVec 8 := 0x01
def codeDescReadFault : BitVec 8 := 0x20
def codeDataReadFault : BitVec 8 := 0x21
def codeWriteFault : BitVec 8 := 0x22
def codeRingBroken : BitVec 8 := 0x23

/-- Severity of a log code by its range (10.5): 0 empty, 1 advisory, 2 recoverable, 3 fatal. -/
def severity (code : BitVec 8) : Nat :=
  if code == 0 then 0 else if code.toNat < 0x10 then 1 else if code.toNat < 0x20 then 2 else 3

/-- A code of the fatal range 0x20 to 0x2F (10.5, R158). -/
def fatalCode (code : BitVec 8) : Bool := decide (0x20 ≤ code.toNat) && decide (code.toNat ≤ 0x2F)

/-- The Host Log code of a failed access by its kind code (R13). -/
def faultCodeOf (kind : BitVec 4) : BitVec 8 :=
  if kind.toNat ≤ 3 then codeDescReadFault else if kind == 4 then codeDataReadFault else codeWriteFault

/-- The code an outcome logged by trust offers (R114); none for any other outcome. -/
def trustCode (guarded : Bool) : XOutcome → Option (BitVec 8)
  | .garbled => some (if guarded then 0x11 else 0x20)
  | .overlong => some (if guarded then 0x12 else 0x21)
  | .unsolicited => some (if guarded then 0x13 else 0x22)
  | _ => none

/-! ### Station Table words (5.2) -/

def entryFaultCode : EntryFault → BitVec 2
  | .none => 0
  | .refused => 1
  | .strikeOut => 2

/-- The fault field as written: a written 3 is stored as 0 (5.2). -/
def entryFaultOf (v : BitVec 2) : EntryFault :=
  if v == 1 then .refused else if v == 2 then .strikeOut else .none

def entryW0 (e : Entry) : Word :=
  placeFlag e.valid 0 ||| placeFlag e.fence 1 ||| placeFlag e.fenceGranted 2 ||| placeFlag (e.segment == .b) 3 |||
  place e.address 4 ||| place e.channel 12 ||| place e.payloadCode 16 ||| place e.classLock 20

def entryW1 (e : Entry) : Word :=
  placeFlag e.seqOut 0 ||| placeFlag e.seqIn 1 ||| place e.strikesOut 2 ||| place e.strikesIn 4 |||
  placeFlag e.halted 6 ||| place (entryFaultCode e.fault) 8

def entryW3 (e : Entry) : Word := place e.doneCount 0 ||| place e.deferCount 16

/-- The entry with the identity fields of a written W0: valid, segment, address, channel, payload_code, class_lock;
the fence pair is R70's and is not touched here. -/
def withW0 (e : Entry) (v : Word) : Entry :=
  { e with valid := bitAt v 0, segment := if bitAt v 3 then .b else .a, address := field v 4 5,
           channel := field v 12 4, payloadCode := field v 16 3, classLock := field v 20 3 }

/-- The entry with the fields of a written W1. -/
def withW1 (e : Entry) (v : Word) : Entry :=
  { e with seqOut := bitAt v 0, seqIn := bitAt v 1, strikesOut := field v 2 2, strikesIn := field v 4 2,
           halted := bitAt v 6, fault := entryFaultOf (field v 8 2) }

/-- The maximum payload P of a payload_code, 8·2^code bytes (5.2); code 7 is unusable and never reaches a packet. -/
def payloadMax (e : Entry) : Nat := 8 * 2 ^ e.payloadCode.toNat

/-- Usable for ring work of a class (R66). -/
def usableFor (c : RingClass) (e : Entry) : Bool :=
  e.valid && e.address != 0 && e.payloadCode != 7 && (e.classLock == 0 || e.classLock == lockCode c)

/-- Usable for direct access (R76, R138 line 2). -/
def usableDirect (e : Entry) : Bool := e.valid && e.address != 0

/-! ### Head records (6.2) -/

def headEnabled (h : Rec) : Bool := bitAt h.w1 0
def headHigh (h : Rec) : Bool := bitAt h.w1 1
def headNotifyVisit (h : Rec) : Bool := bitAt h.w1 2
def headEntry (h : Rec) : EntryIx := field h.w1 4 6
def headBurst (h : Rec) : Nat := (field h.w1 12 3).toNat
def headPeriod (h : Rec) : Nat := 2 ^ (field h.w1 16 3).toNat
def headPhase (h : Rec) : Nat := (field h.w1 20 7).toNat
def headStopped (h : Rec) : Bool := bitAt h.w3 0
def headSkipping (h : Rec) : Bool := bitAt h.w3 1

/-- A TIMED head is eligible in cycle N (R93). -/
def eligible (number : Word) (h : Rec) : Bool := number.toNat % headPeriod h == headPhase h % headPeriod h

/-- A word with the `n` bits from `lo` replaced (log 20: every other bit stays as the snapshot had it). -/
def putField {n : Nat} (w : Word) (lo : Nat) (v : BitVec n) : Word :=
  (w &&& ~~~(place (BitVec.allOnes n) lo)) ||| place v lo

/-- The head status word (R81), built from the snapshot's W3: a visit that ended with its last outcome, the skipping
bit if the turn made skip steps, and the stop if the head was stopped. -/
def headStatusWord (w3 : Word) (visit : Option XOutcome) (skipping : Option Bool) (stop : Option Cause) : Word :=
  let w := match visit with
    | some o => putField (putField w3 16 (field w3 16 8 + 1)) 8 (outcomeCode o)
    | none => w3
  let w := match skipping with
    | some b => putField w 1 (flagBit b)
    | none => w
  match stop with
  | some c => putField (putField w 0 1#1) 4 (causeCode c)
  | none => w

/-! ### Segment records (6.3) -/

def recKind (r : Rec) : RecKind :=
  match (field r.w2 0 2).toNat with
  | 0 => .push
  | 1 => .pull
  | 2 => .open
  | _ => .nudge

def recEnd (r : Rec) : Bool := bitAt r.w2 2
def recExact (r : Rec) : Bool := bitAt r.w2 3
def recNotify (r : Rec) : Bool := bitAt r.w2 4
def recLength (r : Rec) : Nat := (field r.w2 16 14).toNat

/-- The record's data bytes as a PUSH counts them: a NUDGE is a PUSH of length 0 (R82), an OPEN sends 8 (R86). -/
def pushLength (r : Rec) : Nat :=
  match recKind r with
  | .nudge => 0
  | .open => 8
  | _ => recLength r

/-- A segment record's completion word: done = 1, the code and the count (6.3). -/
def recStatusWord (code : RecCode) (count : Nat) : Word :=
  1#32 ||| place (recCode code) 4 ||| place (BitVec.ofNat 14 count) 16

/-- The kinds a class allows (R82). -/
def kindAllowed : RingClass → RecKind → Bool
  | .service, _ => true
  | .bulk, .push => true
  | .bulk, .pull => true
  | .timed, .push => true
  | .timed, .pull => true
  | .timed, .nudge => true
  | .stream, .push => true
  | .stream, .pull => true
  | _, _ => false

/-- The record is refused for its kind in a head of the class, P being the entry's maximum payload (R87). -/
def kindRefused (c : RingClass) (p : Nat) (r : Rec) : Bool :=
  !kindAllowed c (recKind r) || (recKind r == .open && recLength r != 8) ||
  (c == .stream && decide (p < recLength r))

/-- A PUSH record of data length L ends with a zero-length tail (R86; never after data in STREAM, R94). -/
def needsTail (c : RingClass) (p : Nat) (r : Rec) : Bool :=
  recKind r == .push && decide (0 < recLength r) && recLength r % p == 0 && recEnd r && !recExact r && c != .stream

/-! ### Receive descriptors (8.3) -/

/-- The buffer size a descriptor's W1 gives: bits 14..0, and 16384 if larger (R124). -/
def descSize (w1 : Word) : Nat := min (field w1 0 15).toNat 16384

/-- W2 of a descriptor write-back (8.3). -/
def descW2 (count : Nat) (entry : EntryIx) (endPkt endXfer empty : Bool) (c : RingClass) : Word :=
  place (BitVec.ofNat 15 count) 0 ||| place entry 16 ||| placeFlag endPkt 24 ||| placeFlag endXfer 25 |||
  placeFlag empty 26 ||| place (classCode c) 28

/-- W3 of a descriptor write-back (8.3). -/
def descW3 (cycle : BitVec 16) : Word := place cycle 0

/-! ### Command words (2.2) -/

def ctrlOp (w : Word) : BitVec 3 := field w 0 3
def segSelect (w : Word) : BitVec 2 := field w 4 2
def segOp (w : Word) : BitVec 3 := field w 8 3

/-- seg_select names segment A (2.2). -/
def selectsA (w : Word) : Bool := bitAt w 4

/-- seg_select names segment B (2.2). -/
def selectsB (w : Word) : Bool := bitAt w 5

/-! ### SEG_CFG (3.8) and times (R59) -/

/-- The response timeout in symbols (3.8). -/
def timeoutSymbols (t : BitVec 2) : Nat :=
  match t.toNat with
  | 0 => 16
  | 1 => 24
  | 2 => 40
  | _ => 64

/-- Ticks per symbol (3.8). -/
def ticksPerSymbol (g : Segment) : Nat := if g.reduced then 4 else 1

/-- A segment's byte of SEG_CFG (3.8). -/
def segCfgByte (g : Segment) : BitVec 8 :=
  ((place g.timeout 3 ||| placeFlag g.reduced 2 ||| placeFlag g.guarded 1 ||| placeFlag g.allow 0).setWidth 8)

/-- The cost of a frame with n payload bytes in symbols (R59). -/
def frameCost (n : Nat) : Nat := 24 + 10 * n

/-- The estimated duration of an exchange in symbols (R59): request frame, response timeout, largest permitted
reply, and an ACCEPT for a PULL and a PEEK. -/
def estimateSymbols (r : Request) (timeout : Nat) : Nat :=
  match r with
  | .push n => frameCost n + timeout + frameCost 0
  | .open => frameCost 8 + timeout + frameCost 0
  | .pull p => frameCost 0 + timeout + frameCost p + frameCost 0
  | .peek len => frameCost 3 + timeout + frameCost len + frameCost 0
  | .poke len => frameCost (2 + len) + timeout + frameCost 0

/-- The estimate in ticks on a segment (R59). -/
def estimateTicks (r : Request) (g : Segment) : Nat := estimateSymbols r (timeoutSymbols g.timeout) * ticksPerSymbol g

/-! ### Bank sections (9.1) -/

/-- The next section boundary above a Bank offset (R133). -/
def sectionEnd (offset : BitVec 6) : Nat :=
  let n := offset.toNat
  if n < 16 then (n / 4 + 1) * 4 else (n / 16 + 1) * 16

/-- The length of the range that begins at a Bank offset (R133). -/
def rangeLen (offset : BitVec 6) : Nat := sectionEnd offset - offset.toNat

/-- A Bank byte lies in a request's range. -/
def inRange (r : DirReq) (i : Nat) : Bool := decide (r.offset.toNat ≤ i) && decide (i < r.offset.toNat + r.len)

/-- Two ranges share a byte (R134 check 4). -/
def overlaps (off1 len1 off2 len2 : Nat) : Bool := decide (off1 < off2 + len2) && decide (off2 < off1 + len1)

end Sys2Proof.Machine
end

