-- ==== Sys2Proof/Machine/Flags.lean ====
section
/-! DEFINITION. What every register of the window reads as (1.2): status words, level bits, the interrupt line, and the
32-bit and narrow reads of R1 to R3. -/

namespace Sys2Proof.Machine

/-! ### Live segments (3.1) -/

/-- Live: ENABLED, DOZING or WAKING (3.1). -/
def liveMode : SegMode → Bool
  | .enabled => true
  | .dozing => true
  | .waking => true
  | _ => false

/-- The line drivers are on in every state but DARK and FAULTED (3.1). -/
def driversOn (g : Segment) : Bool :=
  match g.mode with
  | .dark => false
  | .faulted => false
  | _ => true

/-- The master drives reset signalling: RESETTING before its second cycle start (R40). -/
def drivesReset (g : Segment) : Bool := g.mode == .resetting && decide (g.counted < 2)

/-- The master drives wake signalling: WAKING before its first counted cycle start (R42). -/
def drivesWake (g : Segment) : Bool := g.mode == .waking && g.counted == 0

/-! ### Status words -/

/-- SEQ_STATUS (2.7). -/
def seqStatusWord (q : Sequencer) : Word :=
  place (ctrlCode q.state) 0 ||| placeFlag q.busy 4 ||| place (refuseCode q.refuseReason) 8 |||
  placeFlag q.cmdRefused 12 ||| placeFlag q.tableRefused 13 ||| placeFlag q.writesDiscarded 14

/-- SEG_A_STATUS or SEG_B_STATUS (3.9). -/
def segStatusWord (g : Segment) : Word :=
  place (segModeCode g.mode) 0 ||| placeFlag g.bias 4 ||| placeFlag g.quarantined 5 |||
  placeFlag g.stateChanged 8 ||| placeFlag g.wakeSeen 9 ||| placeFlag g.faultSeen 10 ||| placeFlag g.cmdIgnored 12

/-- DIRECT_STATUS (9.7). -/
def directStatusWord (d : Direct) : Word :=
  place (rejectCode d.rejectReason) 0 ||| placeFlag d.rejected 4 ||| placeFlag d.bankWriteDropped 5 |||
  placeFlag d.directFlushed 6 ||| place (BitVec.ofNat 3 d.pending.length) 8 ||| place (BitVec.ofNat 3 d.done.length) 12

/-- A Done record as DIRECT_DONE returns it (9.6). -/
def doneWord (r : DoneRec) : Word :=
  1#32 ||| placeFlag r.poke 1 ||| place r.tag 4 ||| place (dirStatusCode r.status) 8 ||| place (BitVec.ofNat 5 r.count) 16

/-- W0 of an attention record (10.1). -/
def attnWord (r : Attn) : Word :=
  1#32 ||| place (causeCode r.cause) 4 ||| place (classCode r.cls) 8 ||| place r.entry 10 ||| place r.cycle 16

/-- ATTN_STATUS (10.3). -/
def attnStatusWord (u : Aiu) : Word :=
  place (BitVec.ofNat 5 u.queue.length) 0 ||| place u.lost 8 ||| placeFlag u.overflow 16

/-- IRQ_PENDING: the edge bits with the two level bits, ATTN and DIRECT (R149). -/
def irqPending (s : State) : BitVec 11 :=
  s.aiu.edges ||| ((placeFlag (!s.aiu.queue.isEmpty) 1 ||| placeFlag (!s.dau.done.isEmpty) 9).setWidth 11)

/-- IRQ_ACTIVE (R150). -/
def irqActive (s : State) : BitVec 11 := irqPending s &&& s.aiu.mask

/-- The interrupt output is asserted (R150). -/
def irqLine (s : State) : Bool := irqActive s != 0

/-- BUS_LOG_DETAIL (10.5). -/
def busDetailWord (l : ErrorLogs) : Word :=
  place l.busSegment 0 ||| place l.busEntry 8 ||| place l.busCycle 16

/-! ### Reads -/

/-- The selected entry (R65). -/
def selectedEntry (s : State) : Entry := s.table[s.select.toNat]'s.select.isLt

/-- A Bank byte, by its Bank offset. -/
def bankByte (s : State) (i : Nat) : Byte := (s.dau.bank.toList).getD i 0

/-- `n` Bank bytes from an offset as one little-endian number (1.1). -/
def bankValue (s : State) (i : Nat) : Nat → Nat
  | 0 => 0
  | n + 1 => (bankByte s i).toNat + 256 * bankValue s (i + 1) n

/-- The value a 32-bit read at an offset of the window returns (1.2), side effects apart; a misaligned one returns 0 (R1,
R5). While the power-on reset input is asserted every read returns 0 (R8). -/
def readWord (s : State) (off : Nat) : Word :=
  if s.hport.heldInReset || off % 4 != 0 then 0 else
  if 0x100 ≤ off ∧ off < 0x140 then BitVec.ofNat 32 (bankValue s (off - 0x100) 4) else
  match off with
  | 0x000 => Config.ident
  | 0x004 => placeFlag s.hport.fill 1
  | 0x00C => seqStatusWord s.seq
  | 0x010 => segStatusWord s.segA
  | 0x014 => segStatusWord s.segB
  | 0x018 => place (segCfgByte s.segA) 0 ||| place (segCfgByte s.segB) 8
  | 0x020 => place (s.ctim.lenPending.getD s.ctim.len) 0
  | 0x024 => place s.ctim.remain 0
  | 0x028 => s.ctim.number
  | 0x02C => place s.ctim.periodicOpen 0
  | 0x030 => place s.ctim.lateMark 0
  | 0x040 => s.walk.anchorReg[0]
  | 0x044 => s.walk.anchorReg[1]
  | 0x048 => s.walk.anchorReg[2]
  | 0x04C => s.walk.anchorReg[3]
  | 0x050 => s.rx.base
  | 0x054 => place s.rx.size 0
  | 0x058 => place s.rx.fill 0
  | 0x05C => place s.rx.ret 0
  | 0x060 => place s.select 0
  | 0x064 => entryW0 (selectedEntry s)
  | 0x068 => entryW1 (selectedEntry s)
  | 0x070 => entryW3 (selectedEntry s)
  | 0x080 => (s.aiu.queue.head?.map attnWord).getD 0
  | 0x084 => attnStatusWord s.aiu
  | 0x088 => s.aiu.attnHead
  | 0x090 => place s.dau.arg 0
  | 0x098 => directStatusWord s.dau
  | 0x09C => (s.dau.done.head?.map doneWord).getD 0
  | 0x0A0 => place (irqPending s) 0
  | 0x0A4 => place s.aiu.mask 0
  | 0x0A8 => place (irqActive s) 0
  | 0x0B0 => place s.elog.busCode 0 ||| placeFlag s.elog.busOverflow 8
  | 0x0B4 => busDetailWord s.elog
  | 0x0B8 => place s.elog.hostCode 0 ||| placeFlag s.elog.hostOverflow 8 ||| place s.elog.hostKind 12
  | 0x0BC => s.elog.hostAddr
  | 0x0C0 => placeFlag s.elog.busPermit 0 ||| placeFlag s.elog.hostPermit 4
  | _ => 0

/-- What a byte (`half = false`) or halfword read returns (R1, R5): the addressed bytes of the 32-bit value, or 0 if
misaligned; it has no side effect. -/
def readNarrow (s : State) (off : Nat) (half : Bool) : BitVec 16 :=
  let w := readWord s (off / 4 * 4)
  if half then
    if off % 2 == 0 then field w (8 * (off % 4)) 16 else 0
  else (field w (8 * (off % 4)) 8).setWidth 16

end Sys2Proof.Machine
end

