-- ==== Sys2Proof/Machine/Ops.lean ====
section
/-! DEFINITION. The shared operations the blocks work through: interrupt bits, attention offers, log offers with
quarantine and seal, controller and segment state changes, the Station Table, the two host-bus channels, the
Write Queue's slots, and the end of a turn. -/

namespace Sys2Proof.Machine

/-! ### Interrupt bits (10.4) -/

def irqCycle : Nat := 0
def irqSeg : Nat := 6
def irqSeq : Nat := 7
def irqErrlog : Nat := 8
def irqRxlow : Nat := 10

/-- The DONE bit of a class: bit 2 plus the class code (10.4). -/
def irqDone (c : RingClass) : Nat := 2 + (classIx c).val

/-- Sets an edge bit of IRQ_PENDING (R149). -/
def setEdge (i : Nat) (s : State) : State :=
  { s with aiu := { s.aiu with edges := s.aiu.edges ||| (1#11 <<< i) } }

/-! ### Walker waiting (R95) -/

/-- One of the events of R95: the walker decides again. -/
def wakeWalker (s : State) : State := { s with walk := { s.walk with waiting := false } }

/-- A decision begins at the top of R95's list: what was to be decided again is decided now, and an event of R95 that comes
before the decision has ended makes the walker decide again. -/
def beginDecision (s : State) : State := { s with walk := { s.walk with waiting := true } }

/-- The decision found nothing to start (R95): the walker waits, unless an event of R95 has come since it began. -/
def walkerWaits (s : State) : State := { s with walk := { s.walk with hand := .nothing } }

/-- The turn in hand gets no further exchange (R99). -/
def closeTurn (s : State) : State := { s with walk := { s.walk with turnOver := true } }

/-! ### Attention offers (R145, R146) -/

/-- The low 12 bits of CYCLE_NUMBER (R145, R152). -/
def cycleLow12 (s : State) : BitVec 12 := field s.ctim.number 0 12

/-- RX_OVERRUN, LATE and MISS coalesce (R146 line 1). -/
def coalesces : Cause → Bool
  | .rxOverrun => true
  | .late => true
  | .miss => true
  | _ => false

/-- The attention queue after an offer (R146). -/
def attnAfterOffer (u : Aiu) (r : Attn) : Aiu :=
  if coalesces r.cause && u.queue.any (fun q => q.cause == r.cause && q.entry == r.entry) then u
  else if Config.attnQueueSize ≤ u.queue.length then
    { u with lost := if u.lost == 255 then 255 else u.lost + 1, overflow := true }
  else { u with queue := u.queue ++ [r] }

/-- The other segment. -/
def otherSeg : Seg → Seg
  | .a => .b
  | .b => .a

/-- Offers an attention record about a head (R145). -/
def offerAttn (cause : Cause) (c : RingClass) (entry : EntryIx) (head : Word) (s : State) : State :=
  { s with aiu := attnAfterOffer s.aiu { cause := cause, cls := c, entry := entry, cycle := cycleLow12 s, head := head } }

/-! ### Segments -/

def getSeg (s : State) : Seg → Segment
  | .a => s.segA
  | .b => s.segB

def setSeg (g : Seg) (v : Segment) (s : State) : State :=
  match g with
  | .a => { s with segA := v }
  | .b => { s with segB := v }

/-- A segment is live (3.1). -/
def segLive (s : State) (g : Seg) : Bool := liveMode (getSeg s g).mode

/-- Some segment is live (Chapter 2). -/
def anyLive (s : State) : Bool := segLive s .a || segLive s .b

/-- A segment may carry a new exchange: ENABLED and not quarantined (R33, R157). -/
def segOpen (s : State) (g : Seg) : Bool := (getSeg s g).mode == .enabled && !(getSeg s g).quarantined

/-- Sets the quarantine flag (R156); a change of the flag is an event of R95. -/
def quarantine (g : Seg) (s : State) : State :=
  if (getSeg s g).quarantined then s else wakeWalker (setSeg g { getSeg s g with quarantined := true } s)

/-! ### Log offers (R152, R153, R155) -/

/-- The Bus Log after an offer (R153); every offer clears the permit. -/
def busAfterOffer (l : ErrorLogs) (code : BitVec 8) (seg : BitVec 2) (entry : EntryIx) (cycle : BitVec 12) : ErrorLogs :=
  if l.busCode == 0 then
    { l with busCode := code, busSegment := seg, busEntry := entry, busCycle := cycle, busPermit := false }
  else if severity l.busCode < severity code then
    { l with busCode := code, busSegment := seg, busEntry := entry, busCycle := cycle, busOverflow := true,
             busPermit := false }
  else { l with busOverflow := true, busPermit := false }

/-- Offers a code to the Bus Log with the segment it names, if any (R152, R153); a fatal code quarantines the segment,
after the offer has been judged (R155, R156). -/
def offerBus (code : BitVec 8) (g : Option Seg) (entry : EntryIx) (s : State) : State :=
  let s := setEdge irqErrlog
    { s with elog := busAfterOffer s.elog code ((g.map segDetail).getD 0) entry (cycleLow12 s) }
  match g with
  | some g => if fatalCode code then quarantine g s else s
  | none => s

/-- The Host Log after an offer (R153); every offer clears the permit. -/
def hostAfterOffer (l : ErrorLogs) (code : BitVec 8) (kind : BitVec 4) (addr : Word) : ErrorLogs :=
  if l.hostCode == 0 then
    { l with hostCode := code, hostKind := kind, hostAddr := addr, hostPermit := false }
  else if severity l.hostCode < severity code then
    { l with hostCode := code, hostKind := kind, hostAddr := addr, hostOverflow := true, hostPermit := false }
  else { l with hostOverflow := true, hostPermit := false }

/-- Offers a code to the Host Log (R152, R153). The seal a fatal code brings is `hostFault`'s. -/
def offerHost (code : BitVec 8) (kind : BitVec 4) (addr : Word) (s : State) : State :=
  setEdge irqErrlog { s with elog := hostAfterOffer s.elog code kind addr }

/-! ### The Station Table -/

/-- An entry (R64: entry 0 is the null entry). -/
def getEntry (s : State) (i : EntryIx) : Entry := s.table[i.toNat]'i.isLt

/-- Replaces an entry; entry 0 never changes (R64). -/
def setEntry (i : EntryIx) (e : Entry) (s : State) : State :=
  if i == 0 then s else { s with table := s.table.set i.toNat e i.isLt }

/-- The entry is engaged: its exchange's request frame has begun and its outcome is not processed (R69). -/
def engaged (s : State) (i : EntryIx) : Bool :=
  match s.xeng with
  | some x => x.entry == i && x.phase != .held
  | none => false

/-- Changes every entry 1 to 63 (R77, R161, R162). -/
def mapEntries (f : Entry → Entry) (s : State) : State :=
  { s with table := s.table.mapFinIdx (fun i e _ => if i == 0 then e else f e) }

/-- What entry to RESETTING makes of an entry (R39). -/
def resetEntry (g : Seg) (e : Entry) : Entry :=
  if e.valid && e.segment == g then
    { e with seqOut := false, seqIn := false, strikesOut := 0, strikesIn := 0 }
  else e

/-! ### Walker accessors -/

def getRot (s : State) : RingClass → Rotation
  | .service => s.walk.service
  | _ => s.walk.bulk

def setRot (c : RingClass) (r : Rotation) (s : State) : State :=
  match c with
  | .service => { s with walk := { s.walk with service := r } }
  | .bulk => { s with walk := { s.walk with bulk := r } }
  | _ => s

def latchedAnchor (s : State) (c : RingClass) : Word := s.walk.latched.get (classIx c)

def setHand (h : Hand) (s : State) : State := { s with walk := { s.walk with hand := h } }

def setLook (l : Look) (s : State) : State := { s with walk := { s.walk with look := l } }

def getSlot (s : State) (i : EntryIx) : Option Slot := s.walk.slots[i.toNat]'i.isLt

def setSlot (i : EntryIx) (v : Option Slot) (s : State) : State :=
  if i == 0 then s else { s with walk := { s.walk with slots := s.walk.slots.set i.toNat v i.isLt } }

/-- The slot's content for this record, if the slot holds its address and kind (R85). -/
def slotFor (s : State) (i : EntryIx) (record : Word) (kind : RecKind) : Option Slot :=
  match getSlot s i with
  | some sl => if sl.record == record && sl.kind == kind then some sl else none
  | none => none

/-- Copies an anchor register into the latched anchor and resets the ring's rotation state (R78). -/
def latchAnchor (c : RingClass) (s : State) : State :=
  setRot c Rotation.empty
    { s with walk := { s.walk with
        latched := s.walk.latched.set (classIx c).val (s.walk.anchorReg.get (classIx c)) (classIx c).isLt,
        anchorWritten := s.walk.anchorWritten.set (classIx c).val false (classIx c).isLt } }

/-- The four anchors, for CONFIGURE and RESTART (R78). -/
def latchAll (s : State) : State :=
  latchAnchor .stream (latchAnchor .timed (latchAnchor .bulk (latchAnchor .service s)))

/-- The anchors written since the last latch, at a cycle start (R78). -/
def latchWritten (s : State) : State :=
  let one (c : RingClass) (t : State) : State := if t.walk.anchorWritten.get (classIx c) then latchAnchor c t else t
  one .stream (one .timed (one .bulk (one .service s)))

/-! ### The read channel (R12) -/

/-- The place of an access kind among requests that become due at the same moment (R12): kind 3, then 1 and 2, then 4. -/
def readRank (q : ReadReq) : Nat := if q.kind = 3 then 0 else if q.kind = 4 then 2 else 1

/-- Joins a read to the stream: at its end, but before the requests of the same moment that R12 places behind it. -/
def joinStream (q : ReadReq) : List ReadReq → List ReadReq
  | [] => [q]
  | r :: rest => if r.fresh && decide (readRank q < readRank r) then q :: r :: rest else r :: joinStream q rest

/-- Requests a read. The front one of the stream is the access outstanding; while rows due together are taken, the reads
they request are of one moment (R12, `State.fallDue`). -/
def requestRead (kind : BitVec 4) (addr : Word) (len : Nat) (reader : Reader) (s : State) : State :=
  { s with hport := { s.hport with
      reads := joinStream { kind := kind, addr := addr, len := len, reader := reader, fresh := s.hport.moment }
        s.hport.reads } }

/-- Reads that one row has requested, in the order they join the stream (R12). -/
def joinOrder (new : List ReadReq) : List ReadReq :=
  new.filter (fun q => readRank q == 0) ++ new.filter (fun q => readRank q == 1) ++ new.filter (fun q => readRank q == 2)

/-- The reads an event has asked for beyond the first `n` of the stream join it in R12's order; an event that sealed the
controller issues none (R14). -/
def joinReads (n : Nat) (s : State) : State :=
  { s with hport := { s.hport with
      reads := s.hport.reads.take n ++ (if s.seq.state = .sealed then [] else joinOrder (s.hport.reads.drop n)) } }

/-- What becomes of the read at the front of the stream when the reads of some requesters are given up: an outstanding one
completes into nothing, one requested at this very moment has not been issued. -/
def giveUpFront (p : Reader → Bool) (r : ReadReq) : List ReadReq :=
  if p r.reader then (if r.fresh then [] else [{ r with reader := .discard }]) else [r]

/-- Gives up the reads of some requesters: the outstanding one completes into nothing, the others are not issued. R12 does not
say whether a read that has been asked for and not issued yet is withdrawn when nobody wants it any more; it is: DESIGN
CHOICE, log 51. -/
def cancelReads (p : Reader → Bool) (s : State) : State :=
  { s with hport := { s.hport with
      reads := match s.hport.reads with
        | [] => []
        | r :: rest => giveUpFront p r ++ rest.filter (fun q => !p q.reader) } }

/-- Nothing further is issued; outstanding accesses finish without effect (R14, R24 step 2 for reads). -/
def cancelAllReads (s : State) : State := cancelReads (fun _ => true) s

/-- The outstanding write no longer counts for its item (R14). -/
def orphanWrite (s : State) : State :=
  { s with hport := { s.hport with write := s.hport.write.map (fun w => { w with live := false }) } }

/-- What is outstanding as OFFLINE is taken finishes on the host bus without effect, and its fault is logged but does not
seal, whatever the state is by then (R14, R25). -/
def leaveOutstanding (s : State) : State :=
  { s with hport := { s.hport with
      reads := s.hport.reads.map (fun r => { r with left := true }),
      write := s.hport.write.map (fun w => { w with left := true }) } }

/-- Requesters that belong to a decision, a burst's next record or a look-ahead. -/
def decisionReader : Reader → Bool
  | .head => true
  | .record => true
  | .burst => true
  | .lookHead => true
  | .lookRecord => true
  | _ => false

/-- Requesters that belong to a look-ahead (R118). -/
def lookReader : Reader → Bool
  | .lookHead => true
  | .lookRecord => true
  | _ => false

/-! ### Write Queue slots (R127, R129) -/

/-- Slots free to reserve (R129). -/
def freeSlots (s : State) : Nat := Config.writeQueueSize - s.wq.items.length - s.wq.reserved

/-- Reserves slots. -/
def reserve (n : Nat) (s : State) : State := { s with wq := { s.wq with reserved := s.wq.reserved + n } }

/-- Releases every reserved slot that did not become an item (R129, 4). -/
def releaseSlots (s : State) : State := { s with wq := { s.wq with reserved := 0 } }

/-- An item joins the back of the queue; a reserved slot becomes the item (R129, 1). The queue never holds more than
32 items (R127; log 39). -/
def enqueue (i : WqItem) (s : State) : State :=
  if s.wq.reserved = 0 ∧ Config.writeQueueSize ≤ s.wq.items.length then s
  else { s with wq := { s.wq with items := s.wq.items ++ [i], reserved := s.wq.reserved - 1 } }

/-- The head's W0 as the last pending item for this head carries it; none if no head link update or head status write
addressed to the head is pending (test 1 of R83; log 12). -/
def pendingHeadLink (s : State) (head : Word) : Option Word :=
  s.wq.items.reverse.findSome? (fun i =>
    match i with
    | .link h _ next => if h == head then some next else none
    | .status h _ _ _ _ _ next => if h == head then some next else none
    | _ => none)

/-- A segment write-back addressed to the record is pending (test 9 of R83). -/
def recordPending (s : State) (record : Word) : Bool :=
  s.wq.items.any (fun i =>
    match i with
    | .segment r _ _ _ _ _ _ _ => r == record
    | _ => false)

/-- A receive packet item. -/
def isPacket : WqItem → Bool
  | .packet _ _ _ _ _ => true
  | _ => false

/-- The items a discard removes or abandons: all but a started one-write item whose write is left outstanding (R131). -/
def discardedItems (s : State) : List WqItem :=
  match s.wq.items with
  | [] => []
  | i :: rest => if s.wq.started && !isPacket i && s.hport.write.isSome then rest else i :: rest

/-- Discards the Write Queue (R131): writes_discarded is set if an item was removed or abandoned, the reservation
count becomes 0, the Receive FIFO is emptied, any wait for descriptors ends. -/
def discardQueue (s : State) : State :=
  let any := !(discardedItems s).isEmpty
  orphanWrite (cancelReads (fun r => r == .descriptor)
    { s with
      seq := { s.seq with writesDiscarded := s.seq.writesDiscarded || any },
      wq := { items := [], reserved := 0, started := false, drain := .needs },
      rx := { s.rx with fifo := [] } })

/-- The staging buffer becomes EMPTY and no fill is wanted any more (R117). -/
def emptyStaging (s : State) : State :=
  cancelReads (fun r => r == .staging) { s with stage := { buf := .empty, waiting := none } }

/-! ### The end of a turn (R81, R90) -/

/-- The pass moves to the head after this one (6.9), which it has fetched (R79). -/
def passAfter (head link : Word) (s : State) : State :=
  { s with walk := { s.walk with
      pass := s.walk.pass.map (fun p => { p with prev := some head, next := link, fetched := p.fetched + 1 }) } }

/-- Ends a turn or pass step: one head status write if a visit ended, the head was stopped, or skip steps were made
(R81), then the unused slots are released (R129, 4) and the pass goes on behind the head. -/
def endTurn (t : Turn) (stop : Option Cause) (s : State) : State :=
  let visit := if t.made = 0 then none else t.last
  let s :=
    if visit.isSome || t.skipping.isSome || stop.isSome then
      enqueue (.status t.addr (headStatusWord t.head.w3 visit t.skipping stop) t.cls (headEntry t.head)
        (visit.isSome && headNotifyVisit t.head) stop t.head.w0) s
    else s
  let s := wakeWalker (setHand .nothing (releaseSlots s))
  if t.inPass then passAfter t.addr t.head.w0 s else s

/-- Gives up a decision or look-ahead in progress; a turn whose exchange has begun, or that is finishing a record, goes
on to its end without a further exchange, and a burst waiting for its next exchange ends with its head status write (R23,
R97, R99). Taken on STOP and a fall to READY, and, where the spec names only the periodic pass (R54 step 5), at a cycle
start too: DESIGN CHOICE, log 23. A turn of skip steps alone goes on to the end of its skip, fetching further records, though
R16 and R23 leave no ring work (R89): DESIGN CHOICE, log 52. -/
def abandonDecision (s : State) : State :=
  let s := cancelReads decisionReader (setLook .nothing s)
  match s.walk.hand with
  | .nothing => s
  | .turn t =>
    match t.phase with
    | .burstFetch => endTurn t none s
    | .burstReady => endTurn t none s
    | _ => closeTurn s
  | _ => setHand .nothing (releaseSlots s)

/-! ### Controller state (R15, R27, R31) -/

/-- Changes the controller state: SEQ is set for every change (R15, R31), which is also an event of R95. Outside
RUNNING no ring work is chosen (R16). -/
def setCtrl (c : CtrlState) (s : State) : State :=
  if s.seq.state = c then s
  else
    let s := wakeWalker (setEdge irqSeq { s with seq := { s.seq with state := c } })
    if c = .running then s else abandonDecision s

/-- The controller falls to READY when a segment that was live stops being live and the other is not live either,
unless a RESTART is in hand (R27). -/
def fallIfLast (wasLive : Bool) (s : State) : State :=
  if wasLive && !anyLive s && !s.seq.restartInHand &&
      (s.seq.state == .armed || s.seq.state == .running || s.seq.state == .stopping) then
    setCtrl .ready s
  else s

/-- Changes a segment's state: state_changed and the SEG interrupt are set (R48), and counting starts afresh. -/
def setMode (g : Seg) (m : SegMode) (s : State) : State :=
  wakeWalker (setEdge irqSeg
    (setSeg g { getSeg s g with mode := m, stateChanged := true, counted := 0, wakeAtStart := false } s))

/-- A beacon or signalling being driven on the segment stops (R36 step 2). An abandoned beacon has no further effect (R56), and
R57 does not say whether it counts as ended: that it does not, so that the early window opens at the BEACON_END row alone, also
when the last beacon of the cycle was abandoned, is a DESIGN CHOICE, log 56. -/
def stopDriving (g : Seg) (s : State) : State := setSeg g { getSeg s g with beacon := none } s

/-! ### Seal (R29, R159 steps 1 to 4) -/

/-- What the walker still has in hand when it makes no further decision: a turn whose exchange is in the engine. -/
def handAtSeal : Hand → Hand
  | .turn t => if t.phase = .exchanging then .turn t else .nothing
  | _ => .nothing

/-- Seals the controller, steps 2 to 4 of R159; steps 5 to 7 are SEAL_COMPLETION's. -/
def sealNow (s : State) : State :=
  let s := orphanWrite (cancelAllReads { s with stage := { buf := .empty, waiting := none } })
  wakeWalker (setEdge irqSeq
    { s with
      seq := { s.seq with state := .sealed, sealPending := true,
                          restartFaulted := s.seq.restartFaulted || s.seq.restartInHand },
      walk := { s.walk with hand := handAtSeal s.walk.hand, look := .nothing } })

/-- A host-memory fault (R13, R29, R79): offered to the Host Log in every state, it seals the controller in READY, ARMED,
RUNNING and STOPPING; in SEALED it is only logged, and a RESTART in hand ends SEALED (R24); in OFFLINE it is only
logged (R14). -/
def hostFault (code : BitVec 8) (kind : BitVec 4) (addr : Word) (s : State) : State :=
  let s := offerHost code kind addr s
  match s.seq.state with
  | .offline => s
  | .sealed => { s with seq := { s.seq with restartFaulted := s.seq.restartFaulted || s.seq.restartInHand } }
  | _ => sealNow s

/-- The fault of an access: one that an OFFLINE left outstanding is logged and does not seal, also once the controller is
configured again or a RESTART waits for it (R14, R25): DEDUCED, log 41. -/
def accessFault (left : Bool) (code : BitVec 8) (kind : BitVec 4) (addr : Word) (s : State) : State :=
  if left then offerHost code kind addr s else hostFault code kind addr s

/-! ### The power-on reset input (R8) -/

/-- While the power-on reset input is asserted nothing acts (R8, log 34). -/
def unlessHeld (f : State → State) (s : State) : State := if s.hport.heldInReset then s else f s

end Sys2Proof.Machine
end

