-- ==== Sys2Proof/Machine/Direct.lean ====
section
/-! DEFINITION. The Direct Access Unit (Chapter 9): requests, locks, completions, outcomes, flush, and its register
accesses. -/

namespace Sys2Proof.Machine

/-! ### Requests (R133 to R135) -/

/-- A PEEK on the Pending list whose range holds the Bank byte: the byte is locked (R135). -/
def locked (d : Direct) (i : Nat) : Bool := d.pending.any (fun r => !r.poke && inRange r i)

/-- The range shares a byte with the range of a pending PEEK (R134 check 4). -/
def overlapsPeek (d : Direct) (off : BitVec 6) : Bool :=
  d.pending.any (fun r => !r.poke && overlaps off.toNat (rangeLen off) r.offset.toNat r.len)

/-- The checks of R134, in order; none accepts. -/
def rejectOf (s : State) (entry : EntryIx) (off : BitVec 6) : RejectReason :=
  if s.seq.state ≠ .armed ∧ s.seq.state ≠ .running ∧ s.seq.state ≠ .stopping then .notRunning
  else if Config.directListSize ≤ s.dau.pending.length then .full
  else if entry = 0 ∨ (getEntry s entry).valid = false then .badEntry
  else if overlapsPeek s.dau off then .overlap
  else .none

/-- `n` Bank bytes from an offset, as the snapshot of a POKE takes them (R135). -/
def bankBytes (s : State) (off : BitVec 6) (n : Nat) : List Byte := (s.dau.bank.toList.drop off.toNat).take n

/-- The record an accepted request becomes (R135). -/
def requestRecord (poke : Bool) (entry : EntryIx) (off : BitVec 6) (tag : BitVec 4) (s : State) : DirReq :=
  { poke := poke, entry := entry, offset := off, len := rangeLen off, tag := tag, regnum := s.dau.arg, tries := 0,
    defers := 0, data := if poke then bankBytes s off (rangeLen off) else [] }

/-- A 32-bit write of DIRECT_REQ (R134, R135, R142); an accepted one is an event of R95. -/
def directRequest (poke : Bool) (entry : EntryIx) (off : BitVec 6) (tag : BitVec 4) (s : State) : State :=
  match rejectOf s entry off with
  | .none => wakeWalker { s with dau := { s.dau with pending := s.dau.pending ++ [requestRecord poke entry off tag s] } }
  | reason => { s with dau := { s.dau with rejectReason := reason, rejected := true } }

/-! ### Completion (R140) -/

/-- Writes bytes into the Bank from an offset; a byte past the end of the Bank has nowhere to go. -/
def putBank (bank : Vector Byte 64) (off : Nat) : List Byte → Vector Byte 64
  | [] => bank
  | b :: rest => putBank (bank.setIfInBounds off b) (off + 1) rest

/-- The Bank after a PEEK completes (R140 step 1): its d bytes on OK; on any other status 0xFF bytes over the range if
fill is 1. A POKE writes nothing. -/
def bankAfter (s : State) (r : DirReq) (st : DirStatus) (bytes : List Byte) : Vector Byte 64 :=
  if r.poke then s.dau.bank
  else if st = .ok then putBank s.dau.bank r.offset.toNat bytes
  else if s.hport.fill then putBank s.dau.bank r.offset.toNat (List.replicate r.len 0xFF)
  else s.dau.bank

/-- The byte count of a Done record (R140). -/
def doneCount (r : DirReq) (st : DirStatus) (bytes : List Byte) : Nat :=
  if st = .ok then (if r.poke then r.len else bytes.length) else 0

/-- The front request completes (R140): Bank, unlock, Done record. -/
def completeDirect (st : DirStatus) (bytes : List Byte) (s : State) : State :=
  match s.dau.pending with
  | [] => s
  | r :: rest =>
    { s with dau := { s.dau with
        bank := bankAfter s r st bytes, pending := rest,
        done := s.dau.done ++ [{ poke := r.poke, tag := r.tag, status := st, count := doneCount r st bytes }] } }

/-- The test of the front request (R138); none: it may be given an exchange. -/
def frontTest (s : State) (r : DirReq) : Option DirStatus :=
  let e := getEntry s r.entry
  if e.fenceGranted then some .fenced
  else if !usableDirect e then some .failed
  else if (getSeg s e.segment).quarantined then some .quarantined
  else if (getSeg s e.segment).mode ≠ .enabled then some .notReady
  else none

/-- The front record with changed counts. -/
def setFront (f : DirReq → DirReq) (s : State) : State :=
  match s.dau.pending with
  | [] => s
  | r :: rest => { s with dau := { s.dau with pending := f r :: rest } }

/-- What DAU does with the outcome of a direct exchange (R139). -/
def directOutcome (o : XOutcome) (bytes : List Byte) (s : State) : State :=
  match s.dau.pending with
  | [] => s
  | r :: _ =>
    match o with
    | .success => completeDirect .ok bytes s
    | .deferred =>
      if r.defers + 1 = 16 then completeDirect .deferLimit [] s
      else setFront (fun q => { q with defers := q.defers + 1 }) s
    | .silence =>
      if r.tries + 1 = 3 then completeDirect .failed [] s
      else setFront (fun q => { q with tries := q.tries + 1 }) s
    | .corrupt =>
      if r.tries + 1 = 3 then completeDirect .failed [] s
      else setFront (fun q => { q with tries := q.tries + 1 }) s
    | .garbled => completeDirect .failed [] s
    | .overlong => completeDirect .failed [] s
    | .unsolicited => completeDirect .failed [] s
    | .refused => completeDirect .refused [] s
    | _ => s

/-! ### Flush and emptying (R143, R144) -/

/-- The flush at a seal (R143): records complete SEALED while the Done list has room, the rest are removed. -/
def sealFlush (s : State) : Nat → State
  | 0 => s
  | n + 1 =>
    if s.dau.pending.isEmpty then s
    else if s.dau.done.length < Config.directListSize then sealFlush (completeDirect .sealed [] s) n
    else { s with dau := { s.dau with pending := [], directFlushed := true } }

/-- RESTART and OFFLINE empty both lists (R144). -/
def emptyLists (s : State) : State :=
  { s with dau := { s.dau with
      directFlushed := s.dau.directFlushed || !(s.dau.pending.isEmpty && s.dau.done.isEmpty),
      pending := [], done := [] } }

/-! ### Register accesses -/

/-- A host write of one Bank byte: dropped if it is locked (R136). -/
def writeBankByte (i : Nat) (b : Byte) (s : State) : State :=
  if locked s.dau i then { s with dau := { s.dau with bankWriteDropped := true } }
  else { s with dau := { s.dau with bank := s.dau.bank.setIfInBounds i b } }

/-- `n` bytes from an offset, the low byte of the value first (1.1). -/
def writeBankBytes (i : Nat) (v : BitVec 64) (s : State) : Nat → State
  | 0 => s
  | n + 1 => writeBankBytes (i + 1) (v >>> 8) (writeBankByte i (v.setWidth 8) s) n

/-- A write of a Bank offset (R5): misaligned halfwords and words are ignored; a wider access is two words (R1). -/
def writeBank (off : Nat) (w : Width) (v : BitVec 64) (s : State) : State :=
  match w with
  | .byte => writeBankBytes off v s 1
  | .half => if off % 2 = 0 then writeBankBytes off v s 2 else s
  | .word => if off % 4 = 0 then writeBankBytes off v s 4 else s
  | .dword => if off % 4 = 0 then writeBankBytes off v s 8 else s

/-- A 32-bit write of DIRECT_STATUS (R142). -/
def writeDirectStatus (v : Word) (s : State) : State :=
  { s with dau := { s.dau with
      rejectReason := if bitAt v 4 && s.dau.rejected then .none else s.dau.rejectReason,
      rejected := s.dau.rejected && !bitAt v 4,
      bankWriteDropped := s.dau.bankWriteDropped && !bitAt v 5,
      directFlushed := s.dau.directFlushed && !bitAt v 6 } }

/-- A 32-bit read of DIRECT_DONE (R141); a pop that makes room in a full list is an event of R95. -/
def popDone (s : State) : State :=
  match s.dau.done with
  | [] => { s with hport := { s.hport with readData := 0 } }
  | r :: rest =>
    let t := { s with hport := { s.hport with readData := doneWord r }, dau := { s.dau with done := rest } }
    if Config.directListSize ≤ s.dau.done.length then wakeWalker t else t

/-! ### The rows -/

/-- PEEK_REQUEST. -/
def execPeekRequest (entry off : BitVec 6) (tag : BitVec 4) (s : State) : Host.Outcome State Fault Refusal :=
  .next (unlessHeld (directRequest false entry off tag) s)

/-- POKE_REQUEST. -/
def execPokeRequest (entry off : BitVec 6) (tag : BitVec 4) (s : State) : Host.Outcome State Fault Refusal :=
  .next (unlessHeld (directRequest true entry off tag) s)

/-- DIRECT_STATUS_WRITE. -/
def execDirectStatusWrite (v : Word) (s : State) : Host.Outcome State Fault Refusal :=
  .next (unlessHeld (writeDirectStatus v) s)

/-- The value a read returns while the power-on reset input is asserted is 0 (R8). -/
def heldRead (s : State) : State := { s with hport := { s.hport with readData := 0 } }

/-- DIRECT_DONE_POP. -/
def execDirectDonePop (s : State) : Host.Outcome State Fault Refusal :=
  .next (if s.hport.heldInReset then heldRead s else popDone s)

/-- BANK_WRITE. -/
def execBankWrite (off : BitVec 6) (w : Width) (v : BitVec 64) (s : State) : Host.Outcome State Fault Refusal :=
  .next (unlessHeld (writeBank off.toNat w v) s)

end Sys2Proof.Machine
end

