-- ==== Sys2Proof/Machine/Attention.lean ====
section
/-! DEFINITION. The register accesses of the Attention and Interrupt Unit and of the Error Logs (Chapter 10). -/

namespace Sys2Proof.Machine

/-- A 32-bit read of ATTN_POP (R147). -/
def popAttn (s : State) : State :=
  match s.aiu.queue with
  | [] => { s with hport := { s.hport with readData := 0 } }
  | r :: rest =>
    { s with hport := { s.hport with readData := attnWord r },
             aiu := { s.aiu with queue := rest, attnHead := r.head } }

/-- A 32-bit write of ATTN_STATUS (R148). -/
def writeAttnStatus (v : Word) (s : State) : State :=
  if bitAt v 16 then { s with aiu := { s.aiu with overflow := false, lost := 0 } } else s

/-- A 32-bit write of IRQ_PENDING (R149): the edge bits written 1 are cleared; the level bits are not held. -/
def writeIrqPending (v : Word) (s : State) : State :=
  { s with aiu := { s.aiu with edges := s.aiu.edges &&& ~~~(field v 0 11) } }

/-- A 32-bit write of IRQ_MASK (R150). -/
def writeIrqMask (v : Word) (s : State) : State := { s with aiu := { s.aiu with mask := field v 0 11 } }

/-- The Bus Log's part of a write of LOG_CTL (R154): a wipe under a permit clears the log and the permit; otherwise the
permit takes the written value. -/
def busCtl (permit wipe : Bool) (l : ErrorLogs) : ErrorLogs :=
  if wipe && l.busPermit then
    { l with busCode := 0, busOverflow := false, busSegment := 0, busEntry := 0, busCycle := 0, busPermit := false }
  else { l with busPermit := permit }

/-- The Host Log's part (R154). -/
def hostCtl (permit wipe : Bool) (l : ErrorLogs) : ErrorLogs :=
  if wipe && l.hostPermit then
    { l with hostCode := 0, hostOverflow := false, hostKind := 0, hostAddr := 0, hostPermit := false }
  else { l with hostPermit := permit }

/-- A 32-bit write of LOG_CTL (R154). -/
def writeLogCtl (v : Word) (s : State) : State :=
  { s with elog := hostCtl (bitAt v 4) (bitAt v 5) (busCtl (bitAt v 0) (bitAt v 1) s.elog) }

/-- ATTN_POP. -/
def execAttnPop (s : State) : Host.Outcome State Fault Refusal :=
  .next (if s.hport.heldInReset then heldRead s else popAttn s)

/-- ATTN_STATUS_WRITE. -/
def execAttnStatusWrite (v : Word) (s : State) : Host.Outcome State Fault Refusal :=
  .next (unlessHeld (writeAttnStatus v) s)

/-- IRQ_PENDING_WRITE. -/
def execIrqPendingWrite (v : Word) (s : State) : Host.Outcome State Fault Refusal :=
  .next (unlessHeld (writeIrqPending v) s)

/-- IRQ_MASK_WRITE. -/
def execIrqMaskWrite (v : Word) (s : State) : Host.Outcome State Fault Refusal :=
  .next (unlessHeld (writeIrqMask v) s)

/-- BUS_WIPE: a write of LOG_CTL with bus_wipe = 1. -/
def execBusWipe (v : Word) (s : State) : Host.Outcome State Fault Refusal :=
  .next (unlessHeld (writeLogCtl (v ||| 0x02#32)) s)

/-- HOST_WIPE: a write of LOG_CTL with host_wipe = 1. -/
def execHostWipe (v : Word) (s : State) : Host.Outcome State Fault Refusal :=
  .next (unlessHeld (writeLogCtl (v ||| 0x20#32)) s)

end Sys2Proof.Machine
end

