-- ==== Sys2Proof/Machine/Reset.lean ====
section
/-! DEFINITION. Hard reset and the power-on reset input (R8). -/

namespace Sys2Proof.Machine

/-- A hard reset (R8, 11.5): every field takes its hard-reset value, the filtered bias the sensed level (R34). The
commands still waiting outside, and the model's own count of free values, go on. -/
def hardReset (pinA pinB : Bool) (s : State) : State :=
  { State.afterReset pinA pinB with pending := s.pending, freeDraws := s.freeDraws }

/-- The power-on reset input is asserted (R8): the controller is held in reset. -/
def assertReset (s : State) : State :=
  let r := hardReset s.segA.biasPin s.segB.biasPin s
  { r with hport := { r.hport with heldInReset := true } }

/-- POWER_ON_RESET_ASSERTED. -/
def execPowerOnResetAsserted (s : State) : Host.Outcome State Fault Refusal := .next (assertReset s)

/-- POWER_ON_RESET: the input is released, and the controller is as after a hard reset (R8). -/
def execPowerOnReset (pinA pinB : Bool) (s : State) : Host.Outcome State Fault Refusal :=
  .next (hardReset pinA pinB s)

/-- HARD_RESET: a write, which the held controller ignores (R8). -/
def execHardReset (pinA pinB : Bool) (s : State) : Host.Outcome State Fault Refusal :=
  .next (unlessHeld (hardReset pinA pinB) s)

end Sys2Proof.Machine
end

