-- ==== Sys2Proof/Machine/Staging.lean ====
section
/-! DEFINITION. The staging buffer (7.9): requests for fills and their completion. -/

namespace Sys2Proof.Machine

def setStage (b : StageBuf) (w : Option FillReq) (s : State) : State := { s with stage := { buf := b, waiting := w } }

/-- A fill that needs no host access: a length of 0, or a POKE's snapshot. It is STAGED at once, and a fill in flight
completes into nothing (R117, log 17). R117 does not say what becomes of the request that waits for the end of that fill: it
is dropped, and a later decision or look-ahead makes it again: DESIGN CHOICE, log 59. -/
def stageNow (tag : StageTag) (bytes : List Byte) (s : State) : State :=
  setStage (.staged tag bytes) none (cancelReads (fun r => r == .staging) s)

/-- The buffer becomes FILLING and the data fetch is issued (R117, R11). -/
def startFill (q : FillReq) (s : State) : State :=
  setStage (.filling (some q.tag)) none (requestRead 4 q.addr q.len .staging s)

/-- A request for a fill (R117). -/
def requestFill (q : FillReq) (s : State) : State :=
  match s.stage.buf with
  | .empty => if q.len = 0 then stageNow q.tag [] s else startFill q s
  | .staged t _ => if t = q.tag then s else if q.len = 0 then stageNow q.tag [] s else startFill q s
  | .filling t =>
    if t = some q.tag then s
    else if q.len = 0 then stageNow q.tag [] s
    else if s.stage.waiting.map FillReq.tag = some q.tag then s
    else { s with stage := { s.stage with waiting := some q } }

/-- The buffer is STAGED with this tag: the packet is ready (R117). -/
def stagedFor (tag : StageTag) (s : State) : Bool :=
  match s.stage.buf with
  | .staged t _ => t == tag
  | _ => false

/-- The waiting request, if any, is served when the fill in progress ends (R117), and so drops the packet that this fill has just
STAGED, though R119 has its candidate found with it at the decision that follows: DEDUCED, log 66. -/
def serveWaiting (s : State) : State :=
  match s.stage.waiting with
  | some q => startFill q s
  | none => s

/-- The front read of the read channel is a data fetch of this many bytes. -/
def frontRead (s : State) : Option ReadReq := s.hport.reads.head?

/-- The front read has completed and leaves the stream (R12). -/
def popRead (s : State) : State := { s with hport := { s.hport with reads := s.hport.reads.tail } }

/-- STAGING_FILL_DONE (R117): the data fetch at the front of the read channel returns its bytes. Bytes of another
number than asked for cannot arrive (R11, log 37). -/
def stagingFillDone (bytes : List Byte) (s : State) : State :=
  match frontRead s with
  | none => s
  | some r =>
    if r.kind = 4 ∧ r.len = bytes.length then
      match r.reader, s.stage.buf with
      | .staging, .filling (some t) => wakeWalker (serveWaiting { popRead s with stage := { s.stage with buf := .staged t bytes } })
      | .staging, .filling none => wakeWalker (serveWaiting { popRead s with stage := { s.stage with buf := .empty } })
      | _, _ => popRead s
    else s

/-- The fill with this tag was asked for a periodic head that is not served this cycle: if it still waits at the next cycle
start, it is dropped (R119). -/
def markLate (tag : StageTag) (s : State) : State :=
  { s with stage := { s.stage with
      waiting := s.stage.waiting.map (fun q => if q.tag = tag then { q with late := true } else q) } }

/-- What a cycle start does to the buffer (R117): a STAGED packet is dropped, a fill in flight completes into nothing, and
the request that waits for its end goes on waiting, unless it was made for a late periodic head (R119). -/
def stageAtCycleStart (s : State) : State :=
  match s.stage.buf with
  | .filling _ => setStage (.filling none) (s.stage.waiting.filter (fun q => !q.late)) s
  | _ => setStage .empty none s

/-- STAGING_FILL_DONE. -/
def execStagingFillDone (bytes : List Byte) (s : State) : Host.Outcome State Fault Refusal :=
  .next (unlessHeld (stagingFillDone bytes) s)

end Sys2Proof.Machine
end

