-- ==== Sys2Proof/Machine/WriteQueue.lean ====
section
/-! DEFINITION. The Write Queue at work and the receive ring (Chapter 8): what the front item does next, what performing
an item releases, and the register writes that configure the ring. -/

namespace Sys2Proof.Machine

/-! ### The front item (R125 to R127) -/

/-- The Write Queue performs its items in READY, ARMED, RUNNING and STOPPING (R16, R127), and begins nothing while a
RESTART is in hand (R24 step 2). A receive packet item that comes to need a descriptor at free count 0 in that time begins
no wait either, so RXLOW is not set for it (R126): DESIGN CHOICE, log 49. -/
def queueActive (s : State) : Bool :=
  match s.seq.state with
  | .offline => false
  | .sealed => false
  | _ => !s.seq.restartInHand

/-- The free count, (RX_RETURN − RX_FILL) mod size (8.2). -/
def freeCount (r : Receive) : Nat := (r.ret.toNat + (r.size.toNat - r.fill.toNat % r.size.toNat)) % r.size.toNat

/-- The address of the descriptor at RX_FILL (R124). -/
def descAddr (r : Receive) : Word := r.base + 16 * r.fill.setWidth 32

/-- The bytes of the front packet that are still in the FIFO (R120). -/
def frontPacket (r : Receive) : List Byte := r.fifo.headD []

def setDrain (d : Drain) (s : State) : State := { s with wq := { s.wq with drain := d } }

/-- The front item is begun (R127). -/
def beginItem (s : State) : State := { s with wq := { s.wq with started := true } }

/-- Issues a write of the Write Queue on the write channel (R12). -/
def issueWrite (kind : BitVec 4) (addr : Word) (bytes : List Byte) (s : State) : State :=
  beginItem { s with hport := { s.hport with write := some { kind := kind, addr := addr, bytes := bytes, live := true } } }

/-- Fetches the descriptor at RX_FILL (R125 step 2). -/
def fetchDescriptor (s : State) : State :=
  setDrain .fetching (beginItem (requestRead 3 (descAddr s.rx) 16 .descriptor s))

/-- Writes back the descriptor that was fetched, after n bytes (R124, R125 step 4). -/
def writeBack (desc : Word) (len : Nat) (entry : EntryIx) (c : RingClass) (cycle : BitVec 16) (endXfer : Bool) (n : Nat)
    (s : State) : State :=
  let endPkt := (frontPacket s.rx).length == n
  setDrain (.writingBack n)
    (issueWrite 9 (desc + 8)
      (wordBytes (descW2 n entry endPkt (endPkt && endXfer) (len == 0) c) ++ wordBytes (descW3 cycle)) s)

/-- The next step of a receive packet item at the front (R125, R126). -/
def drainStep (len : Nat) (entry : EntryIx) (c : RingClass) (cycle : BitVec 16) (endXfer : Bool) (s : State) : State :=
  match s.wq.drain with
  | .needs => if freeCount s.rx = 0 then setEdge irqRxlow (setDrain .waits s) else fetchDescriptor s
  | .waits => if freeCount s.rx = 0 then s else fetchDescriptor s
  | .holds desc buffer size =>
    if s.hport.write.isSome then s
    else
      let n := min size (frontPacket s.rx).length
      if n = 0 then writeBack desc len entry c cycle endXfer 0 s
      else setDrain (.writing desc n) (issueWrite 8 buffer ((frontPacket s.rx).take n) s)
  | .written desc n => if s.hport.write.isSome then s else writeBack desc len entry c cycle endXfer n s
  | _ => s

/-- The one write of a one-write item: kind code, address, word (R127). -/
def itemWrite : WqItem → BitVec 4 × Word × Word
  | .packet _ _ _ _ _ => (0, 0, 0)
  | .segment record word _ _ _ _ _ _ => (5, record + 12, word)
  | .link head word _ => (6, head + 8, word)
  | .status head word _ _ _ _ _ => (7, head + 12, word)

/-- The Write Queue's next access, if one is due: items are performed strictly from the front, one at a time (R127). -/
def pumpQueue (s : State) : State :=
  if queueActive s then
    match s.wq.items with
    | [] => s
    | .packet len entry c cycle endXfer :: _ => drainStep len entry c cycle endXfer s
    | i :: _ =>
      if s.wq.started || s.hport.write.isSome then s
      else issueWrite (itemWrite i).1 (itemWrite i).2.1 (wordBytes (itemWrite i).2.2) s
  else s

/-! ### Performing an item (R128) -/

/-- A segment write-back releases MISS, COMPLETE and DONE (R98). -/
def releaseSegment (code : RecCode) (endXfer notify : Bool) (c : RingClass) (entry : EntryIx) (head : Word)
    (s : State) : State :=
  let s := if code = .missed then offerAttn .miss c entry head s else s
  let s := if notify then offerAttn .complete c entry head s else s
  if endXfer || notify then setEdge (irqDone c) s else s

/-- A head status write releases VISIT and then the stop cause (R98). -/
def releaseStatus (c : RingClass) (entry : EntryIx) (visit : Bool) (stop : Option Cause) (head : Word)
    (s : State) : State :=
  let s := if visit then offerAttn .visit c entry head s else s
  match stop with
  | some cause => offerAttn cause c entry head s
  | none => s

/-- The reports an item carries (R98, R128). -/
def releaseReports (i : WqItem) (s : State) : State :=
  match i with
  | .packet _ _ _ _ _ => s
  | .segment _ _ code endXfer notify c entry head => releaseSegment code endXfer notify c entry head s
  | .link _ _ _ => s
  | .status head _ c entry visit stop _ => releaseStatus c entry visit stop head s

/-- The front item leaves the queue. -/
def popItem (s : State) : State :=
  { s with wq := { s.wq with items := s.wq.items.tail, started := false, drain := .needs } }

/-- RX_FILL advances by 1, wrapping from size − 1 to 0 (R123). -/
def nextFill (r : Receive) : BitVec 10 := if r.fill.toNat + 1 < r.size.toNat then r.fill + 1 else 0

/-- A descriptor write-back has been performed (R125 step 5): RX_FILL advances, the bytes leave the FIFO, and the item
is performed if none remain. -/
def descriptorDone (n : Nat) (s : State) : State :=
  let left := (frontPacket s.rx).drop n
  if left.isEmpty then
    wakeWalker (popItem { s with rx := { s.rx with fill := nextFill s.rx, fifo := s.rx.fifo.tail } })
  else
    setDrain .needs { s with rx := { s.rx with fill := nextFill s.rx, fifo := left :: s.rx.fifo.tail } }

/-- The outstanding write of the front item has completed normally (R12, R125, R128). -/
def writePerformed (s : State) : State :=
  match s.wq.items with
  | [] => s
  | .packet _ _ _ _ _ :: _ =>
    match s.wq.drain with
    | .writing desc n => setDrain (.written desc n) s
    | .writingBack n => descriptorDone n s
    | _ => s
  | i :: _ => wakeWalker (releaseReports i (popItem s))

/-- HOST_WRITE_COMPLETE (R12): the write's item goes on or is performed, and the next write is issued. A write that no
longer counts (R14) releases nothing; between the two parts of a seal its one-write item, which the write completed, leaves
the queue without a report (R131, log 25). A descriptor write-back that completes after a seal or an OFFLINE advances neither
RX_FILL nor the FIFO, and its packet counts as abandoned (R14, R123, R131): DESIGN CHOICE, log 50. -/
def hostWriteComplete (s : State) : State :=
  match s.hport.write with
  | none => s
  | some w =>
    let s := { s with hport := { s.hport with write := none } }
    if w.live then pumpQueue (writePerformed s)
    else if s.seq.sealPending && s.wq.started && !(s.wq.items.head?.map isPacket).getD true then popItem s
    else pumpQueue s

/-- The fetch of the descriptor at `desc` has returned (R124). -/
def descriptorReturned (desc : Word) (r : Rec) (s : State) : State :=
  match s.wq.drain with
  | .fetching => pumpQueue (setDrain (.holds desc r.w0 (descSize r.w1)) s)
  | _ => s

/-! ### The ring registers (R122, R123) -/

/-- The first two tests of R122. -/
def ringConfigurable (s : State) : Bool :=
  (s.seq.state == .offline || s.seq.state == .ready) && !s.wq.items.any isPacket

/-- RX_CONFIG_REFUSED with the offset of the register (R122, R123). -/
def refuseRxConfig (off : Word) (s : State) : State := offerHost codeRxConfigRefused 0 off s

/-- A 32-bit write of RX_RING_BASE (R122); the present value is always accepted. -/
def writeRxBase (v : Word) (s : State) : State :=
  if ringConfigurable s && aligned v || v == s.rx.base then { s with rx := { s.rx with base := v } } else refuseRxConfig 0x050 s

/-- The eight sizes of 8.2. -/
def rxSizeOf (v : Word) : Option (BitVec 11) :=
  if v = 8 ∨ v = 16 ∨ v = 32 ∨ v = 64 ∨ v = 128 ∨ v = 256 ∨ v = 512 ∨ v = 1024 then some (v.setWidth 11) else none

/-- A 32-bit write of RX_RING_SIZE (R122); the field is bits 10..0 (8.2), the bits above are reserved (R2). The present
size is accepted in every state, and clears the indices too, also under a packet being drained (DEDUCED: log 40). -/
def writeRxSize (v : Word) (s : State) : State :=
  match rxSizeOf ((field v 0 11).setWidth 32) with
  | some n =>
    if ringConfigurable s || n == s.rx.size then { s with rx := { s.rx with size := n, fill := 0, ret := 0 } }
    else refuseRxConfig 0x054 s
  | none => refuseRxConfig 0x054 s

/-- A 32-bit write of RX_RETURN (R123); it may end a descriptor wait (R126). -/
def writeRxReturn (v : Word) (s : State) : State :=
  if (field v 0 10).toNat < s.rx.size.toNat then pumpQueue { s with rx := { s.rx with ret := field v 0 10 } }
  else refuseRxConfig 0x05C s

/-! ### The rows -/

/-- HOST_WRITE_COMPLETE. -/
def execHostWriteComplete (s : State) : Host.Outcome State Fault Refusal := .next (unlessHeld hostWriteComplete s)

/-- RX_RING_BASE_WRITE. -/
def execRxRingBaseWrite (v : Word) (s : State) : Host.Outcome State Fault Refusal :=
  .next (unlessHeld (writeRxBase v) s)

/-- RX_RING_SIZE_WRITE. -/
def execRxRingSizeWrite (v : Word) (s : State) : Host.Outcome State Fault Refusal :=
  .next (unlessHeld (writeRxSize v) s)

/-- RX_RETURN_WRITE. -/
def execRxReturnWrite (v : Word) (s : State) : Host.Outcome State Fault Refusal :=
  .next (unlessHeld (writeRxReturn v) s)

end Sys2Proof.Machine
end

