-- ==== Sys2Proof/Machine/Walker.lean ====
section
/-! DEFINITION. The Schedule Walker (Chapter 6): traversals, the work test, passes, rotations, decisions, the candidate's
start rule and staging, look-ahead, finishing a record, skip steps and bursts. -/

namespace Sys2Proof.Machine

/-! ### Traversals (R79, R96, 6.9) -/

def stageClass : Stage → RingClass
  | .pass c => c
  | .search c _ => c

/-- A link that cannot be followed (R79). -/
def badLink (w : Word) : Bool := w == 0 || !aligned w

/-- What looking for the next head to fetch comes to: a head (with the head whose link led there), the end of the
traversal (a pass complete, or a ring without work at this decision), a broken ring, or a closed chain of heads none of
which may be fetched (log 12). -/
inductive Found where
  | head (k : Seek) (prev : Option Word)
  | ended (rot : Rotation)
  | broken (addr : Word)
  | stalled

/-- The traversal ends where the link leads (R96, 6.9; log 13): a pass and a high search at the latched anchor unless
they begin there, a low search at the head it began at. -/
def endsAt (s : State) (k : Seek) (prev : Option Word) (next : Word) : Bool :=
  match k.stage with
  | .pass c => prev.isSome && next == latchedAnchor s c
  | .search c .high => prev.isSome && next == latchedAnchor s c
  | .search c .second => prev.isSome && next == latchedAnchor s c
  | .search _ .low => k.start == some next

/-- Where a search begins: after the cursor, or at the latched anchor (R96). -/
def searchFrom (anchor : Word) : Option Cursor → Option Word × Word
  | some u => (some u.head, u.link)
  | none => (none, anchor)

/-- The seek for a search that is about to make its first fetch. -/
def newSearch (c : RingClass) (n : Search) (rot : Rotation) (firstEmpty : Bool) : Seek :=
  { stage := .search c n, start := none, fetched := 0, cur := 0, rot := rot, firstEmpty := firstEmpty }

/-- Follows links from `next` (reached from `prev`) to the next head to fetch. A head with a pending head link update or
head status write is passed over unfetched (test 1 of R83; log 12). The bound only cuts a closed chain of such heads. -/
def traverse (s : State) : Nat → Seek → Option Word → Word → Found
  | 0, _, _, _ => .stalled
  | n + 1, k, prev, next =>
    if prev.isSome && badLink next then .broken (prev.getD 0)
    else if endsAt s k prev next then
      match k.stage with
      | .pass _ => .ended k.rot
      | .search c .high =>
        let rot := { k.rot with high := none, lowTurn := true }
        let p := searchFrom (latchedAnchor s c) rot.low
        traverse s n (newSearch c .low rot k.firstEmpty) p.1 p.2
      | .search c .low =>
        let rot := { k.rot with lowTurn := false }
        if k.firstEmpty then .ended rot
        else traverse s n (newSearch c .second rot k.firstEmpty) none (latchedAnchor s c)
      | .search _ .second => .ended { k.rot with high := none, lowTurn := true }
    else if Config.traversalLimit ≤ k.fetched then .broken (k.start.getD next)
    else
      let k := { k with start := some (k.start.getD next), cur := next }
      match pendingHeadLink s next with
      | some w => traverse s n k (some next) w
      | none => .head { k with fetched := k.fetched + 1 } prev

/-- Enough steps for 32 pending items in each of three searches. -/
def traverseBound : Nat := 128

/-- A decision's searches of a ring's rotation (R96); an anchor of 0 means no turn and no fetch (R78). -/
def beginRing (s : State) (c : RingClass) : Found :=
  let rot := getRot s c
  if latchedAnchor s c = 0 then .ended rot
  else if rot.lowTurn then
    let p := searchFrom (latchedAnchor s c) rot.low
    traverse s traverseBound (newSearch c .low rot false) p.1 p.2
  else
    let p := searchFrom (latchedAnchor s c) rot.high
    traverse s traverseBound (newSearch c .high rot rot.high.isNone) p.1 p.2

/-- The seek of a pass that has fetched so many heads. -/
def passSeek (c : RingClass) (start : Option Word) (fetched : Nat) : Seek :=
  { stage := .pass c, start := start, fetched := fetched, cur := 0, rot := Rotation.empty, firstEmpty := false }

/-- A pass begun at the latched anchor (6.9); an anchor of 0 makes it empty (R78). -/
def freshPass (s : State) (c : RingClass) : Found :=
  if latchedAnchor s c = 0 then .ended Rotation.empty
  else traverse s traverseBound (passSeek c none 0) none (latchedAnchor s c)

/-- A pass begun at the latched anchor or taken up at its position (6.9). -/
def beginPass (s : State) (c : RingClass) : Found :=
  match s.walk.pass with
  | some p => traverse s traverseBound (passSeek c p.start p.fetched) p.prev p.next
  | none => freshPass s c

/-! ### The work test (R83) -/

inductive Verdict where
  | work
  | over
  | stop (cause : Cause)
  deriving DecidableEq, Repr

/-- Tests 4 to 9 of R83. -/
def testEntry (s : State) (c : RingClass) (h : Rec) : Verdict :=
  let e := getEntry s (headEntry h)
  if e.fenceGranted then .over
  else if !aligned h.w2 then .stop .badLink
  else if headEntry h == 0 || !usableFor c e then .stop .badEntry
  else if e.halted then .stop .stationHalted
  else if !segOpen s e.segment then .over
  else if recordPending s h.w2 then .over
  else .work

/-- Tests 2 to 9 of R83. -/
def workTest (s : State) (c : RingClass) (h : Rec) : Verdict :=
  if !headEnabled h || headStopped h || h.w2 == 0 then .over else testEntry s c h

/-- The head is one this traversal may serve at all: eligible in a TIMED pass (R93), of the search's priority (R96,
log 15). -/
def suits (s : State) (k : Seek) (h : Rec) : Bool :=
  match k.stage with
  | .pass .timed => eligible s.ctim.number h
  | .pass _ => true
  | .search _ .low => !headHigh h
  | .search _ _ => headHigh h

/-- The turn begins with skip steps (R89); STREAM never skips. -/
def skipsFirst (c : RingClass) (h : Rec) : Bool := headSkipping h && c != .stream

/-- The slots of test 10 (R129). -/
def stepSlots (c : RingClass) (h : Rec) : Nat := if skipsFirst c h then 2 else 4

/-! ### Packets (R86, R88, R117) -/

/-- The progress of the record in the entry's slot (R85): bytes done, and whether only the tail remains. -/
def progressOf (s : State) (h r : Rec) : Nat × Bool :=
  match slotFor s (headEntry h) h.w2 (recKind r) with
  | some sl => (sl.progress, sl.tailOnly)
  | none => (0, false)

/-- The next exchange of a record at a progress, P being the maximum payload (R86, R88). -/
def planRequest (p : Nat) (r : Rec) (progress : Nat) (tailOnly : Bool) : Request :=
  match recKind r with
  | .pull => .pull (min p (recLength r - progress))
  | .open => .open
  | _ => if tailOnly || pushLength r == 0 then .push 0 else .push (min p (pushLength r - progress))

/-- The packet is a zero-length tail (R86). -/
def planTail (r : Rec) (tailOnly : Bool) : Bool :=
  match recKind r with
  | .pull => false
  | .open => false
  | _ => tailOnly || pushLength r == 0

/-- The fill a request needs, if it sends a packet from the staging buffer (R117). -/
def fillFor (q : Request) (entry : EntryIx) (record buffer : Word) (progress : Nat) : Option FillReq :=
  match q with
  | .push n => some { tag := .packet entry record progress n, addr := buffer + BitVec.ofNat 32 progress, len := n }
  | .open => some { tag := .packet entry record progress 8, addr := buffer + BitVec.ofNat 32 progress, len := 8 }
  | _ => none

/-- The start rule (R60): the estimate is no greater than CYCLE_REMAIN minus the sampled LATE_MARK. -/
def startRule (s : State) (q : Request) (g : Seg) : Bool :=
  decide (estimateTicks q (getSeg s g) + s.ctim.markSampled.toNat ≤ s.ctim.remain.toNat)

/-! ### What a SUCCESS makes of a record (R86, R94) -/

/-- What a SUCCESS makes of the record: its completion code and count, or the progress it stays current with. -/
inductive Advance where
  | completes (code : RecCode) (count : Nat)
  | stays (progress : Nat) (tailOnly : Bool)
  deriving DecidableEq, Repr

/-- A SUCCESS of a PUSH packet of n bytes at progress g (R86, R94). -/
def pushAdvance (t : Turn) (x : Exchange) (n g : Nat) : Advance :=
  if t.cls = .stream then .completes .ok (pushLength t.seg)
  else if x.tail then .completes .ok g
  else if pushLength t.seg ≤ g + n then
    (if needsTail t.cls x.maxPayload t.seg then .stays (g + n) true else .completes .ok (g + n))
  else .stays (g + n) false

/-- Software has shortened the record so that its progress meets its length (R85, log 35): the code it completes with. -/
def shortened (r : Rec) (progress : Nat) (tailOnly : Bool) : Option RecCode :=
  if progress = 0 then none
  else
    match recKind r with
    | .pull =>
      if recLength r ≤ progress then some (if progress = recLength r then .ok else .short) else none
    | _ =>
      if pushLength r < progress ∨ (pushLength r = progress ∧ tailOnly = false) then some .ok else none

/-! ### What a burst needs to go on (R97) -/

/-- The reservation is topped up to the table's amount for the next record (R129, 3). -/
def topUp (s : State) : Option State :=
  if 4 ≤ s.wq.reserved then some s
  else if 4 - s.wq.reserved ≤ freeSlots s then some (reserve (4 - s.wq.reserved) s)
  else none

/-- A burst may still give exchanges: BULK is served in the late window of RUNNING alone (R95), and not by a turn that a
STOP or a cycle start has ended (R99). -/
def burstOpen (s : State) : Bool :=
  s.seq.state == .running && !s.seq.restartInHand && s.walk.window == .late && !s.walk.turnOver

/-! ### Look-ahead (R118, log 16) -/

/-- RING_BROKEN (R79): a host-memory fault with kind code 1. -/
def ringBroken (addr : Word) (s : State) : State := hostFault codeRingBroken 1 addr s

def lookFetch (k : Seek) (s : State) : State :=
  setLook (.headWait k) (requestRead 1 k.cur 16 .lookHead s)

/-- The rings the aperiodic order would go through (R95). A look-ahead made while a head's own turn is under way may come to
that very head, and fetches it and its record again: R80 has the head fetched once in its turn, and R118 fetches what the
search would; that R118 is followed is a DESIGN CHOICE, log 60. -/
def lookRings : List RingClass → State → State
  | [], s => s
  | c :: rest, s =>
    match beginRing s c with
    | .head k _ => lookFetch k s
    | .ended _ => lookRings rest s
    | .broken a => ringBroken a s
    | .stalled => lookRings rest s

/-- The next head a pass would fetch, and `after` at the end of the pass. -/
def lookFound (after : State → State) (f : Found) (s : State) : State :=
  match f with
  | .head k _ => lookFetch k s
  | .ended _ => after s
  | .broken a => ringBroken a s
  | .stalled => s

/-- The heads of a STREAM pass that has not begun, in order. -/
def lookStream (s : State) : State := if s.walk.streamDone then s else lookFound id (freshPass s .stream) s

/-- The heads of the passes still to be made, in order. -/
def lookPasses (s : State) : State :=
  if s.walk.timedDone then lookStream s else lookFound lookStream (freshPass s .timed) s

/-- What a look-ahead goes on with behind the last head of a pass: STREAM follows TIMED (R58). -/
def afterPass (c : RingClass) (s : State) : State := if c = .timed then lookStream s else s

/-- The class whose pass is in progress. -/
def passClass (s : State) : RingClass := if s.walk.timedDone then .stream else .timed

/-- The next heads of the pass in progress, behind the one whose step is under way. -/
def lookPass (s : State) : State :=
  let c := passClass s
  match s.walk.pass with
  | none => lookPasses s
  | some p =>
    match s.walk.hand with
    | .turn t =>
      if t.inPass then
        lookFound (afterPass c) (traverse s traverseBound (passSeek c p.start (p.fetched + 1)) (some t.addr) t.head.w0) s
      else lookFound (afterPass c) (beginPass s c) s
    | _ => lookFound (afterPass c) (beginPass s c) s

/-- The front of the Pending list would be offered at an aperiodic decision (R137). -/
def directOffered (s : State) : Bool :=
  (s.seq.state == .armed || s.seq.state == .running) && !s.dau.pending.isEmpty &&
    decide (s.dau.done.length < Config.directListSize)

/-- The look-ahead of the aperiodic order in the late window (R95). -/
def lookAperiodic (s : State) : State :=
  if s.walk.aperiodicOver || directOffered s then s else lookRings [.service, .bulk] s

/-- What the burst in hand would go on with, if the exchange under way ends in SUCCESS (R97): it would end, go on with its
record (and with this packet, if that is a PUSH), or go on to the record this link names. -/
inductive BurstAhead where
  | ends
  | same (fill : Option FillReq)
  | next (link : Word)

/-- The burst's record stays current: the tests of R97 as they stand now, and the packet cut to the maximum payload as it
stands now (R66, R74). -/
def burstSame (t : Turn) (g : Nat) (tailOnly : Bool) (s : State) : BurstAhead :=
  let p := payloadMax (getEntry s (headEntry t.head))
  if testEntry s t.cls t.head = .work ∧ kindRefused t.cls p t.seg = false ∧ (topUp s).isSome = true then
    .same (fillFor (planRequest p t.seg g tailOnly) (headEntry t.head) t.record t.seg.w1 g)
  else .ends

/-- The burst's record is finished: the next one by the link held on chip, if the tests of R97 pass for it and the turn has
not written it back (R91). -/
def burstNext (t : Turn) (s : State) : BurstAhead :=
  let link := t.seg.w0
  if link = 0 ∨ (t.record :: t.written).contains link = true ∨ testEntry s t.cls { t.head with w2 := link } ≠ .work ∨
      topUp s = none then .ends
  else .next link

/-- What the burst in hand would go on with. What a PULL will bring is not known, so its record counts as current. -/
def burstAhead (t : Turn) (x : Exchange) (s : State) : BurstAhead :=
  if t.cls = .bulk ∧ t.phase = .exchanging ∧ t.made + 1 < headBurst t.head + 1 ∧ burstOpen s = true then
    match x.request with
    | .push n =>
      match pushAdvance t x n (progressOf s t.head t.seg).1 with
      | .stays g tailOnly => burstSame t g tailOnly s
      | .completes _ _ => burstNext t s
    | _ => burstSame t (progressOf s t.head t.seg).1 false s
  else .ends

/-- The look-ahead of a burst, which goes on before any other work (R95, R97); the aperiodic order if it would end. -/
def lookBurst (t : Turn) (x : Exchange) (s : State) : State :=
  match burstAhead t x s with
  | .ends => lookAperiodic s
  | .same (some q) => requestFill q s
  | .same none => s
  | .next link => setLook (.burstWait { t.head with w2 := link }) (requestRead 2 link 16 .lookRecord s)

/-- The look-ahead of the late window. -/
def lookLate (s : State) : State :=
  match s.walk.hand, s.xeng with
  | .turn t, some x => lookBurst t x s
  | _, _ => lookAperiodic s

/-- Begins a look-ahead (R118). -/
def lookAhead (s : State) : State :=
  if s.seq.state = .running ∧ s.seq.restartInHand = false then
    let s := cancelReads lookReader (setLook .nothing s)
    match s.walk.window with
    | .early => lookPasses s
    | .periodic => lookPass s
    | .late => lookLate s
    | _ => s
  else s

/-- The classes that follow a class in the aperiodic order of the window (R95). -/
def laterClasses (s : State) (c : RingClass) : List RingClass :=
  if c = .service ∧ s.walk.window = .late then [.bulk] else []

/-- The look-ahead passes a head over and goes on as the pass or search would. -/
def lookOver (k : Seek) (h : Rec) (s : State) : State :=
  let s := setLook .nothing s
  let next := traverse s traverseBound k (some k.cur) h.w0
  match k.stage with
  | .pass c => lookFound (afterPass c) next s
  | .search c _ =>
    match next with
    | .head k' _ => lookFetch k' s
    | .ended _ => lookRings (laterClasses s c) s
    | .broken a => ringBroken a s
    | .stalled => lookRings (laterClasses s c) s

/-- A head fetched for the look-ahead has returned: the tests of R83, without effect. -/
def lookHeadReturned (k : Seek) (h : Rec) (s : State) : State :=
  let c := stageClass k.stage
  if suits s k h && decide (workTest s c h = .work) && decide (stepSlots c h ≤ freeSlots s) then
    if skipsFirst c h then setLook .nothing s
    else setLook (.recordWait k h) (requestRead 2 h.w2 16 .lookRecord s)
  else lookOver k h s

/-- The fill of the look-ahead's candidate (R118): none for a packet that needs none, and none for a record that completes
without an exchange (R85). -/
def lookFill (h r : Rec) (s : State) : State :=
  let g := progressOf s h r
  match shortened r g.1 g.2 with
  | some _ => s
  | none =>
    match fillFor (planRequest (payloadMax (getEntry s (headEntry h))) r g.1 g.2) (headEntry h) h.w2 r.w1 g.1 with
    | some q => requestFill q s
    | none => s

/-- A record fetched for the look-ahead has returned: the tests of R83 on the entry as it stands now (R66), the test of
R87, and the fill. -/
def lookRecordReturned (k : Seek) (h r : Rec) (s : State) : State :=
  let c := stageClass k.stage
  if workTest s c h ≠ .work ∨ kindRefused c (payloadMax (getEntry s (headEntry h))) r = true then lookOver k h s
  else lookFill h r (setLook .nothing s)

/-- The burst's next record has returned for the look-ahead: the burst goes on with it, or would end. -/
def lookBurstReturned (h r : Rec) (s : State) : State :=
  let s := setLook .nothing s
  if testEntry s .bulk h ≠ .work ∨ kindRefused .bulk (payloadMax (getEntry s (headEntry h))) r = true then lookAperiodic s
  else lookFill h r s

/-- The walker begins to wait with nothing to start, and looks ahead (R95, R118). -/
def waitLook (s : State) : State := lookAhead (walkerWaits s)

/-! ### Choosing the next head (R95, R96, 6.9) -/

/-- Fetches the head a traversal has come to; a pass keeps its position (6.9). The position is kept before the head, so a head that
the pass comes back to (after STOP and RUN, R99, or after its held exchange was dropped, log 7) is fetched again, and R79 does not
say whether it then counts twice towards the 256 heads of the traversal: that it counts once is a DESIGN CHOICE, log 67. -/
def issueHead (k : Seek) (prev : Option Word) (s : State) : State :=
  let s := match k.stage with
    | .pass _ =>
      { s with walk := { s.walk with
          pass := some { prev := prev, next := k.cur, start := k.start, fetched := k.fetched - 1 } } }
    | .search _ _ => s
  setHand (.headWait k) (requestRead 1 k.cur 16 .head s)

/-- A ring is found broken: the walker makes no further decision (R79). -/
def walkerBroken (addr : Word) (s : State) : State := ringBroken addr (setHand .nothing s)

/-- Offers rings in order (R95); a ring without work keeps the rotation state its searches left (R96). -/
def offerRings : List RingClass → State → State
  | [], s => waitLook s
  | c :: rest, s =>
    match beginRing s c with
    | .head k prev => issueHead k prev s
    | .ended rot => offerRings rest (setRot c rot s)
    | .broken a => walkerBroken a s
    | .stalled => offerRings rest s

/-- The rings of the window, while the controller is RUNNING (R95, R57, R58). -/
def windowRings (s : State) : List RingClass :=
  if s.seq.state = .running then
    match s.walk.window with
    | .early => [.service]
    | .late => [.service, .bulk]
    | _ => []
  else []

/-- No further aperiodic exchange starts in this cycle (R62). -/
def endAperiodic (s : State) : State := { s with walk := { s.walk with aperiodicOver := true } }

/-- The request of the front record (R101). -/
def directRequestOf (r : DirReq) : Request := if r.poke then .poke r.len else .peek r.len

/-- The exchange chosen for the front direct request; a POKE's fill is immediate (R117, R119). -/
def chooseDirect (r : DirReq) (s : State) : State :=
  let s := if r.poke then stageNow .poke r.data s else s
  let e := getEntry s r.entry
  let x : Exchange :=
    { phase := .held, request := directRequestOf r, direct := true, entry := r.entry, segment := e.segment,
      maxPayload := payloadMax e, tail := false, frame := none, room := 0, data := [], accept := none,
      rewritten := false }
  setHand .nothing (wakeWalker { s with xeng := some x })

/-- The direct path, then the rings (R95, R137, R138): a front record completed at once is followed by another decision,
so the bound is the length of the Pending list. -/
def aperiodic : Nat → State → State
  | 0, s => offerRings (windowRings s) s
  | n + 1, s =>
    if directOffered s then
      match s.dau.pending with
      | [] => offerRings (windowRings s) s
      | r :: _ =>
        match frontTest s r with
        | some st => aperiodic n (completeDirect st [] s)
        | none =>
          if startRule s (directRequestOf r) (getEntry s r.entry).segment then chooseDirect r s
          else waitLook (endAperiodic s)
    else offerRings (windowRings s) s

/-- An aperiodic decision (R95), unless the start rule has ended aperiodic work for the cycle (R62). -/
def aperiodicDecision (s : State) : State :=
  if s.walk.aperiodicOver then waitLook s else aperiodic s.dau.pending.length s

/-- Both passes are complete and the late window opens (R58). -/
def closePasses (s : State) : State :=
  { s with walk := { s.walk with timedDone := true, streamDone := true, pass := none, window := .late } }

/-- The STREAM pass goes on, or the late window opens (R58). -/
def streamStage (s : State) : State :=
  if s.walk.streamDone then aperiodicDecision (closePasses s)
  else
    match beginPass s .stream with
    | .head k prev => issueHead k prev s
    | .ended _ => aperiodicDecision (closePasses s)
    | .broken a => walkerBroken a s
    | .stalled => walkerWaits s

/-- The periodic window (R58): TIMED, then STREAM; in a state other than RUNNING both are complete at once. -/
def periodicStage (s : State) : State :=
  if s.seq.state ≠ .running then aperiodicDecision (closePasses s)
  else if s.walk.timedDone then streamStage s
  else
    match beginPass s .timed with
    | .head k prev => issueHead k prev s
    | .ended _ => streamStage { s with walk := { s.walk with timedDone := true, pass := none } }
    | .broken a => walkerBroken a s
    | .stalled => walkerWaits s

/-- A decision from the top (R57, R58, R95). -/
def freshDecision (s : State) : State :=
  let s := beginDecision s
  match s.walk.window with
  | .stopped => walkerWaits s
  | .starting => walkerWaits s
  | .early =>
    if s.ctim.remain.toNat ≤ s.ctim.openSampled.toNat then
      periodicStage { s with walk := { s.walk with window := .periodic } }
    else aperiodicDecision s
  | .periodic => periodicStage s
  | .late => aperiodicDecision s

/-- A search goes on behind a head (R96). -/
def searchOn (c : RingClass) (k : Seek) (h : Rec) (s : State) : State :=
  match traverse s traverseBound k (some k.cur) h.w0 with
  | .head k' prev => issueHead k' prev s
  | .ended rot => offerRings (laterClasses s c) (setRot c rot s)
  | .broken a => walkerBroken a s
  | .stalled => offerRings (laterClasses s c) s

/-- The head is passed over: the pass or search goes on at once with the next head (R83, R84). -/
def passOver (k : Seek) (h : Rec) (s : State) : State :=
  let s := setHand .nothing s
  match k.stage with
  | .pass _ => periodicStage (passAfter k.cur h.w0 s)
  | .search c _ => searchOn c k h s

/-- A head is stopped (R84), if the one slot it needs can be reserved (test 10). -/
def stopHead (c : RingClass) (addr : Word) (h : Rec) (cause : Cause) (s : State) : State :=
  if freeSlots s = 0 then s
  else enqueue (.status addr (headStatusWord h.w3 none none (some cause)) c (headEntry h) false (some cause) h.w0)
    (reserve 1 s)

/-! ### Turns -/

/-- The turn of a head that has just been chosen. -/
def newTurn (k : Seek) (h r : Rec) : Turn :=
  { cls := stageClass k.stage, addr := k.cur, head := h, record := h.w2, seg := r, made := 0, last := none,
    skipping := none, undo := none, inPass := match k.stage with | .pass _ => true | .search _ _ => false,
    phase := .burstReady }

/-- The head is given the turn: its ring's cursor becomes it (R96, log 14). -/
def giveTurn (k : Seek) (h : Rec) (s : State) : State :=
  let u : Cursor := { head := k.cur, link := h.w0 }
  match k.stage with
  | .pass _ => s
  | .search c .low => setRot c { k.rot with low := some u, lowTurn := false } s
  | .search c _ => setRot c { k.rot with high := some u } s

/-- What puts the rotation back if the turn's first exchange does not start (log 14). -/
def undoOf (k : Seek) (s : State) : Option Rotation :=
  match k.stage with
  | .pass _ => none
  | .search c _ => some (getRot s c)

/-- Gives the turn's head its place in the rotation back, so that it is offered first again (R62, log 14). -/
def putBack (t : Turn) (s : State) : State :=
  match t.undo with
  | some r => setRot t.cls r s
  | none => s

/-- A segment write-back of the turn's record. -/
def recordItem (t : Turn) (code : RecCode) (count : Nat) : WqItem :=
  .segment t.record (recStatusWord code count) code (recEnd t.seg) (recNotify t.seg) t.cls (headEntry t.head) t.addr

/-- A record is complete: it is fetched again before it is consumed (R90). The entry is no longer engaged meanwhile, and a fence
pending on it is granted before the items of R90 are queued (R69, R116): DESIGN CHOICE, log 58. -/
def beginConsume (t : Turn) (code : RecCode) (count : Nat) (s : State) : State :=
  setHand (.turn { t with phase := .refetch code count }) (requestRead 2 t.record 16 .refetch s)

/-- The end of skip steps (R89): the head link update, and the head status write that ends the turn. -/
def finishSkip (t : Turn) (link : Word) (complete : Bool) (s : State) : State :=
  endTurn { t with head := { t.head with w2 := link }, skipping := some (!complete) } none
    (enqueue (.link t.addr link t.head.w0) s)

/-- A record that completed SHORT without an exchange (R85) and has no record behind it: the head link update, and no head
status write, since no exchange was given and no skip step follows (R81). -/
def finishShort (t : Turn) (s : State) : State :=
  endTurn { t with head := { t.head with w2 := 0 } } none (enqueue (.link t.addr 0 t.head.w0) s)

/-- The next skip step (R89), or the end of the skip at a link of 0, at a slot that cannot be reserved, or where the
record may not be fetched (R10, R91, R24; log 21). A skip that is unfinished before its first step has its head status write
too, since skipping 1 has to be kept (R89): DESIGN CHOICE, log 48. -/
def skipFrom (t : Turn) (link : Word) (s : State) : State :=
  if link = 0 then (if t.made = 0 then finishShort t s else finishSkip t link true s)
  else if !aligned link || recordPending s link || t.written.contains link || freeSlots s == 0 || s.seq.restartInHand then finishSkip t link false s
  else setHand (.turn { t with phase := .skipFetch link }) (requestRead 2 link 16 .skip (reserve 1 s))

/-- The slot is emptied if it held this record (R87). -/
def dropSlot (i : EntryIx) (record : Word) (s : State) : State :=
  match getSlot s i with
  | some sl => if sl.record = record then setSlot i none s else s
  | none => s

/-- The slot the exchange's record uses, overwritten at progress 0 if it held another (R85). -/
def takeSlot (h r : Rec) (s : State) : State :=
  match slotFor s (headEntry h) h.w2 (recKind r) with
  | some _ => s
  | none =>
    setSlot (headEntry h) (some { record := h.w2, kind := recKind r, progress := 0, tailOnly := false }) s

/-- The exchange chosen for a turn, held until its frame begins (R101, log 7). -/
def chooseRing (t : Turn) (q : Request) (tail : Bool) (s : State) : State :=
  let e := getEntry s (headEntry t.head)
  let x : Exchange :=
    { phase := .held, request := q, direct := false, entry := headEntry t.head, segment := e.segment,
      maxPayload := payloadMax e, tail := tail, frame := none, room := 0, data := [], accept := none,
      rewritten := false }
  setHand (.turn { t with phase := .exchanging })
    { s with xeng := some x, walk := { s.walk with waiting := false, turnOver := false } }

/-! ### Returned heads and records -/

/-- A head has returned (R83): it is served, stopped, or passed over. -/
def headReturned (k : Seek) (h : Rec) (s : State) : State :=
  let c := stageClass k.stage
  if !suits s k h then passOver k h s
  else
    match workTest s c h with
    | .over => passOver k h s
    | .stop cause => passOver k h (stopHead c k.cur h cause s)
    | .work =>
      if freeSlots s < stepSlots c h then passOver k h s
      else if skipsFirst c h then skipFrom (newTurn k h h) h.w2 (giveTurn k h (reserve 2 s))
      else setHand (.recordWait k h) (requestRead 2 h.w2 16 .record (reserve 4 s))

/-- A record refused for its kind (R87): its write-back and the head's stop use two of the reserved slots, and the pass or
search goes on. -/
def refuseKind (k : Seek) (h r : Rec) (s : State) : State :=
  passOver k h (releaseSlots
    (enqueue (.status k.cur (headStatusWord h.w3 none none (some .kindMismatch)) (stageClass k.stage) (headEntry h) false
        (some .kindMismatch) h.w0)
      (enqueue (recordItem (newTurn k h r) .kindMismatch 0) (dropSlot (headEntry h) h.w2 s))))

/-- A record has returned: its head's tests are made again on the entry and segment as they stand now, so a fence granted
meanwhile keeps the head from any report (R73, log 23); then the record is refused for its kind (R87), or a candidate
for the decision. -/
def recordReturned (k : Seek) (h r : Rec) (s : State) : State :=
  let c := stageClass k.stage
  match workTest s c h with
  | .over => passOver k h (releaseSlots s)
  | .stop cause => passOver k h (stopHead c k.cur h cause (releaseSlots s))
  | .work =>
    if kindRefused c (payloadMax (getEntry s (headEntry h))) r then refuseKind k h r s
    else setHand (.candidate k (newTurn k h r)) s

/-! ### The candidate (R60 to R62, R85, R119) -/

/-- A periodic head that is not served in its pass (R61): LATE; a STREAM record completes MISSED. -/
def passLate (k : Seek) (t : Turn) (s : State) : State :=
  let s := offerAttn .late t.cls (headEntry t.head) t.addr s
  if t.cls = .stream then beginConsume t .missed 0 s else passOver k t.head (releaseSlots s)

/-- The candidate fails the start rule (R61, R62). -/
def failsStart (k : Seek) (t : Turn) (s : State) : State :=
  match k.stage with
  | .pass _ => passLate k t s
  | .search _ _ => waitLook (releaseSlots (endAperiodic s))

/-- The candidate's packet, with this tag, is not ready (R119): its ring offers nothing further at this decision, and a
periodic head is not served. -/
def notReady (k : Seek) (t : Turn) (tag : StageTag) (s : State) : State :=
  match k.stage with
  | .pass _ => passLate k t (markLate tag s)
  | .search c _ => offerRings (laterClasses s c) (setHand .nothing (releaseSlots s))

/-- The candidate passes the start rule: it is given its turn and its exchange if its packet is ready (R60, R119). -/
def tryPacket (k : Seek) (t : Turn) (q : Request) (tail : Bool) (progress : Nat) (s : State) : State :=
  match fillFor q (headEntry t.head) t.record t.seg.w1 progress with
  | none => chooseRing { t with undo := undoOf k s } q tail (giveTurn k t.head s)
  | some f =>
    let s := requestFill f s
    if stagedFor f.tag s then chooseRing { t with undo := undoOf k s } q tail (giveTurn k t.head s) else notReady k t f.tag s

/-- The decision on a candidate whose work test still passes (R85, R60, R119). The exchange is prepared, and so the entry's
slot taken over (R85), before the start rule and staging tests: DESIGN CHOICE, log 45. -/
def judgeWork (k : Seek) (t : Turn) (s : State) : State :=
  let s := takeSlot t.head t.seg s
  let g := progressOf s t.head t.seg
  match shortened t.seg g.1 g.2 with
  | some code => beginConsume t code g.1 (giveTurn k t.head s)
  | none =>
    let e := getEntry s (headEntry t.head)
    let q := planRequest (payloadMax e) t.seg g.1 g.2
    if startRule s q e.segment then tryPacket k t q (planTail t.seg g.2) g.1 s else failsStart k t s

/-- The decision on a candidate: the early window may have ended meanwhile (R57), and the tests of its head are made again. R87 is
not: a change of payload_code since the record returned counts for the packet's size alone (DESIGN CHOICE, log 53). Nor is
a direct request that has come to the front since the decision began offered before it (DESIGN CHOICE, log 54). -/
def judgeCandidate (k : Seek) (t : Turn) (s : State) : State :=
  if s.walk.window = .early ∧ s.ctim.remain.toNat ≤ s.ctim.openSampled.toNat then
    freshDecision (setHand .nothing (releaseSlots s))
  else
    match workTest s t.cls t.head with
    | .over => passOver k t.head (releaseSlots s)
    | .stop cause => passOver k t.head (stopHead t.cls t.addr t.head cause (releaseSlots s))
    | .work => judgeWork k t s

/-! ### Bursts (R97) -/

/-- The continuation tests of a burst after an exchange (R97): the same record again, or the next one of the list, unless
the turn has written it back already (R91). After an exchange that leaves its record current they are made in the hand-over,
before a pending fence is granted (R116 steps 4 and 5), where 5.9 grants it first: DESIGN CHOICE, log 57. -/
def burstContinue (t : Turn) (same : Bool) (s : State) : State :=
  if burstOpen s = true ∧ t.made < headBurst t.head + 1 ∧ t.head.w2 ≠ 0 then
    match testEntry s t.cls t.head with
    | .over => endTurn t none s
    | .stop cause => endTurn t (some cause) s
    | .work =>
      match topUp s with
      | none => endTurn t none s
      | some s =>
        if same then wakeWalker (setHand (.turn { t with phase := .burstReady }) s)
        else if t.written.contains t.head.w2 then endTurn t none s
        else setHand (.turn { t with record := t.head.w2, phase := .burstFetch }) (requestRead 2 t.head.w2 16 .burst s)
  else endTurn t none s

/-- A burst's next record has returned: tests 4 to 9 as they stand now (R73, log 23), then R87 (R97). -/
def burstReturned (t : Turn) (r : Rec) (s : State) : State :=
  let t := { t with seg := r }
  match testEntry s t.cls t.head with
  | .over => endTurn t none s
  | .stop cause => endTurn t (some cause) s
  | .work =>
    if kindRefused t.cls (payloadMax (getEntry s (headEntry t.head))) r then
      endTurn t (some .kindMismatch) (enqueue (recordItem t .kindMismatch 0) (dropSlot (headEntry t.head) t.record s))
    else wakeWalker (setHand (.turn { t with phase := .burstReady }) s)

/-- The packet of a burst's next exchange, which has passed the start rule (R97, R119). -/
def burstPacket (t : Turn) (q : Request) (tail : Bool) (progress : Nat) (s : State) : State :=
  match fillFor q (headEntry t.head) t.record t.seg.w1 progress with
  | none => chooseRing t q tail s
  | some f =>
    let s := requestFill f s
    if stagedFor f.tag s then chooseRing t q tail s else endTurn t none s

/-- The decision on a burst's next exchange: tests 4 to 9 as they stand now, then R85, the start rule and staging
(R97, R62). The slot is taken over first, as in `judgeWork` (log 45). A burst that fails the start rule is over, and its
head keeps its place (R62). -/
def burstExchange (t : Turn) (s : State) : State :=
  match testEntry s t.cls t.head with
  | .over => endTurn t none s
  | .stop cause => endTurn t (some cause) s
  | .work =>
    let s := takeSlot t.head t.seg s
    let g := progressOf s t.head t.seg
    match shortened t.seg g.1 g.2 with
    | some code => beginConsume t code g.1 s
    | none =>
      let e := getEntry s (headEntry t.head)
      let q := planRequest (payloadMax e) t.seg g.1 g.2
      if startRule s q e.segment then burstPacket t q (planTail t.seg g.2) g.1 s
      else endTurn t none (endAperiodic (putBack t s))

/-! ### Events of the walker -/

/-- WALKER_DECISION (R95): taken with no exchange on the bus, in READY, ARMED and RUNNING (log 23, log 24). While a RESTART
is in hand no decision is made at all, so no front request is tested or completed either, where R24 names only new
exchanges, fetches and fills: DESIGN CHOICE, log 26. -/
def walkerDecision (s : State) : State :=
  if s.xeng.isSome || s.seq.restartInHand ||
      !(s.seq.state == .ready || s.seq.state == .armed || s.seq.state == .running) then s
  else
    let d := cancelReads lookReader (setLook .nothing s)
    match s.walk.hand with
    | .nothing => if s.walk.waiting then s else joinReads d.hport.reads.length (pumpQueue (freshDecision d))
    | .candidate k t => joinReads d.hport.reads.length (pumpQueue (judgeCandidate k t d))
    | .turn t => if t.phase = .burstReady then joinReads d.hport.reads.length (pumpQueue (burstExchange t d)) else s
    | _ => s

/-- A record fetch at the front of the read channel has returned (R10): whoever asked for it acts on its snapshot. -/
def snapshotReturned (q : ReadReq) (r : Rec) (s : State) : State :=
  match q.reader, s.walk.hand, s.walk.look with
  | .descriptor, _, _ => descriptorReturned q.addr r s
  | .head, .headWait k, _ => headReturned k r s
  | .record, .recordWait k h, _ => recordReturned k h r s
  | .refetch, .turn t, _ =>
    match t.phase with
    | .refetch code count => setHand (.turn { t with phase := .refetched code count r }) s
    | _ => s
  | .skip, .turn t, _ =>
    match t.phase with
    | .skipFetch link => setHand (.turn { t with phase := .skipGot link r }) s
    | _ => s
  | .burst, .turn t, _ => if t.phase = .burstFetch then burstReturned t r s else s
  | .lookHead, _, .headWait k => lookHeadReturned k r s
  | .lookRecord, _, .recordWait k h => lookRecordReturned k h r s
  | .lookRecord, _, .burstWait h => lookBurstReturned h r s
  | _, _, _ => s

/-- RECORD_FETCH_DONE (R10, R12). The read leaves the stream when what follows from it has been done: the next one is issued
then, or not at all if the snapshot sealed the controller (R14, R79). -/
def recordFetchDone (r : Rec) (s : State) : State :=
  match frontRead s with
  | none => s
  | some q => if q.kind = 4 then s else pumpQueue (popRead (snapshotReturned q r s))

/-- CONSUME_RECORD (R90): the write-back, then skip steps or the head link update, then the turn goes on or ends. The items are
queued after the fence of the entry has been granted (log 58). For a record completed without an exchange (R61, R85) the fence may
be granted while the record is being fetched again; that its items are still queued then (R73) is a DESIGN CHOICE, log 63. -/
def consumeTurn (t : Turn) (code : RecCode) (count : Nat) (link : Word) (s : State) : State :=
  let s := enqueue (recordItem t code count) (setSlot (headEntry t.head) none s)
  let t := { t with written := t.record :: t.written }
  if code = .short ∧ recEnd t.seg = false ∧ t.cls ≠ .stream then skipFrom t link s
  else
    let s := enqueue (.link t.addr link t.head.w0) s
    let t := { t with head := { t.head with w2 := link } }
    if t.cls = .bulk ∧ 0 < t.made then burstContinue t false s else endTurn t none s

def consumeRecord (s : State) : State :=
  match s.walk.hand with
  | .turn t =>
    match t.phase with
    | .refetched code count snap => pumpQueue (consumeTurn t code count snap.w0 s)
    | _ => s
  | _ => s

/-- One skipped record (R89): its write-back, and its W0 as the next link. A turn of skip steps that has begun goes on also if
the entry's fence is granted meanwhile (R73, R89): DESIGN CHOICE, log 47. -/
def skipTurn (t : Turn) (link : Word) (snap : Rec) (s : State) : State :=
  let t := { t with written := link :: t.written }
  let s := enqueue (.segment link (recStatusWord .skipped 0) .skipped (recEnd snap) (recNotify snap) t.cls
    (headEntry t.head) t.addr) s
  if recEnd snap || snap.w0 == 0 then finishSkip t snap.w0 true s else skipFrom t snap.w0 s

/-- SKIP_STEP (R89). -/
def skipStep (s : State) : State :=
  match s.walk.hand with
  | .turn t =>
    match t.phase with
    | .skipGot link snap => pumpQueue (skipTurn t link snap s)
    | _ => s
  | _ => s

/-- A 32-bit write of a ring anchor register (R78): bits 3..0 are reserved. -/
def writeAnchor (c : RingClass) (v : Word) (s : State) : State :=
  { s with walk := { s.walk with
      anchorReg := s.walk.anchorReg.set (classIx c).val (v &&& 0xFFFFFFF0#32) (classIx c).isLt,
      anchorWritten := s.walk.anchorWritten.set (classIx c).val true (classIx c).isLt } }

/-! ### The rows -/

/-- WALKER_DECISION. -/
def execWalkerDecision (s : State) : Host.Outcome State Fault Refusal := .next (unlessHeld walkerDecision s)

/-- RECORD_FETCH_DONE. -/
def execRecordFetchDone (w0 w1 w2 w3 : Word) (s : State) : Host.Outcome State Fault Refusal :=
  .next (unlessHeld (recordFetchDone { w0 := w0, w1 := w1, w2 := w2, w3 := w3 }) s)

/-- CONSUME_RECORD. -/
def execConsumeRecord (s : State) : Host.Outcome State Fault Refusal := .next (unlessHeld consumeRecord s)

/-- SKIP_STEP. -/
def execSkipStep (s : State) : Host.Outcome State Fault Refusal := .next (unlessHeld skipStep s)

/-- RING_ANCHOR_WRITE. -/
def execRingAnchorWrite (c : RingClass) (v : Word) (s : State) : Host.Outcome State Fault Refusal :=
  .next (unlessHeld (writeAnchor c v) s)

end Sys2Proof.Machine
end

