-- ==== Sys2Proof/Machine/Outcome.lean ====
section
/-! DEFINITION. The end of an exchange and its outcome processing (7.5 to 7.7): the entry, the Receive FIFO, the Bus Log,
the hand-over to the walker or to DAU, and the fence. -/

namespace Sys2Proof.Machine

/-! ### Step 1: the entry (R106 to R113) -/

/-- The strike outcomes (R112). -/
def strikes : XOutcome → Bool
  | .silence => true
  | .corrupt => true
  | .garbled => true
  | .overlong => true
  | .unsolicited => true
  | _ => false

/-- A strike counter after a strike: it never goes above 3 (R67, R112). -/
def strikeOnce (n : BitVec 2) : BitVec 2 := if n == 3 then 3 else n + 1

/-- defer_count after a DEFERRED: it stops at 65535 (R68). -/
def deferOnce (e : Entry) : Entry := { e with deferCount := if e.deferCount == 65535 then 65535 else e.deferCount + 1 }

/-- done_count after a SUCCESS: it wraps (R68). -/
def doneOnce (e : Entry) : Entry := { e with doneCount := e.doneCount + 1 }

/-- A halt (R75). -/
def haltEntry (f : EntryFault) (e : Entry) : Entry := { e with halted := true, fault := f }

/-- An outward strike (R112). -/
def strikeOut (e : Entry) : Entry :=
  let e := { e with strikesOut := strikeOnce e.strikesOut }
  if e.strikesOut == 3 then haltEntry .strikeOut e else e

/-- An inward strike (R112). -/
def strikeIn (e : Entry) : Entry :=
  let e := { e with strikesIn := strikeOnce e.strikesIn }
  if e.strikesIn == 3 then haltEntry .strikeOut e else e

/-- An outcome of a PUSH, a NUDGE or a tail (R106). -/
def entryAfterPush (o : XOutcome) (e : Entry) : Entry :=
  match o with
  | .success => doneOnce { e with seqOut := !e.seqOut, strikesOut := 0 }
  | .deferred => deferOnce e
  | .refused => haltEntry .refused e
  | _ => if strikes o then strikeOut e else e

/-- An outcome of an OPEN (R107). -/
def entryAfterOpen (o : XOutcome) (e : Entry) : Entry :=
  match o with
  | .success => doneOnce { e with seqOut := true, seqIn := true, strikesOut := 0, strikesIn := 0 }
  | _ => entryAfterPush o e

/-- An outcome of a PULL (R108 to R110). -/
def entryAfterPull (o : XOutcome) (e : Entry) : Entry :=
  match o with
  | .success => doneOnce { e with seqIn := !e.seqIn, strikesIn := 0 }
  | .duplicate => { e with strikesIn := 0 }
  | .deferred => deferOnce e
  | .refused => haltEntry .refused e
  | _ => if strikes o then strikeIn e else e

/-- An outcome of a direct exchange: only the counters count (R76, R111). -/
def entryAfterDirect (o : XOutcome) (e : Entry) : Entry :=
  match o with
  | .success => doneOnce e
  | .deferred => deferOnce e
  | _ => e

/-- The entry after an outcome, by request. -/
def entryAfter (q : Request) (o : XOutcome) (e : Entry) : Entry :=
  match q with
  | .push _ => entryAfterPush o e
  | .open => entryAfterOpen o e
  | .pull _ => entryAfterPull o e
  | .peek _ => entryAfterDirect o e
  | .poke _ => entryAfterDirect o e

/-- The strike of this outcome halts the entry (R112): its counter is 3 after it. -/
def strikesHalt (q : Request) (o : XOutcome) (e : Entry) : Bool :=
  strikes o &&
    match q with
    | .push _ => strikeOnce e.strikesOut == 3
    | .open => strikeOnce e.strikesOut == 3
    | .pull _ => strikeOnce e.strikesIn == 3
    | _ => false

/-- Step 1 of R116: skipped if software rewrote the entry (R72). -/
def outcomeEntry (x : Exchange) (o : XOutcome) (s : State) : State :=
  if x.rewritten then s else setEntry x.entry (entryAfter x.request o (getEntry s x.entry)) s

/-- The outcome halts the entry by a strike, as step 1 finds it (R112, R72). An entry rewritten under the exchange is not
halted, so no STRIKE_OUT is offered and its head is not stopped for it, while a REFUSED stops the head all the same:
DEDUCED, log 42. -/
def haltsByStrike (x : Exchange) (o : XOutcome) (s : State) : Bool :=
  !x.rewritten && strikesHalt x.request o (getEntry s x.entry)

/-! ### Steps 2 and 3: the Receive FIFO and the Bus Log -/

/-- Step 2 of R116: a PULL's packet is committed on SUCCESS (R120), an OVERRUN offers its attention (R121). -/
def outcomeFifo (x : Exchange) (o : XOutcome) (s : State) : State :=
  match x.request, o with
  | .pull _, .success => { s with rx := { s.rx with fifo := s.rx.fifo ++ [x.data] } }
  | .pull _, .overrun =>
    match s.walk.hand with
    | .turn t => offerAttn .rxOverrun t.cls x.entry t.addr s
    | _ => s
  | _, _ => s

/-- Step 3 of R116: the trust code (R114), then STRIKE_OUT if the strike halted the entry (R112). -/
def outcomeLog (x : Exchange) (o : XOutcome) (halts : Bool) (s : State) : State :=
  let s := match trustCode (getSeg s x.segment).guarded o with
    | some code => offerBus code (some x.segment) x.entry s
    | none => s
  if halts then offerBus codeStrikeOut (some x.segment) x.entry s else s

/-! ### Step 4: the walker (R85 to R97) -/

/-- Bytes of the record done so far (R85). -/
def countSoFar (t : Turn) (s : State) : Nat := (progressOf s t.head t.seg).1

/-- The slot after a SUCCESS that leaves the record current. -/
def keepSlot (t : Turn) (progress : Nat) (tailOnly : Bool) (s : State) : State :=
  setSlot (headEntry t.head)
    (some { record := t.record, kind := recKind t.seg, progress := progress, tailOnly := tailOnly }) s

/-- A SUCCESS of a PULL of d bytes at count g (R88, R94). -/
def pullAdvance (t : Turn) (x : Exchange) (d g : Nat) : Advance :=
  if t.cls = .stream then .completes (if d = recLength t.seg then .ok else .short) d
  else if recLength t.seg ≤ g + d then .completes .ok (g + d)
  else if d < x.maxPayload then .completes .short (g + d)
  else .stays (g + d) false

/-- What a SUCCESS makes of the record, by request. -/
def successAdvance (t : Turn) (x : Exchange) (g : Nat) : Advance :=
  match x.request with
  | .push n => pushAdvance t x n g
  | .open => .completes .ok 8
  | .pull _ => pullAdvance t x x.data.length g
  | _ => .stays g false

/-- The committed packet joins the Write Queue (R125), its end_xfer mark set if the record completes and ends a
transfer. -/
def queuePacket (t : Turn) (x : Exchange) (a : Advance) (s : State) : State :=
  match x.request with
  | .pull _ =>
    let marks := match a with
      | .completes _ _ => recEnd t.seg
      | .stays _ _ => false
    pumpQueue (enqueue (.packet x.data.length x.entry t.cls (field s.ctim.number 0 16) marks) s)
  | _ => s

/-- An outcome that leaves the record unfinished (R86, R88): STREAM completes it MISSED (R94), a burst may go on after
a DUPLICATE (R97), and otherwise the turn ends. -/
def unfinished (t : Turn) (o : XOutcome) (s : State) : State :=
  if t.cls = .stream then beginConsume t .missed 0 s
  else if o = .duplicate ∧ t.cls = .bulk then burstContinue t true s
  else endTurn t none s

/-- A SUCCESS (R86, R88, R94). -/
def succeeded (t : Turn) (x : Exchange) (s : State) : State :=
  let a := successAdvance t x (countSoFar t s)
  let s := queuePacket t x a s
  match a with
  | .completes code count => beginConsume t code count s
  | .stays progress tailOnly =>
    let s := keepSlot t progress tailOnly s
    if t.cls = .bulk then burstContinue t true s else endTurn t none s

/-- A REFUSED or a strike that halts the entry (R92): the record is not consumed, and the visit's status write carries
the stop. -/
def haltedOut (t : Turn) (code : RecCode) (cause : Cause) (s : State) : State :=
  endTurn t (some cause) (enqueue (recordItem t code (countSoFar t s)) s)

/-- The hand-over to the walker (R116 step 4). After a seal it makes no decision and queues nothing (R159). -/
def ringOutcome (x : Exchange) (o : XOutcome) (halts : Bool) (s : State) : State :=
  match s.walk.hand with
  | .turn t =>
    let t := { t with made := t.made + 1, last := some o }
    if s.seq.state = .sealed then setHand .nothing s
    else
      match o with
      | .cut => endTurn t none s
      | .success => succeeded t x s
      | .refused => haltedOut t .refused .refused s
      | _ => if halts then haltedOut t .strikeOut .strikeOut s else unfinished t o s
  | _ => s

/-! ### Step 5 and the whole (R116) -/

/-- A fence raised during the engagement is granted at its end (R70). -/
def grantFence (i : EntryIx) (s : State) : State :=
  setEntry i { getEntry s i with fenceGranted := (getEntry s i).fence } s

/-- The staging buffer becomes EMPTY when the exchange is CUT (R117): its own packet, and one staged ahead (log 17). -/
def cutStaging (o : XOutcome) (s : State) : State := if o = .cut then emptyStaging s else s

/-- The hand-over, and the exchange leaves the engine (R116 step 4, R139). -/
def handOver (x : Exchange) (o : XOutcome) (halts : Bool) (s : State) : State :=
  if x.direct then wakeWalker (directOutcome o x.data s) else ringOutcome x o halts s

/-- Outcome processing, in the order of R116. The engagement ends with it, and the fence is granted here, also where the record
is then fetched again and its items are queued later (R69, R90): DESIGN CHOICE, log 58. A burst's tests in the hand-over
come before the grant: DESIGN CHOICE, log 57. -/
def finish (o : XOutcome) (x : Exchange) (s : State) : State :=
  let halts := haltsByStrike x o s
  let s := outcomeLog x o halts (outcomeFifo x o (outcomeEntry x o s))
  grantFence x.entry (handOver x o halts { cutStaging o s with xeng := none })

/-- An event on a segment CUTs the exchange that is on it (R115). -/
def cutOn (g : Seg) (s : State) : State :=
  match s.xeng with
  | some x => if x.segment = g then finish .cut x s else s
  | none => s

end Sys2Proof.Machine
end

