-- ==== Sys2Proof/Machine/Exchange.lean ====
section
/-! DEFINITION. The Exchange Engine's events (7.1 to 7.4): the request frame, the reply window, classification, the ACCEPT,
and the cut-off at cycle end. -/

namespace Sys2Proof.Machine

/-! ### The request frame (R101) -/

def frameKindOf : Request → FrameKind
  | .push _ => .push
  | .open => .open
  | .pull _ => .pull
  | .peek _ => .peek
  | .poke _ => .poke

/-- The channel is always 0 for PEEK and POKE (R101). -/
def frameChannel (q : Request) (e : Entry) : BitVec 4 :=
  match q with
  | .peek _ => 0
  | .poke _ => 0
  | _ => e.channel

/-- seq of a request frame (R101). -/
def frameSeq (q : Request) (e : Entry) : Bool :=
  match q with
  | .push _ => e.seqOut
  | .pull _ => e.seqIn
  | _ => false

/-- size of a request frame (R101). -/
def frameSize (q : Request) : BitVec 10 :=
  match q with
  | .push n => BitVec.ofNat 10 n
  | .open => 8
  | .pull p => BitVec.ofNat 10 p
  | .peek _ => 3
  | .poke len => BitVec.ofNat 10 (2 + len)

/-- The bytes in the staging buffer. -/
def stagedBytes (s : State) : List Byte :=
  match s.stage.buf with
  | .staged _ b => b
  | _ => []

/-- The register number, low byte first (R101). -/
def regnumBytes (r : BitVec 16) : List Byte := [r.setWidth 8, (r >>> 8).setWidth 8]

/-- The payload of a request frame (R101): the staged bytes; a PEEK's register number and length; a POKE's register
number and its staged snapshot. -/
def framePayload (q : Request) (s : State) : List Byte :=
  let regnum := (s.dau.pending.head?.map DirReq.regnum).getD 0
  match q with
  | .push _ => stagedBytes s
  | .open => stagedBytes s
  | .pull _ => []
  | .peek len => regnumBytes regnum ++ [BitVec.ofNat 8 len]
  | .poke _ => regnumBytes regnum ++ stagedBytes s

/-- The request frame as built when it begins (R100, R101). -/
def requestFrame (x : Exchange) (s : State) : Frame :=
  let e := getEntry s x.entry
  { kind := frameKindOf x.request, address := e.address, channel := frameChannel x.request e,
    seqBit := frameSeq x.request e, size := frameSize x.request, payload := framePayload x.request s }

/-- The ACCEPT after a good DATA (R101): the address and channel of the request. -/
def acceptFrame (f : Frame) : Frame :=
  { kind := .accept, address := f.address, channel := f.channel, seqBit := false, size := 0, payload := [] }

/-- A chosen exchange may still begin (R16, R23, R24, R69, R101; log 7): no ring exchange starts for a halted entry (R75). -/
def mayBegin (x : Exchange) (s : State) : Bool :=
  let e := getEntry s x.entry
  (if x.direct then s.seq.state == .armed || s.seq.state == .running else s.seq.state == .running && !e.halted) &&
    !s.seq.restartInHand && !e.fenceGranted && segOpen s e.segment && usableDirect e

/-- A chosen exchange that may no longer begin is dropped (log 7): nothing was sent for it. A first exchange gives its
head's turn back, with its slots and its place in the rotation; a later one ends the visit. -/
def dropHeld (x : Exchange) (s : State) : State :=
  let s := wakeWalker { s with xeng := none }
  if x.direct then s
  else
    match s.walk.hand with
    | .turn t =>
      if s.seq.state = .sealed then setHand .nothing s
      else if 0 < t.made then endTurn t none s
      else
        let s := putBack t (setHand .nothing (releaseSlots s))
        if t.inPass && s.seq.state == .running then passAfter t.addr t.head.w0 s else s
    | _ => s

/-- EXCHANGE_START (R69): the request frame begins, built from the entry as it stands (R100). The packet stays as it was
cut when the exchange was chosen, also if payload_code has changed since (R74): DESIGN CHOICE, log 43. -/
def exchangeStart (s : State) : State :=
  match s.xeng with
  | some x =>
    if x.phase = .held then
      if mayBegin x s then
        { s with xeng := some { x with phase := .sending, segment := (getEntry s x.entry).segment,
                                       frame := some (requestFrame x s) } }
      else pumpQueue (dropHeld x s)
    else s
  | none => s

/-- REQUEST_SENT (R103, R117, R118): the reply window opens, the buffer the packet came from becomes EMPTY, and the
walker looks ahead. The frame of a PULL or PEEK takes no packet from the buffer, and R117 does not say whether it empties it too:
that it leaves what a look-ahead has STAGED there (R118) is DEDUCED, log 65. -/
def requestSent (s : State) : State :=
  match s.xeng with
  | some x =>
    if x.phase = .sending then
      let s := { s with xeng := some { x with phase := .window } }
      let s := match x.request with
        | .pull _ => s
        | .peek _ => s
        | _ => emptyStaging s
      lookAhead s
    else s
  | none => s

/-! ### The reply (R103 to R105) -/

/-- Bytes the Receive FIFO holds (R120). -/
def fifoBytes (r : Receive) : Nat := (r.fifo.map List.length).sum

/-- REPLY_BEGUN (R103, R104): the FIFO's room is that of this moment (R110). -/
def replyBegun (s : State) : State :=
  match s.xeng with
  | some x =>
    if x.phase = .window then
      { s with xeng := some { x with phase := .receiving, room := Config.fifoSize - fifoBytes s.rx } }
    else s
  | none => s

/-- The request is answered by ACCEPT (R105, order 5). -/
def wantsAccept : Request → Bool
  | .pull _ => false
  | .peek _ => false
  | _ => true

/-- The kinds allowed at order 5 (R105). -/
def kindFits (q : Request) (k : FrameKind) : Bool :=
  match k with
  | .accept => wantsAccept q
  | .data => !wantsAccept q
  | .defer => true
  | .refuse => true
  | .garbled => true
  | _ => false

/-- The channel is looked at except after PEEK or POKE (R105). -/
def channelMatters : Request → Bool
  | .peek _ => false
  | .poke _ => false
  | _ => true

/-- The largest DATA the request permits (R103). -/
def permitted : Request → Nat
  | .pull p => p
  | .peek len => len
  | _ => 0

/-- The reply does not belong to the request sent (R105, order 5; log 19). -/
def unsolicited (q : Request) (sent reply : Frame) : Bool :=
  !kindFits q reply.kind || reply.address != sent.address ||
  (channelMatters q && reply.channel != sent.channel) || (reply.kind != .data && !reply.payload.isEmpty)

/-- A DATA within its permitted length (R105, orders 10 to 12). -/
def classifyData (x : Exchange) (sent reply : Frame) : XOutcome :=
  match x.request with
  | .pull _ =>
    if reply.seqBit ≠ sent.seqBit then .duplicate
    else if x.room < reply.payload.length then .overrun
    else .success
  | _ => .success

/-- The classification of a complete frame (R105, orders 4 to 12). -/
def classifyFrame (x : Exchange) (sent reply : Frame) : XOutcome :=
  if reply.kind = .garbled then .garbled
  else if unsolicited x.request sent reply then .unsolicited
  else if reply.kind = .data ∧ permitted x.request < reply.payload.length then .overlong
  else
    match reply.kind with
    | .defer => .deferred
    | .refuse => .refused
    | .data => classifyData x sent reply
    | _ => .success

/-- The classification of what ended the reply window after a reply was begun (R104, R105). -/
def classify (x : Exchange) (sent : Frame) (r : Reply) : XOutcome :=
  match r with
  | .broken => .corrupt
  | .frame f => classifyFrame x sent f

/-- The bytes a good DATA brings. -/
def replyData : Reply → List Byte
  | .frame f => f.payload
  | .broken => []

/-- An ACCEPT is due after a DUPLICATE and after a good DATA (R105, orders 10 and 12). -/
def acceptDue (q : Request) (o : XOutcome) : Bool := !wantsAccept q && (o == .success || o == .duplicate)

/-- The frame on the wire; an exchange past its start always has one. -/
def sentFrame (x : Exchange) : Frame :=
  x.frame.getD { kind := .beacon, address := 0, channel := 0, seqBit := false, size := 0, payload := [] }

/-- REPLY_END (R103, R105): an ACCEPT is sent if one is due, otherwise the exchange ends. -/
def replyEnd (r : Reply) (s : State) : State :=
  match s.xeng with
  | some x =>
    if x.phase = .receiving then
      let o := classify x (sentFrame x) r
      if acceptDue x.request o then
        { s with xeng := some { x with phase := .accepting, accept := some (o, acceptFrame (sentFrame x)),
                                       data := if o = .success then replyData r else [] } }
      else pumpQueue (finish o x s)
    else s
  | none => s

/-- REPLY_TIMEOUT (R103): SILENCE. -/
def replyTimeout (s : State) : State :=
  match s.xeng with
  | some x => if x.phase = .window then pumpQueue (finish .silence x s) else s
  | none => s

/-- ACCEPT_SENT (R103): the exchange ends with the outcome its classification gave. -/
def acceptSent (s : State) : State :=
  match s.xeng with
  | some x =>
    match x.phase, x.accept with
    | .accepting, some (o, _) => pumpQueue (finish o x s)
    | _, _ => s
  | none => s

/-! ### The cut-off (R63) -/

/-- How the cut-off ends an exchange that waits for a reply: a free value (log 11). -/
def waitingEnd (s : State) : XOutcome := if Config.cutoffWhileWaitingIsSilence s.freeDraws then .silence else .cut

/-- The exchange ends where CYCLE_REMAIN reaches 0 (R63): OVERLONG while a reply is arriving, CUT while a frame is held
or being sent. -/
def cutoff (s : State) : State :=
  match s.xeng with
  | some x =>
    match x.phase with
    | .receiving => pumpQueue (finish .overlong x s)
    | .window => pumpQueue (finish (waitingEnd s) x { s with freeDraws := s.freeDraws + 1 })
    | _ => pumpQueue (finish .cut x s)
  | none => s

/-! ### The rows -/

/-- EXCHANGE_START. -/
def execExchangeStart (s : State) : Host.Outcome State Fault Refusal := .next (unlessHeld exchangeStart s)

/-- REQUEST_SENT. -/
def execRequestSent (s : State) : Host.Outcome State Fault Refusal := .next (unlessHeld requestSent s)

/-- REPLY_BEGUN. -/
def execReplyBegun (s : State) : Host.Outcome State Fault Refusal := .next (unlessHeld replyBegun s)

/-- REPLY_TIMEOUT. -/
def execReplyTimeout (s : State) : Host.Outcome State Fault Refusal := .next (unlessHeld replyTimeout s)

/-- REPLY_END. -/
def execReplyEnd (r : Reply) (s : State) : Host.Outcome State Fault Refusal := .next (unlessHeld (replyEnd r) s)

/-- ACCEPT_SENT. -/
def execAcceptSent (s : State) : Host.Outcome State Fault Refusal := .next (unlessHeld acceptSent s)

end Sys2Proof.Machine
end

