-- ==== Sys2Proof/Machine/Segments.lean ====
section
/-! DEFINITION. The Segment Managers (Chapter 3): bias, detach, the six segment operations, babble, wake requests,
SEG_CFG and the status registers. -/

namespace Sys2Proof.Machine

/-! ### Ignored operations (R46) -/

/-- cmd_ignored, which sets no interrupt (R48). -/
def flagIgnored (g : Seg) (s : State) : State := setSeg g { getSeg s g with cmdIgnored := true } s

/-- An operation the segment does not take (R46): cmd_ignored and SEG_CMD_IGNORED. -/
def ignoreOp (g : Seg) (s : State) : State := offerBus codeSegCmdIgnored (some g) 0 (flagIgnored g s)

/-! ### Leaving a state (R36, R38, R43) -/

/-- Steps 1 and 2 of R36: the exchange on the segment is CUT, and what is being driven stops. -/
def silenceSegment (g : Seg) (s : State) : State := stopDriving g (cutOn g s)

/-- The segment goes to a state that is not live, and the controller may fall to READY (R27). -/
def leaveTo (g : Seg) (m : SegMode) (s : State) : State :=
  pumpQueue (fallIfLast (segLive s g) (setMode g m (silenceSegment g s)))

/-! ### The six operations -/

/-- POWER (R37). -/
def segPower (g : Seg) (s : State) : State :=
  if (getSeg s g).mode = .dark ∧ (getSeg s g).allow = true then
    setMode g (if (getSeg s g).bias then .present else .idle) s
  else ignoreOp g s

/-- The states that take RESET (R38). -/
def takesReset : SegMode → Bool
  | .present => true
  | .enabled => true
  | .dozing => true
  | .waking => true
  | _ => false

/-- RESET (R38, R39): the valid entries of the segment are zeroed as part of the change. -/
def segReset (g : Seg) (s : State) : State :=
  if takesReset (getSeg s g).mode then
    pumpQueue (fallIfLast (segLive s g) (mapEntries (resetEntry g) (setMode g .resetting (silenceSegment g s))))
  else ignoreOp g s

/-- Entry to DARK clears the quarantine flag (R43 step 4, R158). -/
def clearQuarantine (g : Seg) (s : State) : State := setSeg g { getSeg s g with quarantined := false } s

/-- DISABLE (R43): taken in every state; in DARK it changes nothing. -/
def segDisable (g : Seg) (s : State) : State :=
  if (getSeg s g).mode = .dark then s
  else pumpQueue (fallIfLast (segLive s g) (setMode g .dark (clearQuarantine g (silenceSegment g s))))

/-- DOZE (R41): an exchange and a BEACON on the segment run on. -/
def segDoze (g : Seg) (s : State) : State :=
  if (getSeg s g).mode = .enabled then setMode g .dozing s else ignoreOp g s

/-- WAKE (R42). -/
def segWake (g : Seg) (s : State) : State :=
  if (getSeg s g).mode = .dozing then setMode g .waking s else ignoreOp g s

/-- RELEASE (R158). -/
def segRelease (g : Seg) (s : State) : State :=
  if (getSeg s g).quarantined = true ∧ (getSeg s g).mode ≠ .faulted ∧ fatalCode s.elog.busCode = false then
    wakeWalker (clearQuarantine g s)
  else ignoreOp g s

/-- A seg_op offered to one segment (R19, 2.2); NONE offers nothing, and 7 never reaches a segment (R18). -/
def offerOp (op : BitVec 3) (g : Seg) (s : State) : State :=
  match op.toNat with
  | 1 => segPower g s
  | 2 => segReset g s
  | 3 => segDisable g s
  | 4 => segDoze g s
  | 5 => segWake g s
  | 6 => segRelease g s
  | _ => s

/-- A command's seg_op offered to the segments it selects, A first (R19). -/
def offerOps (w : Word) (s : State) : State :=
  let s := if selectsA w then offerOp (segOp w) .a s else s
  if selectsB w then offerOp (segOp w) .b s else s

/-- The controller is in a state that takes segment operations (R16): every state but OFFLINE. -/
def unlessOffline (f : State → State) (s : State) : State := if s.seq.state = .offline then s else f s

/-! ### Line events (R34, R35, R42, R44) -/

/-- The filtered bias follows the line in every state (R34). -/
def setBias (g : Seg) (level : Bool) (s : State) : State :=
  setSeg g { getSeg s g with bias := level, biasPin := level } s

/-- BIAS_CHANGE (R34 to R36): a change that has held for 64 symbols; the same level again is no change (R163). -/
def biasChange (g : Seg) (level : Bool) (s : State) : State :=
  if (getSeg s g).bias = level then s
  else
    let s := setBias g level s
    match (getSeg s g).mode, level with
    | .dark, _ => s
    | .faulted, _ => s
    | .idle, true => setMode g .present s
    | .idle, false => s
    | _, true => s
    | _, false => leaveTo g .idle s

/-- The segment's own BEACON is being driven. One row ends the beacons of a cycle start (R57), so of one that is outlived State
does not tell whether it has ended, and `driving` does (log 30). -/
def beaconGoesOut (c : Segment) (driving : Bool) : Bool :=
  match c.beacon with
  | some b => driving || !b.outlived
  | none => false

/-- The master is sending on the segment, and so suspends the babble watch (R44): a beacon, its exchange's request frame, or
its ACCEPT. Where State does not tell, `driving` does: an ACCEPT being sent from one that the line's activity still holds
back (R101), and a beacon still going out from one that has ended before the time of the slower one started with it, which may
have been abandoned since (R56; log 30, log 33, log 56). -/
def masterSends (s : State) (g : Seg) (driving : Bool) : Bool :=
  beaconGoesOut (getSeg s g) driving ||
    match s.xeng with
    | some x => x.segment == g && (x.phase == .sending || (x.phase == .accepting && driving))
    | none => false

/-- Babble is watched (R33, R40, R42, R44; log 33). -/
def babbleWatched (s : State) (g : Seg) : Bool :=
  match (getSeg s g).mode with
  | .dark => false
  | .faulted => false
  | .resetting => decide (2 ≤ (getSeg s g).counted)
  | .waking => decide (1 ≤ (getSeg s g).counted)
  | _ => true

/-- The entry LINE_FAULT names: that of the exchange it CUTs, or 0 (R44 step 4). -/
def cutEntry (s : State) (g : Seg) : EntryIx :=
  match s.xeng with
  | some x => if x.segment = g then x.entry else 0
  | none => 0

/-- fault_seen, with the SEG interrupt (R48). -/
def flagFault (g : Seg) (s : State) : State := setEdge irqSeg (setSeg g { getSeg s g with faultSeen := true } s)

/-- BABBLE (R44), in the order of its steps; `driving` says that the master itself was driving the line. -/
def babble (g : Seg) (driving : Bool) (s : State) : State :=
  if babbleWatched s g && !masterSends s g driving then
    pumpQueue (fallIfLast (segLive s g)
      (offerBus codeLineFault (some g) (cutEntry s g) (flagFault g (setMode g .faulted (silenceSegment g s)))))
  else s

/-- An exchange is on the segment, so that wake requests are not recognised (R42). An exchange chosen before a DOZE whose request
frame has not begun is still held back (R101), and R42 does not say whether it was on the bus when DOZE was taken: that it was,
so that recognition begins when EXCHANGE_START drops it, is a DESIGN CHOICE, log 62. -/
def exchangeOn (s : State) (g : Seg) : Bool :=
  match s.xeng with
  | some x => x.segment == g
  | none => false

/-- wake_seen, with the SEG interrupt (R48), and whether the coming cycle start is the moment of the request (R42). -/
def flagWake (g : Seg) (atStart : Bool) (s : State) : State :=
  setEdge irqSeg (setSeg g { getSeg s g with wakeSeen := true, wakeAtStart := atStart } s)

/-- WAKE_REQUEST (R42). -/
def wakeRequest (g : Seg) (atStart : Bool) (s : State) : State :=
  if (getSeg s g).mode = .dozing ∧ exchangeOn s g = false then flagWake g atStart (setMode g .waking s) else s

/-! ### Registers (R47, R48) -/

/-- The segment's byte of a written SEG_CFG value. -/
def cfgByte (g : Seg) (v : Word) : BitVec 8 :=
  match g with
  | .a => field v 0 8
  | .b => field v 8 8

/-- rate and timeout may be changed (R47). -/
def mayRetime (m : SegMode) : Bool := m == .dark || m == .idle

/-- The write of one segment's byte (R47). -/
def writeSegCfgByte (g : Seg) (b : BitVec 8) (s : State) : State :=
  let c := getSeg s g
  let n := { c with allow := b.getLsbD 0, guarded := b.getLsbD 1 }
  if mayRetime c.mode then setSeg g { n with reduced := b.getLsbD 2, timeout := b.extractLsb' 3 2 } s
  else if b.getLsbD 2 = c.reduced ∧ b.extractLsb' 3 2 = c.timeout then setSeg g n s
  else ignoreOp g (setSeg g n s)

/-- A 32-bit write of SEG_CFG (R47). R47 does not order the two segments' SEG_CMD_IGNORED offers (R152) when a change is ignored
for both: segment A's first is a DESIGN CHOICE, log 64. -/
def writeSegCfg (v : Word) (s : State) : State :=
  writeSegCfgByte .b (cfgByte .b v) (writeSegCfgByte .a (cfgByte .a v) s)

/-- A 32-bit read of a segment status register (R48). -/
def readSegStatus (g : Seg) (s : State) : State :=
  let c := getSeg s g
  setSeg g { c with stateChanged := false, wakeSeen := false, faultSeen := false, cmdIgnored := false }
    { s with hport := { s.hport with readData := segStatusWord c } }

/-! ### The rows -/

/-- POWER. -/
def execPower (g : Seg) (s : State) : Host.Outcome State Fault Refusal :=
  .next (unlessHeld (unlessOffline (segPower g)) s)

/-- RESET. -/
def execReset (g : Seg) (s : State) : Host.Outcome State Fault Refusal :=
  .next (unlessHeld (unlessOffline (segReset g)) s)

/-- DISABLE. -/
def execDisable (g : Seg) (s : State) : Host.Outcome State Fault Refusal :=
  .next (unlessHeld (unlessOffline (segDisable g)) s)

/-- DOZE. -/
def execDoze (g : Seg) (s : State) : Host.Outcome State Fault Refusal :=
  .next (unlessHeld (unlessOffline (segDoze g)) s)

/-- WAKE. -/
def execWake (g : Seg) (s : State) : Host.Outcome State Fault Refusal :=
  .next (unlessHeld (unlessOffline (segWake g)) s)

/-- RELEASE. -/
def execRelease (g : Seg) (s : State) : Host.Outcome State Fault Refusal :=
  .next (unlessHeld (unlessOffline (segRelease g)) s)

/-- BIAS_CHANGE. -/
def execBiasChange (g : Seg) (level : Bool) (s : State) : Host.Outcome State Fault Refusal :=
  .next (unlessHeld (biasChange g level) s)

/-- BABBLE. -/
def execBabble (a : Activity) (s : State) : Host.Outcome State Fault Refusal :=
  .next (unlessHeld (babble a.seg a.driving) s)

/-- WAKE_REQUEST. -/
def execWakeRequest (g : Seg) (atStart : Bool) (s : State) : Host.Outcome State Fault Refusal :=
  .next (unlessHeld (wakeRequest g atStart) s)

/-- SEG_CFG_WRITE. -/
def execSegCfgWrite (v : Word) (s : State) : Host.Outcome State Fault Refusal :=
  .next (unlessHeld (writeSegCfg v) s)

/-- SEG_STATUS_READ. -/
def execSegStatusRead (g : Seg) (s : State) : Host.Outcome State Fault Refusal :=
  .next (if s.hport.heldInReset then heldRead s else readSegStatus g s)

end Sys2Proof.Machine
end

