-- ==== Sys2Proof/Machine/CycleTimer.lean ====
section
/-! DEFINITION. The Cycle Timer (Chapter 4): the cycle start in the order of R54, beacons, the windows' events, the
cut-off, one tick, and the writes of CYCLE_LEN and CYCLE_NUMBER. -/

namespace Sys2Proof.Machine

/-! ### The cycle start (R54) -/

/-- Step 1: the reload, and the number unless this is CONFIGURE's immediate cycle start (R55). -/
def startReload (count : Bool) (s : State) : State :=
  { s with ctim := { s.ctim with remain := s.ctim.len,
                                 number := if count then s.ctim.number + 1 else s.ctim.number } }

/-- Step 2: a pending length becomes effective, PERIODIC_OPEN and LATE_MARK are sampled (R51, R53). -/
def startSample (s : State) : State :=
  { s with ctim := { s.ctim with len := s.ctim.lenPending.getD s.ctim.len, lenPending := none,
                                 openSampled := s.ctim.periodicOpen, markSampled := s.ctim.lateMark } }

/-- The controller states that send beacons (R16). -/
def sendsBeacons : CtrlState → Bool
  | .offline => false
  | .ready => false
  | _ => true

/-- A segment that gets a beacon: ENABLED, or WAKING but for one that entered it at this very moment (R54 step 4, R42). -/
def getsBeacon (s : State) (g : Seg) : Bool :=
  sendsBeacons s.seq.state &&
    ((getSeg s g).mode == .enabled || ((getSeg s g).mode == .waking && !(getSeg s g).wakeAtStart))

/-- The BEACON the segment is sent: the low 16 bits of CYCLE_NUMBER, and whether the other segment's, started with it, takes
longer, being at Reduced rate where this one is at Standard rate (R56; log 30). -/
def beaconOf (s : State) (g : Seg) : Beacon :=
  { payload := field s.ctim.number 0 16,
    outlived := getsBeacon s (otherSeg g) && (getSeg s (otherSeg g)).reduced && !(getSeg s g).reduced }

/-- Step 4 for one segment (R54, R56). -/
def startBeacon (g : Seg) (s : State) : State :=
  if getsBeacon s g then setSeg g { getSeg s g with beacon := some (beaconOf s g) } s
  else stopDriving g s

/-- The BEACON as a frame (R56): address 0, the number's low 16 bits, low byte first. -/
def beaconFrame (payload : BitVec 16) : Frame :=
  { kind := .beacon, address := 0, channel := 0, seqBit := false, size := 2,
    payload := [payload.setWidth 8, (payload >>> 8).setWidth 8] }

/-- A beacon is being sent. -/
def beaconsOut (s : State) : Bool := s.segA.beacon.isSome || s.segB.beacon.isSome

/-- A turn in hand is no longer a step of a pass once the pass is abandoned (R54 step 5). -/
def leavePass : Hand → Hand
  | .turn t => .turn { t with inPass := false }
  | h => h

/-- Step 5: the walker's per-cycle state (R54, R99), the anchors written since the last latch (R78) and the staging
buffer (R117). -/
def startWalker (latch : State → State) (s : State) : State :=
  let s := abandonDecision s
  wakeWalker (latch (stageAtCycleStart
    { s with walk := { s.walk with
        window := if beaconsOut s then .starting else .early, timedDone := false, streamDone := false, pass := none,
        aperiodicOver := false, hand := leavePass s.walk.hand } }))

/-- Step 6 for one segment (R40, R42), `pin` being the raw bias. -/
def countStart (g : Seg) (pin : Bool) (s : State) : State :=
  let c := getSeg s g
  match c.mode with
  | .resetting =>
    if c.counted + 1 = 3 then setMode g (if pin then .enabled else .idle) s
    else setSeg g { c with counted := c.counted + 1 } s
  | .waking =>
    if c.wakeAtStart then setSeg g { c with wakeAtStart := false } s
    else if c.counted + 1 = 2 then setMode g .enabled s
    else setSeg g { c with counted := c.counted + 1 } s
  | _ => s

/-- Step 7: STOPPING becomes ARMED (R28); READY becomes ARMED if step 6 made a segment live (R27), unless a RESTART is
in hand (R24). -/
def startTransitions (wasLive : Bool) (s : State) : State :=
  match s.seq.state with
  | .stopping => setCtrl .armed s
  | .ready => if !wasLive && anyLive s && !s.seq.restartInHand then setCtrl .armed s else s
  | _ => s

/-- The actions of a cycle start, in the order of R54. -/
def cycleActions (pinA pinB : Bool) (s : State) : State :=
  let s := setEdge irqCycle (startSample (startReload true s))
  let s := startBeacon .b (startBeacon .a s)
  let s := startWalker latchWritten s
  startTransitions (anyLive s) (countStart .b pinB (countStart .a pinA s))

/-- The raw levels at the bias sense inputs. -/
def setPins (pinA pinB : Bool) (s : State) : State :=
  { s with segA := { s.segA with biasPin := pinA }, segB := { s.segB with biasPin := pinB } }

/-- CYCLE_START (R54). An exchange still on the bus has met the cut-off one tick before (R63, log 3). -/
def cycleStart (pinA pinB : Bool) (s : State) : State :=
  if s.seq.state = .offline then s
  else pumpQueue (cycleActions pinA pinB (setPins pinA pinB (cutoff s)))

/-- CONFIGURE's immediate cycle start (R55): steps 1 (but for the number), 2, 3 and 5, with all four anchors latched
(R78). -/
def immediateCycleStart (s : State) : State :=
  startWalker latchAll (setEdge irqCycle (startSample (startReload false s)))

/-! ### Within a cycle (R57, R63) -/

/-- BEACON_END (R57): the early window opens. -/
def beaconEnd (s : State) : State :=
  if s.walk.window = .starting then
    wakeWalker { stopDriving .b (stopDriving .a s) with
      walk := { (stopDriving .b (stopDriving .a s)).walk with window := .early } }
  else s

/-- PERIODIC_OPEN_REACHED (R57): the countdown comes to the sampled PERIODIC_OPEN (log 3). -/
def periodicOpenReached (s : State) : State :=
  if s.seq.state = .offline ∨ s.ctim.remain.toNat < s.ctim.openSampled.toNat then s
  else wakeWalker { s with ctim := { s.ctim with remain := s.ctim.openSampled } }

/-- CYCLE_END_CUTOFF (R63): the countdown comes to 0 with an exchange on the bus (log 3). -/
def cycleEndCutoff (s : State) : State :=
  if s.seq.state = .offline ∨ s.xeng.isNone then s
  else cutoff { s with ctim := { s.ctim with remain := 0 } }

/-- One tick (R49): what passes when no command waits (log 1). -/
def tick (s : State) : State :=
  if s.hport.heldInReset || s.seq.state == .offline then s
  else if s.ctim.remain = 0 then cycleStart s.segA.biasPin s.segB.biasPin s
  else
    let s := { s with ctim := { s.ctim with remain := s.ctim.remain - 1 } }
    let s := if s.ctim.remain = s.ctim.openSampled then wakeWalker s else s
    if s.ctim.remain = 0 then cutoff s else s

/-! ### Registers (R50, R52) -/

/-- The two tests of R50. -/
def lenAccepted (v len : BitVec 13) : Bool :=
  decide (7840 ≤ v.toNat) && decide (v.toNat ≤ 8159) && decide (v.toNat ≤ len.toNat + 8) && decide (len.toNat ≤ v.toNat + 8)

/-- A 32-bit write of CYCLE_LEN (R50, R51). -/
def writeCycleLen (v : Word) (s : State) : State :=
  if lenAccepted (field v 0 13) s.ctim.len then { s with ctim := { s.ctim with lenPending := some (field v 0 13) } }
  else offerBus codeCycleLenRefused none 0 s

/-- A 32-bit write of CYCLE_NUMBER (R52): taken only in READY. -/
def writeCycleNumber (v : Word) (s : State) : State :=
  if s.seq.state = .ready then { s with ctim := { s.ctim with number := v } } else s

/-! ### The rows -/

/-- CYCLE_START. -/
def execCycleStart (pinA pinB : Bool) (s : State) : Host.Outcome State Fault Refusal :=
  .next (unlessHeld (cycleStart pinA pinB) s)

/-- BEACON_END. -/
def execBeaconEnd (s : State) : Host.Outcome State Fault Refusal := .next (unlessHeld beaconEnd s)

/-- PERIODIC_OPEN_REACHED. -/
def execPeriodicOpenReached (s : State) : Host.Outcome State Fault Refusal := .next (unlessHeld periodicOpenReached s)

/-- CYCLE_END_CUTOFF. -/
def execCycleEndCutoff (s : State) : Host.Outcome State Fault Refusal := .next (unlessHeld cycleEndCutoff s)

/-- CYCLE_LEN_WRITE. -/
def execCycleLenWrite (v : Word) (s : State) : Host.Outcome State Fault Refusal :=
  .next (unlessHeld (writeCycleLen v) s)

/-- CYCLE_NUMBER_WRITE. -/
def execCycleNumberWrite (v : Word) (s : State) : Host.Outcome State Fault Refusal :=
  .next (unlessHeld (writeCycleNumber v) s)

end Sys2Proof.Machine
end

