-- ==== Sys2Proof/Machine/Sequencer.lean ====
section
/-! DEFINITION. The Sequencer (Chapter 2): the write of SEQ_CMD, the checks of a command, the six control operations, the
restart and offline actions, and SEQ_STATUS. -/

namespace Sys2Proof.Machine

/-! ### The write (R17) -/

/-- A refusal (R17, R18, R30, R31): cmd_refused, the reason and the SEQ interrupt. -/
def recordRefusal (r : RefuseReason) (s : State) : State :=
  setEdge irqSeq { s with seq := { s.seq with cmdRefused := true, refuseReason := r } }

/-- A 32-bit write of SEQ_CMD (R17). -/
def writeSeqCmd (v : Word) (s : State) : State :=
  if s.seq.busy then recordRefusal .busy s
  else { s with seq := { s.seq with busy := true, command := some v } }

/-! ### Taking a command (R18, R19) -/

/-- The command in hand is finished (R17). -/
def finishCommand (s : State) : State := { s with seq := { s.seq with busy := false, command := none } }

/-- Check 3 of R18 for each ctrl_op. -/
def stateRefusal (op : BitVec 3) (s : State) : RefuseReason :=
  match op.toNat, s.seq.state with
  | 0, _ => .none
  | 1, .offline => .wrongState
  | 1, .sealed => if fatalCode s.elog.hostCode then .logFatal else .none
  | 1, _ => .none
  | 2, _ => .none
  | 3, .offline => .none
  | 3, _ => .wrongState
  | 4, .ready => .noSegment
  | 4, .offline => .wrongState
  | 4, .sealed => .wrongState
  | 4, _ => .none
  | 5, .running => .none
  | 5, .stopping => .none
  | 5, _ => .wrongState
  | _, _ => .illegalOp

/-- The checks of R18, in order; none accepts. -/
def commandRefusal (w : Word) (s : State) : RefuseReason :=
  if 6 ≤ (ctrlOp w).toNat then .illegalOp
  else if ctrlOp w ≠ 1 ∧ ctrlOp w ≠ 2 ∧ segOp w = 7 then .illegalOp
  else if stateRefusal (ctrlOp w) s ≠ .none then stateRefusal (ctrlOp w) s
  else if s.seq.state = .offline ∧ ctrlOp w = 0 ∧ segOp w ≠ 0 then .wrongState
  else .none

/-- Takes the pending command if its ctrl_op is this one: refused by R18, or carried out. A RESTART in hand is already
taken, so its command is no longer pending. -/
def takeCommand (op : BitVec 3) (accept : Word → State → State) (s : State) : State :=
  match s.seq.command with
  | none => s
  | some w =>
    if ctrlOp w = op then
      match commandRefusal w s with
      | .none => accept w s
      | reason => finishCommand (recordRefusal reason s)
    else s

/-! ### NOP, CONFIGURE, RUN, STOP (R20 to R23) -/

/-- An accepted NOP (R20). -/
def acceptNop (w : Word) (s : State) : State := finishCommand (offerOps w s)

/-- An accepted CONFIGURE (R21). -/
def acceptConfigure (w : Word) (s : State) : State :=
  finishCommand (offerOps w (immediateCycleStart (setCtrl .ready s)))

/-- An accepted RUN (R22). -/
def acceptRun (w : Word) (s : State) : State := finishCommand (offerOps w (setCtrl .running s))

/-- An accepted STOP (R23); a burst that it ends queues its visit's status write. -/
def acceptStop (w : Word) (s : State) : State :=
  finishCommand (offerOps w (if s.seq.state = .stopping then s else pumpQueue (setCtrl .stopping s)))

/-! ### RESTART (R24, R162) -/

/-- What RESTART makes of the walker's work (R24, R81; log 26): a turn whose exchange is under way, or whose record is at hand to
be consumed or skipped, goes on; one that waits for a record, or for a burst's next exchange, ends with the head status write
that its visit or its skip steps owe; a decision in progress is given up. -/
def handAtRestart (s : State) : State :=
  match s.walk.hand with
  | .turn t =>
    match t.phase with
    | .exchanging => s
    | .refetched _ _ _ => s
    | .skipGot _ _ => s
    | .skipFetch link => finishSkip t link false s
    | .refetch _ _ => endTurn t none s
    | .burstFetch => endTurn t none s
    | .burstReady => endTurn t none s
  | _ => setHand .nothing (releaseSlots s)

/-- An accepted RESTART up to its wait (R24 steps 1 and 2): busy stays 1. -/
def acceptRestart (_w : Word) (s : State) : State :=
  handAtRestart (setLook .nothing (cancelAllReads { s with
    seq := { s.seq with command := none, restartInHand := true, restartFaulted := false } }))

/-- The wait of RESTART has ended (R24 step 2): no exchange on the bus and none being processed, no host-memory access
outstanding, no part of a seal outstanding. -/
def restartReady (s : State) : Bool :=
  s.seq.restartInHand && s.xeng.isNone && s.hport.reads.isEmpty && s.hport.write.isNone && !s.seq.sealPending &&
    decide (s.walk.hand = .nothing)

/-- A periodic pass in progress is marked done for the cycle (R162 step 2, R99). -/
def closeOpenPass (s : State) : State :=
  match s.walk.pass with
  | none => s
  | some _ =>
    { s with walk := { s.walk with pass := none, streamDone := s.walk.streamDone || s.walk.timedDone,
                                   timedDone := true } }

/-- Every progress slot is emptied (R85). -/
def emptySlots (s : State) : State := { s with walk := { s.walk with slots := Vector.replicate 64 none } }

/-- The attention queue is emptied (R148). -/
def emptyAttn (s : State) : State := { s with aiu := { s.aiu with queue := [] } }

/-- The restart actions, in the order of R162. -/
def restartActionsBody (s : State) : State :=
  let s := emptyStaging (discardQueue s)
  let s := closeOpenPass (emptySlots (latchAll s))
  mapEntries (fun e => { e with fenceGranted := e.fence }) (emptyAttn (emptyLists s))

/-- The state RESTART ends in (R24 step 4, and its fault case). -/
def restartState (s : State) : CtrlState :=
  if s.seq.restartFaulted then .sealed else if anyLive s then .armed else .ready

/-- RESTART_ACTIONS (R24 steps 3 to 5, R162). -/
def restartActions (s : State) : State :=
  if restartReady s then
    let s := restartActionsBody s
    let s := setCtrl (restartState s) s
    wakeWalker (setEdge irqSeq { finishCommand s with
      seq := { (finishCommand s).seq with restartInHand := false, restartFaulted := false } })
  else s

/-! ### OFFLINE (R25, R161) -/

/-- A segment after OFFLINE (R25 step 3, R48): DARK, drivers off, no quarantine, no flags; SEG_CFG and the bias filter
are kept. -/
def Segment.offline (g : Segment) : Segment :=
  { g with mode := .dark, quarantined := false, stateChanged := false, wakeSeen := false, faultSeen := false,
           cmdIgnored := false, counted := 0, wakeAtStart := false, beacon := none }

/-- The exchange in progress ends CUT (R25 step 1). -/
def cutAny (s : State) : State :=
  match s.xeng with
  | some x => finish .cut x s
  | none => s

/-- The timer stops (R25 step 2, R49, R51): CYCLE_NUMBER 0, CYCLE_REMAIN the reload value, no pending length. -/
def stopTimer (s : State) : State :=
  { s with ctim := { s.ctim with remain := s.ctim.len, number := 0, lenPending := none } }

/-- The walker after OFFLINE (R161 step 2): the anchor registers are kept. -/
def Walker.offline (w : Walker) : Walker :=
  { w with latched := Vector.replicate 4 0, service := Rotation.empty, bulk := Rotation.empty,
           slots := Vector.replicate 64 none, window := .stopped, timedDone := false, streamDone := false, pass := none,
           aperiodicOver := false, waiting := false, turnOver := false, hand := .nothing, look := .nothing }

/-- The offline actions, in the order of R161. -/
def offlineActions (s : State) : State :=
  let s := mapEntries (fun e => { e with valid := false, fence := false, fenceGranted := false }) s
  let s := emptyStaging { s with walk := s.walk.offline }
  let s := emptyAttn (emptyLists (discardQueue s))
  { s with aiu := { s.aiu with edges := s.aiu.edges &&& (1#11 <<< irqSeq) } }

/-- An accepted OFFLINE (R25); in OFFLINE it changes nothing. What is outstanding on the host bus is left to finish. One taken between the two parts of a seal empties the direct
lists by R144, without the flush and fill of R143: DESIGN CHOICE, log 44. -/
def acceptOffline (_w : Word) (s : State) : State :=
  if s.seq.state = .offline then finishCommand s
  else
    let s := stopTimer (cutAny s)
    let s := { s with segA := s.segA.offline, segB := s.segB.offline }
    let s := leaveOutstanding (cancelAllReads (offlineActions s))
    finishCommand (setEdge irqSeq { s with
      seq := { s.seq with state := .offline, restartInHand := false, restartFaulted := false, sealPending := false } })

/-! ### The second part of a seal (R159) -/

/-- SEAL_COMPLETION (R159 steps 5 to 7): at the end of the exchange in progress, or at once if there is none. -/
def sealCompletion (s : State) : State :=
  if s.seq.sealPending && s.xeng.isNone then
    let s := discardQueue s
    sealFlush { s with seq := { s.seq with sealPending := false } } s.dau.pending.length
  else s

/-! ### SEQ_STATUS (R30) -/

/-- A 32-bit write of SEQ_STATUS (R30). -/
def writeSeqStatus (v : Word) (s : State) : State :=
  { s with seq := { s.seq with
      refuseReason := if bitAt v 12 && s.seq.cmdRefused then .none else s.seq.refuseReason,
      cmdRefused := s.seq.cmdRefused && !bitAt v 12,
      tableRefused := s.seq.tableRefused && !bitAt v 13,
      writesDiscarded := s.seq.writesDiscarded && !bitAt v 14 } }

/-! ### The rows -/

/-- NOP. -/
def execNop (s : State) : Host.Outcome State Fault Refusal := .next (unlessHeld (takeCommand 0 acceptNop) s)

/-- CONFIGURE. -/
def execConfigure (s : State) : Host.Outcome State Fault Refusal :=
  .next (unlessHeld (takeCommand 3 acceptConfigure) s)

/-- RUN. -/
def execRun (s : State) : Host.Outcome State Fault Refusal := .next (unlessHeld (takeCommand 4 acceptRun) s)

/-- STOP. -/
def execStop (s : State) : Host.Outcome State Fault Refusal := .next (unlessHeld (takeCommand 5 acceptStop) s)

/-- RESTART. -/
def execRestart (s : State) : Host.Outcome State Fault Refusal := .next (unlessHeld (takeCommand 1 acceptRestart) s)

/-- RESTART_ACTIONS. -/
def execRestartActions (s : State) : Host.Outcome State Fault Refusal := .next (unlessHeld restartActions s)

/-- OFFLINE. -/
def execOffline (s : State) : Host.Outcome State Fault Refusal := .next (unlessHeld (takeCommand 2 acceptOffline) s)

/-- A pending command whose ctrl_op is 6 or 7 is refused (R18 check 1). -/
def illegalOp (s : State) : State := takeCommand 7 (fun _ s => s) (takeCommand 6 (fun _ s => s) s)

/-- ILLEGAL_OP_REFUSED. -/
def execIllegalOpRefused (s : State) : Host.Outcome State Fault Refusal := .next (unlessHeld illegalOp s)

/-- SEQ_CMD_WRITE. -/
def execSeqCmdWrite (v : Word) (s : State) : Host.Outcome State Fault Refusal := .next (unlessHeld (writeSeqCmd v) s)

/-- SEAL_COMPLETION. -/
def execSealCompletion (s : State) : Host.Outcome State Fault Refusal := .next (unlessHeld sealCompletion s)

/-- SEQ_STATUS_WRITE. -/
def execSeqStatusWrite (v : Word) (s : State) : Host.Outcome State Fault Refusal :=
  .next (unlessHeld (writeSeqStatus v) s)

end Sys2Proof.Machine
end

