-- ==== Sys2Proof/Machine/Table.lean ====
section
/-! DEFINITION. Software writes to the Station Table through its window (5.3, R65, R70 to R72). -/

namespace Sys2Proof.Machine

/-- The entry is open to every write: not valid, or fenced (R71). -/
def writable (e : Entry) : Bool := !e.valid || e.fenceGranted

/-- The test of R71 for W0: valid written 0, an open entry, or no field other than fence changed. -/
def acceptsW0 (e : Entry) (v : Word) : Bool := !bitAt v 0 || writable e || decide (withW0 e v = e)

/-- The test of R71 for W1. What would be stored is compared: a written fault of 3 is stored as 0 (5.2), so it changes
nothing where fault is 0. DESIGN CHOICE, log 46: R71 compares the written field. -/
def acceptsW1 (e : Entry) (v : Word) : Bool := writable e || decide (withW1 e v = e)

/-- The handshake (R70): a raised fence is granted at once unless the entry is engaged; a lowered one clears the grant. -/
def applyFence (raise isEngaged : Bool) (e : Entry) : Entry :=
  if raise then
    (if e.fence then e else { e with fence := true, fenceGranted := !isEngaged })
  else { e with fence := false, fenceGranted := false }

/-- The counters are cleared when an accepted write makes the entry valid (R68). -/
def clearCounts (old new : Entry) : Entry :=
  if !old.valid && new.valid then { new with doneCount := 0, deferCount := 0 } else new

/-- The entry after a W0 write (R70, R71). -/
def entryAfterW0 (e : Entry) (v : Word) (isEngaged : Bool) : Entry :=
  applyFence (bitAt v 1) isEngaged (if acceptsW0 e v then clearCounts e (withW0 e v) else e)

/-- The exchange in progress is marked: software rewrote its entry (R72). -/
def markRewritten (s : State) : State := { s with xeng := s.xeng.map (fun x => { x with rewritten := true }) }

/-- A refused entry write (R71): table_refused and TABLE_WRITE_REFUSED. -/
def refuseTable (i : EntryIx) (g : Seg) (s : State) : State :=
  offerBus codeTableWriteRefused (some g) i { s with seq := { s.seq with tableRefused := true } }

/-- What follows an accepted write (R72, R95): the mark, if the write needed no fence on an engaged entry (log 18), and
another decision. -/
def afterAccepted (i : EntryIx) (rewrites : Bool) (s : State) : State :=
  wakeWalker (if engaged s i && rewrites then markRewritten s else s)

/-- A 32-bit write of ENTRY_W0 (R64, R70, R71). -/
def writeEntryW0 (v : Word) (s : State) : State :=
  let i := s.select
  let e := getEntry s i
  if i = 0 then s
  else
    let t := setEntry i (entryAfterW0 e v (engaged s i)) s
    if acceptsW0 e v then afterAccepted i (!bitAt v 0 || writable e) t else refuseTable i e.segment t

/-- A 32-bit write of ENTRY_W1 (R64, R71). -/
def writeEntryW1 (v : Word) (s : State) : State :=
  let i := s.select
  let e := getEntry s i
  if i = 0 then s
  else if acceptsW1 e v then afterAccepted i (writable e) (setEntry i (withW1 e v) s)
  else refuseTable i e.segment s

/-- ENTRY_W0_WRITE. -/
def execEntryW0Write (v : Word) (s : State) : Host.Outcome State Fault Refusal :=
  .next (unlessHeld (writeEntryW0 v) s)

/-- ENTRY_W1_WRITE. -/
def execEntryW1Write (v : Word) (s : State) : Host.Outcome State Fault Refusal :=
  .next (unlessHeld (writeEntryW1 v) s)

end Sys2Proof.Machine
end

