-- ==== Sys2Proof/Machine/HostPort.lean ====
section
/-! DEFINITION. The Host Port (Chapter 1): writes at any offset and width (R1 to R3, R5), and error completions of the
controller's own accesses (R13, R14). -/

namespace Sys2Proof.Machine

/-! ### Register writes (R1 to R3) -/

/-- A 32-bit write of GLOBAL_CTL (R7, R8). -/
def writeGlobalCtl (v : Word) (s : State) : State :=
  if bitAt v 0 then hardReset s.segA.biasPin s.segB.biasPin s
  else { s with hport := { s.hport with fill := bitAt v 1 } }

/-- A 32-bit write of DIRECT_REQ with the written word (9.2). -/
def writeDirectReq (v : Word) (s : State) : State := directRequest (bitAt v 0) (field v 4 6) (field v 16 6) (field v 24 4) s

/-- A 32-bit write of a register at its offset (1.2, R3). A read-only register and an unimplemented offset ignore it
(R2). -/
def writeRegister (off : Nat) (v : Word) (s : State) : State :=
  match off with
  | 0x004 => writeGlobalCtl v s
  | 0x008 => writeSeqCmd v s
  | 0x00C => writeSeqStatus v s
  | 0x018 => writeSegCfg v s
  | 0x020 => writeCycleLen v s
  | 0x028 => writeCycleNumber v s
  | 0x02C => { s with ctim := { s.ctim with periodicOpen := field v 0 13 } }
  | 0x030 => { s with ctim := { s.ctim with lateMark := field v 0 10 } }
  | 0x040 => writeAnchor .service v s
  | 0x044 => writeAnchor .bulk v s
  | 0x048 => writeAnchor .timed v s
  | 0x04C => writeAnchor .stream v s
  | 0x050 => writeRxBase v s
  | 0x054 => writeRxSize v s
  | 0x05C => writeRxReturn v s
  | 0x060 => { s with select := field v 0 6 }
  | 0x064 => writeEntryW0 v s
  | 0x068 => writeEntryW1 v s
  | 0x084 => writeAttnStatus v s
  | 0x090 => { s with dau := { s.dau with arg := field v 0 16 } }
  | 0x094 => writeDirectReq v s
  | 0x098 => writeDirectStatus v s
  | 0x0A0 => writeIrqPending v s
  | 0x0A4 => writeIrqMask v s
  | 0x0C0 => writeLogCtl v s
  | _ => s

/-- The Bank's place in the window (R5). -/
def inBank (off : Nat) : Bool := decide (0x100 ≤ off) && decide (off < 0x140)

/-- A 32-bit write at an offset of the window; a misaligned one is ignored (R1, R5). -/
def writeWord (off : Nat) (v : Word) (s : State) : State :=
  if off % 4 ≠ 0 then s
  else if inBank off then writeBank (off - 0x100) .word (v.setWidth 64) s
  else writeRegister off v s

/-- A write at an offset of the window, of any width (R1): a narrow one acts on the Bank alone; a wider one is two
32-bit writes in ascending order. -/
def registerWrite (off : Nat) (w : Width) (v : BitVec 64) (s : State) : State :=
  match w with
  | .byte => if inBank off then writeBank (off - 0x100) .byte v s else s
  | .half => if inBank off then writeBank (off - 0x100) .half v s else s
  | .word => writeWord off (v.setWidth 32) s
  | .dword => writeWord (off + 4) ((v >>> 32).setWidth 32) (writeWord off (v.setWidth 32) s)

/-! ### Register reads (R1 to R3) -/

/-- What a 32-bit read does beside returning its value (R3): it clears a segment's change flags (R48) or pops a list (R141,
R147). -/
def readEffect (off : Nat) (s : State) : State :=
  match off with
  | 0x010 => readSegStatus .a s
  | 0x014 => readSegStatus .b s
  | 0x080 => popAttn s
  | 0x09C => popDone s
  | _ => s

/-- A 32-bit read at an offset of the window: its value and the state after it. -/
def wordRead (off : Nat) (s : State) : Word × State := (readWord s off, unlessHeld (readEffect off) s)

/-- A read at an offset of the window, of any width (R1, R5): a narrow one has no side effect; a wider one is two 32-bit
reads in ascending order, the second on the state the first leaves. -/
def registerRead (off : Nat) (w : Width) (s : State) : BitVec 64 × State :=
  match w with
  | .byte => ((readNarrow s off false).setWidth 64, s)
  | .half => ((readNarrow s off true).setWidth 64, s)
  | .word => ((wordRead off s).1.setWidth 64, (wordRead off s).2)
  | .dword =>
    let low := wordRead off s
    let high := wordRead (off + 4) low.2
    (high.1 ++ low.1, high.2)

/-! ### Error completions (R13, R14) -/

/-- The failing access starts this far into what was asked for: anywhere in a packet's bytes, at the start of a record
(R11, R13; log 28). -/
def offsetFits (kind : BitVec 4) (len : Nat) (offset : BitVec 10) : Bool :=
  if kind == 4 || kind == 8 then decide (offset.toNat < len) else offset == 0

/-- The read channel's access fails (R13): the fault is taken, and the access leaves the stream. Where the fault seals, no
read behind it is issued (R14); where it does not, the next one is. -/
def readFault (offset : BitVec 10) (s : State) : State :=
  match s.hport.reads with
  | [] => s
  | r :: _ =>
    if offsetFits r.kind r.len offset then
      popRead (accessFault r.left (faultCodeOf r.kind) r.kind (r.addr + offset.setWidth 32) s)
    else s

/-- The write channel's access fails (R13, R130): its item is not performed and counts as abandoned (R131, log 25). Where the
fault does not seal, the queue's next write is issued (R14). -/
def writeFault (offset : BitVec 10) (s : State) : State :=
  match s.hport.write with
  | none => s
  | some w =>
    if offsetFits w.kind w.bytes.length offset then
      pumpQueue (accessFault w.left (faultCodeOf w.kind) w.kind (w.addr + offset.setWidth 32)
        { s with hport := { s.hport with write := none },
                 wq := { s.wq with started := s.wq.started && (w.left || !w.live && !s.seq.sealPending) } })
    else s

/-- HOST_MEMORY_FAULT (R13). -/
def hostMemoryFault (c : Chan) (offset : BitVec 10) (s : State) : State :=
  match c with
  | .read => readFault offset s
  | .write => writeFault offset s

/-! ### The rows -/

/-- HOST_MEMORY_FAULT. -/
def execHostMemoryFault (c : Chan) (offset : BitVec 10) (s : State) : Host.Outcome State Fault Refusal :=
  .next (unlessHeld (hostMemoryFault c offset) s)

/-- REGISTER_WRITE. -/
def execRegisterWrite (off : BitVec 9) (w : Width) (v : BitVec 64) (s : State) : Host.Outcome State Fault Refusal :=
  .next (unlessHeld (registerWrite off.toNat w v) s)

end Sys2Proof.Machine
end

