-- ==== Sys2Proof/Machine/Dispatch.lean ====
section
/-! DEFINITION. One arm per command: the direct call of its meaning. -/

namespace Sys2Proof.Machine

/-- The effect of a command on everything but the queue. -/
def exec (i : Instr) (s : State) : Host.Outcome State Fault Refusal :=
  match i with
  | .powerOnReset biasA biasB => Sys2Proof.Machine.execPowerOnReset biasA biasB s
  | .hardReset biasA biasB => Sys2Proof.Machine.execHardReset biasA biasB s
  | .nop => Sys2Proof.Machine.execNop s
  | .configure => Sys2Proof.Machine.execConfigure s
  | .run => Sys2Proof.Machine.execRun s
  | .stop => Sys2Proof.Machine.execStop s
  | .restart => Sys2Proof.Machine.execRestart s
  | .restartActions => Sys2Proof.Machine.execRestartActions s
  | .offline => Sys2Proof.Machine.execOffline s
  | .power g => Sys2Proof.Machine.execPower g s
  | .reset g => Sys2Proof.Machine.execReset g s
  | .disable g => Sys2Proof.Machine.execDisable g s
  | .doze g => Sys2Proof.Machine.execDoze g s
  | .wake g => Sys2Proof.Machine.execWake g s
  | .release g => Sys2Proof.Machine.execRelease g s
  | .biasChange g level => Sys2Proof.Machine.execBiasChange g level s
  | .babble a => Sys2Proof.Machine.execBabble a s
  | .wakeRequest g atCycleStart => Sys2Proof.Machine.execWakeRequest g atCycleStart s
  | .cycleStart biasA biasB => Sys2Proof.Machine.execCycleStart biasA biasB s
  | .beaconEnd => Sys2Proof.Machine.execBeaconEnd s
  | .periodicOpenReached => Sys2Proof.Machine.execPeriodicOpenReached s
  | .cycleEndCutoff => Sys2Proof.Machine.execCycleEndCutoff s
  | .walkerDecision => Sys2Proof.Machine.execWalkerDecision s
  | .requestSent => Sys2Proof.Machine.execRequestSent s
  | .replyTimeout => Sys2Proof.Machine.execReplyTimeout s
  | .replyEnd r => Sys2Proof.Machine.execReplyEnd r s
  | .acceptSent => Sys2Proof.Machine.execAcceptSent s
  | .stagingFillDone bytes => Sys2Proof.Machine.execStagingFillDone bytes s
  | .recordFetchDone w0 w1 w2 w3 => Sys2Proof.Machine.execRecordFetchDone w0 w1 w2 w3 s
  | .hostWriteComplete => Sys2Proof.Machine.execHostWriteComplete s
  | .hostMemoryFault c offset => Sys2Proof.Machine.execHostMemoryFault c offset s
  | .sealCompletion => Sys2Proof.Machine.execSealCompletion s
  | .seqStatusWrite v => Sys2Proof.Machine.execSeqStatusWrite v s
  | .segStatusRead g => Sys2Proof.Machine.execSegStatusRead g s
  | .segCfgWrite v => Sys2Proof.Machine.execSegCfgWrite v s
  | .cycleLenWrite v => Sys2Proof.Machine.execCycleLenWrite v s
  | .cycleNumberWrite v => Sys2Proof.Machine.execCycleNumberWrite v s
  | .ringAnchorWrite c v => Sys2Proof.Machine.execRingAnchorWrite c v s
  | .rxRingBaseWrite v => Sys2Proof.Machine.execRxRingBaseWrite v s
  | .rxRingSizeWrite v => Sys2Proof.Machine.execRxRingSizeWrite v s
  | .rxReturnWrite v => Sys2Proof.Machine.execRxReturnWrite v s
  | .entryW0Write v => Sys2Proof.Machine.execEntryW0Write v s
  | .entryW1Write v => Sys2Proof.Machine.execEntryW1Write v s
  | .attnPop => Sys2Proof.Machine.execAttnPop s
  | .attnStatusWrite v => Sys2Proof.Machine.execAttnStatusWrite v s
  | .peekRequest entry offset tag => Sys2Proof.Machine.execPeekRequest entry offset tag s
  | .pokeRequest entry offset tag => Sys2Proof.Machine.execPokeRequest entry offset tag s
  | .directStatusWrite v => Sys2Proof.Machine.execDirectStatusWrite v s
  | .directDonePop => Sys2Proof.Machine.execDirectDonePop s
  | .irqPendingWrite v => Sys2Proof.Machine.execIrqPendingWrite v s
  | .irqMaskWrite v => Sys2Proof.Machine.execIrqMaskWrite v s
  | .busWipe v => Sys2Proof.Machine.execBusWipe v s
  | .hostWipe v => Sys2Proof.Machine.execHostWipe v s
  | .bankWrite offset w v => Sys2Proof.Machine.execBankWrite offset w v s
  | .registerWrite offset w v => Sys2Proof.Machine.execRegisterWrite offset w v s
  | .exchangeStart => Sys2Proof.Machine.execExchangeStart s
  | .consumeRecord => Sys2Proof.Machine.execConsumeRecord s
  | .skipStep => Sys2Proof.Machine.execSkipStep s
  | .seqCmdWrite v => Sys2Proof.Machine.execSeqCmdWrite v s
  | .illegalOpRefused => Sys2Proof.Machine.execIllegalOpRefused s
  | .powerOnResetAsserted => Sys2Proof.Machine.execPowerOnResetAsserted s
  | .replyBegun => Sys2Proof.Machine.execReplyBegun s

end Sys2Proof.Machine
end

