-- ==== Sys2Proof/Machine/EventOrder.lean ====
section
/-! DEFINITION. Events due together (R163, R4): SEQ puts what falls due at one moment in the order of R163's table, and the
queue of commands takes it in that order. -/

namespace Sys2Proof.Machine

/-- The line events' places: segment A before segment B, on one segment babble, then bias change, then wake request. -/
def lineOrder (g : Seg) (kind : Nat) : Nat :=
  match g with
  | .a => 4 + kind
  | .b => 7 + kind

/-- The order in which a row is taken among rows that are due at one moment. 0: register accesses, which R4 puts before every
event. 1 to 10: lines 1 to 4 of R163's table; 11: line 5; 13: line 6; 14: line 7; 17: line 8. The rows the table does not
name stand beside what they go with (DESIGN CHOICE, log 55): the window events with the cycle start, the beginning of a
frame's window or reply with the end of an exchange, the rest of a seal behind it, the walker's work on a returned snapshot
and the restart actions behind the completions, the start of a frame with the decision. -/
def eventOrder : Instr → Nat
  | .hardReset _ _ => 0
  | .seqStatusWrite _ => 0
  | .segStatusRead _ => 0
  | .segCfgWrite _ => 0
  | .cycleLenWrite _ => 0
  | .cycleNumberWrite _ => 0
  | .ringAnchorWrite _ _ => 0
  | .rxRingBaseWrite _ => 0
  | .rxRingSizeWrite _ => 0
  | .rxReturnWrite _ => 0
  | .entryW0Write _ => 0
  | .entryW1Write _ => 0
  | .attnPop => 0
  | .attnStatusWrite _ => 0
  | .peekRequest _ _ _ => 0
  | .pokeRequest _ _ _ => 0
  | .directStatusWrite _ => 0
  | .directDonePop => 0
  | .irqPendingWrite _ => 0
  | .irqMaskWrite _ => 0
  | .busWipe _ => 0
  | .hostWipe _ => 0
  | .bankWrite _ _ _ => 0
  | .registerWrite _ _ _ => 0
  | .seqCmdWrite _ => 0
  | .powerOnResetAsserted => 1
  | .powerOnReset _ _ => 1
  | .hostMemoryFault .read _ => 2
  | .hostMemoryFault .write _ => 3
  | .babble a => lineOrder a.seg 0
  | .biasChange g _ => lineOrder g 1
  | .wakeRequest g _ => lineOrder g 2
  | .cycleStart _ _ => 10
  | .beaconEnd => 10
  | .periodicOpenReached => 10
  | .cycleEndCutoff => 11
  | .requestSent => 11
  | .replyBegun => 11
  | .replyTimeout => 11
  | .replyEnd _ => 11
  | .acceptSent => 11
  | .sealCompletion => 12
  | .nop => 13
  | .configure => 13
  | .run => 13
  | .stop => 13
  | .restart => 13
  | .offline => 13
  | .illegalOpRefused => 13
  | .power _ => 13
  | .reset _ => 13
  | .disable _ => 13
  | .doze _ => 13
  | .wake _ => 13
  | .release _ => 13
  | .stagingFillDone _ => 14
  | .recordFetchDone _ _ _ _ => 14
  | .hostWriteComplete => 14
  | .consumeRecord => 15
  | .skipStep => 15
  | .restartActions => 16
  | .walkerDecision => 17
  | .exchangeStart => 17

/-- A register write that is a hard reset (R7, R8): it reaches bit 0 of GLOBAL_CTL, alone or as a part of a wide write. -/
def writesReset (off : BitVec 9) (w : Width) (v : BitVec 64) : Bool :=
  match w with
  | .word => off == 0x004 && v.getLsbD 0
  | .dword => (off == 0x004 && v.getLsbD 0) || (off == 0x000 && v.getLsbD 32)
  | _ => false

/-- The row is a hard reset (R8). -/
def resets : Instr → Bool
  | .hardReset _ _ => true
  | .powerOnReset _ _ => true
  | .powerOnResetAsserted => true
  | .registerWrite off w v => writesReset off w v
  | _ => false

/-- A hard reset removes every other event due with it (R163); register accesses are no events (R4). -/
def survivesReset (c : Instr) : Bool := decide (eventOrder c ≤ 1)

def isCycleStart : Instr → Bool
  | .cycleStart _ _ => true
  | _ => false

/-- A wake request due with a cycle start is taken at that moment, so that the start is not counted (R42, R163). -/
def atCycleStart : Instr → Instr
  | .wakeRequest g _ => .wakeRequest g true
  | c => c

/-- Puts a row among rows in order: before the first that is not taken before it. -/
def insertDue (c : Instr) : List Instr → List Instr
  | [] => [c]
  | d :: rest => if eventOrder c ≤ eventOrder d then c :: d :: rest else d :: insertDue c rest

/-- What is due at one moment, in the order it is taken; rows of one place in the order they are given (log 55). -/
def inOrder (due : List Instr) : List Instr := due.foldr insertDue []

/-- What is taken of the rows due at one moment, in order (R163). -/
def takenTogether (due : List Instr) : List Instr :=
  let due := if due.any isCycleStart then due.map atCycleStart else due
  inOrder (if due.any resets then due.filter survivesReset else due)

/-- The read is of an earlier moment: what becomes due now joins behind it (R12). -/
def settled (r : ReadReq) : ReadReq := { r with fresh := false }

/-- The rows due at one moment begin to be taken: the reads they request join the stream together (R12). Time passes only on an
empty queue (log 1), so rows that find others waiting are of the moment of those. -/
def openMoment (s : State) : State :=
  { s with hport := { s.hport with
      moment := true, reads := if s.pending.isEmpty then s.hport.reads.map settled else s.hport.reads } }

/-- The moment is over as time passes. -/
def closeMoment (s : State) : State :=
  { s with hport := { s.hport with moment := false, reads := s.hport.reads.map settled } }

/-- The rows of `due` fall due at one moment: they join the queue in the order of R163. Each is judged when it is taken,
against the state the earlier ones left, and is not taken if its cause is gone (log 2). The reads that they request become
due at one moment too (R12). -/
def State.fallDue (due : List Instr) (s : State) : State :=
  { openMoment s with pending := s.pending ++ takenTogether due }

end Sys2Proof.Machine
end

