-- ==== Sys2Proof/Machine/Step.lean ====
section
/-! DEFINITION. One step: the command at the front of the queue is taken; with an empty queue one tick passes. -/

namespace Sys2Proof.Machine

/-- One step (log 1): `exec` of the front command on the state with the queue's rest; on an empty queue, one tick of the
Cycle Timer (R49), which ends the moment of what fell due together. What falls due at one moment has joined the queue in
R163's order (`State.fallDue`). -/
def step (s : State) : Host.Outcome State Fault Refusal :=
  match s.pending with
  | [] => .next (tick (closeMoment s))
  | c :: rest => exec c { s with pending := rest }

/-- The state with the command that a word spells put at the front of its queue; unchanged where the word spells
none. -/
def State.withFetchWord (s : State) (nbits w : Nat) : State :=
  match Sys2Proof.decodeTableWord nbits w with
  | some c => { s with pending := c :: s.pending }
  | none => s

end Sys2Proof.Machine
end

