-- ==== Sys2Proof/Safety.lean ====
section
/-! DEFINITION. The terms the statements use: which blocks an operation may change, what every state of a run keeps
(the invariant and its parts), and what OFFLINE means for every block. -/

namespace Sys2Proof.Machine

/-! ### Frames -/

/-- The blocks of the state, one for each field of `State`. -/
inductive Block where
  | seq
  | segA
  | segB
  | ctim
  | table
  | select
  | walk
  | xeng
  | stage
  | rx
  | wq
  | dau
  | aiu
  | elog
  | hport
  | freeDraws
  | pending
  deriving DecidableEq, Repr

/-- A block holds in `t` what it held in `s`. -/
def sameBlock (s t : State) : Block → Prop
  | .seq => t.seq = s.seq
  | .segA => t.segA = s.segA
  | .segB => t.segB = s.segB
  | .ctim => t.ctim = s.ctim
  | .table => t.table = s.table
  | .select => t.select = s.select
  | .walk => t.walk = s.walk
  | .xeng => t.xeng = s.xeng
  | .stage => t.stage = s.stage
  | .rx => t.rx = s.rx
  | .wq => t.wq = s.wq
  | .dau => t.dau = s.dau
  | .aiu => t.aiu = s.aiu
  | .elog => t.elog = s.elog
  | .hport => t.hport = s.hport
  | .freeDraws => t.freeDraws = s.freeDraws
  | .pending => t.pending = s.pending

/-- Nothing but the named blocks differs between `s` and `t`. -/
def OnlyChanges (bs : List Block) (s t : State) : Prop := ∀ b, b ∉ bs → sameBlock s t b

/-- The block of a segment. -/
def segBlock : Seg → Block
  | .a => .segA
  | .b => .segB

/-! ### The invariant -/

/-- Entry 0 is the null entry (R64). -/
def nullEntryHolds (s : State) : Prop := getEntry s 0 = Entry.null

/-- fence_granted is only ever 1 under a raised fence (R70). -/
def grantsFenced (s : State) : Prop := ∀ i, (getEntry s i).fenceGranted = true → (getEntry s i).fence = true

/-- A raised fence is granted unless the entry is engaged (R70). -/
def fencesAnswered (s : State) : Prop :=
  ∀ i, (getEntry s i).fence = true → (getEntry s i).fenceGranted = false → engaged s i = true

/-- Items and reserved slots together never exceed the Write Queue's 32 (R127, R129). -/
def queueFits (s : State) : Prop := s.wq.items.length + s.wq.reserved ≤ Config.writeQueueSize

/-- The attention queue holds at most 16 records (R146), and nothing is lost unless overflow says so (R148). -/
def attentionFits (s : State) : Prop :=
  s.aiu.queue.length ≤ Config.attnQueueSize ∧ (s.aiu.overflow = false → s.aiu.lost = 0)

/-- Bits 1 and 9 of IRQ_PENDING are level bits: no edge is held for them (R149). -/
def levelBitsFree (s : State) : Prop := s.aiu.edges.getLsbD 1 = false ∧ s.aiu.edges.getLsbD 9 = false

/-- The Pending list and the Done list hold at most four records each (R134, R141), and a direct exchange is only in
the engine while the Done list has room (R137). -/
def directFits (s : State) : Prop :=
  s.dau.pending.length ≤ Config.directListSize ∧ s.dau.done.length ≤ Config.directListSize ∧
  ∀ x, s.xeng = some x → x.direct = true → s.dau.done.length < Config.directListSize

/-- refuse_reason and reject_reason name a reason exactly while their flag is set (R30, R142). -/
def reasonsShown (s : State) : Prop :=
  (s.seq.refuseReason = .none ↔ s.seq.cmdRefused = false) ∧ (s.dau.rejectReason = .none ↔ s.dau.rejected = false)

/-- busy is 1 exactly while a command is pending or a RESTART is in hand, never both (R17, R24). -/
def busyHolds (s : State) : Prop :=
  s.seq.busy = (s.seq.command.isSome || s.seq.restartInHand) ∧
  (s.seq.command.isSome && s.seq.restartInHand) = false

/-- A DARK segment is not quarantined, a FAULTED one is (R43, R44, R158). -/
def quarantineFits (g : Segment) : Prop :=
  (g.mode = .dark → g.quarantined = false) ∧ (g.mode = .faulted → g.quarantined = true)

/-- An exchange in the engine is on a live segment (R33, R36, R38, R43, R44). -/
def exchangeLive (s : State) : Prop := ∀ x, s.xeng = some x → segLive s x.segment = true

/-- The invariant: what every command keeps. -/
structure Inv (s : State) : Prop where
  nullEntry : nullEntryHolds s
  granted : grantsFenced s
  answered : fencesAnswered s
  queue : queueFits s
  attention : attentionFits s
  levels : levelBitsFree s
  direct : directFits s
  reasons : reasonsShown s
  busy : busyHolds s
  segA : quarantineFits s.segA
  segB : quarantineFits s.segB
  live : exchangeLive s

/-! ### OFFLINE -/

/-- In OFFLINE nothing is under way (R16, R25, R49, R161): both segments are DARK and drive nothing, the timer stands at
its reload value with number 0, and there is no exchange, no schedule work, no queued write, no received packet, no direct
request and no attention record. -/
structure Quiet (s : State) : Prop where
  darkA : s.segA.mode = .dark
  darkB : s.segB.mode = .dark
  driveA : s.segA.beacon = none
  driveB : s.segB.beacon = none
  number : s.ctim.number = 0
  remain : s.ctim.remain = s.ctim.len
  window : s.walk.window = .stopped
  hand : s.walk.hand = .nothing
  look : s.walk.look = .nothing
  pass : s.walk.pass = none
  engine : s.xeng = none
  stage : s.stage = { buf := .empty, waiting := none }
  items : s.wq = { items := [], reserved := 0, started := false, drain := .needs }
  fifo : s.rx.fifo = []
  requests : s.dau.pending = []
  records : s.dau.done = []
  attention : s.aiu.queue = []

/-- OFFLINE is quiet. -/
def OfflineQuiet (s : State) : Prop := s.seq.state = .offline → Quiet s

end Sys2Proof.Machine
end

