-- ==== Sys2Proof/Certificates/Slice0/Obligations.lean ====
section
/-! DEFINITION. The statements for the provers, each from the spec's numbered rules, and before them the tables of the spec
that several statements use, written out once. -/

namespace Sys2Proof.Machine

/-! ### Terms of the statements -/

/-- The power-on reset input is not asserted (R8). -/
abbrev awake (s : State) : Prop := s.hport.heldInReset = false

/-- A read of this kind, address and length stands in the read stream for this requester (R9, R12). -/
def asked (t : State) (kind : BitVec 4) (addr : Word) (len : Nat) (reader : Reader) : Prop :=
  ∃ q ∈ t.hport.reads, q.kind = kind ∧ q.addr = addr ∧ q.len = len ∧ q.reader = reader

/-- The edges of IRQ_PENDING only grow from `s` to `t`, and nothing else of the Attention and Interrupt Unit changes. -/
def OnlyRaises (s t : State) : Prop :=
  t.aiu = { s.aiu with edges := t.aiu.edges } ∧ ∀ n, s.aiu.edges.getLsbD n = true → t.aiu.edges.getLsbD n = true

/-- The next state of a row, for rows taken one inside another. -/
def after (c : Instr) (s : State) : State :=
  match exec c s with
  | .next t => t
  | _ => s

/-- The row a pending command is taken as, by its ctrl_op (2.2). -/
def rowOf (w : Word) : Instr :=
  match (ctrlOp w).toNat with
  | 0 => .nop
  | 1 => .restart
  | 2 => .offline
  | 3 => .configure
  | 4 => .run
  | 5 => .stop
  | _ => .illegalOpRefused

/-- The two tables of R18: the reason a command is refused with, and none for a command that is accepted. -/
def refusedWith (op seg : Nat) (st : CtrlState) (fatal : Bool) : RefuseReason :=
  if 6 ≤ op then .illegalOp
  else if op ≠ 1 ∧ op ≠ 2 ∧ seg = 7 then .illegalOp
  else if op = 1 ∧ st = .offline then .wrongState
  else if op = 1 ∧ st = .sealed ∧ fatal = true then .logFatal
  else if op = 3 ∧ st ≠ .offline then .wrongState
  else if op = 4 ∧ st = .ready then .noSegment
  else if op = 4 ∧ (st = .offline ∨ st = .sealed) then .wrongState
  else if op = 5 ∧ st ≠ .running ∧ st ≠ .stopping then .wrongState
  else if op = 0 ∧ st = .offline ∧ seg ≠ 0 then .wrongState
  else .none

/-- What R18 says of the command `w` in the state `s`. -/
def refusal (w : Word) (s : State) : RefuseReason :=
  refusedWith (ctrlOp w).toNat (segOp w).toNat s.seq.state (fatalCode s.elog.hostCode)

/-- The row of a seg_op code on a segment (2.2); none for NONE. -/
def segRow (op : BitVec 3) (g : Seg) : Option Instr :=
  match op.toNat with
  | 1 => some (.power g)
  | 2 => some (.reset g)
  | 3 => some (.disable g)
  | 4 => some (.doze g)
  | 5 => some (.wake g)
  | 6 => some (.release g)
  | _ => none

/-- One segment's share of a command (R19). -/
def segShare (selected : Bool) (op : BitVec 3) (g : Seg) (s : State) : State :=
  match selected, segRow op g with
  | true, some c => after c s
  | _, _ => s

/-- A command's seg_op, offered to segment A and then to segment B as seg_select names them (R19). -/
def segShares (w : Word) (s : State) : State :=
  segShare (selectsB w) (segOp w) .b (segShare (selectsA w) (segOp w) .a s)

/-- The command in hand is finished (R17). -/
def commandDone (s : State) : State := { s with seq := { s.seq with busy := false, command := none } }

/-- An operation the segment ignores (R46): its cmd_ignored flag, and SEG_CMD_IGNORED offered to the Bus Log with the
segment, entry 0 and the cycle's low bits; the offer sets ERRLOG (R153). -/
def ignoredBy (g : Seg) (s : State) : State :=
  setSeg g { getSeg s g with cmdIgnored := true }
    { s with elog := busAfterOffer s.elog 0x02 (segDetail g) 0 (cycleLow12 s),
             aiu := { s.aiu with edges := s.aiu.edges ||| 0x100#11 } }

/-- The exchange in the engine is on segment `g` and for entry `i`. -/
def cutsEntry (s : State) (g : Seg) (i : EntryIx) : Bool :=
  match s.xeng with
  | some x => x.segment == g && x.entry == i
  | none => false

/-- A visit's head status write `word` for the turn `t` (R81): the visit count one on, the outcome, and the stop. -/
def visitWord (t : Turn) (o : XOutcome) (stop : Option Cause) (word : Word) : Prop :=
  word.extractLsb' 16 8 = t.head.w3.extractLsb' 16 8 + 1 ∧ word.extractLsb' 8 4 = outcomeCode o ∧
  word.getLsbD 1 = t.head.w3.getLsbD 1 ∧
  (match stop with
    | some c => word.getLsbD 0 = true ∧ word.extractLsb' 4 4 = causeCode c
    | none => word.getLsbD 0 = t.head.w3.getLsbD 0 ∧ word.extractLsb' 4 4 = t.head.w3.extractLsb' 4 4)

/-- A CUT leaves the head of its exchange so (R92, R117): nothing is written to the record, the progress slots are kept, and
the turn is over with one head status write, whose last_outcome is CUT; a pass goes on behind the head; and the staging buffer is
EMPTY. In SEALED the turn only ends (R159). That a request that waits for a fill is dropped too is the model's reading
(log 17). -/
def CutEndsTheVisit (x : Exchange) (s t : State) : Prop :=
  t.stage = { buf := .empty, waiting := none } ∧
  (x.direct = false → ∀ u, s.walk.hand = .turn u → (∀ i, getSlot t i = getSlot s i) ∧ t.walk.hand = .nothing ∧
    (s.seq.state = .sealed → t.wq.items = s.wq.items ∧ t.walk.pass = s.walk.pass) ∧
    (s.seq.state ≠ .sealed →
      t.walk.pass = (if u.inPass then s.walk.pass.map (fun p =>
        { p with prev := some u.addr, next := u.head.w0, fetched := p.fetched + 1 }) else s.walk.pass) ∧
      (u.skipping = none → s.wq.items.length < 32 → ∃ word,
        t.wq.items = s.wq.items ++
          [.status u.addr word u.cls (headEntry u.head) (u.head.w1.getLsbD 2) none u.head.w0] ∧
        visitWord u .cut none word)))

/-- Segment `g` leaves its state for `after` (R36, R38, R43, R44): an exchange on it is CUT, which changes nothing in its
entry but answers its fence (R70), `f` changes the entries, the controller falls to READY if the last live segment is
lost (R27), SEG is set, and SEQ with a change of the controller's state. The anchors, the rotations, the progress slots, the
window and the passes' marks are kept, and so is every item of the queue (R99, R132): the one write that may join them is the
status write of the CUT visit, or of a burst that waits as the controller falls to READY. With no exchange on the segment
the staging buffer is kept too, and without such a burst the queue and the pass as they are. -/
structure LeavesSegment (g : Seg) (after : Segment) (f : Entry → Entry) (s t : State) : Prop where
  segment : getSeg t g = after
  engine : t.xeng = if exchangeOn s g then none else s.xeng
  entries : ∀ i, i ≠ 0 → getEntry t i =
    f (if cutsEntry s g i then { getEntry s i with fenceGranted := (getEntry s i).fence } else getEntry s i)
  null : getEntry t 0 = getEntry s 0
  controller : t.seq = { s.seq with
    state := if segLive s g = true ∧ segLive s (otherSeg g) = false ∧ s.seq.restartInHand = false ∧
                (s.seq.state = .armed ∨ s.seq.state = .running ∨ s.seq.state = .stopping) then .ready else s.seq.state }
  raises : OnlyRaises s t
  seg : t.aiu.edges.getLsbD 6 = true
  seq : t.seq.state ≠ s.seq.state → t.aiu.edges.getLsbD 7 = true
  slots : ∀ i, getSlot t i = getSlot s i
  rings : t.walk.service = s.walk.service ∧ t.walk.bulk = s.walk.bulk ∧ t.walk.latched = s.walk.latched ∧
    t.walk.anchorReg = s.walk.anchorReg ∧ t.walk.anchorWritten = s.walk.anchorWritten
  cycle : t.walk.window = s.walk.window ∧ t.walk.timedDone = s.walk.timedDone ∧ t.walk.streamDone = s.walk.streamDone ∧
    t.walk.aperiodicOver = s.walk.aperiodicOver
  queue : t.wq.items.take s.wq.items.length = s.wq.items ∧ t.wq.items.length ≤ s.wq.items.length + 1
  untouched : exchangeOn s g = false → t.stage = s.stage ∧
    (t.seq.state = s.seq.state → t.walk = { s.walk with waiting := false } ∧ t.wq.reserved = s.wq.reserved) ∧
    (t.seq.state = s.seq.state ∨ (∀ u, s.walk.hand = .turn u → u.phase ≠ .burstFetch ∧ u.phase ≠ .burstReady) →
      t.wq.items = s.wq.items ∧ t.walk.pass = s.walk.pass)
  cut : ∀ x, s.xeng = some x → x.segment = g → CutEndsTheVisit x s t
  frame : OnlyChanges [segBlock g, .seq, .table, .walk, .xeng, .stage, .wq, .aiu, .elog, .hport] s t

/-- A segment after one of its changes of state: state_changed is set and nothing is counted or driven. -/
def Segment.changedTo (c : Segment) (m : SegMode) : Segment :=
  { c with mode := m, stateChanged := true, counted := 0, wakeAtStart := false }

/-- R39 for one entry: a valid entry of the segment loses its sequence bits and strikes. -/
def zeroedBy (g : Seg) (e : Entry) : Entry :=
  if e.valid = true ∧ e.segment = g then { e with seqOut := false, seqIn := false, strikesOut := 0, strikesIn := 0 } else e

/-- A strike counter one strike on: never above 3 (R67, R112). -/
def struck (n : BitVec 2) : BitVec 2 := if n.toNat < 3 then n + 1 else 3

/-- A strike in the outward direction, with the halt at 3 (R112, R75). -/
def struckOut (e : Entry) : Entry :=
  { e with strikesOut := struck e.strikesOut,
           halted := e.halted || decide (struck e.strikesOut = 3),
           fault := if struck e.strikesOut = 3 then .strikeOut else e.fault }

/-- A strike in the inward direction, with the halt at 3 (R112, R75). -/
def struckIn (e : Entry) : Entry :=
  { e with strikesIn := struck e.strikesIn,
           halted := e.halted || decide (struck e.strikesIn = 3),
           fault := if struck e.strikesIn = 3 then .strikeOut else e.fault }

/-- The request is a direct one (R111). -/
def isDirect : Request → Bool
  | .peek _ => true
  | .poke _ => true
  | _ => false

/-- The entry after an outcome, line by line of R106 to R113 and R76: what each request changes on each outcome. -/
def entryByRules (q : Request) (o : XOutcome) (e : Entry) : Entry :=
  match o with
  | .success =>
    match q with
    | .push _ => { e with seqOut := !e.seqOut, strikesOut := 0, doneCount := e.doneCount + 1 }
    | .open => { e with seqOut := true, seqIn := true, strikesOut := 0, strikesIn := 0, doneCount := e.doneCount + 1 }
    | .pull _ => { e with seqIn := !e.seqIn, strikesIn := 0, doneCount := e.doneCount + 1 }
    | _ => { e with doneCount := e.doneCount + 1 }
  | .duplicate =>
    match q with
    | .pull _ => { e with strikesIn := 0 }
    | _ => e
  | .deferred => { e with deferCount := if e.deferCount.toNat < 65535 then e.deferCount + 1 else e.deferCount }
  | .refused => if isDirect q then e else { e with halted := true, fault := .refused }
  | .overrun => e
  | .cut => e
  | _ =>
    match q with
    | .push _ => struckOut e
    | .open => struckOut e
    | .pull _ => struckIn e
    | _ => e

/-- The codes an outcome offers to the Bus Log, in order (R114, then R112): the trust code, and STRIKE_OUT if the strike
counter of its direction is 3 after it. -/
def codesByRules (guarded rewritten : Bool) (q : Request) (o : XOutcome) (e : Entry) : List (BitVec 8) :=
  (match o with
    | .garbled => [if guarded then 0x11 else 0x20]
    | .overlong => [if guarded then 0x12 else 0x21]
    | .unsolicited => [if guarded then 0x13 else 0x22]
    | _ => []) ++
  (match o, q with
    | .silence, .push _ | .corrupt, .push _ | .garbled, .push _ | .overlong, .push _ | .unsolicited, .push _
    | .silence, .open | .corrupt, .open | .garbled, .open | .overlong, .open | .unsolicited, .open =>
      if struck e.strikesOut = 3 ∧ rewritten = false then [0x10] else []
    | .silence, .pull _ | .corrupt, .pull _ | .garbled, .pull _ | .overlong, .pull _ | .unsolicited, .pull _ =>
      if struck e.strikesIn = 3 ∧ rewritten = false then [0x10] else []
    | _, _ => [])

/-- A direct request leaves the front of the Pending list for the Done list (R140): the Bank takes a PEEK's bytes on OK and
0xFF bytes over its range on any other status while fill is 1; a POKE writes nothing. -/
def directDone (r : DirReq) (rest : List DirReq) (st : DirStatus) (bytes : List Byte) (s : State) : Direct :=
  { s.dau with
    bank := if r.poke then s.dau.bank
            else if st = .ok then putBank s.dau.bank r.offset.toNat bytes
            else if s.hport.fill then putBank s.dau.bank r.offset.toNat (List.replicate r.len 0xFF) else s.dau.bank,
    pending := rest,
    done := s.dau.done ++ [{ poke := r.poke, tag := r.tag, status := st,
                             count := if st = .ok then (if r.poke then r.len else bytes.length) else 0 }] }

/-- The direct lists after an outcome, line by line of R139. -/
def directByRules (o : XOutcome) (bytes : List Byte) (s : State) : Direct :=
  match s.dau.pending with
  | [] => s.dau
  | r :: rest =>
    match o with
    | .success => directDone r rest .ok bytes s
    | .deferred =>
      if r.defers = 15 then directDone r rest .deferLimit [] s
      else { s.dau with pending := { r with defers := r.defers + 1 } :: rest }
    | .silence | .corrupt =>
      if r.tries = 2 then directDone r rest .failed [] s
      else { s.dau with pending := { r with tries := r.tries + 1 } :: rest }
    | .garbled | .overlong | .unsolicited => directDone r rest .failed [] s
    | .refused => directDone r rest .refused [] s
    | _ => s.dau

/-- A head passes tests 2 to 9 of R83 in a ring of class `c`, as its entry and segment stand. -/
def passesTests (s : State) (c : RingClass) (h : Rec) : Prop :=
  let e := getEntry s (headEntry h)
  h.w1.getLsbD 0 = true ∧ h.w3.getLsbD 0 = false ∧ h.w2 ≠ 0 ∧ e.fenceGranted = false ∧ h.w2.extractLsb' 0 4 = 0#4 ∧
  headEntry h ≠ 0 ∧ e.valid = true ∧ e.address ≠ 0 ∧ e.payloadCode ≠ 7 ∧
  (e.classLock = 0 ∨ e.classLock.toNat = (classCode c).toNat + 1) ∧ e.halted = false ∧
  (getSeg s e.segment).mode = .enabled ∧ (getSeg s e.segment).quarantined = false ∧ recordPending s h.w2 = false

/-- The record `r` is refused for its kind in a head of class `c` (R87, R82), `p` being the entry's maximum payload. -/
def kindBarred (c : RingClass) (p : Nat) (r : Rec) : Prop :=
  (recKind r = .open ∧ (c ≠ .service ∨ (r.w2.extractLsb' 16 14).toNat ≠ 8)) ∨
  (recKind r = .nudge ∧ (c = .bulk ∨ c = .stream)) ∨ (c = .stream ∧ p < (r.w2.extractLsb' 16 14).toNat)

/-- The next packet of a record of which `g` bytes are done, `tailOnly` if only its tail is left (R82, R86, R88). -/
def packetByRules (p : Nat) (r : Rec) (g : Nat) (tailOnly : Bool) : Request :=
  let len := (r.w2.extractLsb' 16 14).toNat
  match recKind r with
  | .pull => .pull (min p (len - g))
  | .open => .open
  | .nudge => .push 0
  | .push => if tailOnly = true ∨ len = 0 then .push 0 else .push (min p (len - g))

/-- The bytes a request needs in the staging buffer (R117). -/
def packetBytes : Request → Option Nat
  | .push n => some n
  | .open => some 8
  | _ => none

/-- The symbols R59 estimates for a ring request on a segment with timeout `T`. -/
def ringSymbols (q : Request) (T : Nat) : Nat :=
  match q with
  | .push n => 48 + 10 * n + T
  | .open => 128 + T
  | .pull p => 72 + 10 * p + T
  | _ => 0

/-- The turn's record has `g` bytes done and `tailOnly` (R85): its entry's slot says so, or holds another record or nothing,
and then nothing is done; and software has not shortened it to its progress. -/
def doneSoFar (s : State) (t : Turn) (g : Nat) (tailOnly : Bool) : Prop :=
  let len := (t.seg.w2.extractLsb' 16 14).toNat
  headEntry t.head ≠ 0 ∧ t.record = t.head.w2 ∧
  (slotFor s (headEntry t.head) t.record (recKind t.seg) =
      some { record := t.record, kind := recKind t.seg, progress := g, tailOnly := tailOnly } ∨
    (slotFor s (headEntry t.head) t.record (recKind t.seg) = none ∧ g = 0 ∧ tailOnly = false)) ∧
  (g = 0 ∨ (g < len ∧ (recKind t.seg = .push ∨ recKind t.seg = .pull)) ∨
    (g = len ∧ recKind t.seg = .push ∧ tailOnly = true))

/-- The exchange `x` ends with outcome `o` (R116), as far as the entry, the Receive FIFO, the Bus Log, the segment's
quarantine, the direct lists and the engine show it; the walker's share is stated apart. -/
structure EndsWith (o : XOutcome) (x : Exchange) (s t : State) : Prop where
  engine : t.xeng = none
  entry : x.entry ≠ 0 → getEntry t x.entry =
    (let e := if x.rewritten then getEntry s x.entry else entryByRules x.request o (getEntry s x.entry)
     { e with fenceGranted := e.fence })
  others : ∀ i, i ≠ x.entry → getEntry t i = getEntry s i
  null : getEntry t 0 = getEntry s 0
  fifo : t.rx = (match x.request, o with
    | .pull _, .success => { s.rx with fifo := s.rx.fifo ++ [x.data] }
    | _, _ => s.rx)
  log : t.elog = (codesByRules (getSeg s x.segment).guarded x.rewritten x.request o (getEntry s x.entry)).foldl
    (fun l c => busAfterOffer l c (segDetail x.segment) x.entry (cycleLow12 s)) s.elog
  quarantine : getSeg t x.segment = { getSeg s x.segment with quarantined := (getSeg s x.segment).quarantined ||
    (codesByRules (getSeg s x.segment).guarded x.rewritten x.request o (getEntry s x.entry)).any fatalCode }
  direct : t.dau = if x.direct then directByRules o x.data s else s.dau
  frame : OnlyChanges [.table, .rx, .aiu, .elog, segBlock x.segment, .walk, .dau, .wq, .hport, .stage, .xeng] s t

end Sys2Proof.Machine

open Sys2Proof Sys2Proof.Machine

/-! ### The queue, reset and the register window -/

/-- A step with a command waiting runs the front command on the state with the queue's rest, and answers its outcome. That
the commands of all senders wait in one first-in first-out queue is the model's choice (log 1). -/
def Obligations.StepTakesFrontCommand : Prop :=
  ∀ (c : Instr) (rest : List Instr) (s : State), s.pending = c :: rest → step s = exec c { s with pending := rest }

/-- A read that became due at an earlier moment than the present one. -/
def earlier (r : ReadReq) : ReadReq := { r with fresh := false }

/-- With no command waiting one tick passes (R49; that a step stands for a tick, which ends the moment of what fell due
together, is the model's choice, log 1, log 61): nothing while the timer stands; the countdown otherwise; the walker's decision
when it comes to the sampled PERIODIC_OPEN (R57, R95); the cut-off of an exchange still on the bus when it comes to 0 (R63);
and the cycle start that falls due at 0, with the levels then sensed. -/
def Obligations.IdleStepIsOneTick : Prop :=
  ∀ s : State, s.pending = [] →
    let s0 : State := { s with hport := { s.hport with moment := false, reads := s.hport.reads.map earlier } }
    let counted : State := { s0 with ctim := { s0.ctim with remain := s.ctim.remain - 1 } }
    let woken (u : State) : State := { u with walk := { u.walk with waiting := false } }
    let opens : Prop := s.ctim.remain - 1 = s.ctim.openSampled
    (s.hport.heldInReset = true ∨ s.seq.state = .offline → step s = .next s0) ∧
    (awake s → s.seq.state ≠ .offline →
      (1 < s.ctim.remain.toNat ∨ (s.ctim.remain = 1 ∧ s.xeng = none) →
        (¬opens → step s = .next counted) ∧ (opens → step s = .next (woken counted))) ∧
      (s.ctim.remain = 1 → s.xeng ≠ none →
        (¬opens → step s = exec .cycleEndCutoff s0) ∧ (opens → step s = exec .cycleEndCutoff (woken s0))) ∧
      (s.ctim.remain = 0 → step s = exec (.cycleStart s.segA.biasPin s.segB.biasPin) s0))

/-- The register write is a hard reset (R7, R8): it writes 1 to bit 0 of GLOBAL_CTL, alone or as a part of a wide write. -/
def resetsBy (off : BitVec 9) (w : Width) (v : BitVec 64) : Prop :=
  (off = 0x004 ∧ (w = .word ∨ w = .dword) ∧ v.getLsbD 0 = true) ∨ (off = 0x000 ∧ w = .dword ∧ v.getLsbD 32 = true)

/-- The line of R163's table that names the row, counted in tens, with the order it gives within a line; 0 for a register
access, which R4 puts before every event; none for a row that the table does not name. -/
def lineOfTable : Instr → Option Nat
  | .powerOnResetAsserted | .powerOnReset _ _ => some 10
  | .hostMemoryFault .read _ => some 20
  | .hostMemoryFault .write _ => some 21
  | .babble a => some (if a.seg = .a then 30 else 33)
  | .biasChange g _ => some (if g = .a then 31 else 34)
  | .wakeRequest g _ => some (if g = .a then 32 else 35)
  | .cycleStart _ _ => some 40
  | .cycleEndCutoff | .replyTimeout | .replyEnd _ | .acceptSent => some 50
  | .nop | .configure | .run | .stop | .restart | .offline | .illegalOpRefused => some 60
  | .power _ | .reset _ | .disable _ | .doze _ | .wake _ | .release _ => some 60
  | .hostWriteComplete | .recordFetchDone _ _ _ _ | .stagingFillDone _ => some 70
  | .walkerDecision => some 80
  | .beaconEnd | .periodicOpenReached | .requestSent | .replyBegun | .sealCompletion | .restartActions | .exchangeStart
  | .consumeRecord | .skipStep => none
  | .hardReset _ _ | .seqStatusWrite _ | .segStatusRead _ | .segCfgWrite _ | .cycleLenWrite _ | .cycleNumberWrite _
  | .ringAnchorWrite _ _ | .rxRingBaseWrite _ | .rxRingSizeWrite _ | .rxReturnWrite _ | .entryW0Write _ | .entryW1Write _
  | .attnPop | .attnStatusWrite _ | .peekRequest _ _ _ | .pokeRequest _ _ _ | .directStatusWrite _ | .directDonePop
  | .irqPendingWrite _ | .irqMaskWrite _ | .busWipe _ | .hostWipe _ | .bankWrite _ _ _ | .registerWrite _ _ _
  | .seqCmdWrite _ => some 0

/-- The row is a hard reset (R7, R8, R163). -/
def hardResets (c : Instr) : Prop :=
  (∃ a b, c = .hardReset a b) ∨ (∃ a b, c = .powerOnReset a b) ∨ c = .powerOnResetAsserted ∨
    ∃ off w v, c = .registerWrite off w v ∧ resetsBy off w v

/-- A wake request due with a cycle start is taken at that moment (R42, R163). -/
def dueWith (start : Bool) (c : Instr) : Instr :=
  match c with
  | .wakeRequest g b => .wakeRequest g (b || start)
  | c => c

/-- Rows due at one moment join the queue in the order of R163's table, the register accesses before them in the order they
are given (R4); with a hard reset among them only it and the accesses join, and otherwise all do, a wake request due with
a cycle start marked so. The reads they request are of one moment, and later than those in the stream, unless rows still wait
(R12). That the queue stands for the order of events is the model's choice (log 1), and so is the place of the rows that the
table does not name (log 55), and what is of one moment for the read stream (log 61). -/
def Obligations.EventsDueTogetherWaitInOrder : Prop :=
  ∀ (due : List Instr) (s : State), ∃ q, s.fallDue due = { s with
      pending := s.pending ++ q,
      hport := { s.hport with
        moment := true, reads := if s.pending = [] then s.hport.reads.map earlier else s.hport.reads } } ∧
    q.Pairwise (fun c d => ∀ a b, lineOfTable c = some a → lineOfTable d = some b → a ≤ b) ∧
    q.Pairwise (fun c d => lineOfTable d = some 0 → lineOfTable c = some 0) ∧
    (q.filter (fun c => lineOfTable c == some 0)) = due.filter (fun c => lineOfTable c == some 0) ∧
    ((∃ c ∈ due, hardResets c) → q.Perm (due.filter (fun c => lineOfTable c == some 0 || lineOfTable c == some 10))) ∧
    ((∀ c ∈ due, ¬hardResets c) → q.Perm (due.map (dueWith (due.any (fun c => lineOfTable c == some 40)))))

/-- No command stops the controller, and none touches the commands that wait behind it, a hard reset not either. That commands
wait in a queue of the model's own, which a reset keeps, is the model's choice (log 1), and so is it that a row without its
cause is taken and changes nothing (log 2). -/
def Obligations.CommandsCompleteAndKeepQueue : Prop :=
  ∀ (c : Instr) (s : State), ∃ t, exec c s = .next t ∧ t.pending = s.pending

/-- Reset (R8): a hard reset through GLOBAL_CTL, its own row, and the release of the power-on reset input all leave the
same state; only the model's own queue and count of free values go on (log 1, log 11), and a hard reset through GLOBAL_CTL
senses the bias pins as they were last given (log 32). While the input is asserted every read answers 0, the interrupt output
and the drivers are off, and no command but the input's own changes anything, save the 0 a read returns (log 34). -/
def Obligations.ResetClearsAndHoldsEverything : Prop :=
  (∀ (a b : Bool) (s : State),
    exec (.powerOnReset a b) s = .next { State.afterReset a b with pending := s.pending, freeDraws := s.freeDraws } ∧
    (awake s →
      exec (.hardReset a b) s = .next { State.afterReset a b with pending := s.pending, freeDraws := s.freeDraws }) ∧
    (∀ v : BitVec 64, awake s → v.getLsbD 0 = true →
      exec (.registerWrite 0x004 .word v) s = exec (.hardReset s.segA.biasPin s.segB.biasPin) s)) ∧
  (∀ s : State, ∃ t, exec .powerOnResetAsserted s = .next t ∧ t.hport.heldInReset = true ∧
    (∀ off, readWord t off = 0) ∧ irqLine t = false ∧ driversOn t.segA = false ∧ driversOn t.segB = false ∧
    t = { State.afterReset s.segA.biasPin s.segB.biasPin with
            pending := s.pending, freeDraws := s.freeDraws, hport := t.hport } ∧
    t.hport = { (State.afterReset false false).hport with heldInReset := true }) ∧
  (∀ (c : Instr) (s : State), s.hport.heldInReset = true → c ≠ .powerOnResetAsserted →
    (∀ a b, c ≠ .powerOnReset a b) →
    exec c s = .next s ∨ exec c s = .next { s with hport := { s.hport with readData := 0 } })

/-- What every register of the map reads after a hard reset with the sensed bias levels `a` and `b` (1.2, 3.9). -/
def Obligations.RegistersAfterHardReset : Prop :=
  ∀ (a b : Bool) (s t : State), awake s → exec (.hardReset a b) s = .next t →
    readWord t 0x000 = 0xC2640003 ∧ readWord t 0x004 = 0x00000002 ∧ readWord t 0x008 = 0 ∧ readWord t 0x00C = 0 ∧
    readWord t 0x010 = (if a then 0x10 else 0) ∧ readWord t 0x014 = (if b then 0x10 else 0) ∧
    readWord t 0x018 = 0x0808 ∧ readWord t 0x020 = 7999 ∧ readWord t 0x024 = 7999 ∧ readWord t 0x028 = 0 ∧
    readWord t 0x02C = 7200 ∧ readWord t 0x030 = 160 ∧
    (∀ off ∈ [0x040, 0x044, 0x048, 0x04C, 0x050, 0x058, 0x05C, 0x060, 0x064, 0x068, 0x06C, 0x070, 0x080, 0x084, 0x088,
      0x090, 0x094, 0x098, 0x09C, 0x0A0, 0x0A4, 0x0A8, 0x0B0, 0x0B4, 0x0B8, 0x0BC, 0x0C0], readWord t off = 0) ∧
    readWord t 0x054 = 8 ∧ (∀ i, i < 64 → bankByte t i = 0) ∧ (∀ i, getEntry t i = Entry.null) ∧
    irqLine t = false ∧ driversOn t.segA = false ∧ driversOn t.segB = false

/-- R6, out of reset (while the power-on reset input is asserted R8 has every read answer 0): IDENT reads 0xC2640003 in
every state, its bytes read as those of that value, and no write to it changes anything. -/
def Obligations.IdentIsFixed : Prop :=
  ∀ s : State, awake s →
    readWord s 0x000 = 0xC2640003 ∧ readNarrow s 0 false = 0x03 ∧ readNarrow s 1 false = 0x00 ∧
    readNarrow s 2 false = 0x64 ∧ readNarrow s 3 false = 0xC2 ∧ readNarrow s 0 true = 0x0003 ∧
    readNarrow s 2 true = 0xC264 ∧
    ∀ (w : Width) (v : BitVec 64), w ≠ .dword → exec (.registerWrite 0x000 w v) s = .next s

/-- The writes that reach no field (R1, R2, R3): narrow ones outside the Bank, misaligned ones, and those of a register
whose fields are all read-only or read-and-pop, and of an offset that holds no register. -/
def Obligations.UnwritableOffsetsKeepEverything : Prop :=
  ∀ (off : BitVec 9) (v : BitVec 64) (s : State), awake s →
    (inBank off.toNat = false → exec (.registerWrite off .byte v) s = .next s ∧
      exec (.registerWrite off .half v) s = .next s) ∧
    (off.toNat % 4 ≠ 0 → exec (.registerWrite off .word v) s = .next s) ∧
    (off.toNat ∈ [0x000, 0x010, 0x014, 0x024, 0x058, 0x06C, 0x070, 0x080, 0x088, 0x09C, 0x0A8, 0x0B0, 0x0B4, 0x0B8, 0x0BC,
        0x01C, 0x034, 0x038, 0x03C, 0x074, 0x078, 0x07C, 0x08C, 0x0AC] → exec (.registerWrite off .word v) s = .next s) ∧
    (0x0C4 ≤ off.toNat → off.toNat < 0x100 → exec (.registerWrite off .word v) s = .next s) ∧
    (0x140 ≤ off.toNat → exec (.registerWrite off .word v) s = .next s)

/-- The registers a 32-bit write simply sets: PERIODIC_OPEN, LATE_MARK, ENTRY_SELECT, DIRECT_ARG, GLOBAL_CTL.fill, the four
ring anchors, whose write counts as one even when the value stays, and, in READY alone, CYCLE_NUMBER (R7, R52, R53, R65,
R78). -/
def Obligations.PlainRegisterWrites : Prop :=
  ∀ (v : BitVec 64) (s : State), awake s →
    exec (.registerWrite 0x02C .word v) s = .next { s with ctim := { s.ctim with periodicOpen := v.extractLsb' 0 13 } } ∧
    exec (.registerWrite 0x030 .word v) s = .next { s with ctim := { s.ctim with lateMark := v.extractLsb' 0 10 } } ∧
    exec (.registerWrite 0x060 .word v) s = .next { s with select := v.extractLsb' 0 6 } ∧
    exec (.registerWrite 0x090 .word v) s = .next { s with dau := { s.dau with arg := v.extractLsb' 0 16 } } ∧
    (v.getLsbD 0 = false →
      exec (.registerWrite 0x004 .word v) s = .next { s with hport := { s.hport with fill := v.getLsbD 1 } }) ∧
    (∀ n : Word,
      (s.seq.state = .ready → exec (.cycleNumberWrite n) s = .next { s with ctim := { s.ctim with number := n } }) ∧
      (s.seq.state ≠ .ready → exec (.cycleNumberWrite n) s = .next s)) ∧
    ∀ (c : RingClass) (a : Word), ∃ t, exec (.ringAnchorWrite c a) s = .next t ∧
      t = { s with walk := { s.walk with anchorReg := t.walk.anchorReg, anchorWritten := t.walk.anchorWritten } } ∧
      ∀ d : RingClass,
        t.walk.anchorReg.get (classIx d) = (if d = c then a &&& 0xFFFFFFF0#32 else s.walk.anchorReg.get (classIx d)) ∧
        t.walk.anchorWritten.get (classIx d) = (decide (d = c) || s.walk.anchorWritten.get (classIx d))

/-- A 32-bit write at the offset of a register that has a row of its own is that row, a write of any width in the Bank's
window is BANK_WRITE (R5), and an access wider than 32 bits is two 32-bit accesses in ascending address order, the first
taken whole before the second (R1, R3, 1.2). The reads: a 32-bit one of a read-and-pop or segment status register does what its
row does, any other changes nothing, and a wide one is two of them. -/
def Obligations.RegisterWriteIsItsRow : Prop :=
  ∀ (v : Word) (s : State),
    let wr (off : BitVec 9) (c : Instr) : Prop := exec (.registerWrite off .word (v.setWidth 64)) s = exec c s
    wr 0x008 (.seqCmdWrite v) ∧ wr 0x00C (.seqStatusWrite v) ∧ wr 0x018 (.segCfgWrite v) ∧ wr 0x020 (.cycleLenWrite v) ∧
    wr 0x028 (.cycleNumberWrite v) ∧ wr 0x040 (.ringAnchorWrite .service v) ∧ wr 0x044 (.ringAnchorWrite .bulk v) ∧
    wr 0x048 (.ringAnchorWrite .timed v) ∧ wr 0x04C (.ringAnchorWrite .stream v) ∧ wr 0x050 (.rxRingBaseWrite v) ∧
    wr 0x054 (.rxRingSizeWrite v) ∧ wr 0x05C (.rxReturnWrite v) ∧ wr 0x064 (.entryW0Write v) ∧
    wr 0x068 (.entryW1Write v) ∧ wr 0x084 (.attnStatusWrite v) ∧ wr 0x098 (.directStatusWrite v) ∧
    wr 0x0A0 (.irqPendingWrite v) ∧ wr 0x0A4 (.irqMaskWrite v) ∧
    wr 0x094 (if v.getLsbD 0 then .pokeRequest (v.extractLsb' 4 6) (v.extractLsb' 16 6) (v.extractLsb' 24 4)
              else .peekRequest (v.extractLsb' 4 6) (v.extractLsb' 16 6) (v.extractLsb' 24 4)) ∧
    (v.getLsbD 1 = true → wr 0x0C0 (.busWipe v)) ∧ (v.getLsbD 5 = true → wr 0x0C0 (.hostWipe v)) ∧
    (∀ (off : BitVec 9) (wide : BitVec 64), off.toNat + 4 < 512 → exec (.registerWrite off .dword wide) s =
      exec (.registerWrite (off + 4) .word (wide >>> 32)) (after (.registerWrite off .word wide) s)) ∧
    (∀ (off : BitVec 6) (w : Width) (x : BitVec 64), (w ≠ .dword ∨ off.toNat + 8 ≤ 64) →
      exec (.registerWrite (0x100 + off.setWidth 9) w x) s = exec (.bankWrite off w x) s) ∧
    (awake s → registerRead 0x010 .word s = ((readWord s 0x010).setWidth 64, after (.segStatusRead .a) s) ∧
      registerRead 0x014 .word s = ((readWord s 0x014).setWidth 64, after (.segStatusRead .b) s) ∧
      registerRead 0x080 .word s = ((readWord s 0x080).setWidth 64, after .attnPop s) ∧
      registerRead 0x09C .word s = ((readWord s 0x09C).setWidth 64, after .directDonePop s)) ∧
    (∀ off : Nat, off ∉ [0x010, 0x014, 0x080, 0x09C] → registerRead off .word s = ((readWord s off).setWidth 64, s)) ∧
    (∀ off : Nat, off % 4 ≠ 0 → readWord s off = 0) ∧
    (∀ off : Nat,
      let low := registerRead off .word s
      let high := registerRead (off + 4) .word low.2
      registerRead off .dword s = (high.1 <<< 32 ||| low.1, high.2))

/-- A write of the Bank (R5, R136): each byte of an aligned access of `n` bytes is stored at its offset unless a pending PEEK
locks it, a dropped byte sets bank_write_dropped, every other byte and every other field stays; a misaligned access
is ignored. -/
def Obligations.BankWriteStoresUnlockedBytes : Prop :=
  ∀ (off : BitVec 6) (v : BitVec 64) (s : State), awake s →
    (∀ (w : Width) (n : Nat), (w = .byte ∧ n = 1) ∨ (w = .half ∧ n = 2 ∧ off.toNat % 2 = 0) ∨
        (w = .word ∧ n = 4 ∧ off.toNat % 4 = 0) ∨ (w = .dword ∧ n = 8 ∧ off.toNat % 4 = 0) →
      off.toNat + n ≤ 64 →
      ∃ t, exec (.bankWrite off w v) s = .next t ∧
        (∀ i, i < 64 → bankByte t i =
          if off.toNat ≤ i ∧ i < off.toNat + n ∧ locked s.dau i = false then v.extractLsb' (8 * (i - off.toNat)) 8
          else bankByte s i) ∧
        (t.dau.bankWriteDropped = true ↔
          s.dau.bankWriteDropped = true ∨ ∃ i, off.toNat ≤ i ∧ i < off.toNat + n ∧ locked s.dau i = true) ∧
        t = { s with dau := { s.dau with bank := t.dau.bank, bankWriteDropped := t.dau.bankWriteDropped } }) ∧
    (off.toNat % 2 ≠ 0 → exec (.bankWrite off .half v) s = .next s) ∧
    (off.toNat % 4 ≠ 0 → exec (.bankWrite off .word v) s = .next s ∧ exec (.bankWrite off .dword v) s = .next s)

/-! ### The Sequencer -/

/-- A write of SEQ_CMD (R17): with busy 0 the word is recorded and busy set; with busy 1 the write is refused with BUSY,
and nothing else changes. -/
def Obligations.SeqCmdWriteRecordsOrRefuses : Prop :=
  ∀ (v : Word) (s : State), awake s →
    (s.seq.busy = false →
      exec (.seqCmdWrite v) s = .next { s with seq := { s.seq with busy := true, command := some v } }) ∧
    (s.seq.busy = true →
      exec (.seqCmdWrite v) s = .next { s with
        seq := { s.seq with cmdRefused := true, refuseReason := .busy },
        aiu := { s.aiu with edges := s.aiu.edges ||| 0x080#11 } })

/-- R18: a command that a line of its tables refuses changes nothing but cmd_refused, refuse_reason, the SEQ pending bit
and busy; one that no line refuses leaves cmd_refused and refuse_reason as they were. -/
def Obligations.RefusedCommandsChangeNothingElse : Prop :=
  ∀ (w : Word) (s : State), awake s → s.seq.command = some w →
    (refusal w s ≠ .none → exec (rowOf w) s = .next { s with
      seq := { s.seq with cmdRefused := true, refuseReason := refusal w s, busy := false, command := none },
      aiu := { s.aiu with edges := s.aiu.edges ||| 0x080#11 } }) ∧
    (refusal w s = .none → ∃ t, exec (rowOf w) s = .next t ∧ t.seq.cmdRefused = s.seq.cmdRefused ∧
      t.seq.refuseReason = s.seq.refuseReason)

/-- An accepted NOP (R20, R19): its seg_op is offered to segment A and then to segment B as if each were the segment's own
row, then the command is finished; with seg_op NONE only busy clears. -/
def Obligations.NopCarriesItsSegmentOperation : Prop :=
  ∀ (w : Word) (s : State), awake s → s.seq.command = some w → ctrlOp w = 0 → refusal w s = .none →
    exec .nop s = .next (commandDone (segShares w s)) ∧
    (segOp w = 0 → exec .nop s = .next { s with seq := { s.seq with busy := false, command := none } })

/-- An accepted RUN (R22): the controller becomes RUNNING, with SEQ set for the change, and the walker decides again; then
the seg_op is offered and the command is finished. In RUNNING the state stays and SEQ is not set. -/
def Obligations.RunStartsTheSchedule : Prop :=
  ∀ (w : Word) (s : State), awake s → s.seq.command = some w → ctrlOp w = 4 → refusal w s = .none →
    (s.seq.state = .running → exec .run s = .next (commandDone (segShares w s))) ∧
    (s.seq.state ≠ .running → exec .run s = .next (commandDone (segShares w { s with
      seq := { s.seq with state := .running }, aiu := { s.aiu with edges := s.aiu.edges ||| 0x080#11 },
      walk := { s.walk with waiting := false } })))

/-- An accepted CONFIGURE from a quiet OFFLINE (R21, R55): READY with SEQ set, then the immediate cycle start (the reload,
the pending length and the two samples, CYCLE set, all four anchors latched with their rotations reset, the early window
open), then the seg_op, and the command is finished. -/
def Obligations.ConfigureStartsTheTimer : Prop :=
  ∀ (w : Word) (s : State), awake s → s.seq.command = some w → ctrlOp w = 3 → refusal w s = .none → Quiet s →
    ∃ u, exec .configure s = .next (commandDone (segShares w u)) ∧
      u.seq = { s.seq with state := .ready } ∧
      u.ctim = { s.ctim with remain := s.ctim.len, len := s.ctim.lenPending.getD s.ctim.len, lenPending := none,
                             openSampled := s.ctim.periodicOpen, markSampled := s.ctim.lateMark } ∧
      u.aiu = { s.aiu with edges := s.aiu.edges ||| 0x081#11 } ∧
      (∀ c, latchedAnchor u c = s.walk.anchorReg.get (classIx c) ∧ u.walk.anchorWritten.get (classIx c) = false) ∧
      u.walk = { s.walk with latched := u.walk.latched, anchorWritten := u.walk.anchorWritten, service := Rotation.empty,
                             bulk := Rotation.empty, window := .early, timedDone := false, streamDone := false,
                             pass := none, aperiodicOver := false, waiting := false } ∧
      OnlyChanges [.seq, .ctim, .aiu, .walk, .hport] s u

/-- An accepted STOP (R23): from RUNNING the controller becomes STOPPING, with SEQ set, and an exchange on the bus and the
turn it serves stay as they are; in STOPPING nothing changes. Then the seg_op, and the command is finished. -/
def Obligations.StopEndsTheSchedule : Prop :=
  ∀ (w : Word) (s : State), awake s → s.seq.command = some w → ctrlOp w = 5 → refusal w s = .none →
    (s.seq.state = .stopping → exec .stop s = .next (commandDone (segShares w s))) ∧
    (s.seq.state = .running → ∃ u, exec .stop s = .next (commandDone (segShares w u)) ∧
      u.seq = { s.seq with state := .stopping } ∧ u.xeng = s.xeng ∧ u.walk.slots = s.walk.slots ∧
      u.walk.service = s.walk.service ∧ u.walk.bulk = s.walk.bulk ∧
      (∀ t, s.walk.hand = .turn t → t.phase = .exchanging → u.walk.hand = .turn t) ∧
      OnlyRaises s u ∧ u.aiu.edges.getLsbD 7 = true ∧ OnlyChanges [.seq, .aiu, .walk, .wq, .hport] s u)

/-- An accepted RESTART up to its wait (R24, steps 1 and 2): busy stays, the outstanding read will be discarded and the others
are not issued. Of the walker's work a turn whose exchange is under way, or whose record is at hand to be consumed or skipped,
goes on with its slots; a turn that waits for a record, or for a burst's next exchange, is over with the head status write
that ends its visit, if it gave an exchange (R81), or with the link update and the status write of an unfinished skip (R89);
and a decision in progress is given up. What goes on and what ends is the model's reading (log 26). -/
def Obligations.RestartBeginsItsWait : Prop :=
  ∀ (w : Word) (s : State), awake s → s.seq.command = some w → ctrlOp w = 1 → refusal w s = .none →
    ∃ t, exec .restart s = .next t ∧
      t.seq = { s.seq with command := none, restartInHand := true, restartFaulted := false } ∧
      t.hport = { s.hport with reads :=
        ((s.hport.reads.take 1).filter (fun r => !r.fresh)).map (fun r => { r with reader := .discard }) } ∧
      t.walk = { s.walk with hand := t.walk.hand, look := .nothing, waiting := t.walk.waiting, pass := t.walk.pass } ∧
      t.wq = { s.wq with items := t.wq.items, reserved := t.wq.reserved } ∧
      (∀ u, s.walk.hand = .turn u → (u.phase = .exchanging ∨ (∃ code n snap, u.phase = .refetched code n snap) ∨
          ∃ link snap, u.phase = .skipGot link snap) →
        t.walk = { s.walk with look := .nothing } ∧ t.wq = s.wq) ∧
      ((∀ u, s.walk.hand ≠ .turn u) →
        t.walk = { s.walk with hand := .nothing, look := .nothing } ∧ t.wq = { s.wq with reserved := 0 }) ∧
      (∀ u, s.walk.hand = .turn u →
        let visit : Option XOutcome := if u.made = 0 then none else u.last
        let status (word : Word) : WqItem :=
          .status u.addr word u.cls (headEntry u.head) (visit.isSome && headNotifyVisit u.head) none u.head.w0
        let ended : Prop := t.walk.hand = .nothing ∧ t.wq.reserved = 0 ∧ t.walk.pass = (if u.inPass then
          s.walk.pass.map (fun p => { p with prev := some u.addr, next := u.head.w0, fetched := p.fetched + 1 })
          else s.walk.pass)
        (u.phase = .burstFetch ∨ u.phase = .burstReady ∨ (∃ code n, u.phase = .refetch code n) → u.skipping = none →
          ended ∧ (visit = none → t.wq.items = s.wq.items) ∧
          (∀ o, visit = some o → s.wq.items.length < 32 →
            ∃ word, t.wq.items = s.wq.items ++ [status word] ∧ visitWord u o none word)) ∧
        (∀ link, u.phase = .skipFetch link → s.wq.items.length + 2 ≤ 32 → ended ∧
          ∃ word, t.wq.items = s.wq.items ++ [.link u.addr link u.head.w0, status word] ∧ word.getLsbD 1 = true ∧
            word.extractLsb' 16 8 = u.head.w3.extractLsb' 16 8 + (if visit.isSome then 1#8 else 0#8) ∧
            word.getLsbD 0 = u.head.w3.getLsbD 0 ∧ (∀ o, visit = some o → word.extractLsb' 8 4 = outcomeCode o))) ∧
      OnlyChanges [.seq, .hport, .walk, .wq] s t

/-- The end of RESTART's wait and its actions (R162, and R24 steps 4 and 5): the queue, the FIFO, the staging buffer, the
progress slots, the direct lists and the attention queue are empty, all anchors are latched, every fence is granted, and
the controller is ARMED, READY or, after a fault in the wait, SEALED, with SEQ set and busy clear. -/
def Obligations.RestartActionsClearTheWork : Prop :=
  ∀ s : State, awake s → s.seq.restartInHand = true → s.xeng = none → s.hport.reads = [] → s.hport.write = none →
    s.seq.sealPending = false → s.walk.hand = .nothing →
    ∃ t, exec .restartActions s = .next t ∧
      t.seq = { s.seq with
        state := if s.seq.restartFaulted = true then .sealed else if anyLive s = true then .armed else .ready,
        writesDiscarded := s.seq.writesDiscarded || !s.wq.items.isEmpty, busy := false, command := none,
        restartInHand := false, restartFaulted := false } ∧
      t.wq = { items := [], reserved := 0, started := false, drain := .needs } ∧
      t.rx = { s.rx with fifo := [] } ∧ t.stage = { buf := .empty, waiting := none } ∧
      (∀ c, latchedAnchor t c = s.walk.anchorReg.get (classIx c)) ∧
      t.walk.service = Rotation.empty ∧ t.walk.bulk = Rotation.empty ∧ (∀ i, getSlot t i = none) ∧
      t.walk.anchorReg = s.walk.anchorReg ∧ t.walk.window = s.walk.window ∧ t.walk.aperiodicOver = s.walk.aperiodicOver ∧
      t.walk.pass = none ∧
      t.walk.timedDone = (s.walk.timedDone || s.walk.pass.isSome) ∧
      t.walk.streamDone = (s.walk.streamDone || (s.walk.pass.isSome && s.walk.timedDone)) ∧
      t.dau = { s.dau with
        pending := [], done := [], directFlushed := s.dau.directFlushed || !(s.dau.pending.isEmpty && s.dau.done.isEmpty) } ∧
      t.aiu = { s.aiu with queue := [], edges := s.aiu.edges ||| 0x080#11 } ∧
      (∀ i, i ≠ 0 → getEntry t i = { getEntry s i with fenceGranted := (getEntry s i).fence }) ∧
      getEntry t 0 = getEntry s 0 ∧
      OnlyChanges [.seq, .wq, .rx, .stage, .walk, .dau, .aiu, .table, .hport] s t ∧
      t.hport = s.hport

/-- An accepted OFFLINE (R25, R161): in OFFLINE only busy clears; elsewhere the exchange is CUT, the timer stands at its
reload value with number 0, both segments are DARK and clean with SEG_CFG kept, every entry is invalid and unfenced with
its other fields kept, and every queue and list is empty; only the SEQ edge is left pending. What is outstanding on the host
bus is left to finish without effect (R14). That an OFFLINE taken between the two parts of a seal empties the direct lists
without R143's flush and fill is the model's choice (log 44). -/
def Obligations.OfflineClearsTheWork : Prop :=
  ∀ (w : Word) (s : State), awake s → s.seq.command = some w → ctrlOp w = 2 →
    (s.seq.state = .offline → exec .offline s = .next { s with seq := { s.seq with busy := false, command := none } }) ∧
    (s.seq.state ≠ .offline → ∃ t, exec .offline s = .next t ∧
      t.seq = { s.seq with state := .offline, busy := false, command := none, restartInHand := false,
                           restartFaulted := false, sealPending := false, writesDiscarded := t.seq.writesDiscarded } ∧
      (s.seq.writesDiscarded = true → t.seq.writesDiscarded = true) ∧
      (s.xeng = none → t.seq.writesDiscarded = (s.seq.writesDiscarded || !(discardedItems s).isEmpty)) ∧
      t.xeng = none ∧ t.stage = { buf := .empty, waiting := none } ∧
      t.ctim = { s.ctim with remain := s.ctim.len, number := 0, lenPending := none } ∧
      t.segA = { s.segA with mode := .dark, quarantined := false, stateChanged := false, wakeSeen := false,
                             faultSeen := false, cmdIgnored := false, counted := 0, wakeAtStart := false, beacon := none } ∧
      t.segB = { s.segB with mode := .dark, quarantined := false, stateChanged := false, wakeSeen := false,
                             faultSeen := false, cmdIgnored := false, counted := 0, wakeAtStart := false, beacon := none } ∧
      (∀ i, i ≠ 0 → getEntry t i = { getEntry s i with valid := false, fence := false, fenceGranted := false }) ∧
      getEntry t 0 = getEntry s 0 ∧
      (∀ c, latchedAnchor t c = 0) ∧ t.walk.anchorReg = s.walk.anchorReg ∧ t.walk.service = Rotation.empty ∧
      t.walk.bulk = Rotation.empty ∧ (∀ i, getSlot t i = none) ∧ t.walk.window = .stopped ∧ t.walk.pass = none ∧
      t.walk.hand = .nothing ∧ t.walk.look = .nothing ∧
      t.wq = { items := [], reserved := 0, started := false, drain := .needs } ∧ t.rx = { s.rx with fifo := [] } ∧
      t.dau = { s.dau with
        pending := [], done := [], directFlushed := s.dau.directFlushed || !(s.dau.pending.isEmpty && s.dau.done.isEmpty) } ∧
      t.aiu = { s.aiu with queue := [], edges := 0x080#11 } ∧
      (∀ r ∈ t.hport.reads, r.reader = .discard ∧ r.left = true) ∧
      (∀ w, t.hport.write = some w → w.live = false ∧ w.left = true) ∧ t.hport.fill = s.hport.fill ∧
      OnlyChanges [.seq, .segA, .segB, .ctim, .table, .walk, .xeng, .stage, .rx, .wq, .dau, .aiu, .hport] s t)

/-- Over every command: the controller enters RUNNING by RUN alone (2.1, 2.8), and every change of its state other than by a
reset sets the SEQ pending bit (R31). -/
def Obligations.ControllerStateChangesAreReported : Prop :=
  ∀ (c : Instr) (s t : State), exec c s = .next t →
    (t.seq.state = .running → s.seq.state = .running ∨ c = .run) ∧
    (t.seq.state ≠ s.seq.state → t.aiu.edges.getLsbD 7 = true ∨ c = .powerOnResetAsserted ∨
      (∃ a b, c = .powerOnReset a b) ∨ (∃ a b, c = .hardReset a b) ∨ ∃ off w v, c = .registerWrite off w v ∧ resetsBy off w v)

/-- The sticky flags of SEQ_STATUS (R30): a write of SEQ_STATUS clears those it writes 1 to, and refuse_reason with a set
cmd_refused; over every command, nothing but such a write, on its own or as a part of a wide one, and a reset clears one. -/
def Obligations.StickyFlagsNeedSoftware : Prop :=
  (∀ (v : Word) (s : State), awake s → exec (.seqStatusWrite v) s = .next { s with seq := { s.seq with
    cmdRefused := s.seq.cmdRefused && !v.getLsbD 12, tableRefused := s.seq.tableRefused && !v.getLsbD 13,
    writesDiscarded := s.seq.writesDiscarded && !v.getLsbD 14,
    refuseReason := if v.getLsbD 12 = true ∧ s.seq.cmdRefused = true then .none else s.seq.refuseReason } }) ∧
  (∀ (c : Instr) (s t : State), exec c s = .next t →
    (s.seq.cmdRefused = true ∧ t.seq.cmdRefused = false ∨ s.seq.tableRefused = true ∧ t.seq.tableRefused = false ∨
      s.seq.writesDiscarded = true ∧ t.seq.writesDiscarded = false) →
    c = .powerOnResetAsserted ∨ (∃ a b, c = .powerOnReset a b) ∨ (∃ a b, c = .hardReset a b) ∨
      (∃ v, c = .seqStatusWrite v) ∨ ∃ off w v, c = .registerWrite off w v ∧
        (resetsBy off w v ∨ off = 0x00C ∨ (off = 0x008 ∧ w = .dword)))

/-! ### Bus segments -/

/-- POWER in DARK with allow 1, DOZE in ENABLED, WAKE and a wake request in DOZING, and RELEASE (R37, R41, R42, R158): what each
changes; POWER turns the drivers on, and an exchange and a beacon on the segment run on under DOZE. A wake request is not
recognised while an exchange is on the segment; that one chosen before the DOZE whose frame is still held back counts so is the
model's choice (log 62). An operation that the segment's state does not take is ignored for that segment
alone (R46): its cmd_ignored flag is set, SEG_CMD_IGNORED is offered to the Bus Log, and nothing else changes. -/
def Obligations.SegmentOperationsAreTakenOrIgnored : Prop :=
  ∀ (g : Seg) (s : State), awake s →
    let moved (c : Segment) : State := setSeg g c { s with
      aiu := { s.aiu with edges := s.aiu.edges ||| 0x040#11 }, walk := { s.walk with waiting := false } }
    (s.seq.state ≠ .offline → (getSeg s g).mode = .dark → (getSeg s g).allow = true →
      let c := (getSeg s g).changedTo (if (getSeg s g).bias then .present else .idle)
      exec (.power g) s = .next (moved c) ∧ driversOn c = true) ∧
    (s.seq.state ≠ .offline → (getSeg s g).mode = .enabled →
      exec (.doze g) s = .next (moved ((getSeg s g).changedTo .dozing))) ∧
    (s.seq.state ≠ .offline → (getSeg s g).mode = .dozing →
      exec (.wake g) s = .next (moved ((getSeg s g).changedTo .waking))) ∧
    (s.seq.state ≠ .offline → (getSeg s g).quarantined = true → (getSeg s g).mode ≠ .faulted →
      fatalCode s.elog.busCode = false →
      exec (.release g) s = .next (setSeg g { getSeg s g with quarantined := false }
        { s with walk := { s.walk with waiting := false } })) ∧
    (∀ atStart, (getSeg s g).mode = .dozing → exchangeOn s g = false →
      exec (.wakeRequest g atStart) s =
        .next (moved { (getSeg s g).changedTo .waking with wakeSeen := true, wakeAtStart := atStart })) ∧
    (∀ atStart, (getSeg s g).mode ≠ .dozing ∨ exchangeOn s g = true → exec (.wakeRequest g atStart) s = .next s) ∧
    (s.seq.state ≠ .offline →
      (¬((getSeg s g).mode = .dark ∧ (getSeg s g).allow = true) → exec (.power g) s = .next (ignoredBy g s)) ∧
      ((getSeg s g).mode = .dark ∨ (getSeg s g).mode = .idle ∨ (getSeg s g).mode = .resetting ∨
        (getSeg s g).mode = .faulted → exec (.reset g) s = .next (ignoredBy g s)) ∧
      ((getSeg s g).mode ≠ .enabled → exec (.doze g) s = .next (ignoredBy g s)) ∧
      ((getSeg s g).mode ≠ .dozing → exec (.wake g) s = .next (ignoredBy g s)) ∧
      ((getSeg s g).quarantined = false ∨ (getSeg s g).mode = .faulted ∨ fatalCode s.elog.busCode = true →
        exec (.release g) s = .next (ignoredBy g s)))

/-- RESET in PRESENT, ENABLED, DOZING and WAKING (R38, R39): an exchange on the segment is CUT, the segment is RESETTING and
drives reset, and every valid entry that names it loses its sequence bits and strikes, and nothing else. That the CUT also
drops the fill request that waits is the model's reading (log 17). -/
def Obligations.ResetEntersResetting : Prop :=
  ∀ (g : Seg) (s : State), awake s → s.seq.state ≠ .offline →
    ((getSeg s g).mode = .present ∨ (getSeg s g).mode = .enabled ∨ (getSeg s g).mode = .dozing ∨
      (getSeg s g).mode = .waking) →
    ∃ t, exec (.reset g) s = .next t ∧
      LeavesSegment g { (getSeg s g).changedTo .resetting with beacon := none } (zeroedBy g) s t ∧
      drivesReset (getSeg t g) = true ∧ t.elog = s.elog

/-- DISABLE (R43): in DARK nothing changes; elsewhere an exchange on the segment is CUT and the segment is DARK, drivers off,
not quarantined. That the CUT also drops the fill request that waits is the model's reading (log 17). -/
def Obligations.DisableEntersDark : Prop :=
  ∀ (g : Seg) (s : State), awake s → s.seq.state ≠ .offline →
    ((getSeg s g).mode = .dark → exec (.disable g) s = .next s) ∧
    ((getSeg s g).mode ≠ .dark → ∃ t, exec (.disable g) s = .next t ∧
      LeavesSegment g { (getSeg s g).changedTo .dark with beacon := none, quarantined := false } id s t ∧
      driversOn (getSeg t g) = false ∧ t.elog = s.elog)

/-- A recognised change of bias (R34 to R36): in DARK and FAULTED only the bias field follows; IDLE becomes PRESENT; loss in
PRESENT, RESETTING, ENABLED, DOZING or WAKING is a detach to IDLE, with an exchange on the segment CUT. That the CUT also drops
the fill request that waits is the model's reading (log 17). -/
def Obligations.BiasChangeMovesTheSegment : Prop :=
  ∀ (g : Seg) (level : Bool) (s : State), awake s → (getSeg s g).bias ≠ level →
    let c := { getSeg s g with bias := level, biasPin := level }
    ((getSeg s g).mode = .dark ∨ (getSeg s g).mode = .faulted → exec (.biasChange g level) s = .next (setSeg g c s)) ∧
    ((getSeg s g).mode = .idle → level = true →
      exec (.biasChange g level) s = .next (setSeg g (c.changedTo .present) { s with
        aiu := { s.aiu with edges := s.aiu.edges ||| 0x040#11 }, walk := { s.walk with waiting := false } })) ∧
    ((getSeg s g).mode ≠ .dark → (getSeg s g).mode ≠ .faulted → (getSeg s g).mode ≠ .idle → level = false →
      ∃ t, exec (.biasChange g level) s = .next t ∧
        LeavesSegment g { c.changedTo .idle with beacon := none } id s t ∧ t.elog = s.elog)

/-- Babble where it is watched (R44, R156): the segment is FAULTED and quarantined with its drivers off, fault_seen is set,
and LINE_FAULT is offered with the entry of the exchange it CUTs. Where it is not watched nothing happens: in DARK and
FAULTED, in RESETTING before the second counted cycle start, in WAKING before the first, and while the master drives a
beacon, its own request frame or its ACCEPT on the segment. Where it is watched is the model's reading (log 33); whether an
ACCEPT is being sent or held back, and whether a beacon has ended that was started beside a slower one, abandoned since or not,
the row's operand `driving` says (log 30, log 33, log 56). That the CUT also drops the fill request that waits is the model's reading (log 17). -/
def Obligations.BabbleFaultsTheSegment : Prop :=
  ∀ (g : Seg) (driving : Bool) (s : State), awake s →
    ((getSeg s g).mode = .idle ∨ (getSeg s g).mode = .present ∨ (getSeg s g).mode = .enabled ∨ (getSeg s g).mode = .dozing ∨
      ((getSeg s g).mode = .resetting ∧ 2 ≤ (getSeg s g).counted) ∨
      ((getSeg s g).mode = .waking ∧ 1 ≤ (getSeg s g).counted) →
      (∀ b, (getSeg s g).beacon = some b → b.outlived = true ∧ driving = false) →
      (∀ x, s.xeng = some x → x.segment = g → x.phase ≠ .sending ∧ (x.phase = .accepting → driving = false)) →
      ∃ t, exec (.babble { seg := g, driving := driving }) s = .next t ∧
        LeavesSegment g { (getSeg s g).changedTo .faulted with beacon := none, quarantined := true, faultSeen := true } id s t ∧
        driversOn (getSeg t g) = false ∧
        t.elog = busAfterOffer s.elog 0x23 (segDetail g)
          (match s.xeng with
            | some x => if x.segment = g then x.entry else 0
            | none => 0) (cycleLow12 s) ∧
        t.aiu.edges.getLsbD 8 = true) ∧
    ((getSeg s g).mode = .dark ∨ (getSeg s g).mode = .faulted ∨ ((getSeg s g).mode = .resetting ∧ (getSeg s g).counted < 2) ∨
      ((getSeg s g).mode = .waking ∧ (getSeg s g).counted = 0) ∨
      (∃ b, (getSeg s g).beacon = some b ∧ (driving = true ∨ b.outlived = false)) →
      exec (.babble { seg := g, driving := driving }) s = .next s) ∧
    (∀ x, s.xeng = some x → x.segment = g → x.phase = .sending ∨ (x.phase = .accepting ∧ driving = true) →
      exec (.babble { seg := g, driving := driving }) s = .next s)

/-- A write of SEG_CFG, byte by byte (R47): allow and trust always take the written value; rate and timeout only in DARK and
IDLE; a write that would change them elsewhere sets cmd_ignored and offers SEG_CMD_IGNORED. That segment A's offer comes first
where both segments ignore a change is the model's choice (log 64). -/
def Obligations.SegCfgWriteActsPerSegment : Prop :=
  ∀ (v : Word) (s : State), awake s →
    let open' (g : Seg) : Bool := (getSeg s g).mode == .dark || (getSeg s g).mode == .idle
    let byte (g : Seg) : BitVec 8 := match g with
      | .a => v.extractLsb' 0 8
      | .b => v.extractLsb' 8 8
    let changes (g : Seg) : Bool :=
      (byte g).getLsbD 2 != (getSeg s g).reduced || (byte g).extractLsb' 3 2 != (getSeg s g).timeout
    ∃ t, exec (.segCfgWrite v) s = .next t ∧
      (∀ g, getSeg t g = { getSeg s g with
        allow := (byte g).getLsbD 0, guarded := (byte g).getLsbD 1,
        reduced := if open' g then (byte g).getLsbD 2 else (getSeg s g).reduced,
        timeout := if open' g then (byte g).extractLsb' 3 2 else (getSeg s g).timeout,
        cmdIgnored := (getSeg s g).cmdIgnored || (changes g && !open' g) }) ∧
      t.elog = ([Seg.a, Seg.b].filter (fun g => changes g && !open' g)).foldl
        (fun l g => busAfterOffer l 0x02 (segDetail g) 0 (cycleLow12 s)) s.elog ∧
      t.aiu = { s.aiu with edges := s.aiu.edges |||
        (if [Seg.a, Seg.b].any (fun g => changes g && !open' g) then 0x100#11 else 0#11) } ∧
      OnlyChanges [.segA, .segB, .elog, .aiu] s t

/-- A 32-bit read of a segment status register returns the present word and clears the change flags and cmd_ignored (R48). -/
def Obligations.SegStatusReadClearsFlags : Prop :=
  ∀ (g : Seg) (s : State), awake s → ∃ t, exec (.segStatusRead g) s = .next t ∧
    t = setSeg g { getSeg s g with stateChanged := false, wakeSeen := false, faultSeen := false, cmdIgnored := false }
      { s with hport := { s.hport with readData := readWord s (if g = .a then 0x010 else 0x014) } } ∧
    (readWord s (if g = .a then 0x010 else 0x014)).extractLsb' 8 3 =
      (flagBit (getSeg s g).faultSeen ++ flagBit (getSeg s g).wakeSeen ++ flagBit (getSeg s g).stateChanged)

/-! ### Cycle timing -/

/-- The BEACON of step 4 of R54, `sends` saying whether the controller's state sends beacons: in ENABLED and WAKING, with the
number's low bits, marked if the other segment's was started with it and takes longer, at Reduced rate beside Standard (R56). -/
def beaconAtStart (sends : Bool) (n : Word) (c other : Segment) : Option Beacon :=
  let gets (d : Segment) : Bool := sends && (d.mode == .enabled || (d.mode == .waking && !d.wakeAtStart))
  if gets c = true then
    some { payload := n.extractLsb' 0 16, outlived := gets other && other.reduced && !c.reduced }
  else none

/-- What steps 4 and 6 of R54 make of a segment, `n` being the cycle's number and `sends` whether the controller's state sends
beacons: its BEACON; the third counted start ends RESETTING by the raw
bias, the second ends WAKING; a segment that entered WAKING at this very moment is left out (R40, R42, R56). -/
def segAtStart (sends pin : Bool) (n : Word) (c other : Segment) : Segment :=
  let c := { c with biasPin := pin, beacon := beaconAtStart sends n c other }
  if c.mode = .resetting then
    (if c.counted = 2 then c.changedTo (if pin then .enabled else .idle) else { c with counted := c.counted + 1 })
  else if c.mode = .waking then
    (if c.wakeAtStart then { c with wakeAtStart := false }
     else if c.counted = 1 then c.changedTo .enabled else { c with counted := c.counted + 1 })
  else c

/-- A cycle start with no exchange on the bus (R54): the reload and the number, the pending length and the two samples,
CYCLE, the beacons and the counts, the anchors written since the last latch with their rotations (R78), the passes marked
not done, the window, the staging buffer, and the transitions of step 7; SEG is set with a segment's change of state, SEQ
with the controller's. That the row carries the countdown to its end from any value is the model's choice (log 3), and that
a request which waits for a fill in flight goes on waiting, if it was not made for a late head (R119), is its reading
(log 17), and so is the mark of a beacon whose end comes before BEACON_END (log 30). -/
def Obligations.CycleStartTakesItsSteps : Prop :=
  ∀ (a b : Bool) (s : State), awake s → s.seq.state ≠ .offline → s.xeng = none →
    let sends := decide (s.seq.state = .armed ∨ s.seq.state = .running ∨ s.seq.state = .stopping ∨ s.seq.state = .sealed)
    ∃ t, exec (.cycleStart a b) s = .next t ∧
      t.ctim = { s.ctim with remain := s.ctim.len, number := s.ctim.number + 1,
                             len := s.ctim.lenPending.getD s.ctim.len, lenPending := none,
                             openSampled := s.ctim.periodicOpen, markSampled := s.ctim.lateMark } ∧
      t.segA = segAtStart sends a (s.ctim.number + 1) s.segA s.segB ∧
      t.segB = segAtStart sends b (s.ctim.number + 1) s.segB s.segA ∧
      (∀ c, latchedAnchor t c =
        if s.walk.anchorWritten.get (classIx c) then s.walk.anchorReg.get (classIx c) else latchedAnchor s c) ∧
      (∀ c, t.walk.anchorWritten.get (classIx c) = false) ∧
      t.walk.service = (if s.walk.anchorWritten.get (classIx .service) then Rotation.empty else s.walk.service) ∧
      t.walk.bulk = (if s.walk.anchorWritten.get (classIx .bulk) then Rotation.empty else s.walk.bulk) ∧
      t.walk.window = (if t.segA.beacon.isSome = true ∨ t.segB.beacon.isSome = true then .starting else .early) ∧
      t.walk.timedDone = false ∧ t.walk.streamDone = false ∧ t.walk.pass = none ∧ t.walk.aperiodicOver = false ∧
      t.walk.slots = s.walk.slots ∧ t.walk.anchorReg = s.walk.anchorReg ∧
      (∀ tag bytes, t.stage.buf ≠ .staged tag bytes) ∧
      (∀ tag, s.stage.buf = .filling tag →
        t.stage = { buf := .filling none, waiting := s.stage.waiting.filter (fun q => !q.late) }) ∧
      ((∀ tag, s.stage.buf ≠ .filling tag) → t.stage = { buf := .empty, waiting := none }) ∧
      t.seq = { s.seq with state :=
        if s.seq.state = .stopping then .armed
        else if s.seq.state = .ready ∧ anyLive s = false ∧ anyLive t = true ∧ s.seq.restartInHand = false then .armed
        else s.seq.state } ∧
      OnlyRaises s t ∧ t.aiu.edges.getLsbD 0 = true ∧
      t.aiu.edges.getLsbD 6 =
        (s.aiu.edges.getLsbD 6 || decide (t.segA.mode ≠ s.segA.mode) || decide (t.segB.mode ≠ s.segB.mode)) ∧
      t.aiu.edges.getLsbD 7 = (s.aiu.edges.getLsbD 7 || decide (t.seq.state ≠ s.seq.state)) ∧
      OnlyChanges [.seq, .segA, .segB, .ctim, .walk, .stage, .wq, .aiu, .hport] s t

/-- The windows of a cycle (R57, R58): when every beacon has ended the early window opens; when the countdown comes to the
sampled PERIODIC_OPEN the walker decides again; the decision that finds it there opens the periodic window. In RUNNING the
TIMED pass begins at its latched anchor, the STREAM pass follows when TIMED is done or has no head, and when both are done or
empty the late window opens; in READY and ARMED it opens at once. A decision before the early window opens waits. Where
nothing falls due nothing happens (log 2, log 3). That the position a pass keeps does not count the head at it, so that one fetched
again there counts once (R79), is the model's choice (log 67). -/
def Obligations.WindowsOpenInOrder : Prop :=
  ∀ s : State, awake s →
    let decides : Prop := s.xeng = none ∧ s.seq.restartInHand = false ∧ s.walk.hand = .nothing ∧ s.walk.waiting = false
    let periodic : Prop := s.walk.window = .periodic ∨
      (s.walk.window = .early ∧ s.ctim.remain.toNat ≤ s.ctim.openSampled.toNat)
    let begins (c : RingClass) (t : State) : Prop := ∃ k, t.walk.hand = .headWait k ∧ k.stage = .pass c ∧
      k.cur = latchedAnchor s c ∧ k.start = some (latchedAnchor s c) ∧ k.fetched = 1 ∧
      asked t 1 (latchedAnchor s c) 16 .head ∧
      t.walk.pass = some { prev := none, next := latchedAnchor s c, start := some (latchedAnchor s c), fetched := 0 } ∧
      t.walk.window = .periodic ∧ OnlyChanges [.walk, .hport, .wq, .aiu] s t
    let noPass (c : RingClass) (done : Bool) : Prop := done = true ∨ latchedAnchor s c = 0
    let lateOpens (t : State) : Prop := t.walk.window = .late ∧ t.walk.timedDone = true ∧ t.walk.streamDone = true ∧
      t.walk.pass = none
    (s.walk.window = .starting → exec .beaconEnd s = .next { s with
      segA := { s.segA with beacon := none }, segB := { s.segB with beacon := none },
      walk := { s.walk with window := .early, waiting := false } }) ∧
    (s.walk.window ≠ .starting → exec .beaconEnd s = .next s) ∧
    (s.seq.state ≠ .offline → s.ctim.openSampled.toNat ≤ s.ctim.remain.toNat →
      exec .periodicOpenReached s = .next { s with
        ctim := { s.ctim with remain := s.ctim.openSampled }, walk := { s.walk with waiting := false } }) ∧
    (s.seq.state = .offline ∨ s.ctim.remain.toNat < s.ctim.openSampled.toNat → exec .periodicOpenReached s = .next s) ∧
    (decides → s.walk.window = .starting → s.seq.state = .ready ∨ s.seq.state = .armed ∨ s.seq.state = .running →
      ∃ t, exec .walkerDecision s = .next t ∧ t.walk = { s.walk with waiting := true, look := .nothing } ∧
        OnlyChanges [.walk, .hport, .wq, .aiu] s t) ∧
    (decides → periodic → s.walk.pass = none → s.seq.state = .running →
      (s.walk.timedDone = false → latchedAnchor s .timed ≠ 0 → pendingHeadLink s (latchedAnchor s .timed) = none →
        ∃ t, exec .walkerDecision s = .next t ∧ begins .timed t ∧ t.walk.timedDone = false ∧
          t.walk.streamDone = s.walk.streamDone) ∧
      (noPass .timed s.walk.timedDone → s.walk.streamDone = false → latchedAnchor s .stream ≠ 0 →
        pendingHeadLink s (latchedAnchor s .stream) = none →
        ∃ t, exec .walkerDecision s = .next t ∧ begins .stream t ∧ t.walk.timedDone = true ∧ t.walk.streamDone = false) ∧
      (noPass .timed s.walk.timedDone → noPass .stream s.walk.streamDone →
        ∃ t, exec .walkerDecision s = .next t ∧ lateOpens t ∧
          OnlyChanges [.seq, .walk, .xeng, .stage, .wq, .dau, .aiu, .elog, .hport] s t)) ∧
    (decides → periodic → s.seq.state = .ready ∨ s.seq.state = .armed →
      ∃ t, exec .walkerDecision s = .next t ∧ lateOpens t ∧
        OnlyChanges [.walk, .xeng, .stage, .wq, .dau, .aiu, .hport] s t)

/-- CYCLE_REMAIN comes to 0 with an exchange on the bus (R63): OVERLONG while a reply arrives; CUT, with what that makes of the
head (R92), while a frame is held or being sent; and while a reply is only awaited, which R63 leaves open, SILENCE or CUT by
a free value (log 11). That the row carries the countdown to 0 from any value is the model's choice (log 3), and that no
STRIKE_OUT is offered for a rewritten entry (log 42) and a CUT also drops the fill request that waits (log 17) is its
reading. -/
def Obligations.CutoffEndsTheExchange : Prop :=
  ∀ (s : State) (x : Exchange), awake s → s.seq.state ≠ .offline → s.xeng = some x →
    let s0 := { s with ctim := { s.ctim with remain := 0 } }
    (x.phase = .receiving → ∃ t, exec .cycleEndCutoff s = .next t ∧ EndsWith .overlong x s0 t) ∧
    (x.phase = .held ∨ x.phase = .sending ∨ x.phase = .accepting →
      ∃ t, exec .cycleEndCutoff s = .next t ∧ EndsWith .cut x s0 t ∧ CutEndsTheVisit x s t) ∧
    (x.phase = .window → ∃ t, exec .cycleEndCutoff s = .next t ∧
      (EndsWith .silence x { s0 with freeDraws := s.freeDraws + 1 } t ∨
        (EndsWith .cut x { s0 with freeDraws := s.freeDraws + 1 } t ∧ CutEndsTheVisit x s t)))

/-- A write of CYCLE_LEN (R50): accepted as the pending value if it lies in 7840..8159 and differs from the effective value by
at most 8; otherwise both parts stay and CYCLE_LEN_REFUSED is offered with no segment and entry 0. -/
def Obligations.CycleLenWriteIsTested : Prop :=
  ∀ (v : Word) (s : State), awake s →
    let n := (v.extractLsb' 0 13).toNat
    (7840 ≤ n ∧ n ≤ 8159 ∧ n ≤ s.ctim.len.toNat + 8 ∧ s.ctim.len.toNat ≤ n + 8 →
      exec (.cycleLenWrite v) s = .next { s with ctim := { s.ctim with lenPending := some (v.extractLsb' 0 13) } }) ∧
    (¬(7840 ≤ n ∧ n ≤ 8159 ∧ n ≤ s.ctim.len.toNat + 8 ∧ s.ctim.len.toNat ≤ n + 8) →
      exec (.cycleLenWrite v) s = .next { s with
        elog := busAfterOffer s.elog 0x03 0 0 (s.ctim.number.extractLsb' 0 12),
        aiu := { s.aiu with edges := s.aiu.edges ||| 0x100#11 } })

/-! ### The Station Table -/

/-- The fence pair after a W0 write that carries fence = `raise` (R70). -/
def fenceAfter (raise isEngaged : Bool) (e : Entry) : Bool × Bool :=
  if raise = false then (false, false) else if e.fence then (true, e.fenceGranted) else (true, !isEngaged)

/-- A write of ENTRY_W0 (R64, R70, R71): the null entry ignores it; the fence is always applied; the other fields are taken if
the written valid is 0, the entry is invalid or granted, or nothing but fence would change, and counters are cleared when
the entry becomes valid (R68); otherwise the write is refused, with table_refused and TABLE_WRITE_REFUSED. Which writes mark the
exchange of an engaged entry rewritten (R72) is the model's reading (log 18). -/
def Obligations.EntryW0WriteIsJudged : Prop :=
  ∀ (v : Word) (s : State), awake s →
    let e := getEntry s s.select
    let fields : Entry := { e with
      valid := v.getLsbD 0, segment := if v.getLsbD 3 then .b else .a, address := v.extractLsb' 4 5,
      channel := v.extractLsb' 12 4, payloadCode := v.extractLsb' 16 3, classLock := v.extractLsb' 20 3 }
    let taken : Entry :=
      if e.valid = false ∧ v.getLsbD 0 = true then { fields with doneCount := 0, deferCount := 0 } else fields
    let f := fenceAfter (v.getLsbD 1) (engaged s s.select) e
    let accepted := v.getLsbD 0 = false ∨ e.valid = false ∨ e.fenceGranted = true ∨ fields = e
    (s.select = 0 → exec (.entryW0Write v) s = .next s) ∧
    (s.select ≠ 0 → accepted → ∃ t, exec (.entryW0Write v) s = .next t ∧
      getEntry t s.select = { taken with fence := f.1, fenceGranted := f.2 } ∧
      (∀ i, i ≠ s.select → getEntry t i = getEntry s i) ∧
      t.xeng = (if engaged s s.select = true ∧ (v.getLsbD 0 = false ∨ e.valid = false ∨ e.fenceGranted = true)
        then s.xeng.map (fun x => { x with rewritten := true }) else s.xeng) ∧
      t.walk = { s.walk with waiting := false } ∧ OnlyChanges [.table, .xeng, .walk] s t) ∧
    (s.select ≠ 0 → ¬accepted → ∃ t, exec (.entryW0Write v) s = .next t ∧
      getEntry t s.select = { e with fence := f.1, fenceGranted := f.2 } ∧
      (∀ i, i ≠ s.select → getEntry t i = getEntry s i) ∧
      t.seq = { s.seq with tableRefused := true } ∧
      t.elog = busAfterOffer s.elog 0x01 (segDetail e.segment) s.select (cycleLow12 s) ∧
      t.aiu = { s.aiu with edges := s.aiu.edges ||| 0x100#11 } ∧ OnlyChanges [.table, .seq, .elog, .aiu] s t)

/-- A write of ENTRY_W1 (R64, R71): taken if the entry is invalid or granted, or if nothing would change; a written fault of 3 is
stored as 0 (5.2), and is compared as 0, which is the model's choice (log 46); otherwise refused, and nothing of it is
applied. Which writes mark the exchange of an engaged entry rewritten (R72) is the model's reading (log 18). -/
def Obligations.EntryW1WriteIsJudged : Prop :=
  ∀ (v : Word) (s : State), awake s →
    let e := getEntry s s.select
    let taken : Entry := { e with
      seqOut := v.getLsbD 0, seqIn := v.getLsbD 1, strikesOut := v.extractLsb' 2 2, strikesIn := v.extractLsb' 4 2,
      halted := v.getLsbD 6,
      fault := if v.extractLsb' 8 2 = 1#2 then .refused else if v.extractLsb' 8 2 = 2#2 then .strikeOut else .none }
    let accepted := e.valid = false ∨ e.fenceGranted = true ∨ taken = e
    (s.select = 0 → exec (.entryW1Write v) s = .next s) ∧
    (s.select ≠ 0 → accepted → ∃ t, exec (.entryW1Write v) s = .next t ∧ getEntry t s.select = taken ∧
      (∀ i, i ≠ s.select → getEntry t i = getEntry s i) ∧
      t.xeng = (if engaged s s.select = true ∧ (e.valid = false ∨ e.fenceGranted = true)
        then s.xeng.map (fun x => { x with rewritten := true }) else s.xeng) ∧
      t.walk = { s.walk with waiting := false } ∧ OnlyChanges [.table, .xeng, .walk] s t) ∧
    (s.select ≠ 0 → ¬accepted → exec (.entryW1Write v) s = .next { s with
      seq := { s.seq with tableRefused := true },
      elog := busAfterOffer s.elog 0x01 (segDetail e.segment) s.select (cycleLow12 s),
      aiu := { s.aiu with edges := s.aiu.edges ||| 0x100#11 } })

/-! ### The walker -/

/-- The symbols R59 estimates for a direct request of `len` bytes on a segment with timeout `T`. -/
def directSymbols (poke : Bool) (len T : Nat) : Nat := if poke then 68 + 10 * len + T else 102 + 10 * len + T

/-- A decision gives the turn to the front direct request (R95, R137, R138): in the early or late window of ARMED or RUNNING, with room
in the Done list, an entry that is valid, addressed and not fenced, an ENABLED segment out of quarantine, and an estimate
that fits before the late mark (R59, R60). A POKE's snapshot is staged at once (R117); that it then stands over a fill in
flight and drops the request that waits is the model's choice (log 17, log 59). -/
def Obligations.DecisionGivesTheDirectTurn : Prop :=
  ∀ (s : State) (r : DirReq) (rest : List DirReq), awake s → s.xeng = none → s.seq.restartInHand = false →
    (s.seq.state = .armed ∨ s.seq.state = .running) → s.walk.hand = .nothing → s.walk.waiting = false →
    (s.walk.window = .late ∨ (s.walk.window = .early ∧ s.ctim.openSampled.toNat < s.ctim.remain.toNat)) →
    s.walk.aperiodicOver = false → s.dau.pending = r :: rest → s.dau.done.length < 4 →
    let e := getEntry s r.entry
    e.fenceGranted = false → e.valid = true → e.address ≠ 0 → (getSeg s e.segment).mode = .enabled →
    (getSeg s e.segment).quarantined = false →
    directSymbols r.poke r.len (timeoutSymbols (getSeg s e.segment).timeout) *
      (if (getSeg s e.segment).reduced then 4 else 1) + s.ctim.markSampled.toNat ≤ s.ctim.remain.toNat →
    ∃ t, exec .walkerDecision s = .next t ∧
      t.xeng = some { phase := .held, request := if r.poke then .poke r.len else .peek r.len, direct := true,
                      entry := r.entry, segment := e.segment, maxPayload := 8 * 2 ^ e.payloadCode.toNat, tail := false,
                      frame := none, room := 0, data := [], accept := none, rewritten := false } ∧
      t.stage = (if r.poke then { buf := .staged .poke r.data, waiting := none } else s.stage) ∧
      t.walk = { s.walk with look := .nothing } ∧
      OnlyChanges [.xeng, .stage, .walk, .hport, .wq, .aiu] s t

/-- The status a front direct request completes with at once, by the first line of R138's table that applies; none if it may
run. -/
def barredBy (s : State) (r : DirReq) : Option DirStatus :=
  let e := getEntry s r.entry
  if e.fenceGranted then some .fenced
  else if e.valid = false ∨ e.address = 0 then some .failed
  else if (getSeg s e.segment).quarantined then some .quarantined
  else if (getSeg s e.segment).mode ≠ .enabled then some .notReady
  else none

/-- The direct lists after one decision's completions (R137): barred requests complete from the front, one after another,
while the Done list has room. -/
def barredDone : List DirReq → State → Direct
  | [], s => s.dau
  | r :: rest, s =>
    if s.dau.done.length < 4 then
      match barredBy s r with
      | some st => barredDone rest { s with dau := directDone r rest st [] s }
      | none => s.dau
    else s.dau

/-- A front direct request that cannot run completes at its decision without a frame (R137, R138, R140), in ARMED and RUNNING:
FENCED, FAILED, QUARANTINED or NOT_READY by the first line that applies, with count 0; and the walker decides again at once,
so that the barred requests behind it complete too, while the Done list has room. Where no request is left to be offered the
bus stays free. -/
def Obligations.DecisionCompletesABarredRequest : Prop :=
  ∀ (s : State) (r : DirReq) (rest : List DirReq), awake s → s.xeng = none → s.seq.restartInHand = false →
    (s.seq.state = .armed ∨ s.seq.state = .running) → s.walk.hand = .nothing → s.walk.waiting = false →
    (s.walk.window = .late ∨ (s.walk.window = .early ∧ s.ctim.openSampled.toNat < s.ctim.remain.toNat)) →
    s.walk.aperiodicOver = false → s.dau.pending = r :: rest → s.dau.done.length < 4 → barredBy s r ≠ none →
    ∃ t, exec .walkerDecision s = .next t ∧ t.dau = barredDone (r :: rest) s ∧
      t.dau.done.length = s.dau.done.length + (s.dau.pending.length - t.dau.pending.length) ∧
      s.dau.done.length < t.dau.done.length ∧
      (t.dau.pending = [] ∨ 4 ≤ t.dau.done.length → t.xeng = none) ∧
      (s.seq.state = .armed → t.dau.pending = [] ∨ 4 ≤ t.dau.done.length → OnlyChanges [.dau, .walk, .hport, .wq, .aiu] s t) ∧
      OnlyChanges [.seq, .walk, .xeng, .stage, .wq, .dau, .aiu, .elog, .hport] s t

/-- The head a search begins at (R96): the one behind the cursor, by the link of the cursor's head, or the latched anchor. -/
def searchHead (anchor : Word) : Option Cursor → Word
  | some u => u.link
  | none => anchor

/-- The link can be followed, and the head it leads to may be fetched (R79, test 1 of R83). -/
def followed (s : State) (link : Word) : Prop :=
  link ≠ 0 ∧ link.extractLsb' 0 4 = 0#4 ∧ pendingHeadLink s link = none

/-- The walker fetches the first head of a search of the ring `c` (R96): behind the cursor `from'` or at the latched anchor, the
rotation so far being `rot`. -/
def BeginsSearch (c : RingClass) (n : Search) (from' : Option Cursor) (rot : Rotation) (firstEmpty : Bool)
    (s t : State) : Prop :=
  let head := searchHead (latchedAnchor s c) from'
  t.walk.hand = .headWait { stage := .search c n, start := some head, fetched := 1, cur := head, rot := rot,
                            firstEmpty := firstEmpty } ∧
  asked t 1 head 16 .head

/-- WALKER_DECISION and the rings, in RUNNING. With no direct request the searches of a ring begin (R95, R96, R79), SERVICE first
and then, in the late window, BULK: with the low-turn flag clear the high search, behind the high cursor or at the latched
anchor; where that cursor's head leads back to the anchor, its round is complete and the low search begins; with the flag set
the low search. An anchor of 0 makes no fetch but leaves the walker waiting in the early window. A candidate whose tests still pass starts its next packet if the estimate fits before the late mark and the
packet is ready (R60, R119, R85), with its place in the rotation (R96); so does a BULK burst that goes on (R97). One that
fails the start rule ends aperiodic work for the cycle and keeps its place (R62), as does the head of a burst, which is then
over with its status write; in a pass it is LATE (R61), also when its packet is not staged: a TIMED pass moves on to the next
head (and, with no head left, may come to the direct path), a STREAM record is fetched again to complete MISSED. That a
decision is spread over its fetches (log 23), that the slot is taken over first (log 45), that R87 is not tested again (log 53)
and that a ring's candidate starts though a direct request has come meanwhile (log 54) is the model's choice; what a place in
the rotation is (log 13, log 14), and LATE for a STREAM head (log 22), is its reading. -/
def Obligations.WalkerDecisionsServeTheRings : Prop :=
  ∀ s : State, awake s → s.xeng = none → s.seq.restartInHand = false → s.seq.state = .running →
    (s.walk.hand = .nothing → s.walk.waiting = false → s.walk.aperiodicOver = false → s.dau.pending = [] →
      (s.walk.window = .late ∨ (s.walk.window = .early ∧ s.ctim.openSampled.toNat < s.ctim.remain.toNat)) →
      (∀ c, c = .service ∨ (c = .bulk ∧ s.walk.window = .late ∧ latchedAnchor s .service = 0) →
        let anchor := latchedAnchor s c
        let rot := getRot s c
        let begins (n : Search) (from' : Option Cursor) (left : Rotation) (firstEmpty : Bool) : Prop :=
          followed s (searchHead anchor from') → ∃ t, exec .walkerDecision s = .next t ∧
            BeginsSearch c n from' left firstEmpty s t ∧
            t.walk = { s.walk with hand := t.walk.hand, look := .nothing, waiting := true } ∧
            OnlyChanges [.walk, .hport, .wq, .aiu] s t
        anchor ≠ 0 → anchor.extractLsb' 0 4 = 0#4 →
        (rot.lowTurn = false → (∀ u, rot.high = some u → u.link ≠ anchor) → begins .high rot.high rot rot.high.isNone) ∧
        (rot.lowTurn = false → (∃ u, rot.high = some u ∧ u.link = anchor) →
          begins .low rot.low { rot with high := none, lowTurn := true } false) ∧
        (rot.lowTurn = true → begins .low rot.low rot false)) ∧
      (latchedAnchor s .service = 0 → s.walk.window = .early → latchedAnchor s .timed = 0 → latchedAnchor s .stream = 0 →
        ∃ t, exec .walkerDecision s = .next t ∧ t.walk = { s.walk with waiting := true, look := .nothing } ∧
          OnlyChanges [.walk, .hport, .wq, .aiu] s t)) ∧
    (∀ (c : Turn) (g : Nat) (tailOnly : Bool), passesTests s c.cls c.head → doneSoFar s c g tailOnly →
      let e := getEntry s (headEntry c.head)
      let q := packetByRules (8 * 2 ^ e.payloadCode.toNat) c.seg g tailOnly
      let fits : Prop := ringSymbols q (timeoutSymbols (getSeg s e.segment).timeout) *
        (if (getSeg s e.segment).reduced then 4 else 1) + s.ctim.markSampled.toNat ≤ s.ctim.remain.toNat
      let tag : StageTag := .packet (headEntry c.head) c.record g ((packetBytes q).getD 0)
      let ready : Prop := packetBytes q = none ∨ stagedFor tag s = true ∨ (packetBytes q = some 0 ∧ s.stage.buf = .empty)
      let unstaged : Prop := packetBytes q ≠ none ∧ packetBytes q ≠ some 0 ∧ s.stage.buf = .empty
      let starts (t : State) : Prop := exec .walkerDecision s = .next t ∧
        t.xeng = some { phase := .held, request := q, direct := false, entry := headEntry c.head, segment := e.segment,
                        maxPayload := 8 * 2 ^ e.payloadCode.toNat, tail := decide (q = .push 0), frame := none, room := 0,
                        data := [], accept := none, rewritten := false } ∧
        (packetBytes q ≠ none → stagedFor tag t = true) ∧
        slotFor t (headEntry c.head) c.record (recKind c.seg) =
          some { record := c.record, kind := recKind c.seg, progress := g, tailOnly := tailOnly } ∧
        OnlyChanges [.xeng, .stage, .walk, .hport, .wq, .aiu] s t
      (s.walk.hand = .turn c → c.phase = .burstReady → fits → ready →
        ∃ t, starts t ∧ t.walk.hand = .turn { c with phase := .exchanging }) ∧
      (∀ o, s.walk.hand = .turn c → c.phase = .burstReady → c.cls = .bulk → c.inPass = false → 0 < c.made → c.last = some o →
        c.skipping = none → s.wq.items.length < 32 → ¬fits → ∃ t word, exec .walkerDecision s = .next t ∧
          t.walk.aperiodicOver = true ∧ t.walk.hand = .nothing ∧ t.xeng = none ∧
          t.wq.items = s.wq.items ++
            [.status c.addr word .bulk (headEntry c.head) (headNotifyVisit c.head) none c.head.w0] ∧
          word.extractLsb' 8 4 = outcomeCode o ∧ word.getLsbD 0 = c.head.w3.getLsbD 0 ∧ t.wq.reserved = 0 ∧
          (∀ rot, c.undo = some rot → t.walk.bulk = rot) ∧ t.walk.service = s.walk.service ∧
          t.aiu.queue = s.aiu.queue ∧ OnlyChanges [.walk, .hport, .wq, .aiu] s t) ∧
      (∀ k : Seek, s.walk.hand = .candidate k c → c.cls = stageClass k.stage → c.addr = k.cur →
        ¬(s.walk.window = .early ∧ s.ctim.remain.toNat ≤ s.ctim.openSampled.toNat) →
        let late : Attn := { cause := .late, cls := c.cls, entry := headEntry c.head,
                             cycle := s.ctim.number.extractLsb' 0 12, head := c.addr }
        (fits → ready → ∃ t, starts t ∧ t.walk.hand = .turn { c with undo := undoOf k s, phase := .exchanging } ∧
          (∀ r n, k.stage = .search r n → r = .service ∨ r = .bulk → getRot t r = (if n = .low
            then { k.rot with low := some { head := k.cur, link := c.head.w0 }, lowTurn := false }
            else { k.rot with high := some { head := k.cur, link := c.head.w0 } }))) ∧
        (∀ r n, k.stage = .search r n → ¬fits → ∃ t, exec .walkerDecision s = .next t ∧
          t.walk.aperiodicOver = true ∧ t.walk.hand = .nothing ∧ t.xeng = none ∧ t.wq.items = s.wq.items ∧
          t.wq.reserved = 0 ∧ t.aiu.queue = s.aiu.queue ∧ t.walk.service = s.walk.service ∧ t.walk.bulk = s.walk.bulk ∧
          (s.walk.window = .late → OnlyChanges [.walk, .hport, .wq, .aiu] s t)) ∧
        (k.stage = .pass .timed → ¬fits ∨ unstaged → ∃ t, exec .walkerDecision s = .next t ∧
          t.aiu.queue = (attnAfterOffer s.aiu late).queue ∧ t.wq.items = s.wq.items ∧ t.wq.reserved = 0 ∧
          (s.dau.pending = [] → t.xeng = none) ∧
          (∀ p, s.walk.pass = some p → s.walk.timedDone = false → p.fetched < 255 → c.head.w0 ≠ 0 →
            c.head.w0.extractLsb' 0 4 = 0#4 → c.head.w0 ≠ latchedAnchor s .timed → pendingHeadLink s c.head.w0 = none →
            asked t 1 c.head.w0 16 .head ∧ t.xeng = none ∧
            t.walk.pass = some { prev := some c.addr, next := c.head.w0, start := some (p.start.getD c.head.w0),
                                 fetched := p.fetched + 1 })) ∧
        (k.stage = .pass .stream → ¬fits ∨ unstaged → ∃ t, exec .walkerDecision s = .next t ∧
          t.aiu.queue = (attnAfterOffer s.aiu late).queue ∧ t.xeng = none ∧
          t.walk.hand = .turn { c with phase := .refetch .missed 0 } ∧
          asked t 2 c.record 16 .refetch ∧ t.wq.items = s.wq.items ∧
          t.wq.reserved = s.wq.reserved ∧ OnlyChanges [.stage, .walk, .hport, .wq, .aiu] s t)))

/-- RECORD_FETCH_DONE and the searches of a rotation (R96): how a search of the ring `c` goes on, or ends, behind a head that is
passed over, `link` being that head's W0. A search goes on with the next head; a high search that has come back to the anchor is
complete and the low search begins; a low search that has come back to the head it began at ends, and the second high search
begins, unless the first one was made from an empty cursor; and a ring whose last search ends has no work, so that BULK
follows SERVICE in the late window, and otherwise the walker waits. -/
def SearchGoesOn (c : RingClass) (n : Search) (k : Seek) (link : Word) (s t : State) : Prop :=
  let anchor := latchedAnchor s c
  let back : Prop := if n = .low then k.start = some link else link = anchor
  let ends (left : Rotation) : Prop := getRot t c = left ∧ t.wq.items = s.wq.items ∧
    (c = .bulk ∨ s.walk.window ≠ .late ∨ latchedAnchor s .bulk = 0 → t.walk.hand = .nothing) ∧
    (c = .service → s.walk.window = .late → latchedAnchor s .bulk ≠ 0 → s.walk.bulk = Rotation.empty →
      followed s (latchedAnchor s .bulk) → BeginsSearch .bulk .high none Rotation.empty true s t)
  let moved (u : Seek) : Prop := t.walk = { s.walk with hand := .headWait u } ∧
    asked t 1 u.cur 16 .head ∧
    OnlyChanges [.walk, .hport, .wq, .aiu] s t
  (¬back → k.fetched < 256 → followed s link →
    moved { k with start := some (k.start.getD link), cur := link, fetched := k.fetched + 1 }) ∧
  (n = .high → back → followed s (searchHead anchor k.rot.low) →
    BeginsSearch c .low k.rot.low { k.rot with high := none, lowTurn := true } k.firstEmpty s t) ∧
  (n = .low → back → k.firstEmpty = false → followed s anchor →
    BeginsSearch c .second none { k.rot with lowTurn := false } false s t) ∧
  (n = .low → back → k.firstEmpty = true → ends { k.rot with lowTurn := false }) ∧
  (n = .second → back → ends { k.rot with high := none, lowTurn := true })

/-- RECORD_FETCH_DONE and the walker. A SERVICE head fetched in the high search (R83, R84, R129): with every test passed its
record is fetched and four slots are reserved; failing test 5, 6 or 7 it is stopped, which queues one head status write
and nothing else; passed over with a bad link, or after 256 fetches, the ring is broken and the controller seals (R79). A
TIMED head that is not eligible is passed over without any test (R93). Behind a head that is passed over in a rotation of SERVICE
or BULK its searches go on and end as R96 gives. A record refused for its kind is written back and its
head stopped (R87), one that is not becomes the candidate, and a fence granted meanwhile keeps the head from both (R73); that
the tests are made again when the record returns is the model's choice (log 23), and when a search has come round (log 13), a head
of the other priority being passed over before its tests (log 15), and the rotation's state is kept (log 14) is its reading. -/
def Obligations.ReturnedHeadIsTested : Prop :=
  (∀ (s : State) (k : Seek) (q : ReadReq) (later : List ReadReq) (w0 w1 w2 w3 : Word), awake s →
    s.hport.reads = q :: later → q.kind ≠ 4 → q.reader = .head → s.walk.hand = .headWait k →
    k.stage = .search .service .high →
    w1.getLsbD 0 = true → w1.getLsbD 1 = true → w3.getLsbD 0 = false → w3.getLsbD 1 = false → w2 ≠ 0 →
    let i : EntryIx := w1.extractLsb' 4 6
    let e := getEntry s i
    let usable := i ≠ 0 ∧ e.valid = true ∧ e.address ≠ 0 ∧ e.payloadCode ≠ 7 ∧ (e.classLock = 0 ∨ e.classLock = 1)
    e.fenceGranted = false →
    (w2.extractLsb' 0 4 = 0#4 → usable → e.halted = false → (getSeg s e.segment).mode = .enabled →
      (getSeg s e.segment).quarantined = false → recordPending s w2 = false → 4 ≤ freeSlots s →
      ∃ t, exec (.recordFetchDone w0 w1 w2 w3) s = .next t ∧
        t.walk = { s.walk with hand := .recordWait k { w0 := w0, w1 := w1, w2 := w2, w3 := w3 } } ∧
        t.wq.reserved = s.wq.reserved + 4 ∧ t.wq.items = s.wq.items ∧
        asked t 2 w2 16 .record ∧
        OnlyChanges [.walk, .hport, .wq, .aiu] s t) ∧
    (∀ cause, cause = (if w2.extractLsb' 0 4 ≠ 0#4 then Cause.badLink else if ¬usable then .badEntry else .stationHalted) →
      (w2.extractLsb' 0 4 ≠ 0#4 ∨ ¬usable ∨ e.halted = true) → 1 ≤ freeSlots s →
      ∃ t word, exec (.recordFetchDone w0 w1 w2 w3) s = .next t ∧
        t.wq.items = s.wq.items ++ [.status k.cur word .service i false (some cause) w0] ∧
        word.getLsbD 0 = true ∧ word.extractLsb' 4 4 = causeCode cause ∧ word.extractLsb' 16 8 = w3.extractLsb' 16 8 ∧
        OnlyChanges [.seq, .walk, .xeng, .stage, .wq, .dau, .aiu, .elog, .hport] s t)) ∧
  (∀ (s : State) (k : Seek) (q : ReadReq) (later : List ReadReq) (w0 w1 w2 w3 : Word), awake s →
    s.hport.reads = q :: later → q.kind ≠ 4 → q.reader = .head → s.walk.hand = .headWait k → s.seq.state = .running →
    (k.stage = .search .service .high → w1.getLsbD 0 = false →
      ∀ addr, (addr = k.cur ∧ (w0 = 0 ∨ w0.extractLsb' 0 4 ≠ 0#4)) ∨
        (k.start = some addr ∧ w0 ≠ 0 ∧ w0.extractLsb' 0 4 = 0#4 ∧ w0 ≠ latchedAnchor s .service ∧ 256 ≤ k.fetched) →
      ∃ t, exec (.recordFetchDone w0 w1 w2 w3) s = .next t ∧ t.elog = hostAfterOffer s.elog 0x23 1 addr ∧
        t.seq.state = .sealed ∧ t.seq.sealPending = true ∧ t.walk.hand = .nothing ∧ t.hport.reads = [] ∧
        t.wq = s.wq ∧ t.aiu.queue = s.aiu.queue ∧ OnlyChanges [.seq, .walk, .stage, .aiu, .elog, .hport] s t) ∧
    (∀ p, k.stage = .pass .timed →
      s.ctim.number.toNat % 2 ^ (w1.extractLsb' 16 3).toNat ≠ (w1.extractLsb' 20 7).toNat % 2 ^ (w1.extractLsb' 16 3).toNat →
      s.walk.pass = some p → s.walk.timedDone = false → p.fetched < 255 → w0 ≠ 0 → w0.extractLsb' 0 4 = 0#4 →
      w0 ≠ latchedAnchor s .timed → pendingHeadLink s w0 = none →
      ∃ t k', exec (.recordFetchDone w0 w1 w2 w3) s = .next t ∧ t.walk.hand = .headWait k' ∧ k'.cur = w0 ∧
        k'.stage = .pass .timed ∧ asked t 1 w0 16 .head ∧
        t.walk = { s.walk with
          hand := .headWait k',
          pass := some { prev := some k.cur, next := w0, start := some (p.start.getD w0), fetched := p.fetched + 1 } } ∧
        t.wq.items = s.wq.items ∧ t.wq.reserved = s.wq.reserved ∧ t.aiu.queue = s.aiu.queue ∧
        OnlyChanges [.walk, .hport, .wq, .aiu] s t)) ∧
  (∀ (s : State) (k : Seek) (q : ReadReq) (later : List ReadReq) (c : RingClass) (n : Search) (w0 w1 w2 w3 : Word), awake s →
    s.hport.reads = q :: later → q.kind ≠ 4 → q.reader = .head → s.walk.hand = .headWait k → s.seq.state = .running →
    k.stage = .search c n → c = .service ∨ c = .bulk → w1.getLsbD 0 = false ∨ w1.getLsbD 1 = decide (n = .low) →
    w0 ≠ 0 → w0.extractLsb' 0 4 = 0#4 →
    ∃ t, exec (.recordFetchDone w0 w1 w2 w3) s = .next t ∧ SearchGoesOn c n k w0 s t ∧
      OnlyChanges [.seq, .walk, .xeng, .stage, .wq, .dau, .aiu, .elog, .hport] s t) ∧
  (∀ (s : State) (k : Seek) (h : Rec) (q : ReadReq) (later : List ReadReq) (w0 w1 w2 w3 : Word), awake s →
    s.hport.reads = q :: later → q.kind ≠ 4 → q.reader = .record → s.walk.hand = .recordWait k h →
    let c := stageClass k.stage
    let i := headEntry h
    let r : Rec := { w0 := w0, w1 := w1, w2 := w2, w3 := w3 }
    let barred : Prop := kindBarred c (8 * 2 ^ (getEntry s i).payloadCode.toNat) r
    (passesTests s c h → ¬barred → ∃ t, exec (.recordFetchDone w0 w1 w2 w3) s = .next t ∧
      t.walk = { s.walk with hand := .candidate k (newTurn k h r) } ∧ OnlyChanges [.walk, .hport, .wq, .aiu] s t) ∧
    (passesTests s c h → barred → s.wq.items.length + 2 ≤ 32 →
      ∃ t word, exec (.recordFetchDone w0 w1 w2 w3) s = .next t ∧
        t.wq.items = s.wq.items ++ [.segment h.w2 (recStatusWord .kindMismatch 0) .kindMismatch (recEnd r) (recNotify r) c i k.cur,
          .status k.cur word c i false (some .kindMismatch) h.w0] ∧
        word.getLsbD 0 = true ∧ word.extractLsb' 4 4 = causeCode .kindMismatch ∧
        word.extractLsb' 16 8 = h.w3.extractLsb' 16 8 ∧ t.wq.reserved = 0 ∧
        (∀ sl, getSlot s i = some sl → getSlot t i = if sl.record = h.w2 then none else some sl) ∧
        OnlyChanges [.seq, .walk, .xeng, .stage, .wq, .dau, .aiu, .elog, .hport] s t) ∧
    (h.w1.getLsbD 0 = true → h.w3.getLsbD 0 = false → h.w2 ≠ 0 → (getEntry s i).fenceGranted = true →
      ∃ t, exec (.recordFetchDone w0 w1 w2 w3) s = .next t ∧ t.wq.items = s.wq.items ∧ t.wq.reserved = 0 ∧
        t.aiu.queue = s.aiu.queue ∧ (∀ i, getSlot t i = getSlot s i) ∧
        OnlyChanges [.seq, .walk, .xeng, .stage, .wq, .dau, .aiu, .elog, .hport] s t))

/-- A finished record is consumed (R90, R81) with no skip steps due: the segment write-back, the head link update to the fresh
snapshot's link, and, if the turn gave an exchange, the head status write join the queue in that order; the entry's progress
slot is emptied and the turn is over. A BULK burst with exchanges left and a next record that passes the tests of R97 goes on
with it: without a status write, the next record is fetched. A record completed without an exchange (R85, R61) gets the first
two items alone, and its head no write (R81). That end_xfer and notify are those of the record's first snapshot, and only the
link that of its second, is the model's reading (log 27); that the items are queued also if the entry's fence is granted
meanwhile is its choice (after an exchange log 58, without one log 63). -/
def Obligations.ConsumedRecordQueuesItsWrites : Prop :=
  (∀ (s : State) (t : Turn) (code : RecCode) (count : Nat) (snap : Rec) (o : XOutcome), awake s →
    s.walk.hand = .turn t → t.phase = .refetched code count snap →
    (code ≠ .short ∨ recEnd t.seg = true ∨ t.cls = .stream) → 0 < t.made → t.last = some o → t.skipping = none →
    headEntry t.head ≠ 0 → s.wq.items.length + 3 ≤ 32 →
    (t.cls ≠ .bulk ∨ snap.w0 = 0 ∨ (t.head.w1.extractLsb' 12 3).toNat + 1 ≤ t.made →
     ∃ u word, exec .consumeRecord s = .next u ∧
      u.wq.items = s.wq.items ++
        [.segment t.record (recStatusWord code count) code (recEnd t.seg) (recNotify t.seg) t.cls (headEntry t.head) t.addr,
         .link t.addr snap.w0 t.head.w0,
         .status t.addr word t.cls (headEntry t.head) (headNotifyVisit t.head) none t.head.w0] ∧
      word.extractLsb' 16 8 = t.head.w3.extractLsb' 16 8 + 1 ∧ word.extractLsb' 8 4 = outcomeCode o ∧
      word.getLsbD 0 = t.head.w3.getLsbD 0 ∧ word.getLsbD 1 = t.head.w3.getLsbD 1 ∧
      (recStatusWord code count).getLsbD 0 = true ∧ (recStatusWord code count).extractLsb' 4 4 = recCode code ∧
      (recStatusWord code count).extractLsb' 16 14 = BitVec.ofNat 14 count ∧
      u.wq.reserved = 0 ∧ getSlot u (headEntry t.head) = none ∧
      (∀ i, i ≠ headEntry t.head → getSlot u i = getSlot s i) ∧ u.walk.hand = .nothing ∧ u.walk.waiting = false ∧
      OnlyChanges [.walk, .wq, .hport, .aiu] s u) ∧
    (t.cls = .bulk → s.seq.state = .running → s.seq.restartInHand = false → s.walk.window = .late → s.walk.turnOver = false →
      t.made < (t.head.w1.extractLsb' 12 3).toNat + 1 → passesTests s .bulk { t.head with w2 := snap.w0 } →
      snap.w0 ≠ t.record → snap.w0 ∉ t.written → s.wq.items.length + 6 ≤ 32 →
      ∃ u, exec .consumeRecord s = .next u ∧
        u.wq.items = s.wq.items ++
          [.segment t.record (recStatusWord code count) code (recEnd t.seg) (recNotify t.seg) .bulk (headEntry t.head) t.addr,
           .link t.addr snap.w0 t.head.w0] ∧
        u.walk.hand = .turn { t with head := { t.head with w2 := snap.w0 }, record := snap.w0,
                                     written := t.record :: t.written, phase := .burstFetch } ∧
        asked u 2 snap.w0 16 .burst ∧ 4 ≤ u.wq.reserved ∧
        getSlot u (headEntry t.head) = none ∧ (∀ i, i ≠ headEntry t.head → getSlot u i = getSlot s i) ∧
        OnlyChanges [.walk, .wq, .hport, .aiu] s u)) ∧
  (∀ (s : State) (t : Turn) (code : RecCode) (count : Nat) (snap : Rec), awake s → s.walk.hand = .turn t →
    t.phase = .refetched code count snap → (code ≠ .short ∨ recEnd t.seg = true ∨ t.cls = .stream ∨ snap.w0 = 0) →
    t.made = 0 → t.skipping = none → headEntry t.head ≠ 0 → s.wq.items.length + 2 ≤ 32 →
    ∃ u, exec .consumeRecord s = .next u ∧
      u.wq.items = s.wq.items ++
        [.segment t.record (recStatusWord code count) code (recEnd t.seg) (recNotify t.seg) t.cls (headEntry t.head) t.addr,
         .link t.addr snap.w0 t.head.w0] ∧
      u.wq.reserved = 0 ∧ getSlot u (headEntry t.head) = none ∧
      (∀ i, i ≠ headEntry t.head → getSlot u i = getSlot s i) ∧ u.walk.hand = .nothing ∧ u.walk.waiting = false ∧
      u.walk.pass = (if t.inPass then
        s.walk.pass.map (fun p => { p with prev := some t.addr, next := t.head.w0, fetched := p.fetched + 1 })
        else s.walk.pass) ∧
      OnlyChanges [.walk, .wq, .hport, .aiu] s u)

/-- One skip step (R89), in a turn of skip steps alone or after a SHORT completion: the record gets a write-back SKIPPED with
count 0. At an end_xfer or a link of 0 the skip is complete and the head link update and the head status write with skipping 0
follow; otherwise, while a slot is free, the next record is fetched; and with no slot the skip is unfinished, with skipping
1. A record that the turn has written back is not fetched again (R91); that the skip then ends unfinished too is the model's
reading (log 21). The status write ends the visit if the turn gave an exchange (R81). That a skip goes on under a fence granted
meanwhile (log 47, after a completion log 58 and log 63), and in STOPPING and READY (log 52), is the model's choice. -/
def Obligations.SkipStepTakesOneRecord : Prop :=
  ∀ (s : State) (t : Turn) (link : Word) (snap : Rec), awake s → s.walk.hand = .turn t →
    t.phase = .skipGot link snap → s.seq.restartInHand = false → 1 ≤ s.wq.reserved → s.wq.items.length + 3 ≤ 32 →
    let visit : Option XOutcome := if t.made = 0 then none else t.last
    let counted (word : Word) : Prop :=
      word.extractLsb' 16 8 = t.head.w3.extractLsb' 16 8 + (if visit.isSome then 1#8 else 0#8) ∧
      (∀ o, visit = some o → word.extractLsb' 8 4 = outcomeCode o)
    let skipped : WqItem := .segment link (recStatusWord .skipped 0) .skipped (recEnd snap) (recNotify snap) t.cls
      (headEntry t.head) t.addr
    (recEnd snap = true ∨ snap.w0 = 0 → ∃ u word, exec .skipStep s = .next u ∧
      u.wq.items = s.wq.items ++ [skipped, .link t.addr snap.w0 t.head.w0,
        .status t.addr word t.cls (headEntry t.head) (visit.isSome && headNotifyVisit t.head) none t.head.w0] ∧
      word.getLsbD 1 = false ∧ counted word ∧ u.walk.hand = .nothing ∧
      u.wq.reserved = 0 ∧ OnlyChanges [.walk, .wq, .hport, .aiu] s u) ∧
    (recEnd snap = false → snap.w0 ≠ 0 → snap.w0.extractLsb' 0 4 = 0#4 →
      recordPending s snap.w0 = false → snap.w0 ≠ link → snap.w0 ∉ t.written → s.wq.items.length + s.wq.reserved < 32 →
      ∃ u, exec .skipStep s = .next u ∧ u.wq.items = s.wq.items ++ [skipped] ∧
        u.walk = { s.walk with hand := .turn { t with phase := .skipFetch snap.w0, written := link :: t.written } } ∧
        u.wq.reserved = s.wq.reserved ∧
        asked u 2 snap.w0 16 .skip ∧
        OnlyChanges [.walk, .wq, .hport, .aiu] s u) ∧
    (recEnd snap = false → snap.w0 ≠ 0 →
      ((s.wq.items.length + s.wq.reserved = 32 ∧ 3 ≤ s.wq.reserved) ∨ snap.w0 = link ∨ snap.w0 ∈ t.written) →
      ∃ u word, exec .skipStep s = .next u ∧
        u.wq.items = s.wq.items ++ [skipped, .link t.addr snap.w0 t.head.w0,
          .status t.addr word t.cls (headEntry t.head) (visit.isSome && headNotifyVisit t.head) none t.head.w0] ∧
        word.getLsbD 1 = true ∧ counted word ∧ u.walk.hand = .nothing ∧ OnlyChanges [.walk, .wq, .hport, .aiu] s u)

/-! ### Exchanges -/

/-- The request frame R101's table gives for an exchange, its fields from the entry as it stands (R100); `staged` holds
the staged bytes and `regnum` the register number of a direct request. -/
def frameByRules (q : Request) (e : Entry) (staged : List Byte) (regnum : BitVec 16) : Frame :=
  let low : List Byte := [regnum.extractLsb' 0 8, regnum.extractLsb' 8 8]
  match q with
  | .push n => { kind := .push, address := e.address, channel := e.channel, seqBit := e.seqOut,
                 size := BitVec.ofNat 10 n, payload := staged }
  | .open => { kind := .open, address := e.address, channel := e.channel, seqBit := false, size := 8, payload := staged }
  | .pull p => { kind := .pull, address := e.address, channel := e.channel, seqBit := e.seqIn,
                 size := BitVec.ofNat 10 p, payload := [] }
  | .peek len => { kind := .peek, address := e.address, channel := 0, seqBit := false, size := 3,
                   payload := low ++ [BitVec.ofNat 8 len] }
  | .poke len => { kind := .poke, address := e.address, channel := 0, seqBit := false, size := BitVec.ofNat 10 (2 + len),
                   payload := low ++ staged }

/-- EXCHANGE_START (R69, R100, R101): the request frame of the chosen exchange begins, filled as R101 gives, while the
controller and the segment may still send it, the entry's fence is not granted and, for a ring exchange, the entry is not
halted (R75). One that may no longer begin is dropped with nothing sent and its entry untouched: that is the model's choice
(log 7), and so is the packet's keeping its cut where payload_code has changed since (log 43). -/
def Obligations.ExchangeStartBuildsTheFrame : Prop :=
  ∀ (s : State) (x : Exchange), awake s → s.xeng = some x → x.phase = .held →
    let e := getEntry s x.entry
    let may : Prop := s.seq.restartInHand = false ∧ (s.seq.state = .running ∨ (x.direct = true ∧ s.seq.state = .armed)) ∧
      e.fenceGranted = false ∧ e.valid = true ∧ e.address ≠ 0 ∧ (x.direct = true ∨ e.halted = false) ∧
      (getSeg s e.segment).mode = .enabled ∧ (getSeg s e.segment).quarantined = false
    (may → exec .exchangeStart s = .next { s with xeng := some { x with
      phase := .sending, segment := e.segment, frame := some (frameByRules x.request e (stagedBytes s)
        ((s.dau.pending.head?.map DirReq.regnum).getD 0)) } }) ∧
    (¬may → ∃ t, exec .exchangeStart s = .next t ∧ t.xeng = none ∧ OnlyChanges [.xeng, .walk, .wq, .hport, .aiu] s t)

/-- REQUEST_SENT and REPLY_BEGUN (R103, R117, R110): the end of the request frame opens the reply window and empties the
buffer the packet came from (in RUNNING the walker's look-ahead may at once begin to fill it again, or stage a packet of no
bytes, R118). That a PULL and a PEEK, which take no packet from the buffer, leave what is STAGED there is the model's reading of
R117 with R118 (log 65). When a reply begins, the room of the Receive FIFO is noted. -/
def Obligations.FrameSentOpensTheReplyWindow : Prop :=
  ∀ (s : State) (x : Exchange), awake s → s.xeng = some x →
    (x.phase = .sending → s.seq.state ≠ .running →
      ((∃ n, x.request = .pull n ∨ x.request = .peek n) →
        exec .requestSent s = .next { s with xeng := some { x with phase := .window } }) ∧
      ((∃ n, x.request = .push n ∨ x.request = .open ∨ x.request = .poke n) → ∃ t, exec .requestSent s = .next t ∧
        t.xeng = some { x with phase := .window } ∧ t.stage = { buf := .empty, waiting := none } ∧
        t.hport = { s.hport with reads := t.hport.reads } ∧ (∀ r ∈ t.hport.reads, r.reader ≠ .staging) ∧
        OnlyChanges [.xeng, .stage, .hport] s t)) ∧
    (x.phase = .sending → s.seq.state = .running → ∃ t, exec .requestSent s = .next t ∧
      t.xeng = some { x with phase := .window } ∧ (∀ tag bytes, t.stage.buf = .staged tag bytes → bytes = [] ∨
        (s.stage.buf = .staged tag bytes ∧ ∃ n, x.request = .pull n ∨ x.request = .peek n)) ∧
      OnlyChanges [.xeng, .elog, .aiu, .stage, .hport, .seq, .walk] s t) ∧
    (x.phase = .window → exec .replyBegun s = .next { s with xeng := some { x with
      phase := .receiving, room := 1024 - (s.rx.fifo.map List.length).sum } })

/-- The outcome of what ended the reply window, by the first line of R105's table that applies, orders 3 to 12; `sent` is the
request frame. -/
def classByRules (x : Exchange) (sent : Frame) : Reply → XOutcome
  | .broken => .corrupt
  | .frame f =>
    let wantsData : Bool := match x.request with
      | .pull _ => true
      | .peek _ => true
      | _ => false
    let permitted : Nat := match x.request with
      | .pull p => p
      | .peek len => len
      | _ => 0
    let anyChannel : Bool := match x.request with
      | .peek _ => true
      | .poke _ => true
      | _ => false
    let fits : Bool := match f.kind with
      | .accept => !wantsData
      | .data => wantsData
      | .defer => true
      | .refuse => true
      | _ => false
    if f.kind = .garbled then .garbled
    else if fits = false ∨ f.address ≠ sent.address ∨ (anyChannel = false ∧ f.channel ≠ sent.channel) ∨
        (f.kind ≠ .data ∧ f.payload ≠ []) then .unsolicited
    else if permitted < f.payload.length then .overlong
    else if f.kind = .defer then .deferred
    else if f.kind = .refuse then .refused
    else match x.request with
      | .pull _ =>
        if f.seqBit ≠ sent.seqBit then .duplicate else if x.room < f.payload.length then .overrun else .success
      | _ => .success

/-- REPLY_END, REPLY_TIMEOUT and ACCEPT_SENT (R103, R105, R106 to R116): a reply is classified by R105's table, against the request
frame as it was sent, which is the model's reading (log 19); a good DATA and a
duplicate are answered with an ACCEPT and end when it has been sent, everything else ends at classification, and no
reply within the timeout ends in SILENCE. That no STRIKE_OUT is offered for a rewritten entry is the model's reading
(log 42). -/
def Obligations.RepliesEndTheExchange : Prop :=
  ∀ (s : State) (x : Exchange), awake s → s.xeng = some x →
    (∀ (r : Reply) (sent : Frame), x.phase = .receiving → x.frame = some sent →
      let o := classByRules x sent r
      let due : Prop := (o = .success ∨ o = .duplicate) ∧ ∃ n, x.request = .pull n ∨ x.request = .peek n
      (due → ∀ f, r = .frame f → exec (.replyEnd r) s = .next { s with xeng := some { x with
        phase := .accepting, data := if o = .success then f.payload else [],
        accept := some (o, { kind := .accept, address := sent.address, channel := sent.channel, seqBit := false, size := 0,
                             payload := [] }) } }) ∧
      (¬due → ∃ t, exec (.replyEnd r) s = .next t ∧ EndsWith o x s t)) ∧
    (x.phase = .window → ∃ t, exec .replyTimeout s = .next t ∧ EndsWith .silence x s t) ∧
    (∀ o f, x.phase = .accepting → x.accept = some (o, f) → ∃ t, exec .acceptSent s = .next t ∧ EndsWith o x s t)

/-- The progress slot of the turn's record holds `g` bytes done (R85). -/
def atProgress (s : State) (t : Turn) (g : Nat) : Prop :=
  headEntry t.head ≠ 0 ∧ t.record = t.head.w2 ∧ ∃ tail, getSlot s (headEntry t.head) =
    some { record := t.record, kind := recKind t.seg, progress := g, tailOnly := tail }

/-- What a PUSH packet of `n` bytes at progress `g`, a tail or a NUDGE of none, or an OPEN of 8 makes of its record and its head,
in every class (R82, R86, R92, R94, R97). On ACCEPT a data packet advances the progress, with only the tail left where R86 sends
one: outside BULK the visit ends, in BULK the burst goes on with no write of its own while every test of R97 passes, and is
over with its status write after its last exchange. A finished record is fetched again to be consumed OK: after its last data
packet, and after its tail, with the count of its data bytes; a NUDGE with count 0; an OPEN with count 8; and every STREAM
record with its length. On REFUSE, and on a strike that halts the entry, the record is written back with the count so far and
the head is stopped. On any other outcome the record and its progress stay and the visit ends, but for STREAM, whose record is
fetched again to be consumed MISSED. That a reply is classified against the frame as sent (log 19) and a rewritten entry is not
halted (log 42) is the model's reading. -/
def Obligations.PushOutcomesMoveTheRecord : Prop :=
  ∀ (s : State) (x : Exchange) (t : Turn) (n g : Nat) (ev : Instr) (o : XOutcome), awake s → s.xeng = some x →
    x.direct = false → s.walk.hand = .turn t → s.seq.state ≠ .sealed →
    ((x.request = .push n ∧ recKind t.seg = .push) ∨
      (x.request = .push n ∧ n = 0 ∧ g = 0 ∧ x.tail = true ∧ recKind t.seg = .nudge) ∨
      (x.request = .open ∧ n = 8 ∧ recKind t.seg = .open)) →
    atProgress s t g → t.skipping = none → s.wq.items.length + 2 ≤ 32 →
    ((ev = .replyTimeout ∧ x.phase = .window ∧ o = .silence) ∨
      (ev = .cycleEndCutoff ∧ s.seq.state ≠ .offline ∧ x.phase = .receiving ∧ o = .overlong) ∨
      ∃ r sent, ev = .replyEnd r ∧ x.phase = .receiving ∧ x.frame = some sent ∧ o = classByRules x sent r) →
    let len := (t.seg.w2.extractLsb' 16 14).toNat
    let data : Prop := x.tail = false ∧ recKind t.seg = .push
    let tail : Prop := 0 < len ∧ len % x.maxPayload = 0 ∧ t.seg.w2.getLsbD 2 = true ∧ t.seg.w2.getLsbD 3 = false
    let status (word : Word) (stop : Option Cause) : WqItem :=
      .status t.addr word t.cls (headEntry t.head) (t.head.w1.getLsbD 2) stop t.head.w0
    let strike : Prop := o = .silence ∨ o = .corrupt ∨ o = .garbled ∨ o = .overlong ∨ o = .unsolicited
    let halts : Prop := strike ∧ struck (getEntry s x.entry).strikesOut = 3 ∧ x.rewritten = false
    let frame (u : State) : Prop := OnlyRaises s u ∧ OnlyChanges ((if ev = .cycleEndCutoff then [Block.ctim] else []) ++
      [.table, .xeng, .walk, .wq, .hport, .aiu, .elog, segBlock x.segment]) s u
    let refetches (u : State) (code : RecCode) (count : Nat) : Prop :=
      u.walk.hand = .turn { t with made := t.made + 1, last := some o, phase := .refetch code count } ∧
      asked u 2 t.record 16 .refetch ∧ u.wq.items = s.wq.items ∧ frame u
    let stops (u : State) (code : RecCode) (cause : Cause) : Prop := ∃ word,
      u.wq.items = s.wq.items ++ [.segment t.record (recStatusWord code g) code (recEnd t.seg) (recNotify t.seg)
        t.cls (headEntry t.head) t.addr, status word (some cause)] ∧ visitWord t o (some cause) word ∧
      (∀ i, getSlot u i = getSlot s i) ∧ u.walk.hand = .nothing ∧ frame u
    let advanced (u : State) : Prop := getSlot u (headEntry t.head) =
      some { record := t.record, kind := .push, progress := g + n, tailOnly := decide (len ≤ g + n) }
    (o = .success → data → (g + n < len ∨ tail) → t.cls = .service ∨ t.cls = .timed → ∃ u word, exec ev s = .next u ∧ advanced u ∧
      u.wq.items = s.wq.items ++ [status word none] ∧ visitWord t .success none word ∧ u.walk.hand = .nothing ∧ frame u) ∧
    (o = .success → data → (g + n < len ∨ tail) → t.cls = .bulk → s.seq.state = .running → s.seq.restartInHand = false →
      s.walk.window = .late → s.walk.turnOver = false → x.entry = headEntry t.head → passesTests s .bulk t.head →
      t.made + 1 < (t.head.w1.extractLsb' 12 3).toNat + 1 → s.wq.items.length + 4 ≤ 32 → ∃ u, exec ev s = .next u ∧
      advanced u ∧ u.walk.hand = .turn { t with made := t.made + 1, last := some .success, phase := .burstReady } ∧
      u.walk.waiting = false ∧ 4 ≤ u.wq.reserved ∧ u.wq.items = s.wq.items ∧ frame u) ∧
    (o = .success → data → (g + n < len ∨ tail) → t.cls = .bulk → (t.head.w1.extractLsb' 12 3).toNat + 1 ≤ t.made + 1 →
      ∃ u word, exec ev s = .next u ∧ advanced u ∧ u.wq.items = s.wq.items ++ [status word none] ∧
      visitWord t .success none word ∧ u.walk.hand = .nothing ∧ frame u) ∧
    (o = .success → data → len ≤ g + n → ¬tail → t.cls ≠ .stream → ∃ u, exec ev s = .next u ∧ refetches u .ok (g + n)) ∧
    (o = .success → x.tail = true → recKind t.seg = .push → t.cls ≠ .stream →
      ∃ u, exec ev s = .next u ∧ refetches u .ok g) ∧
    (o = .success → recKind t.seg = .nudge → t.cls = .service ∨ t.cls = .timed →
      ∃ u, exec ev s = .next u ∧ refetches u .ok 0) ∧
    (o = .success → recKind t.seg = .open → ∃ u, exec ev s = .next u ∧ refetches u .ok 8) ∧
    (o = .success → recKind t.seg = .push → t.cls = .stream → ∃ u, exec ev s = .next u ∧ refetches u .ok len) ∧
    (o = .refused → ∃ u, exec ev s = .next u ∧ stops u .refused .refused) ∧
    (halts → ∃ u, exec ev s = .next u ∧ stops u .strikeOut .strikeOut) ∧
    (o = .deferred ∨ (strike ∧ ¬halts) → t.cls ≠ .stream → ∃ u word, exec ev s = .next u ∧
      u.wq.items = s.wq.items ++ [status word none] ∧ visitWord t o none word ∧ (∀ i, getSlot u i = getSlot s i) ∧
      u.walk.hand = .nothing ∧ frame u) ∧
    (o = .deferred ∨ (strike ∧ ¬halts) → t.cls = .stream → ∃ u, exec ev s = .next u ∧ refetches u .missed 0)

/-- What a PULL at count `g` makes of its record and its head, in every class (R88, R92, R94, R97, R110). On SUCCESS with `d`
bytes the receive packet is queued first, marked if the record completes and ends a transfer (R125); the record is fetched
again to be consumed OK or SHORT, or it stays current and the visit ends with its status write; in BULK the burst goes on
with no write of its own while every test of R97 passes, and is over with its status write after its last exchange. A
DUPLICATE, DEFERRED or OVERRUN, and a strike that does not halt, leave the record and its count: the visit ends, but a
DUPLICATE does not end a burst. On REFUSED, and on a strike that halts the entry, the record is written back with the count so
far and the head is stopped. On every other outcome a STREAM record is fetched again to be consumed: OK if all its bytes came,
SHORT if fewer, MISSED without a SUCCESS. For a DATA that the Receive FIFO has no room for RX_OVERRUN is offered at once
(R121). That a reply is classified against the frame as sent (log 19) and a rewritten entry is not halted (log 42) is the
model's reading. -/
def Obligations.PullOutcomesMoveTheRecord : Prop :=
  (∀ (s : State) (x : Exchange) (t : Turn) (p g : Nat) (ev : Instr) (o : XOutcome), awake s → s.xeng = some x →
    x.direct = false → x.request = .pull p → s.walk.hand = .turn t → s.seq.state ≠ .sealed → recKind t.seg = .pull →
    atProgress s t g → t.skipping = none → s.wq.items.length + 2 ≤ 32 →
    ((ev = .replyTimeout ∧ x.phase = .window ∧ o = .silence) ∨
      (ev = .cycleEndCutoff ∧ s.seq.state ≠ .offline ∧ x.phase = .receiving ∧ o = .overlong) ∨
      (∃ r sent, ev = .replyEnd r ∧ x.phase = .receiving ∧ x.frame = some sent ∧ o = classByRules x sent r ∧
        o ≠ .success ∧ o ≠ .duplicate) ∨
      (∃ f, ev = .acceptSent ∧ x.phase = .accepting ∧ x.accept = some (o, f) ∧ (o = .success ∨ o = .duplicate))) →
    let len := (t.seg.w2.extractLsb' 16 14).toNat
    let d := x.data.length
    let packet (mark : Bool) : WqItem := .packet d x.entry t.cls (s.ctim.number.extractLsb' 0 16) mark
    let status (word : Word) (stop : Option Cause) : WqItem :=
      .status t.addr word t.cls (headEntry t.head) (t.head.w1.getLsbD 2) stop t.head.w0
    let strike : Prop := o = .silence ∨ o = .corrupt ∨ o = .garbled ∨ o = .overlong ∨ o = .unsolicited
    let halts : Prop := strike ∧ struck (getEntry s x.entry).strikesIn = 3 ∧ x.rewritten = false
    let retried : Prop := o = .duplicate ∨ o = .deferred ∨ o = .overrun ∨ (strike ∧ ¬halts)
    let last : Prop := (t.head.w1.extractLsb' 12 3).toNat + 1 ≤ t.made + 1
    let kept (u : State) : Prop := ∀ i, getSlot u i = getSlot s i
    let overrun : Attn := { cause := .rxOverrun, cls := t.cls, entry := x.entry, cycle := s.ctim.number.extractLsb' 0 12,
                            head := t.addr }
    let frame (u : State) : Prop := (o = .success → u.rx.fifo = s.rx.fifo ++ [x.data]) ∧ (o ≠ .success → u.rx = s.rx) ∧
      (o ≠ .overrun → OnlyRaises s u) ∧
      (o = .overrun → u.aiu.queue = (attnAfterOffer s.aiu overrun).queue) ∧
      OnlyChanges ((if ev = .cycleEndCutoff then [Block.ctim] else []) ++
        [.table, .rx, .xeng, .walk, .wq, .hport, .aiu, .elog, segBlock x.segment]) s u
    let refetches (u : State) (code : RecCode) (count : Nat) : Prop :=
      u.walk.hand = .turn { t with made := t.made + 1, last := some o, phase := .refetch code count } ∧
      asked u 2 t.record 16 .refetch ∧ frame u
    let stops (u : State) (code : RecCode) (cause : Cause) : Prop := ∃ word,
      u.wq.items = s.wq.items ++ [.segment t.record (recStatusWord code g) code (recEnd t.seg) (recNotify t.seg)
        t.cls (headEntry t.head) t.addr, status word (some cause)] ∧ visitWord t o (some cause) word ∧
      kept u ∧ u.walk.hand = .nothing ∧ frame u
    let completes (code : RecCode) (count : Nat) : Prop := ∃ u, exec ev s = .next u ∧ refetches u code count ∧
      u.wq.items = s.wq.items ++ [packet (t.seg.w2.getLsbD 2)]
    (o = .success → t.cls ≠ .stream → g + d = len → completes .ok (g + d)) ∧
    (o = .success → t.cls ≠ .stream → g + d < len → d < x.maxPayload → completes .short (g + d)) ∧
    (o = .success → t.cls = .stream → completes (if d = len then .ok else .short) d) ∧
    (o = .success → g + d < len → x.maxPayload ≤ d → t.cls = .service ∨ t.cls = .timed ∨ (t.cls = .bulk ∧ last) →
      ∃ u word, exec ev s = .next u ∧
      getSlot u (headEntry t.head) = some { record := t.record, kind := .pull, progress := g + d, tailOnly := false } ∧
      u.wq.items = s.wq.items ++ [packet false, status word none] ∧ visitWord t .success none word ∧
      u.walk.hand = .nothing ∧ frame u) ∧
    (retried → t.cls = .service ∨ t.cls = .timed ∨ (t.cls = .bulk ∧ (o ≠ .duplicate ∨ last)) → ∃ u word,
      exec ev s = .next u ∧ u.wq.items = s.wq.items ++ [status word none] ∧ visitWord t o none word ∧ kept u ∧
      u.walk.hand = .nothing ∧ frame u) ∧
    (o = .duplicate → t.cls = .bulk → s.seq.state = .running → s.seq.restartInHand = false → s.walk.window = .late →
      s.walk.turnOver = false → x.entry = headEntry t.head → passesTests s .bulk t.head → ¬last →
      s.wq.items.length + 4 ≤ 32 → ∃ u, exec ev s = .next u ∧ kept u ∧
      u.walk.hand = .turn { t with made := t.made + 1, last := some .duplicate, phase := .burstReady } ∧
      u.walk.waiting = false ∧ 4 ≤ u.wq.reserved ∧ u.wq.items = s.wq.items ∧ frame u) ∧
    (retried → t.cls = .stream → ∃ u, exec ev s = .next u ∧ refetches u .missed 0 ∧ u.wq.items = s.wq.items) ∧
    (o = .refused → ∃ u, exec ev s = .next u ∧ stops u .refused .refused) ∧
    (halts → ∃ u, exec ev s = .next u ∧ stops u .strikeOut .strikeOut)) ∧
  (∀ (s : State) (x : Exchange) (t : Turn) (f : Frame) (p g : Nat), awake s → s.xeng = some x → x.phase = .accepting →
    x.accept = some (.success, f) → x.direct = false → x.request = .pull p → s.walk.hand = .turn t → t.cls = .bulk →
    s.seq.state = .running → s.seq.restartInHand = false → s.walk.window = .late → s.walk.turnOver = false →
    recKind t.seg = .pull → atProgress s t g → x.entry = headEntry t.head → passesTests s .bulk t.head →
    t.made + 1 < (t.head.w1.extractLsb' 12 3).toNat + 1 → g + x.data.length < (t.seg.w2.extractLsb' 16 14).toNat →
    x.maxPayload ≤ x.data.length → s.wq.items.length + 5 ≤ 32 → ∃ u, exec .acceptSent s = .next u ∧
      u.walk.hand = .turn { t with made := t.made + 1, last := some .success, phase := .burstReady } ∧
      u.walk.waiting = false ∧ 4 ≤ u.wq.reserved ∧
      getSlot u (headEntry t.head) =
        some { record := t.record, kind := .pull, progress := g + x.data.length, tailOnly := false } ∧
      u.wq.items = s.wq.items ++ [.packet x.data.length x.entry .bulk (s.ctim.number.extractLsb' 0 16) false] ∧
      u.rx.fifo = s.rx.fifo ++ [x.data] ∧ OnlyChanges [.table, .rx, .xeng, .walk, .wq, .hport, .aiu] s u) ∧
  (∀ (s : State) (x : Exchange) (t : Turn) (sent f : Frame) (p : Nat), awake s → s.xeng = some x → x.phase = .receiving →
    x.frame = some sent → x.direct = false → x.request = .pull p → s.walk.hand = .turn t →
    (t.cls = .service ∨ t.cls = .timed) → s.seq.state ≠ .sealed → t.skipping = none → s.wq.items.length + 1 ≤ 32 →
    f.kind = .data → f.address = sent.address → f.channel = sent.channel → f.seqBit = sent.seqBit →
    f.payload.length ≤ p → x.room < f.payload.length → ∃ u word, exec (.replyEnd (.frame f)) s = .next u ∧
      u.aiu.queue = (attnAfterOffer s.aiu { cause := .rxOverrun, cls := t.cls, entry := x.entry,
                                            cycle := s.ctim.number.extractLsb' 0 12, head := t.addr }).queue ∧
      u.wq.items = s.wq.items ++ [.status t.addr word t.cls (headEntry t.head) (t.head.w1.getLsbD 2) none t.head.w0] ∧
      visitWord t .overrun none word ∧ (∀ i, getSlot u i = getSlot s i) ∧ u.walk.hand = .nothing ∧
      OnlyChanges [.table, .xeng, .walk, .wq, .hport, .aiu] s u)

/-- STAGING_FILL_DONE (R117): the buffer becomes STAGED with the bytes, a fill without a tag completes into nothing, a
waiting request is served, and a data fetch nobody wants any more is thrown away. That a waiting request is served also where it
drops the packet just STAGED is the model's reading of R117 beside R119 (log 66). The mark that a read carries of its moment is
the model's own (log 61). -/
def Obligations.FillDoneStagesThePacket : Prop :=
  ∀ (s : State) (q : ReadReq) (later : List ReadReq) (bytes : List Byte), awake s → s.hport.reads = q :: later →
    q.kind = 4 → q.len = bytes.length →
    (∀ tag, q.reader = .staging → s.stage = { buf := .filling (some tag), waiting := none } →
      exec (.stagingFillDone bytes) s = .next { s with
        hport := { s.hport with reads := later }, stage := { buf := .staged tag bytes, waiting := none },
        walk := { s.walk with waiting := false } }) ∧
    (q.reader = .staging → s.stage = { buf := .filling none, waiting := none } →
      exec (.stagingFillDone bytes) s = .next { s with
        hport := { s.hport with reads := later }, stage := { buf := .empty, waiting := none },
        walk := { s.walk with waiting := false } }) ∧
    (∀ tag w, q.reader = .staging → s.stage = { buf := .filling tag, waiting := some w } →
      exec (.stagingFillDone bytes) s = .next { s with
        hport := { s.hport with reads := later ++ [{ kind := 4, addr := w.addr, len := w.len, reader := .staging, fresh := s.hport.moment }] },
        stage := { buf := .filling (some w.tag), waiting := none }, walk := { s.walk with waiting := false } }) ∧
    (q.reader ≠ .staging →
      exec (.stagingFillDone bytes) s = .next { s with hport := { s.hport with reads := later } })

/-! ### The Write Queue and the receive ring -/

/-- The Write Queue performs its items (R127, R24). -/
abbrev performs (s : State) : Prop :=
  (s.seq.state = .ready ∨ s.seq.state = .armed ∨ s.seq.state = .running ∨ s.seq.state = .stopping) ∧
  s.seq.restartInHand = false

/-- The attention records a one-write item releases, in R98's order, as cause, class, entry and head. -/
def reportsOf : WqItem → List (Cause × RingClass × EntryIx × Word)
  | .segment _ _ code _ notify c i h =>
    (if code = .missed then [(.miss, c, i, h)] else []) ++ (if notify then [(.complete, c, i, h)] else [])
  | .status h _ c i visit stop _ =>
    (if visit then [(.visit, c, i, h)] else []) ++ (stop.map (fun cause => (cause, c, i, h))).toList
  | _ => []

/-- The DONE bit a segment write-back sets (R98, 10.4). -/
def doneBitOf : WqItem → Option Nat
  | .segment _ _ _ endXfer notify c _ _ => if endXfer || notify then some (2 + (classCode c).toNat) else none
  | _ => none

/-- The write of a one-write item (R127, R9): its kind code, the record's address with the offset of the word, the word. -/
def writeOf : WqItem → Option (BitVec 4 × Word × Word)
  | .packet _ _ _ _ _ => none
  | .segment record word _ _ _ _ _ _ => some (5, record + 12, word)
  | .link head word _ => some (6, head + 8, word)
  | .status head word _ _ _ _ _ => some (7, head + 12, word)

/-- The write of a one-write item completes normally (R12, R127, R128, R98): the item leaves the queue and its reports are
offered in order with its DONE bit, and then the next item's write, if that is one, is issued with its kind, address
and four bytes. -/
def Obligations.PerformedWriteReleasesItsReports : Prop :=
  ∀ (s : State) (w : WriteAcc) (i : WqItem) (rest : List WqItem), awake s → performs s → s.hport.write = some w →
    w.live = true → s.wq.items = i :: rest → (writeOf i).isSome = true →
    ∃ t, exec .hostWriteComplete s = .next t ∧ t.wq.items = rest ∧ t.wq.reserved = s.wq.reserved ∧
      (let u := (reportsOf i).foldl (fun u r => attnAfterOffer u
          { cause := r.1, cls := r.2.1, entry := r.2.2.1, cycle := s.ctim.number.extractLsb' 0 12, head := r.2.2.2 }) s.aiu
       t.aiu = { u with edges := t.aiu.edges }) ∧
      (∀ n, n ≠ 10 → (t.aiu.edges.getLsbD n = true ↔ s.aiu.edges.getLsbD n = true ∨ doneBitOf i = some n)) ∧
      (∀ j later k addr word, rest = j :: later → writeOf j = some (k, addr, word) →
        t.hport.write = some { kind := k, addr := addr, live := true,
                               bytes := [word.extractLsb' 0 8, word.extractLsb' 8 8, word.extractLsb' 16 8,
                                         word.extractLsb' 24 8] } ∧ t.wq.started = true) ∧
      (rest = [] → t.hport.write = none ∧ t.wq.started = false) ∧
      OnlyChanges [.wq, .aiu, .walk, .hport] s t

/-- A descriptor fetch joins the read stream at its end, but before the fetches of the walker and of staging that became due
at the same moment (R12). -/
def firstOfItsMoment (q : ReadReq) (stream : List ReadReq) : List ReadReq :=
  stream.takeWhile (fun r => !r.fresh || r.kind == 3) ++ q :: stream.dropWhile (fun r => !r.fresh || r.kind == 3)

/-- The descriptor steps of a receive packet (R124, R125, R123), its remaining bytes `b` at the FIFO's front: a fetched descriptor
takes the first min(size, remaining) bytes in one write to its buffer (one write: log 28); a descriptor of size 0, and any for a
packet of no bytes, takes none and is written back at once; when the bytes are written W2 and W3 of that descriptor, whatever RX_FILL is by then, are written back together;
and when the write-back is done RX_FILL advances, wrapping at the size, the bytes leave the FIFO, and what is left goes on in
the next descriptor. Where none is free the packet waits (R126), which sets RXLOW once, until a write of RX_RETURN frees
one. The descriptor fetched is the one at RX_FILL; that a write of the present size may clear RX_FILL under the packet is the
model's reading (log 40). Its descriptor fetches join the read stream before the other fetches of the same moment (R12); what is of one moment is the
model's choice (log 1, log 61). -/
def Obligations.DescriptorStepsDrainThePacket : Prop :=
  ∀ (s : State) (len : Nat) (i : EntryIx) (c : RingClass) (cycle : BitVec 16) (mark : Bool) (rest : List WqItem)
    (b : List Byte) (bs : List (List Byte)), awake s → performs s → s.wq.items = .packet len i c cycle mark :: rest →
    s.rx.fifo = b :: bs →
    let descriptor (fill : BitVec 10) : Word := s.rx.base + 16 * fill.setWidth 32
    let fetch (fill : BitVec 10) : ReadReq :=
      { kind := 3, addr := descriptor fill, len := 16, reader := .descriptor, fresh := s.hport.moment }
    let backWrite (desc word : Word) : WriteAcc := {
      kind := 9, addr := desc + 8, live := true,
      bytes := [word.extractLsb' 0 8, word.extractLsb' 8 8, word.extractLsb' 16 8, word.extractLsb' 24 8,
                cycle.extractLsb' 0 8, cycle.extractLsb' 8 8, 0, 0] }
    let backWord (n : Nat) (word : Word) : Prop :=
      word.extractLsb' 0 15 = BitVec.ofNat 15 n ∧ word.extractLsb' 16 6 = i ∧
      word.getLsbD 24 = decide (b.length = n) ∧ word.getLsbD 25 = (decide (b.length = n) && mark) ∧
      word.getLsbD 26 = decide (len = 0) ∧ word.extractLsb' 28 2 = classCode c
    (∀ q later w0 w1 w2 w3, s.hport.reads = q :: later → q.kind ≠ 4 → q.reader = .descriptor → s.wq.drain = .fetching →
      s.hport.write = none →
      let size := min (w1.extractLsb' 0 15).toNat 16384
      (0 < size → b ≠ [] → exec (.recordFetchDone w0 w1 w2 w3) s = .next { s with
        hport := { s.hport with reads := later,
                                write := some { kind := 8, addr := w0, bytes := b.take size, live := true } },
        wq := { s.wq with started := true, drain := .writing q.addr (min size b.length) } }) ∧
      (size = 0 ∨ b = [] → ∃ (t : State) (word : Word), exec (.recordFetchDone w0 w1 w2 w3) s = .next t ∧
        t.hport = { s.hport with reads := later, write := some (backWrite q.addr word) } ∧ backWord 0 word ∧
        t.wq = { s.wq with started := true, drain := .writingBack 0 } ∧ OnlyChanges [.hport, .wq] s t)) ∧
    (∀ w desc n, s.hport.write = some w → w.live = true → s.wq.drain = .writing desc n →
      ∃ (t : State) (word : Word), exec .hostWriteComplete s = .next t ∧
        t.hport = { s.hport with write := some (backWrite desc word) } ∧ backWord n word ∧
        t.wq = { s.wq with started := true, drain := .writingBack n } ∧ OnlyChanges [.hport, .wq] s t) ∧
    (∀ w n, s.hport.write = some w → w.live = true → s.wq.drain = .writingBack n →
      let fill := if s.rx.fill.toNat + 1 < s.rx.size.toNat then s.rx.fill + 1 else 0
      ∃ t, exec .hostWriteComplete s = .next t ∧
        (b.length ≤ n → t.wq.items = rest ∧ t.rx = { s.rx with fill := fill, fifo := bs }) ∧
        (n < b.length → t.wq.items = s.wq.items ∧ t.rx = { s.rx with fill := fill, fifo := b.drop n :: bs }) ∧
        (n < b.length → s.rx.ret.toNat < s.rx.size.toNat →
          (fill = s.rx.ret → t.wq.drain = .waits ∧ t.hport = { s.hport with write := none } ∧
            t.aiu = { s.aiu with edges := s.aiu.edges ||| 0x400#11 }) ∧
          (fill ≠ s.rx.ret → t.wq.drain = .fetching ∧ t.aiu = s.aiu ∧
            t.hport = { s.hport with reads := firstOfItsMoment (fetch fill) s.hport.reads, write := none })) ∧
        OnlyChanges [.wq, .rx, .walk, .aiu, .hport] s t) ∧
    (∀ v : Word, s.wq.drain = .waits → s.rx.fill.toNat < s.rx.size.toNat →
      (v.extractLsb' 0 10).toNat < s.rx.size.toNat →
      let returned : State := { s with rx := { s.rx with ret := v.extractLsb' 0 10 } }
      (v.extractLsb' 0 10 = s.rx.fill → exec (.rxReturnWrite v) s = .next returned) ∧
      (v.extractLsb' 0 10 ≠ s.rx.fill → exec (.rxReturnWrite v) s = .next { returned with
        hport := { s.hport with reads := firstOfItsMoment (fetch s.rx.fill) s.hport.reads },
        wq := { s.wq with started := true, drain := .fetching } }))

/-- The ring registers (R122, R123). A write of RX_RING_BASE or RX_RING_SIZE needs OFFLINE or READY, no receive packet queued and
a legal value, or else the register's present value; RX_RING_SIZE clears both indices; RX_RETURN needs a value below the
size; a refused write offers RX_CONFIG_REFUSED with the register's offset and leaves the ring as it was. That the present
value is exempt from the first two tests, and that only bits 10..0 of RX_RING_SIZE are looked at, is the model's reading
(log 40). -/
def Obligations.RingRegisterWritesAreTested : Prop :=
  ∀ (v : Word) (s : State), awake s →
    let open' : Prop := (s.seq.state = .offline ∨ s.seq.state = .ready) ∧ ∀ i ∈ s.wq.items, (writeOf i).isSome = true
    let size := v.extractLsb' 0 11
    let baseOk : Prop := (open' ∧ v.extractLsb' 0 4 = 0#4) ∨ v = s.rx.base
    let sizeOk : Prop := (open' ∨ size = s.rx.size) ∧ size ∈ [8, 16, 32, 64, 128, 256, 512, 1024]
    let refused (off : Word) : State := { s with
      elog := hostAfterOffer s.elog 0x01 0 off, aiu := { s.aiu with edges := s.aiu.edges ||| 0x100#11 } }
    (baseOk → exec (.rxRingBaseWrite v) s = .next { s with rx := { s.rx with base := v } }) ∧
    (¬baseOk → exec (.rxRingBaseWrite v) s = .next (refused 0x050)) ∧
    (sizeOk → exec (.rxRingSizeWrite v) s = .next { s with rx := { s.rx with size := size, fill := 0, ret := 0 } }) ∧
    (¬sizeOk → exec (.rxRingSizeWrite v) s = .next (refused 0x054)) ∧
    ((v.extractLsb' 0 10).toNat < s.rx.size.toNat → ∃ t, exec (.rxReturnWrite v) s = .next t ∧
      t.rx = { s.rx with ret := v.extractLsb' 0 10 } ∧ t.wq.items = s.wq.items ∧
      (s.wq.items = [] → t = { s with rx := t.rx }) ∧ OnlyChanges [.rx, .wq, .hport, .aiu] s t) ∧
    (s.rx.size.toNat ≤ (v.extractLsb' 0 10).toNat → exec (.rxReturnWrite v) s = .next (refused 0x05C))

/-! ### Faults and seals -/

/-- The access outstanding on a channel (R12): its kind code, address and length. -/
def outstandingOn (s : State) : Chan → Option (BitVec 4 × Word × Nat)
  | .read => s.hport.reads.head?.map (fun r => (r.kind, r.addr, r.len))
  | .write => s.hport.write.map (fun w => (w.kind, w.addr, w.bytes.length))

/-- The access outstanding on a channel was left so by an OFFLINE (R14, R25). -/
def leftOn (s : State) : Chan → Bool
  | .read => s.hport.reads.head?.any ReadReq.left
  | .write => s.hport.write.any WriteAcc.left

/-- A host-memory fault (R13, R29, R14, R159 steps 1 to 4): logged with its code, kind and address in every state; in READY, ARMED,
RUNNING and STOPPING it seals: no access is issued any more and one outstanding on the other channel counts for nothing, the
staging buffer is empty, and of the walker's work only a turn with its exchange under way stays. In OFFLINE and SEALED it is only
logged, and so is, in every state, the fault of an access that an OFFLINE left outstanding (log 41); the reads behind it go
on. The offset stands for the place where a split access failed (log 28), and the rest of a seal is SEAL_COMPLETION's
(log 25). -/
def Obligations.HostMemoryFaultSeals : Prop :=
  ∀ (ch : Chan) (offset : BitVec 10) (s : State) (kind : BitVec 4) (addr : Word) (len : Nat), awake s →
    outstandingOn s ch = some (kind, addr, len) →
    (if kind = 4 ∨ kind = 8 then offset.toNat < len else offset = 0) →
    let code : BitVec 8 := if kind.toNat ≤ 3 then 0x20 else if kind = 4 then 0x21 else 0x22
    ∃ t, exec (.hostMemoryFault ch offset) s = .next t ∧
      t.elog = hostAfterOffer s.elog code kind (addr + offset.setWidth 32) ∧
      t.hport = { s.hport with reads := t.hport.reads, write := t.hport.write } ∧
      (s.seq.state ≠ .offline → s.seq.state ≠ .sealed → leftOn s ch = false →
        t.wq = { s.wq with started := t.wq.started } ∧ (ch = .write → t.hport.write = none) ∧
        t.seq = { s.seq with state := .sealed, sealPending := true,
                             restartFaulted := s.seq.restartFaulted || s.seq.restartInHand } ∧
        t.aiu = { s.aiu with edges := s.aiu.edges ||| 0x180#11 } ∧ t.stage = { buf := .empty, waiting := none } ∧
        (ch = .read → t.hport.reads = []) ∧
        t.hport.reads.length ≤ 1 ∧ (∀ r ∈ t.hport.reads, r.reader = .discard) ∧
        (∀ w, t.hport.write = some w → w.live = false) ∧
        t.walk = { s.walk with hand := t.walk.hand, look := .nothing, waiting := false } ∧
        (∀ u, s.walk.hand = .turn u → u.phase = .exchanging → t.walk.hand = .turn u) ∧
        ((∀ u, s.walk.hand = .turn u → u.phase ≠ .exchanging) → t.walk.hand = .nothing) ∧
        OnlyChanges [.seq, .walk, .stage, .wq, .aiu, .elog, .hport] s t) ∧
      (s.seq.state = .offline ∨ s.seq.state = .sealed →
        t.seq = { s.seq with restartFaulted := s.seq.restartFaulted ||
          (decide (s.seq.state = .sealed ∧ leftOn s ch = false) && s.seq.restartInHand) } ∧
        t.wq = { s.wq with started := t.wq.started } ∧ (ch = .write → t.hport.write = none) ∧
        t.aiu = { s.aiu with edges := s.aiu.edges ||| 0x100#11 } ∧
        (ch = .read → t.hport.reads = s.hport.reads.tail) ∧ (ch = .write → t.hport.reads = s.hport.reads) ∧
        OnlyChanges [.seq, .wq, .aiu, .elog, .hport] s t) ∧
      (leftOn s ch = true → t.seq = s.seq ∧ t.wq.items = s.wq.items ∧ t.aiu.edges.getLsbD 8 = true ∧
        (ch = .read → t.hport.reads = s.hport.reads.tail ∧ OnlyChanges [.aiu, .elog, .hport] s t) ∧
        (ch = .write → (∀ w, t.hport.write = some w → w.left = false) ∧ OnlyChanges [.wq, .aiu, .elog, .hport] s t))

/-- SEAL_COMPLETION (R159 steps 5 to 7, R131, R143), once no exchange is on the bus: the Write Queue and the Receive FIFO are
emptied; the direct requests complete SEALED from the front while the Done list has room, a PEEK's range becoming 0xFF if fill
is 1, and the rest are removed with direct_flushed set. -/
def Obligations.SealCompletionEmptiesTheQueues : Prop :=
  ∀ s : State, awake s → s.seq.sealPending = true → s.xeng = none →
    let served := s.dau.pending.take (4 - s.dau.done.length)
    ∃ t, exec .sealCompletion s = .next t ∧
      t.seq = { s.seq with sealPending := false,
                           writesDiscarded := s.seq.writesDiscarded || !(discardedItems s).isEmpty } ∧
      t.wq = { items := [], reserved := 0, started := false, drain := .needs } ∧ t.rx = { s.rx with fifo := [] } ∧
      t.dau = { s.dau with
        bank := t.dau.bank, pending := [],
        done := s.dau.done ++
          served.map (fun r => { poke := r.poke, tag := r.tag, status := .sealed, count := 0 }),
        directFlushed := s.dau.directFlushed || decide (4 - s.dau.done.length < s.dau.pending.length) } ∧
      (∀ i, i < 64 → bankByte t i =
        if s.hport.fill = true ∧ ∃ r ∈ served, r.poke = false ∧ r.offset.toNat ≤ i ∧ i < r.offset.toNat + r.len then 0xFF
        else bankByte s i) ∧
      (∀ w, t.hport.write = some w → w.live = false) ∧ OnlyChanges [.seq, .wq, .rx, .dau, .hport] s t

/-! ### Direct access, attention, interrupts and logs -/

/-- A PEEK_REQUEST or POKE_REQUEST (R133, R134, R135): the first check that fails rejects it with its reason and nothing else; an
accepted one joins the back of the Pending list with its range up to the next section boundary, the register number of
DIRECT_ARG and, for a POKE, the snapshot of the range. -/
def Obligations.DirectRequestsAreChecked : Prop :=
  ∀ (poke : Bool) (i off : BitVec 6) (tag : BitVec 4) (s : State), awake s →
    let request : Instr := if poke then .pokeRequest i off tag else .peekRequest i off tag
    let unit : Nat := if off.toNat < 16 then 4 else 16
    let len := (off.toNat / unit + 1) * unit - off.toNat
    let reason : RejectReason :=
      if s.seq.state ≠ .armed ∧ s.seq.state ≠ .running ∧ s.seq.state ≠ .stopping then .notRunning
      else if 4 ≤ s.dau.pending.length then .full
      else if i = 0 ∨ (getEntry s i).valid = false then .badEntry
      else if (∃ r ∈ s.dau.pending, r.poke = false ∧ off.toNat < r.offset.toNat + r.len ∧
        r.offset.toNat < off.toNat + len) then .overlap
      else .none
    (reason ≠ .none → exec request s = .next { s with dau := { s.dau with rejectReason := reason, rejected := true } }) ∧
    (reason = .none → ∃ data, exec request s = .next { s with
        walk := { s.walk with waiting := false },
        dau := { s.dau with pending := s.dau.pending ++ [
          { poke := poke, entry := i, offset := off, len := len, tag := tag, regnum := s.dau.arg, tries := 0, defers := 0,
            data := data }] } } ∧
      (poke = false → data = []) ∧
      (poke = true → data.length = len ∧ ∀ k, k < len → data[k]? = some (bankByte s (off.toNat + k))))

/-- The registers of the Direct Access Unit (R141, R142): a 32-bit write of DIRECT_STATUS clears the flags written 1, and
reject_reason with a set rejected; a 32-bit read of DIRECT_DONE returns the oldest record and removes it, or 0. -/
def Obligations.DirectRegistersPopAndClear : Prop :=
  ∀ (v : Word) (s : State), awake s →
    exec (.directStatusWrite v) s = .next { s with dau := { s.dau with
      rejected := s.dau.rejected && !v.getLsbD 4, bankWriteDropped := s.dau.bankWriteDropped && !v.getLsbD 5,
      directFlushed := s.dau.directFlushed && !v.getLsbD 6,
      rejectReason := if v.getLsbD 4 = true ∧ s.dau.rejected = true then .none else s.dau.rejectReason } } ∧
    (s.dau.done = [] → exec .directDonePop s = .next { s with hport := { s.hport with readData := 0 } }) ∧
    (∀ r rest, s.dau.done = r :: rest → ∃ t, exec .directDonePop s = .next t ∧
      t = { s with hport := { s.hport with readData := readWord s 0x09C }, dau := { s.dau with done := rest },
                   walk := { s.walk with waiting := s.walk.waiting && decide (s.dau.done.length < 4) } } ∧
      (readWord s 0x09C).getLsbD 0 = true ∧ (readWord s 0x09C).getLsbD 1 = r.poke ∧
      (readWord s 0x09C).extractLsb' 4 4 = r.tag ∧ (readWord s 0x09C).extractLsb' 8 4 = dirStatusCode r.status ∧
      (readWord s 0x09C).extractLsb' 16 5 = BitVec.ofNat 5 r.count)

/-- The attention queue (R146, R147, R148): the table of an offer, the read of ATTN_POP, which returns the oldest record, removes it
and latches its head, and the write of ATTN_STATUS. -/
def Obligations.AttentionQueueOffersAndPops : Prop :=
  (∀ (u : Aiu) (r : Attn),
    let again : Prop := (r.cause = .rxOverrun ∨ r.cause = .late ∨ r.cause = .miss) ∧
      ∃ q ∈ u.queue, q.cause = r.cause ∧ q.entry = r.entry
    (again → attnAfterOffer u r = u) ∧
    (¬again → 16 ≤ u.queue.length →
      attnAfterOffer u r = { u with lost := if u.lost = 255 then 255 else u.lost + 1, overflow := true }) ∧
    (¬again → u.queue.length < 16 → attnAfterOffer u r = { u with queue := u.queue ++ [r] })) ∧
  (∀ (v : Word) (s : State), awake s →
    (s.aiu.queue = [] → exec .attnPop s = .next { s with hport := { s.hport with readData := 0 } }) ∧
    (∀ r rest, s.aiu.queue = r :: rest → exec .attnPop s = .next { s with
      hport := { s.hport with readData := readWord s 0x080 }, aiu := { s.aiu with queue := rest, attnHead := r.head } } ∧
      (readWord s 0x080).getLsbD 0 = true ∧ (readWord s 0x080).extractLsb' 4 4 = causeCode r.cause ∧
      (readWord s 0x080).extractLsb' 8 2 = classCode r.cls ∧ (readWord s 0x080).extractLsb' 10 6 = r.entry ∧
      (readWord s 0x080).extractLsb' 16 12 = r.cycle) ∧
    (v.getLsbD 16 = true →
      exec (.attnStatusWrite v) s = .next { s with aiu := { s.aiu with lost := 0, overflow := false } }) ∧
    (v.getLsbD 16 = false → exec (.attnStatusWrite v) s = .next s))

/-- The interrupt registers (R149, R150): a write of IRQ_PENDING clears the edge bits written 1, a write of IRQ_MASK sets the
mask; the two level bits show their lists, and the output is asserted exactly while a pending bit is unmasked. -/
def Obligations.InterruptLineFollowsPendingAndMask : Prop :=
  ∀ (v : Word) (s : State), awake s →
    exec (.irqPendingWrite v) s = .next { s with aiu := { s.aiu with edges := s.aiu.edges &&& ~~~(v.extractLsb' 0 11) } } ∧
    exec (.irqMaskWrite v) s = .next { s with aiu := { s.aiu with mask := v.extractLsb' 0 11 } } ∧
    (levelBitsFree s →
      ((irqPending s).getLsbD 1 = true ↔ s.aiu.queue ≠ []) ∧ ((irqPending s).getLsbD 9 = true ↔ s.dau.done ≠ [])) ∧
    (∀ n, n ≠ 1 → n ≠ 9 → (irqPending s).getLsbD n = s.aiu.edges.getLsbD n) ∧
    (irqLine s = true ↔ ∃ n, (irqPending s).getLsbD n = true ∧ s.aiu.mask.getLsbD n = true) ∧
    (readWord s 0x0A8).extractLsb' 0 11 = irqPending s &&& s.aiu.mask

/-- A write of LOG_CTL (R154): with a wipe bit 1, a log whose permit was 1 is emptied and its permit cleared; otherwise the
log stays and its permit takes the written value. Each log is judged alone. -/
def Obligations.WipesNeedAPermit : Prop :=
  ∀ (v : Word) (s : State), awake s →
    let bus (wipe : Bool) (l : ErrorLogs) : ErrorLogs :=
      if wipe = true ∧ s.elog.busPermit = true then
        { l with busCode := 0, busOverflow := false, busSegment := 0, busEntry := 0, busCycle := 0, busPermit := false }
      else { l with busPermit := v.getLsbD 0 }
    let host (wipe : Bool) (l : ErrorLogs) : ErrorLogs :=
      if wipe = true ∧ s.elog.hostPermit = true then
        { l with hostCode := 0, hostOverflow := false, hostKind := 0, hostAddr := 0, hostPermit := false }
      else { l with hostPermit := v.getLsbD 4 }
    exec (.busWipe v) s = .next { s with elog := host (v.getLsbD 5) (bus true s.elog) } ∧
    exec (.hostWipe v) s = .next { s with elog := host true (bus (v.getLsbD 1) s.elog) } ∧
    exec (.registerWrite 0x0C0 .word (v.setWidth 64)) s =
      .next { s with elog := host (v.getLsbD 5) (bus (v.getLsbD 1) s.elog) }

/-! ### The invariant -/

/-- The state after reset keeps the invariant, and, being OFFLINE, is quiet. -/
def Obligations.ResetHasInv : Prop := Inv State.reset ∧ OfflineQuiet State.reset ∧ State.reset.seq.state = .offline

/-- Every step keeps the invariant: entry 0 stays null (R64), fences are answered (R70), the Write Queue with its reservations
stays within 32 (R127, R129), the attention queue within 16 (R146), the direct lists within 4 (R134, R141), the level
bits hold no edge (R149), reasons show with their flags (R30, R142), busy tells of a command (R17), DARK and FAULTED fix the
quarantine (R43, R44, R158), and an exchange is only on a live segment (R33, R36). -/
def Obligations.StepKeepsInv : Prop := ∀ s t : State, Inv s → step s = .next t → Inv t

/-- Every step keeps OFFLINE quiet (R16, R25, R161): whatever is commanded, a controller that is OFFLINE has both segments DARK, no
timer running, no exchange and nothing queued anywhere. -/
def Obligations.StepKeepsOfflineQuiet : Prop := ∀ s t : State, OfflineQuiet s → step s = .next t → OfflineQuiet t
end

