-- ==== Sys2Proof/Laws/State.lean ====
section
/-! SUPPORT. One lemma per block and elementary update: what an update does not write stays as it was, and what it writes
reads back. -/

namespace Sys2Proof.Machine

/-! ### setEdge -/

@[simp] theorem setEdge_seq (i : Nat) (s : State) : (setEdge i s).seq = s.seq := rfl
@[simp] theorem setEdge_segA (i : Nat) (s : State) : (setEdge i s).segA = s.segA := rfl
@[simp] theorem setEdge_segB (i : Nat) (s : State) : (setEdge i s).segB = s.segB := rfl
@[simp] theorem setEdge_ctim (i : Nat) (s : State) : (setEdge i s).ctim = s.ctim := rfl
@[simp] theorem setEdge_table (i : Nat) (s : State) : (setEdge i s).table = s.table := rfl
@[simp] theorem setEdge_select (i : Nat) (s : State) : (setEdge i s).select = s.select := rfl
@[simp] theorem setEdge_walk (i : Nat) (s : State) : (setEdge i s).walk = s.walk := rfl
@[simp] theorem setEdge_xeng (i : Nat) (s : State) : (setEdge i s).xeng = s.xeng := rfl
@[simp] theorem setEdge_stage (i : Nat) (s : State) : (setEdge i s).stage = s.stage := rfl
@[simp] theorem setEdge_rx (i : Nat) (s : State) : (setEdge i s).rx = s.rx := rfl
@[simp] theorem setEdge_wq (i : Nat) (s : State) : (setEdge i s).wq = s.wq := rfl
@[simp] theorem setEdge_dau (i : Nat) (s : State) : (setEdge i s).dau = s.dau := rfl
@[simp] theorem setEdge_elog (i : Nat) (s : State) : (setEdge i s).elog = s.elog := rfl
@[simp] theorem setEdge_hport (i : Nat) (s : State) : (setEdge i s).hport = s.hport := rfl
@[simp] theorem setEdge_freeDraws (i : Nat) (s : State) : (setEdge i s).freeDraws = s.freeDraws := rfl
@[simp] theorem setEdge_pending (i : Nat) (s : State) : (setEdge i s).pending = s.pending := rfl

/-! ### wakeWalker -/

@[simp] theorem wakeWalker_seq (s : State) : (wakeWalker s).seq = s.seq := rfl
@[simp] theorem wakeWalker_segA (s : State) : (wakeWalker s).segA = s.segA := rfl
@[simp] theorem wakeWalker_segB (s : State) : (wakeWalker s).segB = s.segB := rfl
@[simp] theorem wakeWalker_ctim (s : State) : (wakeWalker s).ctim = s.ctim := rfl
@[simp] theorem wakeWalker_table (s : State) : (wakeWalker s).table = s.table := rfl
@[simp] theorem wakeWalker_select (s : State) : (wakeWalker s).select = s.select := rfl
@[simp] theorem wakeWalker_xeng (s : State) : (wakeWalker s).xeng = s.xeng := rfl
@[simp] theorem wakeWalker_stage (s : State) : (wakeWalker s).stage = s.stage := rfl
@[simp] theorem wakeWalker_rx (s : State) : (wakeWalker s).rx = s.rx := rfl
@[simp] theorem wakeWalker_wq (s : State) : (wakeWalker s).wq = s.wq := rfl
@[simp] theorem wakeWalker_dau (s : State) : (wakeWalker s).dau = s.dau := rfl
@[simp] theorem wakeWalker_aiu (s : State) : (wakeWalker s).aiu = s.aiu := rfl
@[simp] theorem wakeWalker_elog (s : State) : (wakeWalker s).elog = s.elog := rfl
@[simp] theorem wakeWalker_hport (s : State) : (wakeWalker s).hport = s.hport := rfl
@[simp] theorem wakeWalker_freeDraws (s : State) : (wakeWalker s).freeDraws = s.freeDraws := rfl
@[simp] theorem wakeWalker_pending (s : State) : (wakeWalker s).pending = s.pending := rfl

/-! ### beginDecision -/

@[simp] theorem beginDecision_seq (s : State) : (beginDecision s).seq = s.seq := rfl
@[simp] theorem beginDecision_segA (s : State) : (beginDecision s).segA = s.segA := rfl
@[simp] theorem beginDecision_segB (s : State) : (beginDecision s).segB = s.segB := rfl
@[simp] theorem beginDecision_ctim (s : State) : (beginDecision s).ctim = s.ctim := rfl
@[simp] theorem beginDecision_table (s : State) : (beginDecision s).table = s.table := rfl
@[simp] theorem beginDecision_select (s : State) : (beginDecision s).select = s.select := rfl
@[simp] theorem beginDecision_xeng (s : State) : (beginDecision s).xeng = s.xeng := rfl
@[simp] theorem beginDecision_stage (s : State) : (beginDecision s).stage = s.stage := rfl
@[simp] theorem beginDecision_rx (s : State) : (beginDecision s).rx = s.rx := rfl
@[simp] theorem beginDecision_wq (s : State) : (beginDecision s).wq = s.wq := rfl
@[simp] theorem beginDecision_dau (s : State) : (beginDecision s).dau = s.dau := rfl
@[simp] theorem beginDecision_aiu (s : State) : (beginDecision s).aiu = s.aiu := rfl
@[simp] theorem beginDecision_elog (s : State) : (beginDecision s).elog = s.elog := rfl
@[simp] theorem beginDecision_hport (s : State) : (beginDecision s).hport = s.hport := rfl
@[simp] theorem beginDecision_freeDraws (s : State) : (beginDecision s).freeDraws = s.freeDraws := rfl
@[simp] theorem beginDecision_pending (s : State) : (beginDecision s).pending = s.pending := rfl

/-! ### closeTurn -/

@[simp] theorem closeTurn_seq (s : State) : (closeTurn s).seq = s.seq := rfl
@[simp] theorem closeTurn_segA (s : State) : (closeTurn s).segA = s.segA := rfl
@[simp] theorem closeTurn_segB (s : State) : (closeTurn s).segB = s.segB := rfl
@[simp] theorem closeTurn_ctim (s : State) : (closeTurn s).ctim = s.ctim := rfl
@[simp] theorem closeTurn_table (s : State) : (closeTurn s).table = s.table := rfl
@[simp] theorem closeTurn_select (s : State) : (closeTurn s).select = s.select := rfl
@[simp] theorem closeTurn_xeng (s : State) : (closeTurn s).xeng = s.xeng := rfl
@[simp] theorem closeTurn_stage (s : State) : (closeTurn s).stage = s.stage := rfl
@[simp] theorem closeTurn_rx (s : State) : (closeTurn s).rx = s.rx := rfl
@[simp] theorem closeTurn_wq (s : State) : (closeTurn s).wq = s.wq := rfl
@[simp] theorem closeTurn_dau (s : State) : (closeTurn s).dau = s.dau := rfl
@[simp] theorem closeTurn_aiu (s : State) : (closeTurn s).aiu = s.aiu := rfl
@[simp] theorem closeTurn_elog (s : State) : (closeTurn s).elog = s.elog := rfl
@[simp] theorem closeTurn_hport (s : State) : (closeTurn s).hport = s.hport := rfl
@[simp] theorem closeTurn_freeDraws (s : State) : (closeTurn s).freeDraws = s.freeDraws := rfl
@[simp] theorem closeTurn_pending (s : State) : (closeTurn s).pending = s.pending := rfl

/-! ### joinReads -/

@[simp] theorem joinReads_seq (n : Nat) (s : State) : (joinReads n s).seq = s.seq := rfl
@[simp] theorem joinReads_segA (n : Nat) (s : State) : (joinReads n s).segA = s.segA := rfl
@[simp] theorem joinReads_segB (n : Nat) (s : State) : (joinReads n s).segB = s.segB := rfl
@[simp] theorem joinReads_ctim (n : Nat) (s : State) : (joinReads n s).ctim = s.ctim := rfl
@[simp] theorem joinReads_table (n : Nat) (s : State) : (joinReads n s).table = s.table := rfl
@[simp] theorem joinReads_select (n : Nat) (s : State) : (joinReads n s).select = s.select := rfl
@[simp] theorem joinReads_walk (n : Nat) (s : State) : (joinReads n s).walk = s.walk := rfl
@[simp] theorem joinReads_xeng (n : Nat) (s : State) : (joinReads n s).xeng = s.xeng := rfl
@[simp] theorem joinReads_stage (n : Nat) (s : State) : (joinReads n s).stage = s.stage := rfl
@[simp] theorem joinReads_rx (n : Nat) (s : State) : (joinReads n s).rx = s.rx := rfl
@[simp] theorem joinReads_wq (n : Nat) (s : State) : (joinReads n s).wq = s.wq := rfl
@[simp] theorem joinReads_dau (n : Nat) (s : State) : (joinReads n s).dau = s.dau := rfl
@[simp] theorem joinReads_aiu (n : Nat) (s : State) : (joinReads n s).aiu = s.aiu := rfl
@[simp] theorem joinReads_elog (n : Nat) (s : State) : (joinReads n s).elog = s.elog := rfl
@[simp] theorem joinReads_freeDraws (n : Nat) (s : State) : (joinReads n s).freeDraws = s.freeDraws := rfl
@[simp] theorem joinReads_pending (n : Nat) (s : State) : (joinReads n s).pending = s.pending := rfl

/-! ### walkerWaits -/

@[simp] theorem walkerWaits_seq (s : State) : (walkerWaits s).seq = s.seq := rfl
@[simp] theorem walkerWaits_segA (s : State) : (walkerWaits s).segA = s.segA := rfl
@[simp] theorem walkerWaits_segB (s : State) : (walkerWaits s).segB = s.segB := rfl
@[simp] theorem walkerWaits_ctim (s : State) : (walkerWaits s).ctim = s.ctim := rfl
@[simp] theorem walkerWaits_table (s : State) : (walkerWaits s).table = s.table := rfl
@[simp] theorem walkerWaits_select (s : State) : (walkerWaits s).select = s.select := rfl
@[simp] theorem walkerWaits_xeng (s : State) : (walkerWaits s).xeng = s.xeng := rfl
@[simp] theorem walkerWaits_stage (s : State) : (walkerWaits s).stage = s.stage := rfl
@[simp] theorem walkerWaits_rx (s : State) : (walkerWaits s).rx = s.rx := rfl
@[simp] theorem walkerWaits_wq (s : State) : (walkerWaits s).wq = s.wq := rfl
@[simp] theorem walkerWaits_dau (s : State) : (walkerWaits s).dau = s.dau := rfl
@[simp] theorem walkerWaits_aiu (s : State) : (walkerWaits s).aiu = s.aiu := rfl
@[simp] theorem walkerWaits_elog (s : State) : (walkerWaits s).elog = s.elog := rfl
@[simp] theorem walkerWaits_hport (s : State) : (walkerWaits s).hport = s.hport := rfl
@[simp] theorem walkerWaits_freeDraws (s : State) : (walkerWaits s).freeDraws = s.freeDraws := rfl
@[simp] theorem walkerWaits_pending (s : State) : (walkerWaits s).pending = s.pending := rfl

/-! ### setHand -/

@[simp] theorem setHand_seq (h : Hand) (s : State) : (setHand h s).seq = s.seq := rfl
@[simp] theorem setHand_segA (h : Hand) (s : State) : (setHand h s).segA = s.segA := rfl
@[simp] theorem setHand_segB (h : Hand) (s : State) : (setHand h s).segB = s.segB := rfl
@[simp] theorem setHand_ctim (h : Hand) (s : State) : (setHand h s).ctim = s.ctim := rfl
@[simp] theorem setHand_table (h : Hand) (s : State) : (setHand h s).table = s.table := rfl
@[simp] theorem setHand_select (h : Hand) (s : State) : (setHand h s).select = s.select := rfl
@[simp] theorem setHand_xeng (h : Hand) (s : State) : (setHand h s).xeng = s.xeng := rfl
@[simp] theorem setHand_stage (h : Hand) (s : State) : (setHand h s).stage = s.stage := rfl
@[simp] theorem setHand_rx (h : Hand) (s : State) : (setHand h s).rx = s.rx := rfl
@[simp] theorem setHand_wq (h : Hand) (s : State) : (setHand h s).wq = s.wq := rfl
@[simp] theorem setHand_dau (h : Hand) (s : State) : (setHand h s).dau = s.dau := rfl
@[simp] theorem setHand_aiu (h : Hand) (s : State) : (setHand h s).aiu = s.aiu := rfl
@[simp] theorem setHand_elog (h : Hand) (s : State) : (setHand h s).elog = s.elog := rfl
@[simp] theorem setHand_hport (h : Hand) (s : State) : (setHand h s).hport = s.hport := rfl
@[simp] theorem setHand_freeDraws (h : Hand) (s : State) : (setHand h s).freeDraws = s.freeDraws := rfl
@[simp] theorem setHand_pending (h : Hand) (s : State) : (setHand h s).pending = s.pending := rfl

/-! ### setLook -/

@[simp] theorem setLook_seq (l : Look) (s : State) : (setLook l s).seq = s.seq := rfl
@[simp] theorem setLook_segA (l : Look) (s : State) : (setLook l s).segA = s.segA := rfl
@[simp] theorem setLook_segB (l : Look) (s : State) : (setLook l s).segB = s.segB := rfl
@[simp] theorem setLook_ctim (l : Look) (s : State) : (setLook l s).ctim = s.ctim := rfl
@[simp] theorem setLook_table (l : Look) (s : State) : (setLook l s).table = s.table := rfl
@[simp] theorem setLook_select (l : Look) (s : State) : (setLook l s).select = s.select := rfl
@[simp] theorem setLook_xeng (l : Look) (s : State) : (setLook l s).xeng = s.xeng := rfl
@[simp] theorem setLook_stage (l : Look) (s : State) : (setLook l s).stage = s.stage := rfl
@[simp] theorem setLook_rx (l : Look) (s : State) : (setLook l s).rx = s.rx := rfl
@[simp] theorem setLook_wq (l : Look) (s : State) : (setLook l s).wq = s.wq := rfl
@[simp] theorem setLook_dau (l : Look) (s : State) : (setLook l s).dau = s.dau := rfl
@[simp] theorem setLook_aiu (l : Look) (s : State) : (setLook l s).aiu = s.aiu := rfl
@[simp] theorem setLook_elog (l : Look) (s : State) : (setLook l s).elog = s.elog := rfl
@[simp] theorem setLook_hport (l : Look) (s : State) : (setLook l s).hport = s.hport := rfl
@[simp] theorem setLook_freeDraws (l : Look) (s : State) : (setLook l s).freeDraws = s.freeDraws := rfl
@[simp] theorem setLook_pending (l : Look) (s : State) : (setLook l s).pending = s.pending := rfl

/-! ### requestRead -/

@[simp] theorem requestRead_seq (k : BitVec 4) (a : Word) (n : Nat) (r : Reader) (s : State) : (requestRead k a n r s).seq = s.seq := rfl
@[simp] theorem requestRead_segA (k : BitVec 4) (a : Word) (n : Nat) (r : Reader) (s : State) : (requestRead k a n r s).segA = s.segA := rfl
@[simp] theorem requestRead_segB (k : BitVec 4) (a : Word) (n : Nat) (r : Reader) (s : State) : (requestRead k a n r s).segB = s.segB := rfl
@[simp] theorem requestRead_ctim (k : BitVec 4) (a : Word) (n : Nat) (r : Reader) (s : State) : (requestRead k a n r s).ctim = s.ctim := rfl
@[simp] theorem requestRead_table (k : BitVec 4) (a : Word) (n : Nat) (r : Reader) (s : State) : (requestRead k a n r s).table = s.table := rfl
@[simp] theorem requestRead_select (k : BitVec 4) (a : Word) (n : Nat) (r : Reader) (s : State) : (requestRead k a n r s).select = s.select := rfl
@[simp] theorem requestRead_walk (k : BitVec 4) (a : Word) (n : Nat) (r : Reader) (s : State) : (requestRead k a n r s).walk = s.walk := rfl
@[simp] theorem requestRead_xeng (k : BitVec 4) (a : Word) (n : Nat) (r : Reader) (s : State) : (requestRead k a n r s).xeng = s.xeng := rfl
@[simp] theorem requestRead_stage (k : BitVec 4) (a : Word) (n : Nat) (r : Reader) (s : State) : (requestRead k a n r s).stage = s.stage := rfl
@[simp] theorem requestRead_rx (k : BitVec 4) (a : Word) (n : Nat) (r : Reader) (s : State) : (requestRead k a n r s).rx = s.rx := rfl
@[simp] theorem requestRead_wq (k : BitVec 4) (a : Word) (n : Nat) (r : Reader) (s : State) : (requestRead k a n r s).wq = s.wq := rfl
@[simp] theorem requestRead_dau (k : BitVec 4) (a : Word) (n : Nat) (r : Reader) (s : State) : (requestRead k a n r s).dau = s.dau := rfl
@[simp] theorem requestRead_aiu (k : BitVec 4) (a : Word) (n : Nat) (r : Reader) (s : State) : (requestRead k a n r s).aiu = s.aiu := rfl
@[simp] theorem requestRead_elog (k : BitVec 4) (a : Word) (n : Nat) (r : Reader) (s : State) : (requestRead k a n r s).elog = s.elog := rfl
@[simp] theorem requestRead_freeDraws (k : BitVec 4) (a : Word) (n : Nat) (r : Reader) (s : State) : (requestRead k a n r s).freeDraws = s.freeDraws := rfl
@[simp] theorem requestRead_pending (k : BitVec 4) (a : Word) (n : Nat) (r : Reader) (s : State) : (requestRead k a n r s).pending = s.pending := rfl

/-! ### cancelReads -/

@[simp] theorem cancelReads_seq (p : Reader → Bool) (s : State) : (cancelReads p s).seq = s.seq := rfl
@[simp] theorem cancelReads_segA (p : Reader → Bool) (s : State) : (cancelReads p s).segA = s.segA := rfl
@[simp] theorem cancelReads_segB (p : Reader → Bool) (s : State) : (cancelReads p s).segB = s.segB := rfl
@[simp] theorem cancelReads_ctim (p : Reader → Bool) (s : State) : (cancelReads p s).ctim = s.ctim := rfl
@[simp] theorem cancelReads_table (p : Reader → Bool) (s : State) : (cancelReads p s).table = s.table := rfl
@[simp] theorem cancelReads_select (p : Reader → Bool) (s : State) : (cancelReads p s).select = s.select := rfl
@[simp] theorem cancelReads_walk (p : Reader → Bool) (s : State) : (cancelReads p s).walk = s.walk := rfl
@[simp] theorem cancelReads_xeng (p : Reader → Bool) (s : State) : (cancelReads p s).xeng = s.xeng := rfl
@[simp] theorem cancelReads_stage (p : Reader → Bool) (s : State) : (cancelReads p s).stage = s.stage := rfl
@[simp] theorem cancelReads_rx (p : Reader → Bool) (s : State) : (cancelReads p s).rx = s.rx := rfl
@[simp] theorem cancelReads_wq (p : Reader → Bool) (s : State) : (cancelReads p s).wq = s.wq := rfl
@[simp] theorem cancelReads_dau (p : Reader → Bool) (s : State) : (cancelReads p s).dau = s.dau := rfl
@[simp] theorem cancelReads_aiu (p : Reader → Bool) (s : State) : (cancelReads p s).aiu = s.aiu := rfl
@[simp] theorem cancelReads_elog (p : Reader → Bool) (s : State) : (cancelReads p s).elog = s.elog := rfl
@[simp] theorem cancelReads_freeDraws (p : Reader → Bool) (s : State) : (cancelReads p s).freeDraws = s.freeDraws := rfl
@[simp] theorem cancelReads_pending (p : Reader → Bool) (s : State) : (cancelReads p s).pending = s.pending := rfl

/-! ### orphanWrite -/

@[simp] theorem orphanWrite_seq (s : State) : (orphanWrite s).seq = s.seq := rfl
@[simp] theorem orphanWrite_segA (s : State) : (orphanWrite s).segA = s.segA := rfl
@[simp] theorem orphanWrite_segB (s : State) : (orphanWrite s).segB = s.segB := rfl
@[simp] theorem orphanWrite_ctim (s : State) : (orphanWrite s).ctim = s.ctim := rfl
@[simp] theorem orphanWrite_table (s : State) : (orphanWrite s).table = s.table := rfl
@[simp] theorem orphanWrite_select (s : State) : (orphanWrite s).select = s.select := rfl
@[simp] theorem orphanWrite_walk (s : State) : (orphanWrite s).walk = s.walk := rfl
@[simp] theorem orphanWrite_xeng (s : State) : (orphanWrite s).xeng = s.xeng := rfl
@[simp] theorem orphanWrite_stage (s : State) : (orphanWrite s).stage = s.stage := rfl
@[simp] theorem orphanWrite_rx (s : State) : (orphanWrite s).rx = s.rx := rfl
@[simp] theorem orphanWrite_wq (s : State) : (orphanWrite s).wq = s.wq := rfl
@[simp] theorem orphanWrite_dau (s : State) : (orphanWrite s).dau = s.dau := rfl
@[simp] theorem orphanWrite_aiu (s : State) : (orphanWrite s).aiu = s.aiu := rfl
@[simp] theorem orphanWrite_elog (s : State) : (orphanWrite s).elog = s.elog := rfl
@[simp] theorem orphanWrite_freeDraws (s : State) : (orphanWrite s).freeDraws = s.freeDraws := rfl
@[simp] theorem orphanWrite_pending (s : State) : (orphanWrite s).pending = s.pending := rfl

/-! ### popRead -/

@[simp] theorem popRead_seq (s : State) : (popRead s).seq = s.seq := rfl
@[simp] theorem popRead_segA (s : State) : (popRead s).segA = s.segA := rfl
@[simp] theorem popRead_segB (s : State) : (popRead s).segB = s.segB := rfl
@[simp] theorem popRead_ctim (s : State) : (popRead s).ctim = s.ctim := rfl
@[simp] theorem popRead_table (s : State) : (popRead s).table = s.table := rfl
@[simp] theorem popRead_select (s : State) : (popRead s).select = s.select := rfl
@[simp] theorem popRead_walk (s : State) : (popRead s).walk = s.walk := rfl
@[simp] theorem popRead_xeng (s : State) : (popRead s).xeng = s.xeng := rfl
@[simp] theorem popRead_stage (s : State) : (popRead s).stage = s.stage := rfl
@[simp] theorem popRead_rx (s : State) : (popRead s).rx = s.rx := rfl
@[simp] theorem popRead_wq (s : State) : (popRead s).wq = s.wq := rfl
@[simp] theorem popRead_dau (s : State) : (popRead s).dau = s.dau := rfl
@[simp] theorem popRead_aiu (s : State) : (popRead s).aiu = s.aiu := rfl
@[simp] theorem popRead_elog (s : State) : (popRead s).elog = s.elog := rfl
@[simp] theorem popRead_freeDraws (s : State) : (popRead s).freeDraws = s.freeDraws := rfl
@[simp] theorem popRead_pending (s : State) : (popRead s).pending = s.pending := rfl

/-! ### reserve -/

@[simp] theorem reserve_seq (n : Nat) (s : State) : (reserve n s).seq = s.seq := rfl
@[simp] theorem reserve_segA (n : Nat) (s : State) : (reserve n s).segA = s.segA := rfl
@[simp] theorem reserve_segB (n : Nat) (s : State) : (reserve n s).segB = s.segB := rfl
@[simp] theorem reserve_ctim (n : Nat) (s : State) : (reserve n s).ctim = s.ctim := rfl
@[simp] theorem reserve_table (n : Nat) (s : State) : (reserve n s).table = s.table := rfl
@[simp] theorem reserve_select (n : Nat) (s : State) : (reserve n s).select = s.select := rfl
@[simp] theorem reserve_walk (n : Nat) (s : State) : (reserve n s).walk = s.walk := rfl
@[simp] theorem reserve_xeng (n : Nat) (s : State) : (reserve n s).xeng = s.xeng := rfl
@[simp] theorem reserve_stage (n : Nat) (s : State) : (reserve n s).stage = s.stage := rfl
@[simp] theorem reserve_rx (n : Nat) (s : State) : (reserve n s).rx = s.rx := rfl
@[simp] theorem reserve_dau (n : Nat) (s : State) : (reserve n s).dau = s.dau := rfl
@[simp] theorem reserve_aiu (n : Nat) (s : State) : (reserve n s).aiu = s.aiu := rfl
@[simp] theorem reserve_elog (n : Nat) (s : State) : (reserve n s).elog = s.elog := rfl
@[simp] theorem reserve_hport (n : Nat) (s : State) : (reserve n s).hport = s.hport := rfl
@[simp] theorem reserve_freeDraws (n : Nat) (s : State) : (reserve n s).freeDraws = s.freeDraws := rfl
@[simp] theorem reserve_pending (n : Nat) (s : State) : (reserve n s).pending = s.pending := rfl

/-! ### releaseSlots -/

@[simp] theorem releaseSlots_seq (s : State) : (releaseSlots s).seq = s.seq := rfl
@[simp] theorem releaseSlots_segA (s : State) : (releaseSlots s).segA = s.segA := rfl
@[simp] theorem releaseSlots_segB (s : State) : (releaseSlots s).segB = s.segB := rfl
@[simp] theorem releaseSlots_ctim (s : State) : (releaseSlots s).ctim = s.ctim := rfl
@[simp] theorem releaseSlots_table (s : State) : (releaseSlots s).table = s.table := rfl
@[simp] theorem releaseSlots_select (s : State) : (releaseSlots s).select = s.select := rfl
@[simp] theorem releaseSlots_walk (s : State) : (releaseSlots s).walk = s.walk := rfl
@[simp] theorem releaseSlots_xeng (s : State) : (releaseSlots s).xeng = s.xeng := rfl
@[simp] theorem releaseSlots_stage (s : State) : (releaseSlots s).stage = s.stage := rfl
@[simp] theorem releaseSlots_rx (s : State) : (releaseSlots s).rx = s.rx := rfl
@[simp] theorem releaseSlots_dau (s : State) : (releaseSlots s).dau = s.dau := rfl
@[simp] theorem releaseSlots_aiu (s : State) : (releaseSlots s).aiu = s.aiu := rfl
@[simp] theorem releaseSlots_elog (s : State) : (releaseSlots s).elog = s.elog := rfl
@[simp] theorem releaseSlots_hport (s : State) : (releaseSlots s).hport = s.hport := rfl
@[simp] theorem releaseSlots_freeDraws (s : State) : (releaseSlots s).freeDraws = s.freeDraws := rfl
@[simp] theorem releaseSlots_pending (s : State) : (releaseSlots s).pending = s.pending := rfl

/-! ### setDrain -/

@[simp] theorem setDrain_seq (d : Drain) (s : State) : (setDrain d s).seq = s.seq := rfl
@[simp] theorem setDrain_segA (d : Drain) (s : State) : (setDrain d s).segA = s.segA := rfl
@[simp] theorem setDrain_segB (d : Drain) (s : State) : (setDrain d s).segB = s.segB := rfl
@[simp] theorem setDrain_ctim (d : Drain) (s : State) : (setDrain d s).ctim = s.ctim := rfl
@[simp] theorem setDrain_table (d : Drain) (s : State) : (setDrain d s).table = s.table := rfl
@[simp] theorem setDrain_select (d : Drain) (s : State) : (setDrain d s).select = s.select := rfl
@[simp] theorem setDrain_walk (d : Drain) (s : State) : (setDrain d s).walk = s.walk := rfl
@[simp] theorem setDrain_xeng (d : Drain) (s : State) : (setDrain d s).xeng = s.xeng := rfl
@[simp] theorem setDrain_stage (d : Drain) (s : State) : (setDrain d s).stage = s.stage := rfl
@[simp] theorem setDrain_rx (d : Drain) (s : State) : (setDrain d s).rx = s.rx := rfl
@[simp] theorem setDrain_dau (d : Drain) (s : State) : (setDrain d s).dau = s.dau := rfl
@[simp] theorem setDrain_aiu (d : Drain) (s : State) : (setDrain d s).aiu = s.aiu := rfl
@[simp] theorem setDrain_elog (d : Drain) (s : State) : (setDrain d s).elog = s.elog := rfl
@[simp] theorem setDrain_hport (d : Drain) (s : State) : (setDrain d s).hport = s.hport := rfl
@[simp] theorem setDrain_freeDraws (d : Drain) (s : State) : (setDrain d s).freeDraws = s.freeDraws := rfl
@[simp] theorem setDrain_pending (d : Drain) (s : State) : (setDrain d s).pending = s.pending := rfl

/-! ### beginItem -/

@[simp] theorem beginItem_seq (s : State) : (beginItem s).seq = s.seq := rfl
@[simp] theorem beginItem_segA (s : State) : (beginItem s).segA = s.segA := rfl
@[simp] theorem beginItem_segB (s : State) : (beginItem s).segB = s.segB := rfl
@[simp] theorem beginItem_ctim (s : State) : (beginItem s).ctim = s.ctim := rfl
@[simp] theorem beginItem_table (s : State) : (beginItem s).table = s.table := rfl
@[simp] theorem beginItem_select (s : State) : (beginItem s).select = s.select := rfl
@[simp] theorem beginItem_walk (s : State) : (beginItem s).walk = s.walk := rfl
@[simp] theorem beginItem_xeng (s : State) : (beginItem s).xeng = s.xeng := rfl
@[simp] theorem beginItem_stage (s : State) : (beginItem s).stage = s.stage := rfl
@[simp] theorem beginItem_rx (s : State) : (beginItem s).rx = s.rx := rfl
@[simp] theorem beginItem_dau (s : State) : (beginItem s).dau = s.dau := rfl
@[simp] theorem beginItem_aiu (s : State) : (beginItem s).aiu = s.aiu := rfl
@[simp] theorem beginItem_elog (s : State) : (beginItem s).elog = s.elog := rfl
@[simp] theorem beginItem_hport (s : State) : (beginItem s).hport = s.hport := rfl
@[simp] theorem beginItem_freeDraws (s : State) : (beginItem s).freeDraws = s.freeDraws := rfl
@[simp] theorem beginItem_pending (s : State) : (beginItem s).pending = s.pending := rfl

/-! ### popItem -/

@[simp] theorem popItem_seq (s : State) : (popItem s).seq = s.seq := rfl
@[simp] theorem popItem_segA (s : State) : (popItem s).segA = s.segA := rfl
@[simp] theorem popItem_segB (s : State) : (popItem s).segB = s.segB := rfl
@[simp] theorem popItem_ctim (s : State) : (popItem s).ctim = s.ctim := rfl
@[simp] theorem popItem_table (s : State) : (popItem s).table = s.table := rfl
@[simp] theorem popItem_select (s : State) : (popItem s).select = s.select := rfl
@[simp] theorem popItem_walk (s : State) : (popItem s).walk = s.walk := rfl
@[simp] theorem popItem_xeng (s : State) : (popItem s).xeng = s.xeng := rfl
@[simp] theorem popItem_stage (s : State) : (popItem s).stage = s.stage := rfl
@[simp] theorem popItem_rx (s : State) : (popItem s).rx = s.rx := rfl
@[simp] theorem popItem_dau (s : State) : (popItem s).dau = s.dau := rfl
@[simp] theorem popItem_aiu (s : State) : (popItem s).aiu = s.aiu := rfl
@[simp] theorem popItem_elog (s : State) : (popItem s).elog = s.elog := rfl
@[simp] theorem popItem_hport (s : State) : (popItem s).hport = s.hport := rfl
@[simp] theorem popItem_freeDraws (s : State) : (popItem s).freeDraws = s.freeDraws := rfl
@[simp] theorem popItem_pending (s : State) : (popItem s).pending = s.pending := rfl

/-! ### issueWrite -/

@[simp] theorem issueWrite_seq (k : BitVec 4) (a : Word) (b : List Byte) (s : State) : (issueWrite k a b s).seq = s.seq := rfl
@[simp] theorem issueWrite_segA (k : BitVec 4) (a : Word) (b : List Byte) (s : State) : (issueWrite k a b s).segA = s.segA := rfl
@[simp] theorem issueWrite_segB (k : BitVec 4) (a : Word) (b : List Byte) (s : State) : (issueWrite k a b s).segB = s.segB := rfl
@[simp] theorem issueWrite_ctim (k : BitVec 4) (a : Word) (b : List Byte) (s : State) : (issueWrite k a b s).ctim = s.ctim := rfl
@[simp] theorem issueWrite_table (k : BitVec 4) (a : Word) (b : List Byte) (s : State) : (issueWrite k a b s).table = s.table := rfl
@[simp] theorem issueWrite_select (k : BitVec 4) (a : Word) (b : List Byte) (s : State) : (issueWrite k a b s).select = s.select := rfl
@[simp] theorem issueWrite_walk (k : BitVec 4) (a : Word) (b : List Byte) (s : State) : (issueWrite k a b s).walk = s.walk := rfl
@[simp] theorem issueWrite_xeng (k : BitVec 4) (a : Word) (b : List Byte) (s : State) : (issueWrite k a b s).xeng = s.xeng := rfl
@[simp] theorem issueWrite_stage (k : BitVec 4) (a : Word) (b : List Byte) (s : State) : (issueWrite k a b s).stage = s.stage := rfl
@[simp] theorem issueWrite_rx (k : BitVec 4) (a : Word) (b : List Byte) (s : State) : (issueWrite k a b s).rx = s.rx := rfl
@[simp] theorem issueWrite_dau (k : BitVec 4) (a : Word) (b : List Byte) (s : State) : (issueWrite k a b s).dau = s.dau := rfl
@[simp] theorem issueWrite_aiu (k : BitVec 4) (a : Word) (b : List Byte) (s : State) : (issueWrite k a b s).aiu = s.aiu := rfl
@[simp] theorem issueWrite_elog (k : BitVec 4) (a : Word) (b : List Byte) (s : State) : (issueWrite k a b s).elog = s.elog := rfl
@[simp] theorem issueWrite_freeDraws (k : BitVec 4) (a : Word) (b : List Byte) (s : State) : (issueWrite k a b s).freeDraws = s.freeDraws := rfl
@[simp] theorem issueWrite_pending (k : BitVec 4) (a : Word) (b : List Byte) (s : State) : (issueWrite k a b s).pending = s.pending := rfl

/-! ### setStage -/

@[simp] theorem setStage_seq (b : StageBuf) (w : Option FillReq) (s : State) : (setStage b w s).seq = s.seq := rfl
@[simp] theorem setStage_segA (b : StageBuf) (w : Option FillReq) (s : State) : (setStage b w s).segA = s.segA := rfl
@[simp] theorem setStage_segB (b : StageBuf) (w : Option FillReq) (s : State) : (setStage b w s).segB = s.segB := rfl
@[simp] theorem setStage_ctim (b : StageBuf) (w : Option FillReq) (s : State) : (setStage b w s).ctim = s.ctim := rfl
@[simp] theorem setStage_table (b : StageBuf) (w : Option FillReq) (s : State) : (setStage b w s).table = s.table := rfl
@[simp] theorem setStage_select (b : StageBuf) (w : Option FillReq) (s : State) : (setStage b w s).select = s.select := rfl
@[simp] theorem setStage_walk (b : StageBuf) (w : Option FillReq) (s : State) : (setStage b w s).walk = s.walk := rfl
@[simp] theorem setStage_xeng (b : StageBuf) (w : Option FillReq) (s : State) : (setStage b w s).xeng = s.xeng := rfl
@[simp] theorem setStage_rx (b : StageBuf) (w : Option FillReq) (s : State) : (setStage b w s).rx = s.rx := rfl
@[simp] theorem setStage_wq (b : StageBuf) (w : Option FillReq) (s : State) : (setStage b w s).wq = s.wq := rfl
@[simp] theorem setStage_dau (b : StageBuf) (w : Option FillReq) (s : State) : (setStage b w s).dau = s.dau := rfl
@[simp] theorem setStage_aiu (b : StageBuf) (w : Option FillReq) (s : State) : (setStage b w s).aiu = s.aiu := rfl
@[simp] theorem setStage_elog (b : StageBuf) (w : Option FillReq) (s : State) : (setStage b w s).elog = s.elog := rfl
@[simp] theorem setStage_hport (b : StageBuf) (w : Option FillReq) (s : State) : (setStage b w s).hport = s.hport := rfl
@[simp] theorem setStage_freeDraws (b : StageBuf) (w : Option FillReq) (s : State) : (setStage b w s).freeDraws = s.freeDraws := rfl
@[simp] theorem setStage_pending (b : StageBuf) (w : Option FillReq) (s : State) : (setStage b w s).pending = s.pending := rfl

/-! ### emptyStaging -/

@[simp] theorem emptyStaging_seq (s : State) : (emptyStaging s).seq = s.seq := rfl
@[simp] theorem emptyStaging_segA (s : State) : (emptyStaging s).segA = s.segA := rfl
@[simp] theorem emptyStaging_segB (s : State) : (emptyStaging s).segB = s.segB := rfl
@[simp] theorem emptyStaging_ctim (s : State) : (emptyStaging s).ctim = s.ctim := rfl
@[simp] theorem emptyStaging_table (s : State) : (emptyStaging s).table = s.table := rfl
@[simp] theorem emptyStaging_select (s : State) : (emptyStaging s).select = s.select := rfl
@[simp] theorem emptyStaging_walk (s : State) : (emptyStaging s).walk = s.walk := rfl
@[simp] theorem emptyStaging_xeng (s : State) : (emptyStaging s).xeng = s.xeng := rfl
@[simp] theorem emptyStaging_rx (s : State) : (emptyStaging s).rx = s.rx := rfl
@[simp] theorem emptyStaging_wq (s : State) : (emptyStaging s).wq = s.wq := rfl
@[simp] theorem emptyStaging_dau (s : State) : (emptyStaging s).dau = s.dau := rfl
@[simp] theorem emptyStaging_aiu (s : State) : (emptyStaging s).aiu = s.aiu := rfl
@[simp] theorem emptyStaging_elog (s : State) : (emptyStaging s).elog = s.elog := rfl
@[simp] theorem emptyStaging_freeDraws (s : State) : (emptyStaging s).freeDraws = s.freeDraws := rfl
@[simp] theorem emptyStaging_pending (s : State) : (emptyStaging s).pending = s.pending := rfl

/-! ### discardQueue -/

@[simp] theorem discardQueue_segA (s : State) : (discardQueue s).segA = s.segA := rfl
@[simp] theorem discardQueue_segB (s : State) : (discardQueue s).segB = s.segB := rfl
@[simp] theorem discardQueue_ctim (s : State) : (discardQueue s).ctim = s.ctim := rfl
@[simp] theorem discardQueue_table (s : State) : (discardQueue s).table = s.table := rfl
@[simp] theorem discardQueue_select (s : State) : (discardQueue s).select = s.select := rfl
@[simp] theorem discardQueue_walk (s : State) : (discardQueue s).walk = s.walk := rfl
@[simp] theorem discardQueue_xeng (s : State) : (discardQueue s).xeng = s.xeng := rfl
@[simp] theorem discardQueue_stage (s : State) : (discardQueue s).stage = s.stage := rfl
@[simp] theorem discardQueue_dau (s : State) : (discardQueue s).dau = s.dau := rfl
@[simp] theorem discardQueue_aiu (s : State) : (discardQueue s).aiu = s.aiu := rfl
@[simp] theorem discardQueue_elog (s : State) : (discardQueue s).elog = s.elog := rfl
@[simp] theorem discardQueue_freeDraws (s : State) : (discardQueue s).freeDraws = s.freeDraws := rfl
@[simp] theorem discardQueue_pending (s : State) : (discardQueue s).pending = s.pending := rfl

/-! ### offerAttn -/

@[simp] theorem offerAttn_seq (c : Cause) (k : RingClass) (i : EntryIx) (h : Word) (s : State) : (offerAttn c k i h s).seq = s.seq := rfl
@[simp] theorem offerAttn_segA (c : Cause) (k : RingClass) (i : EntryIx) (h : Word) (s : State) : (offerAttn c k i h s).segA = s.segA := rfl
@[simp] theorem offerAttn_segB (c : Cause) (k : RingClass) (i : EntryIx) (h : Word) (s : State) : (offerAttn c k i h s).segB = s.segB := rfl
@[simp] theorem offerAttn_ctim (c : Cause) (k : RingClass) (i : EntryIx) (h : Word) (s : State) : (offerAttn c k i h s).ctim = s.ctim := rfl
@[simp] theorem offerAttn_table (c : Cause) (k : RingClass) (i : EntryIx) (h : Word) (s : State) : (offerAttn c k i h s).table = s.table := rfl
@[simp] theorem offerAttn_select (c : Cause) (k : RingClass) (i : EntryIx) (h : Word) (s : State) : (offerAttn c k i h s).select = s.select := rfl
@[simp] theorem offerAttn_walk (c : Cause) (k : RingClass) (i : EntryIx) (h : Word) (s : State) : (offerAttn c k i h s).walk = s.walk := rfl
@[simp] theorem offerAttn_xeng (c : Cause) (k : RingClass) (i : EntryIx) (h : Word) (s : State) : (offerAttn c k i h s).xeng = s.xeng := rfl
@[simp] theorem offerAttn_stage (c : Cause) (k : RingClass) (i : EntryIx) (h : Word) (s : State) : (offerAttn c k i h s).stage = s.stage := rfl
@[simp] theorem offerAttn_rx (c : Cause) (k : RingClass) (i : EntryIx) (h : Word) (s : State) : (offerAttn c k i h s).rx = s.rx := rfl
@[simp] theorem offerAttn_wq (c : Cause) (k : RingClass) (i : EntryIx) (h : Word) (s : State) : (offerAttn c k i h s).wq = s.wq := rfl
@[simp] theorem offerAttn_dau (c : Cause) (k : RingClass) (i : EntryIx) (h : Word) (s : State) : (offerAttn c k i h s).dau = s.dau := rfl
@[simp] theorem offerAttn_elog (c : Cause) (k : RingClass) (i : EntryIx) (h : Word) (s : State) : (offerAttn c k i h s).elog = s.elog := rfl
@[simp] theorem offerAttn_hport (c : Cause) (k : RingClass) (i : EntryIx) (h : Word) (s : State) : (offerAttn c k i h s).hport = s.hport := rfl
@[simp] theorem offerAttn_freeDraws (c : Cause) (k : RingClass) (i : EntryIx) (h : Word) (s : State) : (offerAttn c k i h s).freeDraws = s.freeDraws := rfl
@[simp] theorem offerAttn_pending (c : Cause) (k : RingClass) (i : EntryIx) (h : Word) (s : State) : (offerAttn c k i h s).pending = s.pending := rfl

/-! ### offerHost -/

@[simp] theorem offerHost_seq (c : BitVec 8) (k : BitVec 4) (a : Word) (s : State) : (offerHost c k a s).seq = s.seq := rfl
@[simp] theorem offerHost_segA (c : BitVec 8) (k : BitVec 4) (a : Word) (s : State) : (offerHost c k a s).segA = s.segA := rfl
@[simp] theorem offerHost_segB (c : BitVec 8) (k : BitVec 4) (a : Word) (s : State) : (offerHost c k a s).segB = s.segB := rfl
@[simp] theorem offerHost_ctim (c : BitVec 8) (k : BitVec 4) (a : Word) (s : State) : (offerHost c k a s).ctim = s.ctim := rfl
@[simp] theorem offerHost_table (c : BitVec 8) (k : BitVec 4) (a : Word) (s : State) : (offerHost c k a s).table = s.table := rfl
@[simp] theorem offerHost_select (c : BitVec 8) (k : BitVec 4) (a : Word) (s : State) : (offerHost c k a s).select = s.select := rfl
@[simp] theorem offerHost_walk (c : BitVec 8) (k : BitVec 4) (a : Word) (s : State) : (offerHost c k a s).walk = s.walk := rfl
@[simp] theorem offerHost_xeng (c : BitVec 8) (k : BitVec 4) (a : Word) (s : State) : (offerHost c k a s).xeng = s.xeng := rfl
@[simp] theorem offerHost_stage (c : BitVec 8) (k : BitVec 4) (a : Word) (s : State) : (offerHost c k a s).stage = s.stage := rfl
@[simp] theorem offerHost_rx (c : BitVec 8) (k : BitVec 4) (a : Word) (s : State) : (offerHost c k a s).rx = s.rx := rfl
@[simp] theorem offerHost_wq (c : BitVec 8) (k : BitVec 4) (a : Word) (s : State) : (offerHost c k a s).wq = s.wq := rfl
@[simp] theorem offerHost_dau (c : BitVec 8) (k : BitVec 4) (a : Word) (s : State) : (offerHost c k a s).dau = s.dau := rfl
@[simp] theorem offerHost_hport (c : BitVec 8) (k : BitVec 4) (a : Word) (s : State) : (offerHost c k a s).hport = s.hport := rfl
@[simp] theorem offerHost_freeDraws (c : BitVec 8) (k : BitVec 4) (a : Word) (s : State) : (offerHost c k a s).freeDraws = s.freeDraws := rfl
@[simp] theorem offerHost_pending (c : BitVec 8) (k : BitVec 4) (a : Word) (s : State) : (offerHost c k a s).pending = s.pending := rfl

/-! ### mapEntries -/

@[simp] theorem mapEntries_seq (f : Entry → Entry) (s : State) : (mapEntries f s).seq = s.seq := rfl
@[simp] theorem mapEntries_segA (f : Entry → Entry) (s : State) : (mapEntries f s).segA = s.segA := rfl
@[simp] theorem mapEntries_segB (f : Entry → Entry) (s : State) : (mapEntries f s).segB = s.segB := rfl
@[simp] theorem mapEntries_ctim (f : Entry → Entry) (s : State) : (mapEntries f s).ctim = s.ctim := rfl
@[simp] theorem mapEntries_select (f : Entry → Entry) (s : State) : (mapEntries f s).select = s.select := rfl
@[simp] theorem mapEntries_walk (f : Entry → Entry) (s : State) : (mapEntries f s).walk = s.walk := rfl
@[simp] theorem mapEntries_xeng (f : Entry → Entry) (s : State) : (mapEntries f s).xeng = s.xeng := rfl
@[simp] theorem mapEntries_stage (f : Entry → Entry) (s : State) : (mapEntries f s).stage = s.stage := rfl
@[simp] theorem mapEntries_rx (f : Entry → Entry) (s : State) : (mapEntries f s).rx = s.rx := rfl
@[simp] theorem mapEntries_wq (f : Entry → Entry) (s : State) : (mapEntries f s).wq = s.wq := rfl
@[simp] theorem mapEntries_dau (f : Entry → Entry) (s : State) : (mapEntries f s).dau = s.dau := rfl
@[simp] theorem mapEntries_aiu (f : Entry → Entry) (s : State) : (mapEntries f s).aiu = s.aiu := rfl
@[simp] theorem mapEntries_elog (f : Entry → Entry) (s : State) : (mapEntries f s).elog = s.elog := rfl
@[simp] theorem mapEntries_hport (f : Entry → Entry) (s : State) : (mapEntries f s).hport = s.hport := rfl
@[simp] theorem mapEntries_freeDraws (f : Entry → Entry) (s : State) : (mapEntries f s).freeDraws = s.freeDraws := rfl
@[simp] theorem mapEntries_pending (f : Entry → Entry) (s : State) : (mapEntries f s).pending = s.pending := rfl

/-! ### emptySlots -/

@[simp] theorem emptySlots_seq (s : State) : (emptySlots s).seq = s.seq := rfl
@[simp] theorem emptySlots_segA (s : State) : (emptySlots s).segA = s.segA := rfl
@[simp] theorem emptySlots_segB (s : State) : (emptySlots s).segB = s.segB := rfl
@[simp] theorem emptySlots_ctim (s : State) : (emptySlots s).ctim = s.ctim := rfl
@[simp] theorem emptySlots_table (s : State) : (emptySlots s).table = s.table := rfl
@[simp] theorem emptySlots_select (s : State) : (emptySlots s).select = s.select := rfl
@[simp] theorem emptySlots_xeng (s : State) : (emptySlots s).xeng = s.xeng := rfl
@[simp] theorem emptySlots_stage (s : State) : (emptySlots s).stage = s.stage := rfl
@[simp] theorem emptySlots_rx (s : State) : (emptySlots s).rx = s.rx := rfl
@[simp] theorem emptySlots_wq (s : State) : (emptySlots s).wq = s.wq := rfl
@[simp] theorem emptySlots_dau (s : State) : (emptySlots s).dau = s.dau := rfl
@[simp] theorem emptySlots_aiu (s : State) : (emptySlots s).aiu = s.aiu := rfl
@[simp] theorem emptySlots_elog (s : State) : (emptySlots s).elog = s.elog := rfl
@[simp] theorem emptySlots_hport (s : State) : (emptySlots s).hport = s.hport := rfl
@[simp] theorem emptySlots_freeDraws (s : State) : (emptySlots s).freeDraws = s.freeDraws := rfl
@[simp] theorem emptySlots_pending (s : State) : (emptySlots s).pending = s.pending := rfl

/-! ### emptyAttn -/

@[simp] theorem emptyAttn_seq (s : State) : (emptyAttn s).seq = s.seq := rfl
@[simp] theorem emptyAttn_segA (s : State) : (emptyAttn s).segA = s.segA := rfl
@[simp] theorem emptyAttn_segB (s : State) : (emptyAttn s).segB = s.segB := rfl
@[simp] theorem emptyAttn_ctim (s : State) : (emptyAttn s).ctim = s.ctim := rfl
@[simp] theorem emptyAttn_table (s : State) : (emptyAttn s).table = s.table := rfl
@[simp] theorem emptyAttn_select (s : State) : (emptyAttn s).select = s.select := rfl
@[simp] theorem emptyAttn_walk (s : State) : (emptyAttn s).walk = s.walk := rfl
@[simp] theorem emptyAttn_xeng (s : State) : (emptyAttn s).xeng = s.xeng := rfl
@[simp] theorem emptyAttn_stage (s : State) : (emptyAttn s).stage = s.stage := rfl
@[simp] theorem emptyAttn_rx (s : State) : (emptyAttn s).rx = s.rx := rfl
@[simp] theorem emptyAttn_wq (s : State) : (emptyAttn s).wq = s.wq := rfl
@[simp] theorem emptyAttn_dau (s : State) : (emptyAttn s).dau = s.dau := rfl
@[simp] theorem emptyAttn_elog (s : State) : (emptyAttn s).elog = s.elog := rfl
@[simp] theorem emptyAttn_hport (s : State) : (emptyAttn s).hport = s.hport := rfl
@[simp] theorem emptyAttn_freeDraws (s : State) : (emptyAttn s).freeDraws = s.freeDraws := rfl
@[simp] theorem emptyAttn_pending (s : State) : (emptyAttn s).pending = s.pending := rfl

/-! ### emptyLists -/

@[simp] theorem emptyLists_seq (s : State) : (emptyLists s).seq = s.seq := rfl
@[simp] theorem emptyLists_segA (s : State) : (emptyLists s).segA = s.segA := rfl
@[simp] theorem emptyLists_segB (s : State) : (emptyLists s).segB = s.segB := rfl
@[simp] theorem emptyLists_ctim (s : State) : (emptyLists s).ctim = s.ctim := rfl
@[simp] theorem emptyLists_table (s : State) : (emptyLists s).table = s.table := rfl
@[simp] theorem emptyLists_select (s : State) : (emptyLists s).select = s.select := rfl
@[simp] theorem emptyLists_walk (s : State) : (emptyLists s).walk = s.walk := rfl
@[simp] theorem emptyLists_xeng (s : State) : (emptyLists s).xeng = s.xeng := rfl
@[simp] theorem emptyLists_stage (s : State) : (emptyLists s).stage = s.stage := rfl
@[simp] theorem emptyLists_rx (s : State) : (emptyLists s).rx = s.rx := rfl
@[simp] theorem emptyLists_wq (s : State) : (emptyLists s).wq = s.wq := rfl
@[simp] theorem emptyLists_aiu (s : State) : (emptyLists s).aiu = s.aiu := rfl
@[simp] theorem emptyLists_elog (s : State) : (emptyLists s).elog = s.elog := rfl
@[simp] theorem emptyLists_hport (s : State) : (emptyLists s).hport = s.hport := rfl
@[simp] theorem emptyLists_freeDraws (s : State) : (emptyLists s).freeDraws = s.freeDraws := rfl
@[simp] theorem emptyLists_pending (s : State) : (emptyLists s).pending = s.pending := rfl

/-! ### finishCommand -/

@[simp] theorem finishCommand_segA (s : State) : (finishCommand s).segA = s.segA := rfl
@[simp] theorem finishCommand_segB (s : State) : (finishCommand s).segB = s.segB := rfl
@[simp] theorem finishCommand_ctim (s : State) : (finishCommand s).ctim = s.ctim := rfl
@[simp] theorem finishCommand_table (s : State) : (finishCommand s).table = s.table := rfl
@[simp] theorem finishCommand_select (s : State) : (finishCommand s).select = s.select := rfl
@[simp] theorem finishCommand_walk (s : State) : (finishCommand s).walk = s.walk := rfl
@[simp] theorem finishCommand_xeng (s : State) : (finishCommand s).xeng = s.xeng := rfl
@[simp] theorem finishCommand_stage (s : State) : (finishCommand s).stage = s.stage := rfl
@[simp] theorem finishCommand_rx (s : State) : (finishCommand s).rx = s.rx := rfl
@[simp] theorem finishCommand_wq (s : State) : (finishCommand s).wq = s.wq := rfl
@[simp] theorem finishCommand_dau (s : State) : (finishCommand s).dau = s.dau := rfl
@[simp] theorem finishCommand_aiu (s : State) : (finishCommand s).aiu = s.aiu := rfl
@[simp] theorem finishCommand_elog (s : State) : (finishCommand s).elog = s.elog := rfl
@[simp] theorem finishCommand_hport (s : State) : (finishCommand s).hport = s.hport := rfl
@[simp] theorem finishCommand_freeDraws (s : State) : (finishCommand s).freeDraws = s.freeDraws := rfl
@[simp] theorem finishCommand_pending (s : State) : (finishCommand s).pending = s.pending := rfl

/-! ### setEntry -/

@[simp] theorem setEntry_seq (i : EntryIx) (e : Entry) (s : State) : (setEntry i e s).seq = s.seq := by unfold setEntry; split <;> rfl
@[simp] theorem setEntry_segA (i : EntryIx) (e : Entry) (s : State) : (setEntry i e s).segA = s.segA := by unfold setEntry; split <;> rfl
@[simp] theorem setEntry_segB (i : EntryIx) (e : Entry) (s : State) : (setEntry i e s).segB = s.segB := by unfold setEntry; split <;> rfl
@[simp] theorem setEntry_ctim (i : EntryIx) (e : Entry) (s : State) : (setEntry i e s).ctim = s.ctim := by unfold setEntry; split <;> rfl
@[simp] theorem setEntry_select (i : EntryIx) (e : Entry) (s : State) : (setEntry i e s).select = s.select := by unfold setEntry; split <;> rfl
@[simp] theorem setEntry_walk (i : EntryIx) (e : Entry) (s : State) : (setEntry i e s).walk = s.walk := by unfold setEntry; split <;> rfl
@[simp] theorem setEntry_xeng (i : EntryIx) (e : Entry) (s : State) : (setEntry i e s).xeng = s.xeng := by unfold setEntry; split <;> rfl
@[simp] theorem setEntry_stage (i : EntryIx) (e : Entry) (s : State) : (setEntry i e s).stage = s.stage := by unfold setEntry; split <;> rfl
@[simp] theorem setEntry_rx (i : EntryIx) (e : Entry) (s : State) : (setEntry i e s).rx = s.rx := by unfold setEntry; split <;> rfl
@[simp] theorem setEntry_wq (i : EntryIx) (e : Entry) (s : State) : (setEntry i e s).wq = s.wq := by unfold setEntry; split <;> rfl
@[simp] theorem setEntry_dau (i : EntryIx) (e : Entry) (s : State) : (setEntry i e s).dau = s.dau := by unfold setEntry; split <;> rfl
@[simp] theorem setEntry_aiu (i : EntryIx) (e : Entry) (s : State) : (setEntry i e s).aiu = s.aiu := by unfold setEntry; split <;> rfl
@[simp] theorem setEntry_elog (i : EntryIx) (e : Entry) (s : State) : (setEntry i e s).elog = s.elog := by unfold setEntry; split <;> rfl
@[simp] theorem setEntry_hport (i : EntryIx) (e : Entry) (s : State) : (setEntry i e s).hport = s.hport := by unfold setEntry; split <;> rfl
@[simp] theorem setEntry_freeDraws (i : EntryIx) (e : Entry) (s : State) : (setEntry i e s).freeDraws = s.freeDraws := by unfold setEntry; split <;> rfl
@[simp] theorem setEntry_pending (i : EntryIx) (e : Entry) (s : State) : (setEntry i e s).pending = s.pending := by unfold setEntry; split <;> rfl

/-! ### setSlot -/

@[simp] theorem setSlot_seq (i : EntryIx) (v : Option Slot) (s : State) : (setSlot i v s).seq = s.seq := by unfold setSlot; split <;> rfl
@[simp] theorem setSlot_segA (i : EntryIx) (v : Option Slot) (s : State) : (setSlot i v s).segA = s.segA := by unfold setSlot; split <;> rfl
@[simp] theorem setSlot_segB (i : EntryIx) (v : Option Slot) (s : State) : (setSlot i v s).segB = s.segB := by unfold setSlot; split <;> rfl
@[simp] theorem setSlot_ctim (i : EntryIx) (v : Option Slot) (s : State) : (setSlot i v s).ctim = s.ctim := by unfold setSlot; split <;> rfl
@[simp] theorem setSlot_table (i : EntryIx) (v : Option Slot) (s : State) : (setSlot i v s).table = s.table := by unfold setSlot; split <;> rfl
@[simp] theorem setSlot_select (i : EntryIx) (v : Option Slot) (s : State) : (setSlot i v s).select = s.select := by unfold setSlot; split <;> rfl
@[simp] theorem setSlot_xeng (i : EntryIx) (v : Option Slot) (s : State) : (setSlot i v s).xeng = s.xeng := by unfold setSlot; split <;> rfl
@[simp] theorem setSlot_stage (i : EntryIx) (v : Option Slot) (s : State) : (setSlot i v s).stage = s.stage := by unfold setSlot; split <;> rfl
@[simp] theorem setSlot_rx (i : EntryIx) (v : Option Slot) (s : State) : (setSlot i v s).rx = s.rx := by unfold setSlot; split <;> rfl
@[simp] theorem setSlot_wq (i : EntryIx) (v : Option Slot) (s : State) : (setSlot i v s).wq = s.wq := by unfold setSlot; split <;> rfl
@[simp] theorem setSlot_dau (i : EntryIx) (v : Option Slot) (s : State) : (setSlot i v s).dau = s.dau := by unfold setSlot; split <;> rfl
@[simp] theorem setSlot_aiu (i : EntryIx) (v : Option Slot) (s : State) : (setSlot i v s).aiu = s.aiu := by unfold setSlot; split <;> rfl
@[simp] theorem setSlot_elog (i : EntryIx) (v : Option Slot) (s : State) : (setSlot i v s).elog = s.elog := by unfold setSlot; split <;> rfl
@[simp] theorem setSlot_hport (i : EntryIx) (v : Option Slot) (s : State) : (setSlot i v s).hport = s.hport := by unfold setSlot; split <;> rfl
@[simp] theorem setSlot_freeDraws (i : EntryIx) (v : Option Slot) (s : State) : (setSlot i v s).freeDraws = s.freeDraws := by unfold setSlot; split <;> rfl
@[simp] theorem setSlot_pending (i : EntryIx) (v : Option Slot) (s : State) : (setSlot i v s).pending = s.pending := by unfold setSlot; split <;> rfl

/-! ### setRot -/

@[simp] theorem setRot_seq (c : RingClass) (r : Rotation) (s : State) : (setRot c r s).seq = s.seq := by cases c <;> rfl
@[simp] theorem setRot_segA (c : RingClass) (r : Rotation) (s : State) : (setRot c r s).segA = s.segA := by cases c <;> rfl
@[simp] theorem setRot_segB (c : RingClass) (r : Rotation) (s : State) : (setRot c r s).segB = s.segB := by cases c <;> rfl
@[simp] theorem setRot_ctim (c : RingClass) (r : Rotation) (s : State) : (setRot c r s).ctim = s.ctim := by cases c <;> rfl
@[simp] theorem setRot_table (c : RingClass) (r : Rotation) (s : State) : (setRot c r s).table = s.table := by cases c <;> rfl
@[simp] theorem setRot_select (c : RingClass) (r : Rotation) (s : State) : (setRot c r s).select = s.select := by cases c <;> rfl
@[simp] theorem setRot_xeng (c : RingClass) (r : Rotation) (s : State) : (setRot c r s).xeng = s.xeng := by cases c <;> rfl
@[simp] theorem setRot_stage (c : RingClass) (r : Rotation) (s : State) : (setRot c r s).stage = s.stage := by cases c <;> rfl
@[simp] theorem setRot_rx (c : RingClass) (r : Rotation) (s : State) : (setRot c r s).rx = s.rx := by cases c <;> rfl
@[simp] theorem setRot_wq (c : RingClass) (r : Rotation) (s : State) : (setRot c r s).wq = s.wq := by cases c <;> rfl
@[simp] theorem setRot_dau (c : RingClass) (r : Rotation) (s : State) : (setRot c r s).dau = s.dau := by cases c <;> rfl
@[simp] theorem setRot_aiu (c : RingClass) (r : Rotation) (s : State) : (setRot c r s).aiu = s.aiu := by cases c <;> rfl
@[simp] theorem setRot_elog (c : RingClass) (r : Rotation) (s : State) : (setRot c r s).elog = s.elog := by cases c <;> rfl
@[simp] theorem setRot_hport (c : RingClass) (r : Rotation) (s : State) : (setRot c r s).hport = s.hport := by cases c <;> rfl
@[simp] theorem setRot_freeDraws (c : RingClass) (r : Rotation) (s : State) : (setRot c r s).freeDraws = s.freeDraws := by cases c <;> rfl
@[simp] theorem setRot_pending (c : RingClass) (r : Rotation) (s : State) : (setRot c r s).pending = s.pending := by cases c <;> rfl

/-! ### setSeg -/

@[simp] theorem setSeg_seq (g : Seg) (v : Segment) (s : State) : (setSeg g v s).seq = s.seq := by cases g <;> rfl
@[simp] theorem setSeg_ctim (g : Seg) (v : Segment) (s : State) : (setSeg g v s).ctim = s.ctim := by cases g <;> rfl
@[simp] theorem setSeg_table (g : Seg) (v : Segment) (s : State) : (setSeg g v s).table = s.table := by cases g <;> rfl
@[simp] theorem setSeg_select (g : Seg) (v : Segment) (s : State) : (setSeg g v s).select = s.select := by cases g <;> rfl
@[simp] theorem setSeg_walk (g : Seg) (v : Segment) (s : State) : (setSeg g v s).walk = s.walk := by cases g <;> rfl
@[simp] theorem setSeg_xeng (g : Seg) (v : Segment) (s : State) : (setSeg g v s).xeng = s.xeng := by cases g <;> rfl
@[simp] theorem setSeg_stage (g : Seg) (v : Segment) (s : State) : (setSeg g v s).stage = s.stage := by cases g <;> rfl
@[simp] theorem setSeg_rx (g : Seg) (v : Segment) (s : State) : (setSeg g v s).rx = s.rx := by cases g <;> rfl
@[simp] theorem setSeg_wq (g : Seg) (v : Segment) (s : State) : (setSeg g v s).wq = s.wq := by cases g <;> rfl
@[simp] theorem setSeg_dau (g : Seg) (v : Segment) (s : State) : (setSeg g v s).dau = s.dau := by cases g <;> rfl
@[simp] theorem setSeg_aiu (g : Seg) (v : Segment) (s : State) : (setSeg g v s).aiu = s.aiu := by cases g <;> rfl
@[simp] theorem setSeg_elog (g : Seg) (v : Segment) (s : State) : (setSeg g v s).elog = s.elog := by cases g <;> rfl
@[simp] theorem setSeg_hport (g : Seg) (v : Segment) (s : State) : (setSeg g v s).hport = s.hport := by cases g <;> rfl
@[simp] theorem setSeg_freeDraws (g : Seg) (v : Segment) (s : State) : (setSeg g v s).freeDraws = s.freeDraws := by cases g <;> rfl
@[simp] theorem setSeg_pending (g : Seg) (v : Segment) (s : State) : (setSeg g v s).pending = s.pending := by cases g <;> rfl

/-! ### enqueue -/

@[simp] theorem enqueue_seq (i : WqItem) (s : State) : (enqueue i s).seq = s.seq := by unfold enqueue; split <;> rfl
@[simp] theorem enqueue_segA (i : WqItem) (s : State) : (enqueue i s).segA = s.segA := by unfold enqueue; split <;> rfl
@[simp] theorem enqueue_segB (i : WqItem) (s : State) : (enqueue i s).segB = s.segB := by unfold enqueue; split <;> rfl
@[simp] theorem enqueue_ctim (i : WqItem) (s : State) : (enqueue i s).ctim = s.ctim := by unfold enqueue; split <;> rfl
@[simp] theorem enqueue_table (i : WqItem) (s : State) : (enqueue i s).table = s.table := by unfold enqueue; split <;> rfl
@[simp] theorem enqueue_select (i : WqItem) (s : State) : (enqueue i s).select = s.select := by unfold enqueue; split <;> rfl
@[simp] theorem enqueue_walk (i : WqItem) (s : State) : (enqueue i s).walk = s.walk := by unfold enqueue; split <;> rfl
@[simp] theorem enqueue_xeng (i : WqItem) (s : State) : (enqueue i s).xeng = s.xeng := by unfold enqueue; split <;> rfl
@[simp] theorem enqueue_stage (i : WqItem) (s : State) : (enqueue i s).stage = s.stage := by unfold enqueue; split <;> rfl
@[simp] theorem enqueue_rx (i : WqItem) (s : State) : (enqueue i s).rx = s.rx := by unfold enqueue; split <;> rfl
@[simp] theorem enqueue_dau (i : WqItem) (s : State) : (enqueue i s).dau = s.dau := by unfold enqueue; split <;> rfl
@[simp] theorem enqueue_aiu (i : WqItem) (s : State) : (enqueue i s).aiu = s.aiu := by unfold enqueue; split <;> rfl
@[simp] theorem enqueue_elog (i : WqItem) (s : State) : (enqueue i s).elog = s.elog := by unfold enqueue; split <;> rfl
@[simp] theorem enqueue_hport (i : WqItem) (s : State) : (enqueue i s).hport = s.hport := by unfold enqueue; split <;> rfl
@[simp] theorem enqueue_freeDraws (i : WqItem) (s : State) : (enqueue i s).freeDraws = s.freeDraws := by unfold enqueue; split <;> rfl
@[simp] theorem enqueue_pending (i : WqItem) (s : State) : (enqueue i s).pending = s.pending := by unfold enqueue; split <;> rfl

/-! ### passAfter -/

@[simp] theorem passAfter_seq (h l : Word) (s : State) : (passAfter h l s).seq = s.seq := rfl
@[simp] theorem passAfter_segA (h l : Word) (s : State) : (passAfter h l s).segA = s.segA := rfl
@[simp] theorem passAfter_segB (h l : Word) (s : State) : (passAfter h l s).segB = s.segB := rfl
@[simp] theorem passAfter_ctim (h l : Word) (s : State) : (passAfter h l s).ctim = s.ctim := rfl
@[simp] theorem passAfter_table (h l : Word) (s : State) : (passAfter h l s).table = s.table := rfl
@[simp] theorem passAfter_select (h l : Word) (s : State) : (passAfter h l s).select = s.select := rfl
@[simp] theorem passAfter_xeng (h l : Word) (s : State) : (passAfter h l s).xeng = s.xeng := rfl
@[simp] theorem passAfter_stage (h l : Word) (s : State) : (passAfter h l s).stage = s.stage := rfl
@[simp] theorem passAfter_rx (h l : Word) (s : State) : (passAfter h l s).rx = s.rx := rfl
@[simp] theorem passAfter_wq (h l : Word) (s : State) : (passAfter h l s).wq = s.wq := rfl
@[simp] theorem passAfter_dau (h l : Word) (s : State) : (passAfter h l s).dau = s.dau := rfl
@[simp] theorem passAfter_aiu (h l : Word) (s : State) : (passAfter h l s).aiu = s.aiu := rfl
@[simp] theorem passAfter_elog (h l : Word) (s : State) : (passAfter h l s).elog = s.elog := rfl
@[simp] theorem passAfter_hport (h l : Word) (s : State) : (passAfter h l s).hport = s.hport := rfl
@[simp] theorem passAfter_freeDraws (h l : Word) (s : State) : (passAfter h l s).freeDraws = s.freeDraws := rfl
@[simp] theorem passAfter_pending (h l : Word) (s : State) : (passAfter h l s).pending = s.pending := rfl

/-! ### leaveOutstanding -/

@[simp] theorem leaveOutstanding_seq (s : State) : (leaveOutstanding s).seq = s.seq := rfl
@[simp] theorem leaveOutstanding_segA (s : State) : (leaveOutstanding s).segA = s.segA := rfl
@[simp] theorem leaveOutstanding_segB (s : State) : (leaveOutstanding s).segB = s.segB := rfl
@[simp] theorem leaveOutstanding_ctim (s : State) : (leaveOutstanding s).ctim = s.ctim := rfl
@[simp] theorem leaveOutstanding_table (s : State) : (leaveOutstanding s).table = s.table := rfl
@[simp] theorem leaveOutstanding_select (s : State) : (leaveOutstanding s).select = s.select := rfl
@[simp] theorem leaveOutstanding_walk (s : State) : (leaveOutstanding s).walk = s.walk := rfl
@[simp] theorem leaveOutstanding_xeng (s : State) : (leaveOutstanding s).xeng = s.xeng := rfl
@[simp] theorem leaveOutstanding_stage (s : State) : (leaveOutstanding s).stage = s.stage := rfl
@[simp] theorem leaveOutstanding_rx (s : State) : (leaveOutstanding s).rx = s.rx := rfl
@[simp] theorem leaveOutstanding_wq (s : State) : (leaveOutstanding s).wq = s.wq := rfl
@[simp] theorem leaveOutstanding_dau (s : State) : (leaveOutstanding s).dau = s.dau := rfl
@[simp] theorem leaveOutstanding_aiu (s : State) : (leaveOutstanding s).aiu = s.aiu := rfl
@[simp] theorem leaveOutstanding_elog (s : State) : (leaveOutstanding s).elog = s.elog := rfl
@[simp] theorem leaveOutstanding_freeDraws (s : State) : (leaveOutstanding s).freeDraws = s.freeDraws := rfl
@[simp] theorem leaveOutstanding_pending (s : State) : (leaveOutstanding s).pending = s.pending := rfl

/-! ### markLate -/

@[simp] theorem markLate_seq (tag : StageTag) (s : State) : (markLate tag s).seq = s.seq := rfl
@[simp] theorem markLate_segA (tag : StageTag) (s : State) : (markLate tag s).segA = s.segA := rfl
@[simp] theorem markLate_segB (tag : StageTag) (s : State) : (markLate tag s).segB = s.segB := rfl
@[simp] theorem markLate_ctim (tag : StageTag) (s : State) : (markLate tag s).ctim = s.ctim := rfl
@[simp] theorem markLate_table (tag : StageTag) (s : State) : (markLate tag s).table = s.table := rfl
@[simp] theorem markLate_select (tag : StageTag) (s : State) : (markLate tag s).select = s.select := rfl
@[simp] theorem markLate_walk (tag : StageTag) (s : State) : (markLate tag s).walk = s.walk := rfl
@[simp] theorem markLate_xeng (tag : StageTag) (s : State) : (markLate tag s).xeng = s.xeng := rfl
@[simp] theorem markLate_rx (tag : StageTag) (s : State) : (markLate tag s).rx = s.rx := rfl
@[simp] theorem markLate_wq (tag : StageTag) (s : State) : (markLate tag s).wq = s.wq := rfl
@[simp] theorem markLate_dau (tag : StageTag) (s : State) : (markLate tag s).dau = s.dau := rfl
@[simp] theorem markLate_aiu (tag : StageTag) (s : State) : (markLate tag s).aiu = s.aiu := rfl
@[simp] theorem markLate_elog (tag : StageTag) (s : State) : (markLate tag s).elog = s.elog := rfl
@[simp] theorem markLate_hport (tag : StageTag) (s : State) : (markLate tag s).hport = s.hport := rfl
@[simp] theorem markLate_freeDraws (tag : StageTag) (s : State) : (markLate tag s).freeDraws = s.freeDraws := rfl
@[simp] theorem markLate_pending (tag : StageTag) (s : State) : (markLate tag s).pending = s.pending := rfl

/-! ### What the updates write -/

@[simp] theorem setEdge_edges (i : Nat) (s : State) : (setEdge i s).aiu.edges = s.aiu.edges ||| (1#11 <<< i) := rfl
@[simp] theorem setEdge_queue (i : Nat) (s : State) : (setEdge i s).aiu.queue = s.aiu.queue := rfl
@[simp] theorem setEdge_lost (i : Nat) (s : State) : (setEdge i s).aiu.lost = s.aiu.lost := rfl
@[simp] theorem setEdge_overflow (i : Nat) (s : State) : (setEdge i s).aiu.overflow = s.aiu.overflow := rfl
@[simp] theorem setEdge_mask (i : Nat) (s : State) : (setEdge i s).aiu.mask = s.aiu.mask := rfl
@[simp] theorem wakeWalker_waiting (s : State) : (wakeWalker s).walk.waiting = false := rfl
@[simp] theorem wakeWalker_hand (s : State) : (wakeWalker s).walk.hand = s.walk.hand := rfl
@[simp] theorem setHand_hand (h : Hand) (s : State) : (setHand h s).walk.hand = h := rfl
@[simp] theorem setLook_look (l : Look) (s : State) : (setLook l s).walk.look = l := rfl
@[simp] theorem setLook_hand (l : Look) (s : State) : (setLook l s).walk.hand = s.walk.hand := rfl
@[simp] theorem getSeg_setSeg_same (g : Seg) (v : Segment) (s : State) : getSeg (setSeg g v s) g = v := by
  cases g <;> rfl
theorem getSeg_setSeg_of_ne {g h : Seg} (v : Segment) (s : State) (ne : h ≠ g) :
    getSeg (setSeg g v s) h = getSeg s h := by
  cases g <;> cases h <;> first | rfl | exact absurd rfl ne
@[simp] theorem getSeg_setSeg_other (g : Seg) (v : Segment) (s : State) :
    getSeg (setSeg g v s) (otherSeg g) = getSeg s (otherSeg g) := by
  cases g <;> rfl
@[simp] theorem leaveOutstanding_reads (s : State) :
    (leaveOutstanding s).hport.reads = s.hport.reads.map (fun r => { r with left := true }) := rfl
@[simp] theorem leaveOutstanding_write (s : State) :
    (leaveOutstanding s).hport.write = s.hport.write.map (fun w => { w with left := true }) := rfl
@[simp] theorem markLate_buf (tag : StageTag) (s : State) : (markLate tag s).stage.buf = s.stage.buf := rfl
@[simp] theorem emptyStaging_stage (s : State) : (emptyStaging s).stage = { buf := .empty, waiting := none } := rfl
@[simp] theorem reserve_reserved (n : Nat) (s : State) : (reserve n s).wq.reserved = s.wq.reserved + n := rfl
@[simp] theorem reserve_items (n : Nat) (s : State) : (reserve n s).wq.items = s.wq.items := rfl
@[simp] theorem releaseSlots_reserved (s : State) : (releaseSlots s).wq.reserved = 0 := rfl
@[simp] theorem releaseSlots_items (s : State) : (releaseSlots s).wq.items = s.wq.items := rfl
@[simp] theorem setDrain_items (d : Drain) (s : State) : (setDrain d s).wq.items = s.wq.items := rfl
@[simp] theorem setDrain_reserved (d : Drain) (s : State) : (setDrain d s).wq.reserved = s.wq.reserved := rfl
@[simp] theorem beginItem_items (s : State) : (beginItem s).wq.items = s.wq.items := rfl
@[simp] theorem beginItem_reserved (s : State) : (beginItem s).wq.reserved = s.wq.reserved := rfl
@[simp] theorem issueWrite_items (k : BitVec 4) (a : Word) (b : List Byte) (s : State) :
    (issueWrite k a b s).wq.items = s.wq.items := rfl
@[simp] theorem issueWrite_reserved (k : BitVec 4) (a : Word) (b : List Byte) (s : State) :
    (issueWrite k a b s).wq.reserved = s.wq.reserved := rfl
@[simp] theorem popItem_items (s : State) : (popItem s).wq.items = s.wq.items.tail := rfl
@[simp] theorem popItem_reserved (s : State) : (popItem s).wq.reserved = s.wq.reserved := rfl

/-- An entry reads back what was written to it, but for the null entry (R64). -/
theorem getEntry_setEntry_same {i : EntryIx} (e : Entry) (s : State) (ne : i ≠ 0) :
    getEntry (setEntry i e s) i = e := by
  have h : (i == 0) = false := by simpa using ne
  unfold setEntry getEntry
  simp only [h, Bool.false_eq_true, if_false]
  exact Vector.getElem_set_self _

/-- A write of one entry leaves every other as it was. -/
theorem getEntry_setEntry_of_ne {i j : EntryIx} (e : Entry) (s : State) (ne : j ≠ i) :
    getEntry (setEntry i e s) j = getEntry s j := by
  have h : i.toNat ≠ j.toNat := fun h => ne (BitVec.eq_of_toNat_eq h.symm)
  unfold setEntry getEntry
  split
  · rfl
  · exact Vector.getElem_set_ne i.isLt j.isLt h

/-- A write of the null entry changes nothing (R64). -/
@[simp] theorem setEntry_zero (e : Entry) (s : State) : setEntry 0 e s = s := by simp [setEntry]

/-- An entry after a change of every entry 1 to 63. -/
theorem getEntry_mapEntries (f : Entry → Entry) (s : State) (i : EntryIx) :
    getEntry (mapEntries f s) i = if i = 0 then getEntry s i else f (getEntry s i) := by
  have h : i.toNat = 0 ↔ i = 0 := ⟨fun h => BitVec.eq_of_toNat_eq h, fun h => by rw [h]; rfl⟩
  simp only [mapEntries, getEntry, Vector.getElem_mapFinIdx, beq_iff_eq, h]

end Sys2Proof.Machine
end

