-- ==== Sys2Proof/Laws/Frames.lean ====
section
/-! SUPPORT. The frame of every shared operation: one lemma each, naming the blocks it may change. -/

namespace Sys2Proof.Machine

/-! ### Composing frames -/

theorem OnlyChanges.refl (bs : List Block) (s : State) : OnlyChanges bs s s := by
  intro b _; cases b <;> rfl

theorem OnlyChanges.trans {bs : List Block} {s t u : State} (h : OnlyChanges bs s t) (k : OnlyChanges bs t u) :
    OnlyChanges bs s u := by
  intro b hb
  have h1 := h b hb
  have h2 := k b hb
  cases b <;> exact Eq.trans h2 h1

theorem OnlyChanges.mono {bs cs : List Block} {s t : State} (h : OnlyChanges bs s t) (sub : ∀ b ∈ bs, b ∈ cs) :
    OnlyChanges cs s t := fun b hb => h b (fun hm => hb (sub b hm))

/-- Two frames one after the other. -/
theorem OnlyChanges.then {bs cs ds : List Block} {s t u : State} (h : OnlyChanges bs s t) (k : OnlyChanges cs t u)
    (sub1 : ∀ b ∈ bs, b ∈ ds) (sub2 : ∀ b ∈ cs, b ∈ ds) : OnlyChanges ds s u := (h.mono sub1).trans (k.mono sub2)

theorem segBlock_sub (g : Seg) {bs : List Block} (ha : Block.segA ∈ bs) (hb : Block.segB ∈ bs) :
    ∀ b ∈ [segBlock g], b ∈ bs := by
  intro b hm
  cases g <;> simp [segBlock] at hm <;> subst hm <;> assumption

/-! ### Elementary updates -/

theorem setEdge_only (i : Nat) (s : State) : OnlyChanges [.aiu] s (setEdge i s) := by
  intro b hb; cases b <;> first | rfl | exact absurd (by decide) hb

theorem wakeWalker_only (s : State) : OnlyChanges [.walk] s (wakeWalker s) := by
  intro b hb; cases b <;> first | rfl | exact absurd (by decide) hb

theorem walkerWaits_only (s : State) : OnlyChanges [.walk] s (walkerWaits s) := by
  intro b hb; cases b <;> first | rfl | exact absurd (by decide) hb

theorem beginDecision_only (s : State) : OnlyChanges [.walk] s (beginDecision s) := by
  intro b hb; cases b <;> first | rfl | exact absurd (by decide) hb

theorem closeTurn_only (s : State) : OnlyChanges [.walk] s (closeTurn s) := by
  intro b hb; cases b <;> first | rfl | exact absurd (by decide) hb

theorem joinReads_only (n : Nat) (s : State) : OnlyChanges [.hport] s (joinReads n s) := by
  intro b hb; cases b <;> first | rfl | exact absurd (by decide) hb

theorem setHand_only (h : Hand) (s : State) : OnlyChanges [.walk] s (setHand h s) := by
  intro b hb; cases b <;> first | rfl | exact absurd (by decide) hb

theorem setLook_only (l : Look) (s : State) : OnlyChanges [.walk] s (setLook l s) := by
  intro b hb; cases b <;> first | rfl | exact absurd (by decide) hb

theorem setRot_only (c : RingClass) (r : Rotation) (s : State) : OnlyChanges [.walk] s (setRot c r s) := by
  intro b hb; cases c <;> cases b <;> first | rfl | exact absurd (by decide) hb

theorem setSlot_only (i : EntryIx) (v : Option Slot) (s : State) : OnlyChanges [.walk] s (setSlot i v s) := by
  intro b hb; unfold setSlot; split <;> cases b <;> first | rfl | exact absurd (by decide) hb

theorem passAfter_only (h l : Word) (s : State) : OnlyChanges [.walk] s (passAfter h l s) := by
  intro b hb; cases b <;> first | rfl | exact absurd (by decide) hb

theorem latchAnchor_only (c : RingClass) (s : State) : OnlyChanges [.walk] s (latchAnchor c s) := by
  intro b hb; cases c <;> cases b <;> first | rfl | exact absurd (by decide) hb

theorem latchAll_only (s : State) : OnlyChanges [.walk] s (latchAll s) :=
  (((latchAnchor_only .service s).trans (latchAnchor_only .bulk _)).trans (latchAnchor_only .timed _)).trans
    (latchAnchor_only .stream _)

theorem latchWritten_only (s : State) : OnlyChanges [.walk] s (latchWritten s) := by
  have one (c : RingClass) (t : State) :
      OnlyChanges [.walk] t (if t.walk.anchorWritten.get (classIx c) then latchAnchor c t else t) := by
    split
    · exact latchAnchor_only c t
    · exact .refl _ t
  exact (((one .service s).trans (one .bulk _)).trans (one .timed _)).trans (one .stream _)

theorem setEntry_only (i : EntryIx) (e : Entry) (s : State) : OnlyChanges [.table] s (setEntry i e s) := by
  intro b hb; unfold setEntry; split <;> cases b <;> first | rfl | exact absurd (by decide) hb

theorem mapEntries_only (f : Entry → Entry) (s : State) : OnlyChanges [.table] s (mapEntries f s) := by
  intro b hb; cases b <;> first | rfl | exact absurd (by decide) hb

theorem requestRead_only (k : BitVec 4) (a : Word) (n : Nat) (r : Reader) (s : State) :
    OnlyChanges [.hport] s (requestRead k a n r s) := by
  intro b hb; cases b <;> first | rfl | exact absurd (by decide) hb

theorem cancelReads_only (p : Reader → Bool) (s : State) : OnlyChanges [.hport] s (cancelReads p s) := by
  intro b hb; cases b <;> first | rfl | exact absurd (by decide) hb

theorem orphanWrite_only (s : State) : OnlyChanges [.hport] s (orphanWrite s) := by
  intro b hb; cases b <;> first | rfl | exact absurd (by decide) hb

theorem popRead_only (s : State) : OnlyChanges [.hport] s (popRead s) := by
  intro b hb; cases b <;> first | rfl | exact absurd (by decide) hb

theorem reserve_only (n : Nat) (s : State) : OnlyChanges [.wq] s (reserve n s) := by
  intro b hb; cases b <;> first | rfl | exact absurd (by decide) hb

theorem releaseSlots_only (s : State) : OnlyChanges [.wq] s (releaseSlots s) := by
  intro b hb; cases b <;> first | rfl | exact absurd (by decide) hb

theorem enqueue_only (i : WqItem) (s : State) : OnlyChanges [.wq] s (enqueue i s) := by
  intro b hb; unfold enqueue; split <;> cases b <;> first | rfl | exact absurd (by decide) hb

theorem setDrain_only (d : Drain) (s : State) : OnlyChanges [.wq] s (setDrain d s) := by
  intro b hb; cases b <;> first | rfl | exact absurd (by decide) hb

theorem popItem_only (s : State) : OnlyChanges [.wq] s (popItem s) := by
  intro b hb; cases b <;> first | rfl | exact absurd (by decide) hb

theorem issueWrite_only (k : BitVec 4) (a : Word) (l : List Byte) (s : State) :
    OnlyChanges [.wq, .hport] s (issueWrite k a l s) := by
  intro b hb; cases b <;> first | rfl | exact absurd (by decide) hb

theorem setSeg_only (g : Seg) (v : Segment) (s : State) : OnlyChanges [segBlock g] s (setSeg g v s) := by
  intro b hb; cases g <;> cases b <;> first | rfl | exact absurd (by decide) hb

theorem stopDriving_only (g : Seg) (s : State) : OnlyChanges [segBlock g] s (stopDriving g s) := setSeg_only g _ s

theorem setStage_only (b : StageBuf) (w : Option FillReq) (s : State) : OnlyChanges [.stage] s (setStage b w s) := by
  intro b hb; cases b <;> first | rfl | exact absurd (by decide) hb

theorem emptyStaging_only (s : State) : OnlyChanges [.stage, .hport] s (emptyStaging s) := by
  intro b hb; cases b <;> first | rfl | exact absurd (by decide) hb

theorem discardQueue_only (s : State) : OnlyChanges [.seq, .wq, .rx, .hport] s (discardQueue s) := by
  intro b hb; cases b <;> first | rfl | exact absurd (by decide) hb

theorem emptyLists_only (s : State) : OnlyChanges [.dau] s (emptyLists s) := by
  intro b hb; cases b <;> first | rfl | exact absurd (by decide) hb

theorem finishCommand_only (s : State) : OnlyChanges [.seq] s (finishCommand s) := by
  intro b hb; cases b <;> first | rfl | exact absurd (by decide) hb

/-! ### Reports and logs -/

theorem offerAttn_only (c : Cause) (k : RingClass) (i : EntryIx) (h : Word) (s : State) :
    OnlyChanges [.aiu] s (offerAttn c k i h s) := by
  intro b hb; cases b <;> first | rfl | exact absurd (by decide) hb

theorem offerHost_only (c : BitVec 8) (k : BitVec 4) (a : Word) (s : State) :
    OnlyChanges [.aiu, .elog] s (offerHost c k a s) := by
  intro b hb; cases b <;> first | rfl | exact absurd (by decide) hb

theorem quarantine_only (g : Seg) (s : State) : OnlyChanges [segBlock g, .walk] s (quarantine g s) := by
  unfold quarantine
  split
  · exact .refl _ s
  · exact (setSeg_only g _ s).then (wakeWalker_only _) (by simp) (by simp)

theorem offerBus_none_only (c : BitVec 8) (i : EntryIx) (s : State) :
    OnlyChanges [.aiu, .elog] s (offerBus c none i s) := by
  intro b hb; cases b <;> first | rfl | exact absurd (by decide) hb

theorem offerBus_only (c : BitVec 8) (g : Seg) (i : EntryIx) (s : State) :
    OnlyChanges [.aiu, .elog, segBlock g, .walk] s (offerBus c (some g) i s) := by
  have h1 : OnlyChanges [.aiu, .elog] s (offerBus c none i s) := offerBus_none_only c i s
  have h : OnlyChanges [.aiu, .elog] s
      (setEdge irqErrlog { s with elog := busAfterOffer s.elog c ((Option.map segDetail (some g)).getD 0) i (cycleLow12 s) }) := by
    intro b hb; cases b <;> first | rfl | exact absurd (by decide) hb
  unfold offerBus
  dsimp only
  split
  · exact h.then (quarantine_only g _) (by simp) (by simp)
  · exact h.mono (by simp)

/-! ### Turns and controller states -/

theorem endTurn_only (t : Turn) (stop : Option Cause) (s : State) : OnlyChanges [.wq, .walk] s (endTurn t stop s) := by
  unfold endTurn
  dsimp only
  generalize hu : (if ((if t.made = 0 then none else t.last).isSome || t.skipping.isSome || stop.isSome) = true then
      enqueue (.status t.addr (headStatusWord t.head.w3 (if t.made = 0 then none else t.last) t.skipping stop) t.cls
        (headEntry t.head) ((if t.made = 0 then none else t.last).isSome && headNotifyVisit t.head) stop t.head.w0) s
      else s) = u
  have h0 : OnlyChanges [.wq] s u := by
    subst hu
    split <;> split <;> first | exact enqueue_only _ s | exact .refl _ s
  have h1 : OnlyChanges [.wq, .walk] s (wakeWalker (setHand .nothing (releaseSlots u))) :=
    ((h0.trans (releaseSlots_only u)).then (setHand_only .nothing _) (by simp) (by simp)).trans
      ((wakeWalker_only _).mono (by simp))
  split
  · exact h1.trans ((passAfter_only _ _ _).mono (by simp))
  · exact h1

theorem abandonDecision_only (s : State) : OnlyChanges [.wq, .walk, .hport] s (abandonDecision s) := by
  have h : OnlyChanges [.wq, .walk, .hport] s (cancelReads decisionReader (setLook .nothing s)) :=
    (setLook_only _ s).then (cancelReads_only _ _) (by simp) (by simp)
  have e (t : Turn) (u : State) : OnlyChanges [.wq, .walk, .hport] u (endTurn t none u) :=
    (endTurn_only t none u).mono (by simp)
  have n (u : State) : OnlyChanges [.wq, .walk, .hport] u (setHand .nothing (releaseSlots u)) :=
    (releaseSlots_only u).then (setHand_only _ _) (by simp) (by simp)
  unfold abandonDecision
  dsimp only
  split
  · exact h
  · split
    · exact h.trans (e _ _)
    · exact h.trans (e _ _)
    · exact h.trans ((closeTurn_only _).mono (by simp))
  · exact h.trans (n _)

theorem setCtrl_only (c : CtrlState) (s : State) : OnlyChanges [.seq, .aiu, .walk, .wq, .hport] s (setCtrl c s) := by
  have h : OnlyChanges [.seq, .aiu, .walk, .wq, .hport] s
      (wakeWalker (setEdge irqSeq { s with seq := { s.seq with state := c } })) := by
    intro b hb; cases b <;> first | rfl | exact absurd (by decide) hb
  unfold setCtrl
  split
  · exact .refl _ s
  · dsimp only
    split
    · exact h
    · exact h.trans ((abandonDecision_only _).mono (by simp))

theorem fallIfLast_only (w : Bool) (s : State) : OnlyChanges [.seq, .aiu, .walk, .wq, .hport] s (fallIfLast w s) := by
  unfold fallIfLast
  split
  · exact setCtrl_only _ s
  · exact .refl _ s

theorem setMode_only (g : Seg) (m : SegMode) (s : State) : OnlyChanges [segBlock g, .aiu, .walk] s (setMode g m s) :=
  ((setSeg_only g _ s).then (setEdge_only irqSeg _) (by simp) (by simp)).trans ((wakeWalker_only _).mono (by simp))

theorem sealNow_only (s : State) : OnlyChanges [.stage, .hport, .seq, .aiu, .walk] s (sealNow s) := by
  intro b hb; cases b <;> first | rfl | exact absurd (by decide) hb

theorem hostFault_only (c : BitVec 8) (k : BitVec 4) (a : Word) (s : State) :
    OnlyChanges [.elog, .aiu, .stage, .hport, .seq, .walk] s (hostFault c k a s) := by
  have h : OnlyChanges [.elog, .aiu, .stage, .hport, .seq, .walk] s (offerHost c k a s) :=
    (offerHost_only c k a s).mono (by simp)
  unfold hostFault
  dsimp only
  split
  · exact h
  · refine h.trans ?_
    intro b hb; cases b <;> first | rfl | exact absurd (by decide) hb
  · exact h.trans ((sealNow_only _).mono (by simp))

theorem accessFault_only (l : Bool) (c : BitVec 8) (k : BitVec 4) (a : Word) (s : State) :
    OnlyChanges [.elog, .aiu, .stage, .hport, .seq, .walk] s (accessFault l c k a s) := by
  unfold accessFault
  split
  · exact (offerHost_only c k a s).mono (by simp)
  · exact hostFault_only c k a s

theorem leaveOutstanding_only (s : State) : OnlyChanges [.hport] s (leaveOutstanding s) := by
  intro b hb; cases b <;> first | rfl | exact absurd (by decide) hb

end Sys2Proof.Machine
end

