-- ==== Sys2Proof/Laws/QueueFrames.lean ====
section
/-! SUPPORT. The frames of the Write Queue, the staging buffer, the Direct Access Unit and the walker. -/

namespace Sys2Proof.Machine

/-! ### The Write Queue at work -/

theorem fetchDescriptor_only (s : State) : OnlyChanges [.wq, .hport] s (fetchDescriptor s) := by
  intro b hb; cases b <;> first | rfl | exact absurd (by decide) hb

theorem writeBack_only (desc : Word) (len : Nat) (i : EntryIx) (c : RingClass) (n16 : BitVec 16) (x : Bool) (n : Nat) (s : State) :
    OnlyChanges [.wq, .hport] s (writeBack desc len i c n16 x n s) := by
  intro b hb; cases b <;> first | rfl | exact absurd (by decide) hb

theorem drainStep_only (len : Nat) (i : EntryIx) (c : RingClass) (n16 : BitVec 16) (x : Bool) (s : State) :
    OnlyChanges [.wq, .hport, .aiu] s (drainStep len i c n16 x s) := by
  have f : OnlyChanges [.wq, .hport, .aiu] s (fetchDescriptor s) := (fetchDescriptor_only s).mono (by simp)
  unfold drainStep
  split
  · split
    · exact (setDrain_only _ s).then (setEdge_only _ _) (by simp) (by simp)
    · exact f
  · split
    · exact .refl _ s
    · exact f
  · split
    · exact .refl _ s
    · dsimp only
      split
      · exact (writeBack_only _ len i c n16 x 0 s).mono (by simp)
      · exact (issueWrite_only _ _ _ s).then (setDrain_only _ _) (by simp) (by simp)
  · split
    · exact .refl _ s
    · exact (writeBack_only _ len i c n16 x _ s).mono (by simp)
  · exact .refl _ s

theorem pumpQueue_only (s : State) : OnlyChanges [.wq, .hport, .aiu] s (pumpQueue s) := by
  unfold pumpQueue
  split
  · split
    · exact .refl _ s
    · exact drainStep_only _ _ _ _ _ s
    · split
      · exact .refl _ s
      · exact (issueWrite_only _ _ _ s).mono (by simp)
  · exact .refl _ s

theorem releaseReports_only (i : WqItem) (s : State) : OnlyChanges [.aiu] s (releaseReports i s) := by
  have o (p : Prop) [Decidable p] (u : State) (f : State → State) (h : OnlyChanges [.aiu] u (f u)) :
      OnlyChanges [.aiu] u (if p then f u else u) := by
    split
    · exact h
    · exact .refl _ u
  cases i with
  | packet => exact .refl _ s
  | link => exact .refl _ s
  | segment r w code e n c i h =>
    exact ((o _ s (offerAttn .miss c i h) (offerAttn_only _ _ _ _ _)).trans
      (o _ _ (offerAttn .complete c i h) (offerAttn_only _ _ _ _ _))).trans
      (o _ _ (setEdge (irqDone c)) (setEdge_only _ _))
  | status hd w c i v stop nx =>
    have h1 := o (v = true) s (offerAttn .visit c i hd) (offerAttn_only _ _ _ _ _)
    cases stop with
    | none => exact h1
    | some cause => exact h1.trans (offerAttn_only _ _ _ _ _)

theorem descriptorDone_only (n : Nat) (s : State) : OnlyChanges [.rx, .wq, .walk] s (descriptorDone n s) := by
  unfold descriptorDone
  dsimp only
  split <;> (intro b hb; cases b <;> first | rfl | exact absurd (by decide) hb)

theorem writePerformed_only (s : State) : OnlyChanges [.rx, .wq, .walk, .aiu] s (writePerformed s) := by
  unfold writePerformed
  split
  · exact .refl _ s
  · split
    · exact (setDrain_only _ s).mono (by simp)
    · exact (descriptorDone_only _ s).mono (by simp)
    · exact .refl _ s
  · exact (((popItem_only s).then (releaseReports_only _ _) (by simp) (by simp)).trans
      ((wakeWalker_only _).mono (by simp)))

theorem hostWriteComplete_only (s : State) :
    OnlyChanges [.rx, .wq, .walk, .aiu, .hport] s (hostWriteComplete s) := by
  unfold hostWriteComplete
  split
  · exact .refl _ s
  · have h : OnlyChanges [.rx, .wq, .walk, .aiu, .hport] s { s with hport := { s.hport with write := none } } := by
      intro b hb; cases b <;> first | rfl | exact absurd (by decide) hb
    dsimp only
    split
    · exact (h.trans ((writePerformed_only _).mono (by simp))).trans ((pumpQueue_only _).mono (by simp))
    · split
      · exact h.trans ((popItem_only _).mono (by simp))
      · exact h.trans ((pumpQueue_only _).mono (by simp))

theorem descriptorReturned_only (a : Word) (r : Rec) (s : State) :
    OnlyChanges [.wq, .hport, .aiu] s (descriptorReturned a r s) := by
  unfold descriptorReturned
  split
  · exact ((setDrain_only _ s).mono (by simp)).trans (pumpQueue_only _)
  · exact .refl _ s

/-! ### The staging buffer -/

theorem stageNow_only (t : StageTag) (l : List Byte) (s : State) : OnlyChanges [.stage, .hport] s (stageNow t l s) := by
  intro b hb; cases b <;> first | rfl | exact absurd (by decide) hb

theorem markLate_only (tag : StageTag) (s : State) : OnlyChanges [.stage] s (markLate tag s) := by
  intro b hb; cases b <;> first | rfl | exact absurd (by decide) hb

theorem startFill_only (q : FillReq) (s : State) : OnlyChanges [.stage, .hport] s (startFill q s) := by
  intro b hb; cases b <;> first | rfl | exact absurd (by decide) hb

theorem requestFill_only (q : FillReq) (s : State) : OnlyChanges [.stage, .hport] s (requestFill q s) := by
  unfold requestFill
  split
  · split
    · exact stageNow_only _ _ s
    · exact startFill_only _ s
  · split
    · exact .refl _ s
    · split
      · exact stageNow_only _ _ s
      · exact startFill_only _ s
  · split
    · exact .refl _ s
    · split
      · exact stageNow_only _ _ s
      · split
        · exact .refl _ s
        · intro b hb; cases b <;> first | rfl | exact absurd (by decide) hb

theorem serveWaiting_only (s : State) : OnlyChanges [.stage, .hport] s (serveWaiting s) := by
  unfold serveWaiting
  split
  · exact startFill_only _ s
  · exact .refl _ s

theorem stagingFillDone_only (l : List Byte) (s : State) :
    OnlyChanges [.stage, .hport, .walk] s (stagingFillDone l s) := by
  have f (v : StageBuf) (u : State) :
      OnlyChanges [.stage, .hport, .walk] u
        (wakeWalker (serveWaiting { popRead u with stage := { u.stage with buf := v } })) := by
    have h : OnlyChanges [.stage, .hport, .walk] u { popRead u with stage := { u.stage with buf := v } } := by
      intro b hb; cases b <;> first | rfl | exact absurd (by decide) hb
    exact (h.trans ((serveWaiting_only _).mono (by simp))).trans ((wakeWalker_only _).mono (by simp))
  unfold stagingFillDone
  split
  · exact .refl _ s
  · split
    · split
      · exact f _ s
      · exact f _ s
      · exact (popRead_only s).mono (by simp)
    · exact .refl _ s

theorem stageAtCycleStart_only (s : State) : OnlyChanges [.stage] s (stageAtCycleStart s) := by
  unfold stageAtCycleStart
  split <;> exact setStage_only _ _ s

/-! ### The Direct Access Unit -/

theorem directRequest_only (p : Bool) (i : EntryIx) (o : BitVec 6) (t : BitVec 4) (s : State) :
    OnlyChanges [.dau, .walk] s (directRequest p i o t s) := by
  unfold directRequest
  split <;> (intro b hb; cases b <;> first | rfl | exact absurd (by decide) hb)

theorem completeDirect_only (st : DirStatus) (l : List Byte) (s : State) :
    OnlyChanges [.dau] s (completeDirect st l s) := by
  unfold completeDirect
  split <;> (intro b hb; cases b <;> first | rfl | exact absurd (by decide) hb)

theorem setFront_only (f : DirReq → DirReq) (s : State) : OnlyChanges [.dau] s (setFront f s) := by
  unfold setFront
  split <;> (intro b hb; cases b <;> first | rfl | exact absurd (by decide) hb)

theorem directOutcome_only (o : XOutcome) (l : List Byte) (s : State) :
    OnlyChanges [.dau] s (directOutcome o l s) := by
  unfold directOutcome
  split
  · exact .refl _ s
  · cases o <;> dsimp only <;>
      first
        | exact completeDirect_only _ _ s
        | exact .refl _ s
        | (split <;> first | exact completeDirect_only _ _ s | exact setFront_only _ s)

theorem sealFlush_only (s : State) (n : Nat) : OnlyChanges [.dau] s (sealFlush s n) := by
  induction n generalizing s with
  | zero => exact .refl _ s
  | succ n ih =>
    unfold sealFlush
    split
    · exact .refl _ s
    · split
      · exact (completeDirect_only _ _ s).trans (ih _)
      · intro b hb; cases b <;> first | rfl | exact absurd (by decide) hb

theorem writeBankBytes_only (i : Nat) (v : BitVec 64) (s : State) (n : Nat) :
    OnlyChanges [.dau] s (writeBankBytes i v s n) := by
  induction n generalizing i v s with
  | zero => exact .refl _ s
  | succ n ih =>
    have h : OnlyChanges [.dau] s (writeBankByte i (v.setWidth 8) s) := by
      unfold writeBankByte
      split <;> (intro b hb; cases b <;> first | rfl | exact absurd (by decide) hb)
    exact h.trans (ih _ _ _)

theorem writeBank_only (o : Nat) (w : Width) (v : BitVec 64) (s : State) : OnlyChanges [.dau] s (writeBank o w v s) := by
  unfold writeBank
  split
  · exact writeBankBytes_only _ _ _ _
  all_goals
    split
    · exact writeBankBytes_only _ _ _ _
    · exact .refl _ s

theorem popDone_only (s : State) : OnlyChanges [.hport, .dau, .walk] s (popDone s) := by
  unfold popDone
  split
  · intro b hb; cases b <;> first | rfl | exact absurd (by decide) hb
  · dsimp only
    split <;> (intro b hb; cases b <;> first | rfl | exact absurd (by decide) hb)

/-! ### The walker: look-ahead -/

/-- What a look-ahead may touch. -/
abbrev lookBlocks : List Block := [.elog, .aiu, .stage, .hport, .seq, .walk]

theorem ringBroken_only (a : Word) (s : State) : OnlyChanges lookBlocks s (ringBroken a s) :=
  hostFault_only _ _ a s

theorem lookFetch_only (k : Seek) (s : State) : OnlyChanges [.hport, .walk] s (lookFetch k s) := by
  intro b hb; cases b <;> first | rfl | exact absurd (by decide) hb

theorem lookRings_only (l : List RingClass) (s : State) :
    OnlyChanges lookBlocks s (lookRings l s) := by
  induction l with
  | nil => exact .refl _ s
  | cons c rest ih =>
    unfold lookRings
    split
    · exact (lookFetch_only _ s).mono (by simp)
    · exact ih
    · exact ringBroken_only _ s
    · exact ih

theorem lookFound_only (after : State → State) (f : Found) (s : State) (ha : OnlyChanges lookBlocks s (after s)) :
    OnlyChanges lookBlocks s (lookFound after f s) := by
  unfold lookFound
  split
  · exact (lookFetch_only _ s).mono (by simp)
  · exact ha
  · exact ringBroken_only _ s
  · exact .refl _ s

theorem lookStream_only (s : State) : OnlyChanges lookBlocks s (lookStream s) := by
  unfold lookStream
  split
  · exact .refl _ s
  · exact lookFound_only _ _ s (.refl _ s)

theorem lookPasses_only (s : State) : OnlyChanges lookBlocks s (lookPasses s) := by
  unfold lookPasses
  split
  · exact lookStream_only s
  · exact lookFound_only _ _ s (lookStream_only s)

theorem afterPass_only (c : RingClass) (s : State) : OnlyChanges lookBlocks s (afterPass c s) := by
  unfold afterPass
  split
  · exact lookStream_only s
  · exact .refl _ s

theorem lookPass_only (s : State) : OnlyChanges lookBlocks s (lookPass s) := by
  unfold lookPass
  dsimp only
  split
  · exact lookPasses_only s
  · split
    · split <;> exact lookFound_only _ _ s (afterPass_only _ s)
    · exact lookFound_only _ _ s (afterPass_only _ s)

theorem lookAperiodic_only (s : State) : OnlyChanges lookBlocks s (lookAperiodic s) := by
  unfold lookAperiodic
  split
  · exact .refl _ s
  · exact lookRings_only _ s

theorem lookBurst_only (t : Turn) (x : Exchange) (s : State) : OnlyChanges lookBlocks s (lookBurst t x s) := by
  unfold lookBurst
  split
  · exact lookAperiodic_only s
  · exact (requestFill_only _ s).mono (by simp)
  · exact .refl _ s
  · exact (requestRead_only _ _ _ _ s).then (setLook_only _ _) (by simp) (by simp)

theorem lookLate_only (s : State) : OnlyChanges lookBlocks s (lookLate s) := by
  unfold lookLate
  split
  · exact lookBurst_only _ _ s
  · exact lookAperiodic_only s

theorem lookAhead_only (s : State) : OnlyChanges lookBlocks s (lookAhead s) := by
  unfold lookAhead
  split
  · have h : OnlyChanges lookBlocks s (cancelReads lookReader (setLook .nothing s)) :=
      (setLook_only _ s).then (cancelReads_only _ _) (by simp) (by simp)
    dsimp only
    split
    · exact h.trans (lookPasses_only _)
    · exact h.trans (lookPass_only _)
    · exact h.trans (lookLate_only _)
    · exact h
  · exact .refl _ s

theorem lookOver_only (k : Seek) (h : Rec) (s : State) :
    OnlyChanges lookBlocks s (lookOver k h s) := by
  have h0 : OnlyChanges lookBlocks s (setLook .nothing s) :=
    (setLook_only _ s).mono (by simp)
  unfold lookOver
  dsimp only
  split
  · exact h0.trans (lookFound_only _ _ _ (afterPass_only _ _))
  · split
    · exact h0.trans ((lookFetch_only _ _).mono (by simp))
    · exact h0.trans (lookRings_only _ _)
    · exact h0.trans (ringBroken_only _ _)
    · exact h0.trans (lookRings_only _ _)

theorem lookHeadReturned_only (k : Seek) (h : Rec) (s : State) :
    OnlyChanges lookBlocks s (lookHeadReturned k h s) := by
  unfold lookHeadReturned
  dsimp only
  split
  · split
    · exact (setLook_only _ s).mono (by simp)
    · exact (requestRead_only _ _ _ _ s).then (setLook_only _ _) (by simp) (by simp)
  · exact lookOver_only k h s

theorem lookFill_only (h r : Rec) (s : State) : OnlyChanges [.stage, .hport] s (lookFill h r s) := by
  unfold lookFill
  dsimp only
  split
  · exact .refl _ s
  · split
    · exact requestFill_only _ s
    · exact .refl _ s

theorem lookRecordReturned_only (k : Seek) (h r : Rec) (s : State) :
    OnlyChanges lookBlocks s (lookRecordReturned k h r s) := by
  unfold lookRecordReturned
  dsimp only
  split
  · exact lookOver_only k h s
  · exact (setLook_only _ s).then (lookFill_only _ _ _) (by simp) (by simp)

theorem lookBurstReturned_only (h r : Rec) (s : State) : OnlyChanges lookBlocks s (lookBurstReturned h r s) := by
  have l : OnlyChanges lookBlocks s (setLook .nothing s) := (setLook_only _ s).mono (by simp)
  unfold lookBurstReturned
  dsimp only
  split
  · exact l.trans (lookAperiodic_only _)
  · exact l.trans ((lookFill_only _ _ _).mono (by simp))

/-! ### The walker: decisions -/

/-- The blocks a decision of the walker may change. -/
def decisionBlocks : List Block := [.seq, .walk, .xeng, .stage, .wq, .dau, .aiu, .elog, .hport]

theorem waitLook_only (s : State) : OnlyChanges lookBlocks s (waitLook s) :=
  ((walkerWaits_only s).mono (by simp)).trans (lookAhead_only _)

theorem issueHead_only (k : Seek) (p : Option Word) (s : State) : OnlyChanges [.hport, .walk] s (issueHead k p s) := by
  unfold issueHead
  dsimp only
  split <;> (intro b hb; cases b <;> first | rfl | exact absurd (by decide) hb)

theorem walkerBroken_only (a : Word) (s : State) :
    OnlyChanges lookBlocks s (walkerBroken a s) :=
  ((setHand_only _ s).mono (by simp)).trans (ringBroken_only _ _)

theorem offerRings_only (l : List RingClass) (s : State) :
    OnlyChanges lookBlocks s (offerRings l s) := by
  induction l generalizing s with
  | nil => exact waitLook_only s
  | cons c rest ih =>
    unfold offerRings
    split
    · exact (issueHead_only _ _ s).mono (by simp)
    · exact ((setRot_only _ _ s).mono (by simp)).trans (ih _)
    · exact walkerBroken_only _ s
    · exact ih s

theorem chooseDirect_only (r : DirReq) (s : State) :
    OnlyChanges [.stage, .hport, .walk, .xeng] s (chooseDirect r s) := by
  unfold chooseDirect
  dsimp only
  split
  · refine ((stageNow_only .poke r.data s).mono (by simp)).trans ?_
    intro b hb; cases b <;> first | rfl | exact absurd (by decide) hb
  · intro b hb; cases b <;> first | rfl | exact absurd (by decide) hb

theorem offerRings_decision (l : List RingClass) (s : State) : OnlyChanges decisionBlocks s (offerRings l s) :=
  (offerRings_only l s).mono (by simp [decisionBlocks])

theorem aperiodic_only (n : Nat) (s : State) : OnlyChanges decisionBlocks s (aperiodic n s) := by
  induction n generalizing s with
  | zero => exact offerRings_decision _ s
  | succ n ih =>
    unfold aperiodic
    split
    · split
      · exact offerRings_decision _ s
      · split
        · exact ((completeDirect_only _ _ s).mono (by simp [decisionBlocks])).trans (ih _)
        · split
          · exact (chooseDirect_only _ s).mono (by simp [decisionBlocks])
          · have h : OnlyChanges [.walk] s (endAperiodic s) := by
              intro b hb; cases b <;> first | rfl | exact absurd (by decide) hb
            exact h.then (waitLook_only _) (by simp [decisionBlocks]) (by simp [decisionBlocks])
    · exact offerRings_decision _ s

theorem aperiodicDecision_only (s : State) : OnlyChanges decisionBlocks s (aperiodicDecision s) := by
  unfold aperiodicDecision
  split
  · exact (waitLook_only s).mono (by simp [decisionBlocks])
  · exact aperiodic_only _ s

theorem closePasses_only (s : State) : OnlyChanges [.walk] s (closePasses s) := by
  intro b hb; cases b <;> first | rfl | exact absurd (by decide) hb

theorem streamStage_only (s : State) : OnlyChanges decisionBlocks s (streamStage s) := by
  have c : OnlyChanges decisionBlocks s (aperiodicDecision (closePasses s)) :=
    ((closePasses_only s).mono (by simp [decisionBlocks])).trans (aperiodicDecision_only _)
  unfold streamStage
  split
  · exact c
  · split
    · exact (issueHead_only _ _ s).mono (by simp [decisionBlocks])
    · exact c
    · exact (walkerBroken_only _ s).mono (by simp [decisionBlocks])
    · exact (walkerWaits_only s).mono (by simp [decisionBlocks])

theorem periodicStage_only (s : State) : OnlyChanges decisionBlocks s (periodicStage s) := by
  unfold periodicStage
  split
  · exact ((closePasses_only s).mono (by simp [decisionBlocks])).trans (aperiodicDecision_only _)
  · split
    · exact streamStage_only s
    · split
      · exact (issueHead_only _ _ s).mono (by simp [decisionBlocks])
      · have h : OnlyChanges [.walk] s { s with walk := { s.walk with timedDone := true, pass := none } } := by
          intro b hb; cases b <;> first | rfl | exact absurd (by decide) hb
        exact (h.mono (by simp [decisionBlocks])).trans (streamStage_only _)
      · exact (walkerBroken_only _ s).mono (by simp [decisionBlocks])
      · exact (walkerWaits_only s).mono (by simp [decisionBlocks])

theorem freshDecision_only (s : State) : OnlyChanges decisionBlocks s (freshDecision s) := by
  have h0 : OnlyChanges decisionBlocks s (beginDecision s) := (beginDecision_only s).mono (by simp [decisionBlocks])
  have p (u : State) : OnlyChanges [.walk] u { u with walk := { u.walk with window := .periodic } } := by
    intro b hb; cases b <;> first | rfl | exact absurd (by decide) hb
  unfold freshDecision
  dsimp only
  split
  · exact h0.trans ((walkerWaits_only _).mono (by simp [decisionBlocks]))
  · exact h0.trans ((walkerWaits_only _).mono (by simp [decisionBlocks]))
  · split
    · exact (h0.trans ((p _).mono (by simp [decisionBlocks]))).trans (periodicStage_only _)
    · exact h0.trans (aperiodicDecision_only _)
  · exact h0.trans (periodicStage_only _)
  · exact h0.trans (aperiodicDecision_only _)

theorem searchOn_only (c : RingClass) (k : Seek) (h : Rec) (s : State) : OnlyChanges decisionBlocks s (searchOn c k h s) := by
  unfold searchOn
  split
  · exact (issueHead_only _ _ s).mono (by simp [decisionBlocks])
  · exact ((setRot_only _ _ s).mono (by simp [decisionBlocks])).trans (offerRings_decision _ _)
  · exact (walkerBroken_only _ s).mono (by simp [decisionBlocks])
  · exact offerRings_decision _ s

theorem passOver_only (k : Seek) (h : Rec) (s : State) : OnlyChanges decisionBlocks s (passOver k h s) := by
  have h0 : OnlyChanges decisionBlocks s (setHand .nothing s) := (setHand_only _ s).mono (by simp [decisionBlocks])
  unfold passOver
  dsimp only
  split
  · exact (h0.trans ((passAfter_only _ _ _).mono (by simp [decisionBlocks]))).trans (periodicStage_only _)
  · exact h0.trans (searchOn_only _ _ _ _)

theorem stopHead_only (c : RingClass) (a : Word) (h : Rec) (u : Cause) (s : State) :
    OnlyChanges [.wq] s (stopHead c a h u s) := by
  unfold stopHead
  split
  · exact .refl _ s
  · exact (reserve_only 1 s).trans (enqueue_only _ _)

/-! ### The walker: turns -/

theorem giveTurn_only (k : Seek) (h : Rec) (s : State) : OnlyChanges [.walk] s (giveTurn k h s) := by
  unfold giveTurn
  dsimp only
  split
  · exact .refl _ s
  · exact setRot_only _ _ s
  · exact setRot_only _ _ s

theorem beginConsume_only (t : Turn) (c : RecCode) (n : Nat) (s : State) :
    OnlyChanges [.hport, .walk] s (beginConsume t c n s) := by
  intro b hb; cases b <;> first | rfl | exact absurd (by decide) hb

theorem finishSkip_only (t : Turn) (l : Word) (d : Bool) (s : State) : OnlyChanges [.wq, .walk] s (finishSkip t l d s) :=
  ((enqueue_only _ s).mono (by simp)).trans (endTurn_only _ _ _)

theorem finishShort_only (t : Turn) (s : State) : OnlyChanges [.wq, .walk] s (finishShort t s) :=
  ((enqueue_only _ s).mono (by simp)).trans (endTurn_only _ _ _)

theorem skipFrom_only (t : Turn) (l : Word) (s : State) : OnlyChanges [.wq, .walk, .hport] s (skipFrom t l s) := by
  unfold skipFrom
  split
  · split
    · exact (finishShort_only _ s).mono (by simp)
    · exact (finishSkip_only _ _ _ s).mono (by simp)
  · split
    · exact (finishSkip_only _ _ _ s).mono (by simp)
    · intro b hb; cases b <;> first | rfl | exact absurd (by decide) hb

theorem dropSlot_only (i : EntryIx) (r : Word) (s : State) : OnlyChanges [.walk] s (dropSlot i r s) := by
  unfold dropSlot
  split
  · split
    · exact setSlot_only _ _ s
    · exact .refl _ s
  · exact .refl _ s

theorem takeSlot_only (h r : Rec) (s : State) : OnlyChanges [.walk] s (takeSlot h r s) := by
  unfold takeSlot
  split
  · exact .refl _ s
  · exact setSlot_only _ _ s

theorem chooseRing_only (t : Turn) (q : Request) (tl : Bool) (s : State) :
    OnlyChanges [.walk, .xeng] s (chooseRing t q tl s) := by
  intro b hb; cases b <;> first | rfl | exact absurd (by decide) hb

theorem headReturned_only (k : Seek) (h : Rec) (s : State) : OnlyChanges decisionBlocks s (headReturned k h s) := by
  unfold headReturned
  dsimp only
  split
  · exact passOver_only k h s
  · split
    · exact passOver_only k h s
    · exact ((stopHead_only _ _ _ _ s).mono (by simp [decisionBlocks])).trans (passOver_only _ _ _)
    · split
      · exact passOver_only k h s
      · split
        · exact (((reserve_only 2 s).mono (by simp [decisionBlocks])).trans
            ((giveTurn_only _ _ _).mono (by simp [decisionBlocks]))).trans
            ((skipFrom_only _ _ _).mono (by simp [decisionBlocks]))
        · intro b hb; cases b <;> first | rfl | exact absurd (by decide) hb

theorem refuseKind_only (k : Seek) (h r : Rec) (s : State) : OnlyChanges decisionBlocks s (refuseKind k h r s) :=
  (((((dropSlot_only _ _ s).mono (by simp [decisionBlocks])).trans
    ((enqueue_only _ _).mono (by simp [decisionBlocks]))).trans
    ((enqueue_only _ _).mono (by simp [decisionBlocks]))).trans
    ((releaseSlots_only _).mono (by simp [decisionBlocks]))).trans (passOver_only _ _ _)

theorem recordReturned_only (k : Seek) (h r : Rec) (s : State) : OnlyChanges decisionBlocks s (recordReturned k h r s) := by
  have l : OnlyChanges decisionBlocks s (releaseSlots s) := (releaseSlots_only s).mono (by simp [decisionBlocks])
  unfold recordReturned
  dsimp only
  split
  · exact l.trans (passOver_only _ _ _)
  · exact (l.trans ((stopHead_only _ _ _ _ _).mono (by simp [decisionBlocks]))).trans (passOver_only _ _ _)
  · split
    · exact refuseKind_only k h r s
    · exact (setHand_only _ s).mono (by simp [decisionBlocks])

theorem passLate_only (k : Seek) (t : Turn) (s : State) : OnlyChanges decisionBlocks s (passLate k t s) := by
  have h0 (c : Cause) (q : RingClass) (i : EntryIx) (a : Word) : OnlyChanges decisionBlocks s (offerAttn c q i a s) :=
    (offerAttn_only _ _ _ _ s).mono (by simp [decisionBlocks])
  unfold passLate
  dsimp only
  split
  · exact (h0 _ _ _ _).trans ((beginConsume_only _ _ _ _).mono (by simp [decisionBlocks]))
  · exact ((h0 _ _ _ _).trans ((releaseSlots_only _).mono (by simp [decisionBlocks]))).trans (passOver_only _ _ _)

theorem failsStart_only (k : Seek) (t : Turn) (s : State) : OnlyChanges decisionBlocks s (failsStart k t s) := by
  unfold failsStart
  split
  · exact passLate_only k t s
  · have h : OnlyChanges [.walk] s (endAperiodic s) := by
      intro b hb; cases b <;> first | rfl | exact absurd (by decide) hb
    exact ((h.mono (by simp [decisionBlocks])).trans ((releaseSlots_only _).mono (by simp [decisionBlocks]))).trans
      ((waitLook_only _).mono (by simp [decisionBlocks]))

theorem notReady_only (k : Seek) (t : Turn) (tag : StageTag) (s : State) :
    OnlyChanges decisionBlocks s (notReady k t tag s) := by
  unfold notReady
  split
  · exact ((markLate_only tag s).mono (by simp [decisionBlocks])).trans (passLate_only k t _)
  · exact (((releaseSlots_only s).mono (by simp [decisionBlocks])).trans
      ((setHand_only _ _).mono (by simp [decisionBlocks]))).trans (offerRings_decision _ _)

theorem tryPacket_only (k : Seek) (t : Turn) (q : Request) (tl : Bool) (g : Nat) (s : State) :
    OnlyChanges decisionBlocks s (tryPacket k t q tl g s) := by
  have c (t' : Turn) (u : State) : OnlyChanges decisionBlocks u (chooseRing t' q tl (giveTurn k t.head u)) :=
    ((giveTurn_only _ _ u).mono (by simp [decisionBlocks])).trans ((chooseRing_only _ _ _ _).mono (by simp [decisionBlocks]))
  unfold tryPacket
  split
  · exact c _ s
  · have f (x : FillReq) : OnlyChanges decisionBlocks s (requestFill x s) :=
      (requestFill_only _ s).mono (by simp [decisionBlocks])
    dsimp only
    split
    · exact (f _).trans (c _ _)
    · exact (f _).trans (notReady_only _ _ _ _)

theorem judgeWork_only (k : Seek) (t : Turn) (s : State) : OnlyChanges decisionBlocks s (judgeWork k t s) := by
  have h0 : OnlyChanges decisionBlocks s (takeSlot t.head t.seg s) := (takeSlot_only _ _ s).mono (by simp [decisionBlocks])
  unfold judgeWork
  dsimp only
  split
  · exact (h0.trans ((giveTurn_only _ _ _).mono (by simp [decisionBlocks]))).trans
      ((beginConsume_only _ _ _ _).mono (by simp [decisionBlocks]))
  · split
    · exact h0.trans (tryPacket_only _ _ _ _ _ _)
    · exact h0.trans (failsStart_only _ _ _)

theorem judgeCandidate_only (k : Seek) (t : Turn) (s : State) : OnlyChanges decisionBlocks s (judgeCandidate k t s) := by
  have r : OnlyChanges decisionBlocks s (releaseSlots s) := (releaseSlots_only s).mono (by simp [decisionBlocks])
  unfold judgeCandidate
  split
  · exact (r.trans ((setHand_only _ _).mono (by simp [decisionBlocks]))).trans (freshDecision_only _)
  · split
    · exact r.trans (passOver_only _ _ _)
    · exact (r.trans ((stopHead_only _ _ _ _ _).mono (by simp [decisionBlocks]))).trans (passOver_only _ _ _)
    · exact judgeWork_only k t s

/-! ### The walker: bursts, and its events -/

theorem putBack_only (t : Turn) (s : State) : OnlyChanges [.walk] s (putBack t s) := by
  unfold putBack
  split
  · exact setRot_only _ _ s
  · exact .refl _ s

theorem topUp_only {s t : State} (h : topUp s = some t) : OnlyChanges [.wq] s t := by
  unfold topUp at h
  split at h
  · cases h; exact .refl _ s
  · split at h
    · cases h; exact reserve_only _ s
    · cases h

theorem burstContinue_only (t : Turn) (m : Bool) (s : State) : OnlyChanges [.wq, .walk, .hport] s (burstContinue t m s) := by
  have e (x : Option Cause) : OnlyChanges [.wq, .walk, .hport] s (endTurn t x s) := (endTurn_only t x s).mono (by simp)
  unfold burstContinue
  split
  · split
    · exact e _
    · exact e _
    · split
      · exact e _
      · rename_i u hu
        have h0 : OnlyChanges [.wq, .walk, .hport] s u := (topUp_only hu).mono (by simp)
        split
        · exact (h0.trans ((setHand_only _ _).mono (by simp))).trans ((wakeWalker_only _).mono (by simp))
        · split
          · exact h0.trans ((endTurn_only _ _ _).mono (by simp))
          · exact (h0.trans ((requestRead_only _ _ _ _ _).mono (by simp))).trans ((setHand_only _ _).mono (by simp))
  · exact e _

theorem burstReturned_only (t : Turn) (r : Rec) (s : State) : OnlyChanges [.wq, .walk, .hport] s (burstReturned t r s) := by
  have e (t : Turn) (x : Option Cause) (u : State) : OnlyChanges [.wq, .walk, .hport] u (endTurn t x u) :=
    (endTurn_only t x u).mono (by simp)
  unfold burstReturned
  dsimp only
  split
  · exact e _ _ s
  · exact e _ _ s
  · split
    · exact (((dropSlot_only _ _ s).mono (by simp)).trans ((enqueue_only _ _).mono (by simp))).trans (e _ _ _)
    · exact ((setHand_only _ s).mono (by simp)).trans ((wakeWalker_only _).mono (by simp))

theorem burstPacket_only (t : Turn) (q : Request) (tl : Bool) (g : Nat) (s : State) :
    OnlyChanges decisionBlocks s (burstPacket t q tl g s) := by
  unfold burstPacket
  split
  · exact (chooseRing_only _ _ _ s).mono (by simp [decisionBlocks])
  · have f (x : FillReq) : OnlyChanges decisionBlocks s (requestFill x s) :=
      (requestFill_only _ s).mono (by simp [decisionBlocks])
    dsimp only
    split
    · exact (f _).trans ((chooseRing_only _ _ _ _).mono (by simp [decisionBlocks]))
    · exact (f _).trans ((endTurn_only _ _ _).mono (by simp [decisionBlocks]))

theorem burstExchange_only (t : Turn) (s : State) : OnlyChanges decisionBlocks s (burstExchange t s) := by
  have e (x : Option Cause) (u : State) : OnlyChanges decisionBlocks u (endTurn t x u) :=
    (endTurn_only t x u).mono (by simp [decisionBlocks])
  have h0 : OnlyChanges decisionBlocks s (takeSlot t.head t.seg s) := (takeSlot_only _ _ s).mono (by simp [decisionBlocks])
  unfold burstExchange
  split
  · exact e _ s
  · exact e _ s
  · dsimp only
    split
    · exact h0.trans ((beginConsume_only _ _ _ _).mono (by simp [decisionBlocks]))
    · split
      · exact h0.trans (burstPacket_only _ _ _ _ _)
      · have a (u : State) : OnlyChanges [.walk] u (endAperiodic u) := by
          intro b hb; cases b <;> first | rfl | exact absurd (by decide) hb
        exact ((h0.trans ((putBack_only _ _).mono (by simp [decisionBlocks]))).trans
          ((a _).mono (by simp [decisionBlocks]))).trans (e _ _)

theorem pumpQueue_decision (s : State) : OnlyChanges decisionBlocks s (pumpQueue s) :=
  (pumpQueue_only s).mono (by simp [decisionBlocks])

theorem walkerDecision_only (s : State) : OnlyChanges decisionBlocks s (walkerDecision s) := by
  have d : OnlyChanges decisionBlocks s (cancelReads lookReader (setLook .nothing s)) :=
    (setLook_only _ s).then (cancelReads_only _ _) (by simp [decisionBlocks]) (by simp [decisionBlocks])
  have e {u v : State} (n : Nat) (h : OnlyChanges decisionBlocks u v) :
      OnlyChanges decisionBlocks u (joinReads n (pumpQueue v)) :=
    (h.trans (pumpQueue_decision v)).trans ((joinReads_only _ _).mono (by simp [decisionBlocks]))
  unfold walkerDecision
  split
  · exact .refl _ s
  · dsimp only
    split
    · split
      · exact .refl _ s
      · exact e _ (d.trans (freshDecision_only _))
    · exact e _ (d.trans (judgeCandidate_only _ _ _))
    · split
      · exact e _ (d.trans (burstExchange_only _ _))
      · exact .refl _ s
    · exact .refl _ s

theorem snapshotReturned_only (q : ReadReq) (r : Rec) (s : State) : OnlyChanges decisionBlocks s (snapshotReturned q r s) := by
  unfold snapshotReturned
  split
  · exact (descriptorReturned_only q.addr r s).mono (by simp [decisionBlocks])
  · exact headReturned_only _ _ s
  · exact recordReturned_only _ _ _ s
  · split
    · exact (setHand_only _ s).mono (by simp [decisionBlocks])
    · exact .refl _ s
  · split
    · exact (setHand_only _ s).mono (by simp [decisionBlocks])
    · exact .refl _ s
  · split
    · exact (burstReturned_only _ _ s).mono (by simp [decisionBlocks])
    · exact .refl _ s
  · exact (lookHeadReturned_only _ _ s).mono (by simp [decisionBlocks])
  · exact (lookRecordReturned_only _ _ _ s).mono (by simp [decisionBlocks])
  · exact (lookBurstReturned_only _ _ s).mono (by simp [decisionBlocks])
  · exact .refl _ s

theorem recordFetchDone_only (r : Rec) (s : State) : OnlyChanges decisionBlocks s (recordFetchDone r s) := by
  unfold recordFetchDone
  split
  · exact .refl _ s
  · split
    · exact .refl _ s
    · exact ((snapshotReturned_only _ _ s).trans ((popRead_only _).mono (by simp [decisionBlocks]))).trans
        (pumpQueue_decision _)

theorem consumeTurn_only (t : Turn) (c : RecCode) (n : Nat) (l : Word) (s : State) :
    OnlyChanges [.wq, .walk, .hport] s (consumeTurn t c n l s) := by
  have h0 (i : WqItem) : OnlyChanges [.wq, .walk, .hport] s (enqueue i (setSlot (headEntry t.head) none s)) :=
    (setSlot_only _ _ s).then (enqueue_only _ _) (by simp) (by simp)
  unfold consumeTurn
  dsimp only
  split
  · exact (h0 _).trans (skipFrom_only _ _ _)
  · split
    · exact ((h0 _).trans ((enqueue_only _ _).mono (by simp))).trans (burstContinue_only _ _ _)
    · exact ((h0 _).trans ((enqueue_only _ _).mono (by simp))).trans ((endTurn_only _ _ _).mono (by simp))

theorem consumeRecord_only (s : State) : OnlyChanges [.wq, .walk, .hport, .aiu] s (consumeRecord s) := by
  unfold consumeRecord
  split
  · split
    · exact ((consumeTurn_only _ _ _ _ s).mono (by simp)).trans ((pumpQueue_only _).mono (by simp))
    · exact .refl _ s
  · exact .refl _ s

theorem skipTurn_only (t : Turn) (l : Word) (r : Rec) (s : State) : OnlyChanges [.wq, .walk, .hport] s (skipTurn t l r s) := by
  have h0 (i : WqItem) : OnlyChanges [.wq, .walk, .hport] s (enqueue i s) := (enqueue_only _ s).mono (by simp)
  unfold skipTurn
  dsimp only
  split
  · exact (h0 _).trans ((finishSkip_only _ _ _ _).mono (by simp))
  · exact (h0 _).trans (skipFrom_only _ _ _)

theorem skipStep_only (s : State) : OnlyChanges [.wq, .walk, .hport, .aiu] s (skipStep s) := by
  unfold skipStep
  split
  · split
    · exact ((skipTurn_only _ _ _ s).mono (by simp)).trans ((pumpQueue_only _).mono (by simp))
    · exact .refl _ s
  · exact .refl _ s

end Sys2Proof.Machine
end

