-- ==== Sys2Proof/Laws/BlockFrames.lean ====
section
/-! SUPPORT. The frames of outcome processing, the Exchange Engine, the segments, the timer, the sequencer, the table and
the register accesses. -/

namespace Sys2Proof.Machine

/-! ### Outcome processing -/

/-- The blocks the hand-over to the walker may change. -/
def handBlocks : List Block := [.walk, .wq, .hport, .aiu]

theorem outcomeEntry_only (x : Exchange) (o : XOutcome) (s : State) : OnlyChanges [.table] s (outcomeEntry x o s) := by
  unfold outcomeEntry
  split
  · exact .refl _ s
  · exact setEntry_only _ _ s

theorem outcomeFifo_only (x : Exchange) (o : XOutcome) (s : State) : OnlyChanges [.rx, .aiu] s (outcomeFifo x o s) := by
  unfold outcomeFifo
  split
  · intro b hb; cases b <;> first | rfl | exact absurd (by decide) hb
  · split
    · exact (offerAttn_only _ _ _ _ s).mono (by simp)
    · exact .refl _ s
  · exact .refl _ s

theorem outcomeLog_only (x : Exchange) (o : XOutcome) (h : Bool) (s : State) :
    OnlyChanges [.aiu, .elog, segBlock x.segment, .walk] s (outcomeLog x o h s) := by
  have b (c : BitVec 8) (u : State) := offerBus_only c x.segment x.entry u
  unfold outcomeLog
  dsimp only
  cases hc : trustCode (getSeg s x.segment).guarded o with
  | none =>
    dsimp only
    split
    · exact b _ s
    · exact .refl _ s
  | some code =>
    dsimp only
    split
    · exact (b _ s).trans (b _ _)
    · exact b _ s

theorem keepSlot_only (t : Turn) (g : Nat) (y : Bool) (s : State) : OnlyChanges [.walk] s (keepSlot t g y s) :=
  setSlot_only _ _ s

theorem queuePacket_only (t : Turn) (x : Exchange) (a : Advance) (s : State) :
    OnlyChanges [.wq, .hport, .aiu] s (queuePacket t x a s) := by
  unfold queuePacket
  split
  · exact ((enqueue_only _ s).mono (by simp)).trans (pumpQueue_only _)
  · exact .refl _ s

theorem unfinished_only (t : Turn) (o : XOutcome) (s : State) : OnlyChanges [.wq, .walk, .hport] s (unfinished t o s) := by
  unfold unfinished
  split
  · exact (beginConsume_only _ _ _ s).mono (by simp)
  · split
    · exact burstContinue_only _ _ s
    · exact (endTurn_only _ _ s).mono (by simp)

theorem succeeded_only (t : Turn) (x : Exchange) (s : State) : OnlyChanges handBlocks s (succeeded t x s) := by
  have h0 (a : Advance) : OnlyChanges handBlocks s (queuePacket t x a s) :=
    (queuePacket_only t x a s).mono (by simp [handBlocks])
  unfold succeeded
  dsimp only
  split
  · exact (h0 _).trans ((beginConsume_only _ _ _ _).mono (by simp [handBlocks]))
  · split
    · exact ((h0 _).trans ((keepSlot_only _ _ _ _).mono (by simp [handBlocks]))).trans
        ((burstContinue_only _ _ _).mono (by simp [handBlocks]))
    · exact ((h0 _).trans ((keepSlot_only _ _ _ _).mono (by simp [handBlocks]))).trans
        ((endTurn_only _ _ _).mono (by simp [handBlocks]))

theorem haltedOut_only (t : Turn) (c : RecCode) (u : Cause) (s : State) : OnlyChanges [.wq, .walk] s (haltedOut t c u s) :=
  ((enqueue_only _ s).mono (by simp)).trans (endTurn_only _ _ _)

theorem ringOutcome_only (x : Exchange) (o : XOutcome) (h : Bool) (s : State) :
    OnlyChanges handBlocks s (ringOutcome x o h s) := by
  unfold ringOutcome
  split
  · dsimp only
    split
    · exact (setHand_only _ s).mono (by simp [handBlocks])
    · split
      · exact (endTurn_only _ _ s).mono (by simp [handBlocks])
      · exact succeeded_only _ _ s
      · exact (haltedOut_only _ _ _ s).mono (by simp [handBlocks])
      · split
        · exact (haltedOut_only _ _ _ s).mono (by simp [handBlocks])
        · exact (unfinished_only _ _ s).mono (by simp [handBlocks])
  · exact .refl _ s

theorem grantFence_only (i : EntryIx) (s : State) : OnlyChanges [.table] s (grantFence i s) := setEntry_only _ _ s

theorem cutStaging_only (o : XOutcome) (s : State) : OnlyChanges [.stage, .hport] s (cutStaging o s) := by
  unfold cutStaging
  split
  · exact emptyStaging_only s
  · exact .refl _ s

theorem handOver_only (x : Exchange) (o : XOutcome) (h : Bool) (s : State) :
    OnlyChanges [.walk, .wq, .hport, .aiu, .dau] s (handOver x o h s) := by
  unfold handOver
  split
  · exact ((directOutcome_only _ _ s).mono (by simp)).trans ((wakeWalker_only _).mono (by simp))
  · exact (ringOutcome_only x o h s).mono (by simp [handBlocks])

/-- The blocks outcome processing may change, its segment apart. -/
def outcomeBlocks (g : Seg) : List Block :=
  [.table, .rx, .aiu, .elog, segBlock g, .walk, .dau, .wq, .hport, .stage, .xeng]

theorem clearEngine_only (s : State) : OnlyChanges [.xeng] s { s with xeng := none } := by
  intro b hb; cases b <;> first | rfl | exact absurd (by decide) hb

theorem finish_only (o : XOutcome) (x : Exchange) (s : State) : OnlyChanges (outcomeBlocks x.segment) s (finish o x s) := by
  unfold finish
  dsimp only
  exact ((((((outcomeEntry_only x o s).mono (by simp [outcomeBlocks])).trans
    ((outcomeFifo_only x o _).mono (by simp [outcomeBlocks]))).trans
    ((outcomeLog_only x o _ _).mono (by simp [outcomeBlocks]))).trans
    (((cutStaging_only o _).then (clearEngine_only _) (by simp) (by simp)).mono
      (cs := outcomeBlocks x.segment) (bs := [.stage, .hport, .xeng]) (by simp [outcomeBlocks]))).trans
    ((handOver_only x o _ _).mono (by simp [outcomeBlocks]))).trans ((grantFence_only _ _).mono (by simp [outcomeBlocks]))

/-- A CUT touches neither segments nor logs nor reports nor the direct lists (R115). -/
def cutBlocks : List Block := [.table, .walk, .wq, .hport, .stage, .xeng]

theorem directOutcome_cut (l : List Byte) (s : State) : directOutcome .cut l s = s := by
  unfold directOutcome; split <;> rfl

theorem finish_cut_only (x : Exchange) (s : State) : OnlyChanges cutBlocks s (finish .cut x s) := by
  have h0 : haltsByStrike x .cut s = false := by simp [haltsByStrike, strikesHalt, strikes]
  have h1 (u : State) : outcomeFifo x .cut u = u := by unfold outcomeFifo; split <;> simp_all
  have h2 (u : State) : outcomeLog x .cut false u = u := rfl
  have h3 (u : State) : OnlyChanges cutBlocks u (handOver x .cut false u) := by
    unfold handOver
    split
    · rw [directOutcome_cut]
      exact (wakeWalker_only u).mono (by simp [cutBlocks])
    · unfold ringOutcome
      split
      · dsimp only
        split
        · exact (setHand_only _ u).mono (by simp [cutBlocks])
        · exact (endTurn_only _ _ u).mono (by simp [cutBlocks])
      · exact .refl _ u
  unfold finish
  simp only [h0, h1, h2]
  exact (((outcomeEntry_only x .cut s).mono (by simp [cutBlocks])).trans
    (((cutStaging_only .cut _).then (clearEngine_only _) (by simp) (by simp)).mono
      (cs := cutBlocks) (bs := [.stage, .hport, .xeng]) (by simp [cutBlocks]))).trans
    ((h3 _).trans ((grantFence_only _ _).mono (by simp [cutBlocks])))

theorem cutOn_only (g : Seg) (s : State) : OnlyChanges cutBlocks s (cutOn g s) := by
  unfold cutOn
  split
  · split
    · exact finish_cut_only _ s
    · exact .refl _ s
  · exact .refl _ s

/-! ### The Exchange Engine -/

/-- Outcome processing whatever the segment. -/
def endBlocks : List Block := [.table, .rx, .aiu, .elog, .segA, .segB, .walk, .dau, .wq, .hport, .stage, .xeng]

theorem finish_pump_only (o : XOutcome) (x : Exchange) (s : State) :
    OnlyChanges (outcomeBlocks x.segment) s (pumpQueue (finish o x s)) :=
  (finish_only o x s).trans ((pumpQueue_only _).mono (by simp [outcomeBlocks]))

theorem outcomeBlocks_end (g : Seg) : ∀ b ∈ outcomeBlocks g, b ∈ endBlocks := by
  cases g <;> simp [outcomeBlocks, endBlocks, segBlock]

theorem finish_pump_end (o : XOutcome) (x : Exchange) (s : State) : OnlyChanges endBlocks s (pumpQueue (finish o x s)) :=
  (finish_pump_only o x s).mono (outcomeBlocks_end _)

theorem setEngine_only (x : Exchange) (s : State) : OnlyChanges [.xeng] s { s with xeng := some x } := by
  intro b hb; cases b <;> first | rfl | exact absurd (by decide) hb

theorem dropHeld_only (x : Exchange) (s : State) : OnlyChanges [.xeng, .walk, .wq] s (dropHeld x s) := by
  have h0 : OnlyChanges [.xeng, .walk, .wq] s (wakeWalker { s with xeng := none }) :=
    ((clearEngine_only s).mono (by simp)).trans ((wakeWalker_only _).mono (by simp))
  unfold dropHeld
  dsimp only
  split
  · exact h0
  · split
    · rename_i t _
      split
      · exact h0.trans ((setHand_only _ _).mono (by simp))
      · split
        · exact h0.trans ((endTurn_only _ _ _).mono (by simp))
        · have h1 : OnlyChanges [.xeng, .walk, .wq] s (setHand .nothing (releaseSlots (wakeWalker { s with xeng := none }))) :=
            (h0.trans ((releaseSlots_only _).mono (by simp))).trans ((setHand_only _ _).mono (by simp))
          have h3 (c : Bool) (u : State) : OnlyChanges [.xeng, .walk, .wq] u
              (if c = true then passAfter t.addr t.head.w0 u else u) := by
            split
            · exact (passAfter_only _ _ u).mono (by simp)
            · exact .refl _ u
          exact (h1.trans ((putBack_only t _).mono (by simp))).trans (h3 _ _)
    · exact h0

theorem exchangeStart_only (s : State) : OnlyChanges [.xeng, .walk, .wq, .hport, .aiu] s (exchangeStart s) := by
  unfold exchangeStart
  split
  · split
    · split
      · exact (setEngine_only _ s).mono (by simp)
      · exact ((dropHeld_only _ s).mono (by simp)).trans ((pumpQueue_only _).mono (by simp))
    · exact .refl _ s
  · exact .refl _ s

theorem requestSent_only (s : State) : OnlyChanges [.xeng, .elog, .aiu, .stage, .hport, .seq, .walk] s (requestSent s) := by
  unfold requestSent
  split
  · rename_i x _
    split
    · have h1 (u : State) : OnlyChanges [.xeng, .elog, .aiu, .stage, .hport, .seq, .walk] u
          (match x.request with
            | .pull _ => u
            | .peek _ => u
            | _ => emptyStaging u) := by
        split
        · exact .refl _ u
        · exact .refl _ u
        · exact (emptyStaging_only u).mono (by simp)
      dsimp only
      exact (((setEngine_only _ s).mono (by simp)).trans (h1 _)).trans ((lookAhead_only _).mono (by simp))
    · exact .refl _ s
  · exact .refl _ s

theorem replyBegun_only (s : State) : OnlyChanges [.xeng] s (replyBegun s) := by
  unfold replyBegun
  split
  · split
    · exact setEngine_only _ s
    · exact .refl _ s
  · exact .refl _ s

theorem replyEnd_only (r : Reply) (s : State) : OnlyChanges endBlocks s (replyEnd r s) := by
  unfold replyEnd
  split
  · split
    · dsimp only
      split
      · exact (setEngine_only _ s).mono (by simp [endBlocks])
      · exact finish_pump_end _ _ s
    · exact .refl _ s
  · exact .refl _ s

theorem replyTimeout_only (s : State) : OnlyChanges endBlocks s (replyTimeout s) := by
  unfold replyTimeout
  split
  · split
    · exact finish_pump_end _ _ s
    · exact .refl _ s
  · exact .refl _ s

theorem acceptSent_only (s : State) : OnlyChanges endBlocks s (acceptSent s) := by
  unfold acceptSent
  split
  · split
    · exact finish_pump_end _ _ s
    · exact .refl _ s
  · exact .refl _ s

theorem cutoff_only (s : State) : OnlyChanges (.freeDraws :: endBlocks) s (cutoff s) := by
  unfold cutoff
  split
  · split
    · exact (finish_pump_end _ _ s).mono (fun _ hb => List.mem_cons_of_mem _ hb)
    · have h : OnlyChanges (.freeDraws :: endBlocks) s { s with freeDraws := s.freeDraws + 1 } := by
        intro b hb; cases b <;> first | rfl | exact absurd (by decide) hb
      exact h.trans ((finish_pump_end _ _ _).mono (fun _ hb => List.mem_cons_of_mem _ hb))
    · exact (finish_pump_end _ _ s).mono (fun _ hb => List.mem_cons_of_mem _ hb)
  · exact .refl _ s

/-! ### Segments -/

/-- What an operation on one segment may change. -/
def segOpBlocks (g : Seg) : List Block := [segBlock g, .seq, .table, .walk, .xeng, .stage, .wq, .aiu, .elog, .hport]

theorem silenceSegment_only (g : Seg) (s : State) : OnlyChanges (segOpBlocks g) s (silenceSegment g s) :=
  (cutOn_only g s).then (stopDriving_only g _) (by simp [cutBlocks, segOpBlocks]) (by simp [segOpBlocks])

theorem ignoreOp_only (g : Seg) (s : State) : OnlyChanges [segBlock g, .aiu, .elog, .walk] s (ignoreOp g s) :=
  ((setSeg_only g _ s).mono (by simp)).trans ((offerBus_only _ g _ _).mono (by simp))

theorem leaveTo_only (g : Seg) (m : SegMode) (s : State) : OnlyChanges (segOpBlocks g) s (leaveTo g m s) :=
  (((silenceSegment_only g s).trans ((setMode_only g m _).mono (by simp [segOpBlocks]))).trans
    ((fallIfLast_only _ _).mono (by simp [segOpBlocks]))).trans ((pumpQueue_only _).mono (by simp [segOpBlocks]))

theorem ignoreOp_seg (g : Seg) (s : State) : OnlyChanges (segOpBlocks g) s (ignoreOp g s) :=
  (ignoreOp_only g s).mono (by simp [segOpBlocks])

theorem segPower_only (g : Seg) (s : State) : OnlyChanges (segOpBlocks g) s (segPower g s) := by
  unfold segPower
  split
  · exact (setMode_only g _ s).mono (by simp [segOpBlocks])
  · exact ignoreOp_seg g s

theorem segReset_only (g : Seg) (s : State) : OnlyChanges (segOpBlocks g) s (segReset g s) := by
  unfold segReset
  split
  · exact ((((silenceSegment_only g s).trans ((setMode_only g _ _).mono (by simp [segOpBlocks]))).trans
      ((mapEntries_only _ _).mono (by simp [segOpBlocks]))).trans
      ((fallIfLast_only _ _).mono (by simp [segOpBlocks]))).trans ((pumpQueue_only _).mono (by simp [segOpBlocks]))
  · exact ignoreOp_seg g s

theorem segDisable_only (g : Seg) (s : State) : OnlyChanges (segOpBlocks g) s (segDisable g s) := by
  unfold segDisable
  split
  · exact .refl _ s
  · exact ((((silenceSegment_only g s).trans ((setSeg_only g _ _).mono (by simp [segOpBlocks]))).trans
      ((setMode_only g _ _).mono (by simp [segOpBlocks]))).trans
      ((fallIfLast_only _ _).mono (by simp [segOpBlocks]))).trans ((pumpQueue_only _).mono (by simp [segOpBlocks]))

theorem segDoze_only (g : Seg) (s : State) : OnlyChanges (segOpBlocks g) s (segDoze g s) := by
  unfold segDoze
  split
  · exact (setMode_only g _ s).mono (by simp [segOpBlocks])
  · exact ignoreOp_seg g s

theorem segWake_only (g : Seg) (s : State) : OnlyChanges (segOpBlocks g) s (segWake g s) := by
  unfold segWake
  split
  · exact (setMode_only g _ s).mono (by simp [segOpBlocks])
  · exact ignoreOp_seg g s

theorem segRelease_only (g : Seg) (s : State) : OnlyChanges (segOpBlocks g) s (segRelease g s) := by
  unfold segRelease
  split
  · exact ((setSeg_only g _ s).mono (by simp [segOpBlocks])).trans ((wakeWalker_only _).mono (by simp [segOpBlocks]))
  · exact ignoreOp_seg g s

theorem offerOp_only (op : BitVec 3) (g : Seg) (s : State) : OnlyChanges (segOpBlocks g) s (offerOp op g s) := by
  unfold offerOp
  split
  · exact segPower_only g s
  · exact segReset_only g s
  · exact segDisable_only g s
  · exact segDoze_only g s
  · exact segWake_only g s
  · exact segRelease_only g s
  · exact .refl _ s

/-- What a command's seg_op may change. -/
def segOpsBlocks : List Block := [.segA, .segB, .seq, .table, .walk, .xeng, .stage, .wq, .aiu, .elog, .hport]

theorem segOpBlocks_ops (g : Seg) : ∀ b ∈ segOpBlocks g, b ∈ segOpsBlocks := by
  cases g <;> simp [segOpBlocks, segOpsBlocks, segBlock]

theorem offerOps_only (w : Word) (s : State) : OnlyChanges segOpsBlocks s (offerOps w s) := by
  have o (p : Bool) (g : Seg) (u : State) : OnlyChanges segOpsBlocks u (if p then offerOp (segOp w) g u else u) := by
    split
    · exact (offerOp_only _ g u).mono (segOpBlocks_ops g)
    · exact .refl _ u
  exact (o _ .a s).trans (o _ .b _)

theorem biasChange_only (g : Seg) (l : Bool) (s : State) : OnlyChanges (segOpBlocks g) s (biasChange g l s) := by
  have h : OnlyChanges (segOpBlocks g) s (setBias g l s) := (setSeg_only g _ s).mono (by simp [segOpBlocks])
  unfold biasChange
  split
  · exact .refl _ s
  · dsimp only
    split
    · exact h
    · exact h
    · exact h.trans ((setMode_only g _ _).mono (by simp [segOpBlocks]))
    · exact h
    · exact h
    · exact h.trans (leaveTo_only g _ _)

theorem flagFault_only (g : Seg) (s : State) : OnlyChanges [segBlock g, .aiu] s (flagFault g s) :=
  (setSeg_only g _ s).then (setEdge_only _ _) (by simp) (by simp)

theorem babble_only (g : Seg) (d : Bool) (s : State) : OnlyChanges (segOpBlocks g) s (babble g d s) := by
  unfold babble
  split
  · exact (((((silenceSegment_only g s).trans ((setMode_only g _ _).mono (by simp [segOpBlocks]))).trans
      ((flagFault_only g _).mono (by simp [segOpBlocks]))).trans
      ((offerBus_only _ g _ _).mono (by simp [segOpBlocks]))).trans
      ((fallIfLast_only _ _).mono (by simp [segOpBlocks]))).trans ((pumpQueue_only _).mono (by simp [segOpBlocks]))
  · exact .refl _ s

theorem wakeRequest_only (g : Seg) (a : Bool) (s : State) :
    OnlyChanges [segBlock g, .aiu, .walk] s (wakeRequest g a s) := by
  unfold wakeRequest
  split
  · exact (setMode_only g _ s).trans
      (((setSeg_only g _ _).then (setEdge_only _ _) (ds := [segBlock g, .aiu]) (by simp) (by simp)).mono (by simp))
  · exact .refl _ s

theorem writeSegCfgByte_only (g : Seg) (v : BitVec 8) (s : State) :
    OnlyChanges [segBlock g, .aiu, .elog, .walk] s (writeSegCfgByte g v s) := by
  unfold writeSegCfgByte
  dsimp only
  split
  · exact (setSeg_only g _ s).mono (by simp)
  · split
    · exact (setSeg_only g _ s).mono (by simp)
    · exact ((setSeg_only g _ s).mono (by simp)).trans (ignoreOp_only g _)

theorem writeSegCfg_only (v : Word) (s : State) : OnlyChanges [.segA, .segB, .aiu, .elog, .walk] s (writeSegCfg v s) :=
  ((writeSegCfgByte_only .a _ s).mono (by simp [segBlock])).trans ((writeSegCfgByte_only .b _ _).mono (by simp [segBlock]))

theorem readSegStatus_only (g : Seg) (s : State) : OnlyChanges [segBlock g, .hport] s (readSegStatus g s) := by
  intro b hb; cases g <;> cases b <;> first | rfl | exact absurd (by decide) hb

/-! ### The Cycle Timer -/

theorem startBeacon_only (g : Seg) (s : State) : OnlyChanges [segBlock g] s (startBeacon g s) := by
  unfold startBeacon
  split
  · exact setSeg_only g _ s
  · exact stopDriving_only g s

theorem startWalker_only (latch : State → State) (hl : ∀ u, OnlyChanges [.walk] u (latch u)) (s : State) :
    OnlyChanges [.wq, .walk, .hport, .stage] s (startWalker latch s) := by
  have m (u : State) (w : Walker) : OnlyChanges [.walk] u { u with walk := w } := by
    intro b hb; cases b <;> first | rfl | exact absurd (by decide) hb
  unfold startWalker
  dsimp only
  exact (((((abandonDecision_only s).mono (by simp)).trans ((m _ _).mono (by simp))).trans
    ((stageAtCycleStart_only _).mono (by simp))).trans ((hl _).mono (by simp))).trans ((wakeWalker_only _).mono (by simp))

theorem countStart_only (g : Seg) (p : Bool) (s : State) : OnlyChanges [segBlock g, .aiu, .walk] s (countStart g p s) := by
  have q (v : Segment) : OnlyChanges [segBlock g, .aiu, .walk] s (setSeg g v s) := (setSeg_only g v s).mono (by simp)
  unfold countStart
  dsimp only
  split
  · split
    · exact setMode_only g _ s
    · exact q _
  · split
    · exact q _
    · split
      · exact setMode_only g _ s
      · exact q _
  · exact .refl _ s

theorem startTransitions_only (w : Bool) (s : State) :
    OnlyChanges [.seq, .aiu, .walk, .wq, .hport] s (startTransitions w s) := by
  unfold startTransitions
  split
  · exact setCtrl_only _ s
  · split
    · exact setCtrl_only _ s
    · exact .refl _ s
  · exact .refl _ s

/-- What a cycle start may change, exchange processing apart. -/
def startBlocks : List Block := [.seq, .segA, .segB, .ctim, .walk, .stage, .wq, .aiu, .hport]

theorem reloadSample_only (n : Bool) (s : State) : OnlyChanges [.ctim, .aiu] s (setEdge irqCycle (startSample (startReload n s))) := by
  intro b hb; cases b <;> first | rfl | exact absurd (by decide) hb

theorem cycleActions_only (a b : Bool) (s : State) : OnlyChanges startBlocks s (cycleActions a b s) := by
  unfold cycleActions
  dsimp only
  exact (((((((reloadSample_only true s).mono (by simp [startBlocks])).trans
    ((startBeacon_only .a _).mono (by simp [startBlocks, segBlock]))).trans
    ((startBeacon_only .b _).mono (by simp [startBlocks, segBlock]))).trans
    ((startWalker_only latchWritten latchWritten_only _).mono (by simp [startBlocks]))).trans
    ((countStart_only .a _ _).mono (by simp [startBlocks, segBlock]))).trans
    ((countStart_only .b _ _).mono (by simp [startBlocks, segBlock]))).trans
    ((startTransitions_only _ _).mono (by simp [startBlocks]))

/-- What the end of a cycle and the next start may change. -/
def cycleBlocks : List Block :=
  [.seq, .segA, .segB, .ctim, .table, .walk, .xeng, .stage, .rx, .wq, .dau, .aiu, .elog, .hport, .freeDraws]

theorem setPins_only (a b : Bool) (s : State) : OnlyChanges [.segA, .segB] s (setPins a b s) := by
  intro c hc; cases c <;> first | rfl | exact absurd (by decide) hc

theorem cycleStart_only (a b : Bool) (s : State) : OnlyChanges cycleBlocks s (cycleStart a b s) := by
  unfold cycleStart
  split
  · exact .refl _ s
  · exact ((((cutoff_only s).mono (by simp [endBlocks, cycleBlocks])).trans
      ((setPins_only a b _).mono (by simp [cycleBlocks]))).trans
      ((cycleActions_only a b _).mono (by simp [startBlocks, cycleBlocks]))).trans
      ((pumpQueue_only _).mono (by simp [cycleBlocks]))

theorem immediateCycleStart_only (s : State) :
    OnlyChanges [.ctim, .aiu, .wq, .walk, .hport, .stage] s (immediateCycleStart s) :=
  ((reloadSample_only false s).mono (by simp)).trans ((startWalker_only latchAll latchAll_only _).mono (by simp))

theorem beaconEnd_only (s : State) : OnlyChanges [.segA, .segB, .walk] s (beaconEnd s) := by
  unfold beaconEnd
  split
  · intro b hb; cases b <;> first | rfl | exact absurd (by decide) hb
  · exact .refl _ s

theorem periodicOpenReached_only (s : State) : OnlyChanges [.ctim, .walk] s (periodicOpenReached s) := by
  unfold periodicOpenReached
  split
  · exact .refl _ s
  · intro b hb; cases b <;> first | rfl | exact absurd (by decide) hb

theorem setRemain_only (r : BitVec 13) (s : State) : OnlyChanges [.ctim] s { s with ctim := { s.ctim with remain := r } } := by
  intro b hb; cases b <;> first | rfl | exact absurd (by decide) hb

theorem cycleEndCutoff_only (s : State) : OnlyChanges cycleBlocks s (cycleEndCutoff s) := by
  unfold cycleEndCutoff
  split
  · exact .refl _ s
  · exact ((setRemain_only 0 s).mono (by simp [cycleBlocks])).trans
      ((cutoff_only _).mono (by simp [endBlocks, cycleBlocks]))

theorem tick_only (s : State) : OnlyChanges cycleBlocks s (tick s) := by
  unfold tick
  split
  · exact .refl _ s
  · split
    · exact cycleStart_only _ _ s
    · have h1 (u : State) : OnlyChanges cycleBlocks u (if u.ctim.remain = u.ctim.openSampled then wakeWalker u else u) := by
        split
        · exact (wakeWalker_only u).mono (by simp [cycleBlocks])
        · exact .refl _ u
      have h2 (u : State) : OnlyChanges cycleBlocks u (if u.ctim.remain = 0 then cutoff u else u) := by
        split
        · exact (cutoff_only u).mono (by simp [endBlocks, cycleBlocks])
        · exact .refl _ u
      exact (((setRemain_only (s.ctim.remain - 1) s).mono (by simp [cycleBlocks])).trans (h1 _)).trans (h2 _)

/-! ### The Sequencer -/

/-- What a command may change; OFFLINE also changes the table's flags and the timer. -/
def commandBlocks : List Block :=
  [.seq, .segA, .segB, .ctim, .table, .walk, .xeng, .stage, .rx, .wq, .dau, .aiu, .elog, .hport]

theorem recordRefusal_only (r : RefuseReason) (s : State) : OnlyChanges [.seq, .aiu] s (recordRefusal r s) := by
  intro b hb; cases b <;> first | rfl | exact absurd (by decide) hb

theorem takeCommand_only (op : BitVec 3) (f : Word → State → State) {bs : List Block}
    (hf : ∀ w u, OnlyChanges bs u (f w u)) (hs : .seq ∈ bs) (ha : .aiu ∈ bs) (s : State) :
    OnlyChanges bs s (takeCommand op f s) := by
  unfold takeCommand
  split
  · exact .refl _ s
  · split
    · split
      · exact hf _ s
      · exact ((recordRefusal_only _ s).mono (by simp [hs, ha])).trans ((finishCommand_only _).mono (by simp [hs]))
    · exact .refl _ s

theorem acceptNop_only (w : Word) (s : State) : OnlyChanges segOpsBlocks s (acceptNop w s) :=
  (offerOps_only w s).trans ((finishCommand_only _).mono (by simp [segOpsBlocks]))

theorem acceptConfigure_only (w : Word) (s : State) : OnlyChanges (.ctim :: segOpsBlocks) s (acceptConfigure w s) :=
  ((((setCtrl_only .ready s).mono (by simp [segOpsBlocks])).trans
    ((immediateCycleStart_only _).mono (by simp [segOpsBlocks]))).trans
    ((offerOps_only w _).mono (fun _ hb => List.mem_cons_of_mem _ hb))).trans ((finishCommand_only _).mono (by simp [segOpsBlocks]))

theorem acceptRun_only (w : Word) (s : State) : OnlyChanges segOpsBlocks s (acceptRun w s) :=
  (((setCtrl_only .running s).mono (by simp [segOpsBlocks])).trans (offerOps_only w _)).trans
    ((finishCommand_only _).mono (by simp [segOpsBlocks]))

theorem acceptStop_only (w : Word) (s : State) : OnlyChanges segOpsBlocks s (acceptStop w s) := by
  have h : OnlyChanges segOpsBlocks s (if s.seq.state = .stopping then s else pumpQueue (setCtrl .stopping s)) := by
    split
    · exact .refl _ s
    · exact ((setCtrl_only .stopping s).mono (by simp [segOpsBlocks])).trans ((pumpQueue_only _).mono (by simp [segOpsBlocks]))
  exact (h.trans (offerOps_only w _)).trans ((finishCommand_only _).mono (by simp [segOpsBlocks]))

theorem handAtRestart_only (s : State) : OnlyChanges [.wq, .walk] s (handAtRestart s) := by
  unfold handAtRestart
  split
  · split
    · exact .refl _ s
    · exact .refl _ s
    · exact .refl _ s
    · exact finishSkip_only _ _ _ s
    · exact endTurn_only _ _ s
    · exact endTurn_only _ _ s
    · exact endTurn_only _ _ s
  · exact ((releaseSlots_only s).mono (by simp)).trans ((setHand_only _ _).mono (by simp))

theorem acceptRestart_only (w : Word) (s : State) : OnlyChanges [.seq, .hport, .walk, .wq] s (acceptRestart w s) := by
  have h : OnlyChanges [.seq, .hport, .walk, .wq] s (setLook .nothing (cancelAllReads { s with
      seq := { s.seq with command := none, restartInHand := true, restartFaulted := false } })) := by
    intro b hb; cases b <;> first | rfl | exact absurd (by decide) hb
  exact h.trans ((handAtRestart_only _).mono (by simp))

theorem closeOpenPass_only (s : State) : OnlyChanges [.walk] s (closeOpenPass s) := by
  unfold closeOpenPass
  split
  · exact .refl _ s
  · intro b hb; cases b <;> first | rfl | exact absurd (by decide) hb

theorem emptySlots_only (s : State) : OnlyChanges [.walk] s (emptySlots s) := by
  intro b hb; cases b <;> first | rfl | exact absurd (by decide) hb

theorem emptyAttn_only (s : State) : OnlyChanges [.aiu] s (emptyAttn s) := by
  intro b hb; cases b <;> first | rfl | exact absurd (by decide) hb

/-- What the restart actions may change. -/
def restartBlocks : List Block := [.seq, .table, .walk, .stage, .rx, .wq, .dau, .aiu, .hport]

theorem restartActionsBody_only (s : State) : OnlyChanges restartBlocks s (restartActionsBody s) := by
  unfold restartActionsBody
  dsimp only
  exact ((((((((discardQueue_only s).mono (by simp [restartBlocks])).trans
    ((emptyStaging_only _).mono (by simp [restartBlocks]))).trans
    ((latchAll_only _).mono (by simp [restartBlocks]))).trans
    ((emptySlots_only _).mono (by simp [restartBlocks]))).trans
    ((closeOpenPass_only _).mono (by simp [restartBlocks]))).trans
    ((emptyLists_only _).mono (by simp [restartBlocks]))).trans
    ((emptyAttn_only _).mono (by simp [restartBlocks]))).trans ((mapEntries_only _ _).mono (by simp [restartBlocks]))

theorem restartActions_only (s : State) : OnlyChanges restartBlocks s (restartActions s) := by
  have e (u : State) (q : Sequencer) : OnlyChanges restartBlocks u (wakeWalker (setEdge irqSeq { finishCommand u with seq := q })) := by
    intro b hb; cases b <;> first | rfl | exact absurd (by decide) hb
  unfold restartActions
  split
  · dsimp only
    exact ((restartActionsBody_only s).trans ((setCtrl_only _ _).mono (by simp [restartBlocks]))).trans (e _ _)
  · exact .refl _ s

theorem acceptOffline_only (w : Word) (s : State) : OnlyChanges commandBlocks s (acceptOffline w s) := by
  have c : OnlyChanges commandBlocks s (cutAny s) := by
    unfold cutAny
    split
    · exact (finish_cut_only _ s).mono (by simp [cutBlocks, commandBlocks])
    · exact .refl _ s
  have r (u v : State) (h : v.select = u.select ∧ v.freeDraws = u.freeDraws ∧ v.pending = u.pending) :
      OnlyChanges commandBlocks u v := by
    intro b hb
    cases b <;> first | exact h.1 | exact h.2.1 | exact h.2.2 | exact absurd (by decide) hb
  unfold acceptOffline
  split
  · exact (finishCommand_only s).mono (by simp [commandBlocks])
  · dsimp only
    exact c.trans (r _ _ ⟨rfl, rfl, rfl⟩)

theorem sealCompletion_only (s : State) : OnlyChanges [.seq, .wq, .rx, .hport, .dau] s (sealCompletion s) := by
  unfold sealCompletion
  split
  · dsimp only
    have h : OnlyChanges [.seq, .wq, .rx, .hport, .dau] (discardQueue s)
        { discardQueue s with seq := { (discardQueue s).seq with sealPending := false } } := by
      intro b hb; cases b <;> first | rfl | exact absurd (by decide) hb
    exact (((discardQueue_only s).mono (by simp)).trans h).trans ((sealFlush_only _ _).mono (by simp))
  · exact .refl _ s

/-! ### The Station Table -/

theorem markRewritten_only (s : State) : OnlyChanges [.xeng] s (markRewritten s) := by
  intro b hb; cases b <;> first | rfl | exact absurd (by decide) hb

theorem afterAccepted_only (i : EntryIx) (r : Bool) (s : State) : OnlyChanges [.xeng, .walk] s (afterAccepted i r s) := by
  unfold afterAccepted
  split
  · exact ((markRewritten_only s).mono (by simp)).trans ((wakeWalker_only _).mono (by simp))
  · exact (wakeWalker_only s).mono (by simp)

/-- What an entry write may change. -/
def entryWriteBlocks : List Block := [.table, .xeng, .walk, .seq, .segA, .segB, .aiu, .elog]

theorem refuseTable_only (i : EntryIx) (g : Seg) (s : State) : OnlyChanges entryWriteBlocks s (refuseTable i g s) := by
  have h : OnlyChanges entryWriteBlocks s { s with seq := { s.seq with tableRefused := true } } := by
    intro b hb; cases b <;> first | rfl | exact absurd (by decide) hb
  exact h.trans ((offerBus_only _ g i _).mono (by cases g <;> simp [entryWriteBlocks, segBlock]))

theorem writeEntryW0_only (v : Word) (s : State) : OnlyChanges entryWriteBlocks s (writeEntryW0 v s) := by
  unfold writeEntryW0
  dsimp only
  split
  · exact .refl _ s
  · split
    · exact ((setEntry_only _ _ s).mono (by simp [entryWriteBlocks])).trans
        ((afterAccepted_only _ _ _).mono (by simp [entryWriteBlocks]))
    · exact ((setEntry_only _ _ s).mono (by simp [entryWriteBlocks])).trans (refuseTable_only _ _ _)

theorem writeEntryW1_only (v : Word) (s : State) : OnlyChanges entryWriteBlocks s (writeEntryW1 v s) := by
  unfold writeEntryW1
  dsimp only
  split
  · exact .refl _ s
  · split
    · exact ((setEntry_only _ _ s).mono (by simp [entryWriteBlocks])).trans
        ((afterAccepted_only _ _ _).mono (by simp [entryWriteBlocks]))
    · exact refuseTable_only _ _ s

/-! ### The Receive ring's registers -/

theorem writeRxBase_only (v : Word) (s : State) : OnlyChanges [.rx, .aiu, .elog] s (writeRxBase v s) := by
  unfold writeRxBase
  split
  · intro b hb; cases b <;> first | rfl | exact absurd (by decide) hb
  · exact (offerHost_only _ _ _ s).mono (by simp)

theorem writeRxSize_only (v : Word) (s : State) : OnlyChanges [.rx, .aiu, .elog] s (writeRxSize v s) := by
  unfold writeRxSize
  split
  · split
    · intro b hb; cases b <;> first | rfl | exact absurd (by decide) hb
    · exact (offerHost_only _ _ _ s).mono (by simp)
  · exact (offerHost_only _ _ _ s).mono (by simp)

theorem writeRxReturn_only (v : Word) (s : State) : OnlyChanges [.rx, .aiu, .elog, .wq, .hport] s (writeRxReturn v s) := by
  unfold writeRxReturn
  split
  · have h (r : Receive) : OnlyChanges [.rx, .aiu, .elog, .wq, .hport] s { s with rx := r } := by
      intro b hb; cases b <;> first | rfl | exact absurd (by decide) hb
    exact (h _).trans ((pumpQueue_only _).mono (by simp))
  · exact (offerHost_only _ _ _ s).mono (by simp)

/-! ### Error completions -/

/-- What an error completion may change. -/
def faultBlocks : List Block := [.elog, .aiu, .stage, .hport, .seq, .walk, .wq]

theorem hostMemoryFault_only (c : Chan) (o : BitVec 10) (s : State) : OnlyChanges faultBlocks s (hostMemoryFault c o s) := by
  unfold hostMemoryFault
  split
  · unfold readFault
    split
    · exact .refl _ s
    · split
      · exact ((accessFault_only _ _ _ _ s).mono (by simp [faultBlocks])).trans ((popRead_only _).mono (by simp [faultBlocks]))
      · exact .refl _ s
  · unfold writeFault
    split
    · exact .refl _ s
    · split
      · have h (p : HostPort) (q : WriteQueue) : OnlyChanges faultBlocks s { s with hport := p, wq := q } := by
          intro b hb; cases b <;> first | rfl | exact absurd (by decide) hb
        exact ((h _ _).trans ((accessFault_only _ _ _ _ _).mono (by simp [faultBlocks]))).trans
          ((pumpQueue_only _).mono (by simp [faultBlocks]))
      · exact .refl _ s

end Sys2Proof.Machine
end

