-- ==== Sys2Proof/Laws/Effects.lean ====
section
/-! SUPPORT. What the shared operations do to the fields they may change: the Write Queue, the interrupt edges, the
attention queue, the Station Table, the segments, the controller state, the engine and the Bank. -/

namespace Sys2Proof.Machine

/-! ### The Write Queue (R127, R129) -/

/-- With room or a reserved slot the item joins the back, and a reserved slot is used up. -/
theorem enqueue_of_room {s : State} (i : WqItem) (h : s.wq.items.length < 32 ∨ 0 < s.wq.reserved) :
    (enqueue i s).wq = { s.wq with items := s.wq.items ++ [i], reserved := s.wq.reserved - 1 } := by
  unfold enqueue
  rw [if_neg]
  simp only [Config.writeQueueSize]
  omega

theorem enqueue_items_of_room {s : State} (i : WqItem) (h : s.wq.items.length < 32 ∨ 0 < s.wq.reserved) :
    (enqueue i s).wq.items = s.wq.items ++ [i] := by rw [enqueue_of_room i h]

theorem enqueue_fits {s : State} (i : WqItem) (h : queueFits s) : queueFits (enqueue i s) := by
  unfold queueFits Config.writeQueueSize at *
  unfold enqueue Config.writeQueueSize
  split
  · exact h
  · simp only [List.length_append, List.length_singleton]; omega

theorem reserve_fits {s : State} (n : Nat) (h : queueFits s) (room : n ≤ freeSlots s) : queueFits (reserve n s) := by
  unfold queueFits freeSlots Config.writeQueueSize at *
  simp only [reserve]; omega

theorem releaseSlots_fits {s : State} (h : queueFits s) : queueFits (releaseSlots s) := by
  unfold queueFits at *
  simp only [releaseSlots]; omega

theorem popItem_fits {s : State} (h : queueFits s) : queueFits (popItem s) := by
  unfold queueFits at *
  simp only [popItem, List.length_tail]; omega

theorem discardQueue_fits (s : State) : queueFits (discardQueue s) := by
  unfold queueFits; simp [discardQueue, orphanWrite, cancelReads]

theorem drainStep_items (len : Nat) (i : EntryIx) (c : RingClass) (n : BitVec 16) (e : Bool) (s : State) :
    (drainStep len i c n e s).wq.items = s.wq.items ∧ (drainStep len i c n e s).wq.reserved = s.wq.reserved := by
  unfold drainStep
  cases s.wq.drain with
  | holds a k =>
    dsimp only
    split
    · exact ⟨rfl, rfl⟩
    · split <;> exact ⟨rfl, rfl⟩
  | written k => dsimp only; split <;> exact ⟨rfl, rfl⟩
  | needs => dsimp only; split <;> exact ⟨rfl, rfl⟩
  | waits => dsimp only; split <;> exact ⟨rfl, rfl⟩
  | fetching => exact ⟨rfl, rfl⟩
  | writing k => exact ⟨rfl, rfl⟩
  | writingBack k => exact ⟨rfl, rfl⟩

theorem pumpQueue_wq (s : State) :
    (pumpQueue s).wq.items = s.wq.items ∧ (pumpQueue s).wq.reserved = s.wq.reserved := by
  unfold pumpQueue
  split
  · split
    · exact ⟨rfl, rfl⟩
    · exact drainStep_items _ _ _ _ _ _
    · split <;> exact ⟨rfl, rfl⟩
  · exact ⟨rfl, rfl⟩

@[simp] theorem pumpQueue_items (s : State) : (pumpQueue s).wq.items = s.wq.items := (pumpQueue_wq s).1

@[simp] theorem pumpQueue_reserved (s : State) : (pumpQueue s).wq.reserved = s.wq.reserved := (pumpQueue_wq s).2

theorem pumpQueue_fits {s : State} (h : queueFits s) : queueFits (pumpQueue s) := by
  unfold queueFits at *; simpa using h

/-! ### Interrupt edges and attention records (R146, R149) -/

/-- Setting an edge sets that bit alone. -/
theorem setEdge_bit (i n : Nat) (s : State) (h : i < 11) :
    (setEdge i s).aiu.edges.getLsbD n = (s.aiu.edges.getLsbD n || decide (n = i)) := by
  simp only [setEdge, BitVec.getLsbD_or, BitVec.getLsbD_shiftLeft]
  congr 1
  by_cases hn : n = i
  · subst hn; simp [h]
  · by_cases hlt : n < i
    · simp [hlt, hn]
    · have : n - i ≠ 0 := by omega
      simp [hn, BitVec.getLsbD_one, this]

/-- The edges an operation leaves are those before it, and RXLOW where a packet began to wait (R126). -/
theorem drainStep_aiu (len : Nat) (i : EntryIx) (c : RingClass) (n : BitVec 16) (e : Bool) (s : State) :
    (drainStep len i c n e s).aiu = s.aiu ∨
      (drainStep len i c n e s).aiu = { s.aiu with edges := s.aiu.edges ||| (1#11 <<< irqRxlow) } := by
  unfold drainStep
  cases s.wq.drain with
  | needs =>
    dsimp only
    split
    · exact Or.inr rfl
    · exact Or.inl rfl
  | holds a k =>
    dsimp only
    split
    · exact Or.inl rfl
    · split <;> exact Or.inl rfl
  | written k => dsimp only; split <;> exact Or.inl rfl
  | waits => dsimp only; split <;> exact Or.inl rfl
  | fetching => exact Or.inl rfl
  | writing k => exact Or.inl rfl
  | writingBack k => exact Or.inl rfl

theorem pumpQueue_aiu (s : State) :
    (pumpQueue s).aiu = s.aiu ∨
      (pumpQueue s).aiu = { s.aiu with edges := s.aiu.edges ||| (1#11 <<< irqRxlow) } := by
  unfold pumpQueue
  split
  · split
    · exact Or.inl rfl
    · exact drainStep_aiu _ _ _ _ _ _
    · split <;> exact Or.inl rfl
  · exact Or.inl rfl

theorem setEdge_levels {s : State} (i : Nat) (h : levelBitsFree s) (lt : i < 11) (h1 : i ≠ 1) (h9 : i ≠ 9) :
    levelBitsFree (setEdge i s) := by
  unfold levelBitsFree at *
  rw [setEdge_bit i 1 s lt, setEdge_bit i 9 s lt, h.1, h.2]
  simp only [Bool.false_or, decide_eq_false_iff_not]
  exact ⟨fun e => h1 e.symm, fun e => h9 e.symm⟩

theorem pumpQueue_levels {s : State} (h : levelBitsFree s) : levelBitsFree (pumpQueue s) := by
  unfold levelBitsFree at *
  rcases pumpQueue_aiu s with e | e <;> rw [e]
  · exact h
  · simp only [BitVec.getLsbD_or, h.1, h.2]; decide

/-- An offer keeps the attention queue within 16 and lost at 0 without overflow (R146, R148). -/
theorem attnAfterOffer_fits {u : Aiu} (r : Attn)
    (h : u.queue.length ≤ Config.attnQueueSize ∧ (u.overflow = false → u.lost = 0)) :
    (attnAfterOffer u r).queue.length ≤ Config.attnQueueSize ∧
      ((attnAfterOffer u r).overflow = false → (attnAfterOffer u r).lost = 0) := by
  unfold attnAfterOffer
  split
  · exact h
  · split
    · exact ⟨h.1, fun e => by simp at e⟩
    · refine ⟨?_, h.2⟩
      simp only [List.length_append, List.length_singleton]
      omega

theorem attnAfterOffer_edges (u : Aiu) (r : Attn) : (attnAfterOffer u r).edges = u.edges := by
  unfold attnAfterOffer
  split
  · rfl
  · split <;> rfl

/-- An offer touches neither the mask nor ATTN_HEAD. -/
theorem attnAfterOffer_rest (u : Aiu) (r : Attn) :
    (attnAfterOffer u r).mask = u.mask ∧ (attnAfterOffer u r).attnHead = u.attnHead := by
  unfold attnAfterOffer
  split
  · exact ⟨rfl, rfl⟩
  · split <;> exact ⟨rfl, rfl⟩

/-! ### Logs and quarantine (R152 to R156) -/

@[simp] theorem quarantine_elog (g : Seg) (s : State) : (quarantine g s).elog = s.elog := by
  unfold quarantine
  split
  · rfl
  · cases g <;> rfl

@[simp] theorem quarantine_aiu (g : Seg) (s : State) : (quarantine g s).aiu = s.aiu := by
  unfold quarantine
  split
  · rfl
  · cases g <;> rfl

/-- After it the segment is quarantined and otherwise as it was. -/
theorem getSeg_quarantine (g : Seg) (s : State) :
    getSeg (quarantine g s) g = { getSeg s g with quarantined := true } := by
  unfold quarantine
  split
  · next h => cases hg : getSeg s g; simp only [hg] at h; simp [h]
  · cases g <;> rfl

@[simp] theorem getSeg_quarantine_other (g : Seg) (s : State) :
    getSeg (quarantine g s) (otherSeg g) = getSeg s (otherSeg g) := by
  unfold quarantine
  split
  · rfl
  · cases g <;> rfl

/-- The Bus Log after an offer, whatever follows from it. -/
theorem offerBus_elog (code : BitVec 8) (g : Option Seg) (i : EntryIx) (s : State) :
    (offerBus code g i s).elog = busAfterOffer s.elog code ((g.map segDetail).getD 0) i (cycleLow12 s) := by
  unfold offerBus
  cases g with
  | none => rfl
  | some g =>
    dsimp only
    split
    · rw [quarantine_elog]; rfl
    · rfl

/-- Every offer sets ERRLOG and nothing else of the Attention and Interrupt Unit. -/
theorem offerBus_aiu (code : BitVec 8) (g : Option Seg) (i : EntryIx) (s : State) :
    (offerBus code g i s).aiu = { s.aiu with edges := s.aiu.edges ||| (1#11 <<< irqErrlog) } := by
  unfold offerBus
  cases g with
  | none => rfl
  | some g =>
    dsimp only
    split
    · rw [quarantine_aiu]; rfl
    · rfl

/-- A fatal code quarantines the segment it names, and changes nothing else of it (R156). -/
theorem getSeg_offerBus (code : BitVec 8) (g : Seg) (i : EntryIx) (s : State) :
    getSeg (offerBus code (some g) i s) g =
      { getSeg s g with quarantined := (getSeg s g).quarantined || fatalCode code } := by
  unfold offerBus
  dsimp only
  split
  · next h =>
    rw [getSeg_quarantine, h]
    cases g <;> simp [getSeg, setEdge]
  · next h =>
    rw [Bool.not_eq_true] at h
    rw [h]
    cases g <;> simp [getSeg, setEdge]

/-! ### The Station Table (R64, R70) -/

theorem setEntry_nullEntry {s : State} (i : EntryIx) (e : Entry) (h : nullEntryHolds s) :
    nullEntryHolds (setEntry i e s) := by
  unfold nullEntryHolds at *
  by_cases hi : i = 0
  · subst hi; simpa [setEntry] using h
  · rw [getEntry_setEntry_of_ne e s (Ne.symm hi)]; exact h

theorem mapEntries_nullEntry {s : State} (f : Entry → Entry) (h : nullEntryHolds s) :
    nullEntryHolds (mapEntries f s) := by
  unfold nullEntryHolds at *
  rw [getEntry_mapEntries, if_pos rfl]; exact h

/-- The fence pair and the identity of an entry. -/
def sameIdentity (e f : Entry) : Prop :=
  f.fence = e.fence ∧ f.fenceGranted = e.fenceGranted ∧ f.valid = e.valid ∧ f.segment = e.segment ∧
  f.address = e.address ∧ f.channel = e.channel

theorem strikeOut_identity (e : Entry) : sameIdentity e (strikeOut e) := by
  unfold strikeOut
  dsimp only
  split <;> exact ⟨rfl, rfl, rfl, rfl, rfl, rfl⟩

theorem strikeIn_identity (e : Entry) : sameIdentity e (strikeIn e) := by
  unfold strikeIn
  dsimp only
  split <;> exact ⟨rfl, rfl, rfl, rfl, rfl, rfl⟩

/-- An outcome changes neither the fence pair nor the identity of an entry (R106 to R113). -/
theorem entryAfter_identity (q : Request) (o : XOutcome) (e : Entry) : sameIdentity e (entryAfter q o e) := by
  cases q <;> cases o <;>
    first
      | exact ⟨rfl, rfl, rfl, rfl, rfl, rfl⟩
      | exact strikeOut_identity e
      | exact strikeIn_identity e

/-! ### Segments and the controller (R15, R27, R48) -/

theorem getSeg_setMode (g : Seg) (m : SegMode) (s : State) :
    getSeg (setMode g m s) g =
      { getSeg s g with mode := m, stateChanged := true, counted := 0, wakeAtStart := false } := by
  cases g <;> rfl

@[simp] theorem getSeg_setMode_other (g : Seg) (m : SegMode) (s : State) :
    getSeg (setMode g m s) (otherSeg g) = getSeg s (otherSeg g) := by
  cases g <;> rfl

@[simp] theorem endTurn_seq (t : Turn) (stop : Option Cause) (s : State) : (endTurn t stop s).seq = s.seq :=
  endTurn_only t stop s .seq (by decide)

@[simp] theorem endTurn_aiu (t : Turn) (stop : Option Cause) (s : State) : (endTurn t stop s).aiu = s.aiu :=
  endTurn_only t stop s .aiu (by decide)

@[simp] theorem abandonDecision_seq (s : State) : (abandonDecision s).seq = s.seq :=
  abandonDecision_only s .seq (by decide)

@[simp] theorem abandonDecision_aiu (s : State) : (abandonDecision s).aiu = s.aiu :=
  abandonDecision_only s .aiu (by decide)

@[simp] theorem pumpQueue_seq (s : State) : (pumpQueue s).seq = s.seq := pumpQueue_only s .seq (by decide)

@[simp] theorem pumpQueue_walk (s : State) : (pumpQueue s).walk = s.walk := pumpQueue_only s .walk (by decide)

@[simp] theorem pumpQueue_xeng (s : State) : (pumpQueue s).xeng = s.xeng := pumpQueue_only s .xeng (by decide)

@[simp] theorem pumpQueue_table (s : State) : (pumpQueue s).table = s.table := pumpQueue_only s .table (by decide)

@[simp] theorem pumpQueue_dau (s : State) : (pumpQueue s).dau = s.dau := pumpQueue_only s .dau (by decide)

@[simp] theorem pumpQueue_elog (s : State) : (pumpQueue s).elog = s.elog := pumpQueue_only s .elog (by decide)

@[simp] theorem pumpQueue_rx (s : State) : (pumpQueue s).rx = s.rx := pumpQueue_only s .rx (by decide)

@[simp] theorem pumpQueue_segA (s : State) : (pumpQueue s).segA = s.segA := pumpQueue_only s .segA (by decide)

@[simp] theorem pumpQueue_segB (s : State) : (pumpQueue s).segB = s.segB := pumpQueue_only s .segB (by decide)

@[simp] theorem pumpQueue_stage (s : State) : (pumpQueue s).stage = s.stage := pumpQueue_only s .stage (by decide)

/-- A change of the controller's state changes nothing else of the Sequencer. -/
theorem setCtrl_seq (c : CtrlState) (s : State) : (setCtrl c s).seq = { s.seq with state := c } := by
  unfold setCtrl
  split
  · next h => cases hs : s.seq; simp only [hs] at h; simp [h]
  · dsimp only
    split
    · rfl
    · rw [abandonDecision_seq]; rfl

/-- It sets the SEQ edge unless the state was that one already (R31). -/
theorem setCtrl_aiu (c : CtrlState) (s : State) :
    (setCtrl c s).aiu = if s.seq.state = c then s.aiu else { s.aiu with edges := s.aiu.edges ||| (1#11 <<< irqSeq) } := by
  unfold setCtrl
  split
  · rfl
  · dsimp only
    split
    · rfl
    · rw [abandonDecision_aiu]; rfl

/-- The fall to READY (R27). -/
theorem fallIfLast_seq (w : Bool) (s : State) :
    (fallIfLast w s).seq = { s.seq with
      state := if w = true ∧ anyLive s = false ∧ s.seq.restartInHand = false ∧
        (s.seq.state = .armed ∨ s.seq.state = .running ∨ s.seq.state = .stopping) then .ready else s.seq.state } := by
  unfold fallIfLast
  split
  · next h =>
    rw [setCtrl_seq, if_pos]
    simpa [Bool.and_eq_true, and_assoc, or_assoc] using h
  · next h =>
    rw [if_neg]
    simpa [Bool.and_eq_true, and_assoc, or_assoc] using h

/-! ### The Exchange Engine (R116) -/

/-- The end of an exchange leaves the engine empty. -/
theorem handOver_xeng (x : Exchange) (o : XOutcome) (h : Bool) (s : State) : (handOver x o h s).xeng = s.xeng :=
  handOver_only x o h s .xeng (by decide)

@[simp] theorem finish_xeng (o : XOutcome) (x : Exchange) (s : State) : (finish o x s).xeng = none := by
  unfold finish
  dsimp only
  rw [show ∀ i u, (grantFence i u).xeng = u.xeng from fun i u => grantFence_only i u .xeng (by decide), handOver_xeng]

/-- When the segment's own BEACON counts as being driven (R44, R56). -/
theorem beaconGoesOut_iff (c : Segment) (driving : Bool) :
    beaconGoesOut c driving = true ↔ ∃ b, c.beacon = some b ∧ (driving = true ∨ b.outlived = false) := by
  unfold beaconGoesOut
  split <;> simp_all

/-- What step 4 of a cycle start leaves in the segment's place for a BEACON (R54, R56). -/
theorem startBeacon_beacon (g : Seg) (s : State) :
    (getSeg (startBeacon g s) g).beacon = if getsBeacon s g then some (beaconOf s g) else none := by
  unfold startBeacon stopDriving
  split <;> simp

/-- No exchange is left on a segment that CUTs it (R115). -/
theorem cutOn_off (g : Seg) (s : State) : exchangeOn (cutOn g s) g = false := by
  unfold cutOn
  cases hx : s.xeng with
  | none => simp [exchangeOn, hx]
  | some x =>
    dsimp only
    split
    · simp [exchangeOn]
    · next h => simp [exchangeOn, hx, h]

/-- An exchange on the other segment is left alone. -/
theorem cutOn_of_other {g : Seg} {s : State} (h : exchangeOn s g = false) : cutOn g s = s := by
  unfold cutOn
  cases hx : s.xeng with
  | none => rfl
  | some x =>
    dsimp only
    rw [if_neg]
    simpa [exchangeOn, hx] using h

/-! ### The Bank (R5, R136) -/

/-- A byte of an unlocked place reads as written. -/
theorem bankByte_writeBankByte_same {i : Nat} (b : Byte) (s : State) (h : i < 64) (u : locked s.dau i = false) :
    bankByte (writeBankByte i b s) i = b := by
  unfold writeBankByte
  rw [u]
  simp [bankByte, h]

/-- A locked byte keeps its value, and the write is marked as dropped. -/
theorem writeBankByte_locked {i : Nat} (b : Byte) {s : State} (u : locked s.dau i = true) :
    writeBankByte i b s = { s with dau := { s.dau with bankWriteDropped := true } } := by
  unfold writeBankByte
  rw [u]
  rfl

/-- A write leaves every other byte alone. -/
theorem bankByte_writeBankByte_of_ne {i j : Nat} (b : Byte) (s : State) (ne : j ≠ i) :
    bankByte (writeBankByte i b s) j = bankByte s j := by
  unfold writeBankByte
  split
  · rfl
  · simp [bankByte, List.getElem?_set_ne (Ne.symm ne)]

/-- A completion's bytes stand in the Bank from their offset. -/
theorem putBank_get (bytes : List Byte) (bank : Vector Byte 64) (off i : Nat) (h : i < 64) :
    (putBank bank off bytes)[i] = if off ≤ i ∧ i < off + bytes.length then bytes.getD (i - off) 0 else bank[i] := by
  induction bytes generalizing bank off with
  | nil => simp [putBank]
  | cons b rest ih =>
    rw [putBank, ih]
    by_cases h1 : off = i
    · subst h1
      simp
    · rw [Vector.getElem_setIfInBounds_ne h h1]
      simp only [List.length_cons]
      by_cases h2 : off ≤ i ∧ i < off + (rest.length + 1)
      · rw [if_pos (by omega), if_pos h2]
        have : i - off = (i - (off + 1)) + 1 := by omega
        rw [this]; rfl
      · rw [if_neg (by omega), if_neg h2]

/-! ### Faults and fills -/

/-- The fault of an access that an OFFLINE left outstanding is only logged (R14, R25). -/
@[simp] theorem accessFault_left (c : BitVec 8) (k : BitVec 4) (a : Word) (s : State) :
    accessFault true c k a s = offerHost c k a s := rfl

/-- Any other fault is taken by the controller's state (R29). -/
@[simp] theorem accessFault_kept (c : BitVec 8) (k : BitVec 4) (a : Word) (s : State) :
    accessFault false c k a s = hostFault c k a s := rfl

/-- A later request for the waiting tag changes nothing (R117). -/
theorem requestFill_of_waiting {s : State} {t : Option StageTag} {q w : FillReq} (hb : s.stage.buf = .filling t)
    (hw : s.stage.waiting = some w) (ht : w.tag = q.tag) (hl : q.len ≠ 0) : requestFill q s = s := by
  unfold requestFill
  simp [hb, hw, ht, hl]

end Sys2Proof.Machine
end

