-- ==== Sys2Proof/Laws/EventOrder.lean ====
section
/-! SUPPORT. What putting the rows of one moment in order does: the same rows, in order, those of one place as given; and the
moment of the reads they request. -/

namespace Sys2Proof.Machine

theorem insertDue_perm (c : Instr) (l : List Instr) : (insertDue c l).Perm (c :: l) := by
  induction l with
  | nil => exact .refl _
  | cons d rest ih =>
    unfold insertDue
    split
    · exact .refl _
    · exact ((List.perm_cons d).2 ih).trans (.swap c d rest)

theorem insertDue_pairwise (c : Instr) (l : List Instr) (h : l.Pairwise (fun a b => eventOrder a ≤ eventOrder b)) :
    (insertDue c l).Pairwise (fun a b => eventOrder a ≤ eventOrder b) := by
  induction l with
  | nil => simp [insertDue]
  | cons d rest ih =>
    unfold insertDue
    obtain ⟨hd, hr⟩ := List.pairwise_cons.1 h
    split
    · rename_i hc
      refine List.pairwise_cons.2 ⟨fun b hb => ?_, h⟩
      rcases List.mem_cons.1 hb with rfl | hb
      · exact hc
      · exact hc.trans (hd b hb)
    · rename_i hc
      refine List.pairwise_cons.2 ⟨fun b hb => ?_, ih hr⟩
      rcases List.mem_cons.1 ((insertDue_perm c rest).mem_iff.1 hb) with rfl | hb
      · omega
      · exact hd b hb

theorem insertDue_filter (n : Nat) (c : Instr) (l : List Instr) :
    (insertDue c l).filter (fun d => eventOrder d == n) = (c :: l).filter (fun d => eventOrder d == n) := by
  induction l with
  | nil => rfl
  | cons d rest ih =>
    unfold insertDue
    split
    · rfl
    · rename_i hc
      simp only [List.filter_cons] at ih ⊢
      rw [ih]
      by_cases h : eventOrder c = n <;> by_cases h' : eventOrder d = n <;> simp [h, h']
      omega

theorem inOrder_perm (due : List Instr) : (inOrder due).Perm due := by
  induction due with
  | nil => exact .refl _
  | cons c rest ih => exact (insertDue_perm c (inOrder rest)).trans ((List.perm_cons c).2 ih)

theorem inOrder_pairwise (due : List Instr) : (inOrder due).Pairwise (fun a b => eventOrder a ≤ eventOrder b) := by
  induction due with
  | nil => exact .nil
  | cons c rest ih => exact insertDue_pairwise c _ ih

/-- The rows of one place keep the order they are given in. -/
theorem inOrder_filter (n : Nat) (due : List Instr) :
    (inOrder due).filter (fun d => eventOrder d == n) = due.filter (fun d => eventOrder d == n) := by
  induction due with
  | nil => rfl
  | cons c rest ih =>
    show (insertDue c (inOrder rest)).filter _ = _
    rw [insertDue_filter, List.filter_cons, List.filter_cons, ih]

@[simp] theorem fallDue_pending (due : List Instr) (s : State) :
    (s.fallDue due).pending = s.pending ++ takenTogether due := rfl

@[simp] theorem fallDue_moment (due : List Instr) (s : State) : (s.fallDue due).hport.moment = true := rfl

/-- Rows due together change nothing but the queue and the moment of the reads. -/
theorem fallDue_only (due : List Instr) (s : State) : OnlyChanges [.pending, .hport] s (s.fallDue due) := by
  intro b hb; cases b <;> first | rfl | exact absurd (by decide) hb

theorem closeMoment_only (s : State) : OnlyChanges [.hport] s (closeMoment s) := by
  intro b hb; cases b <;> first | rfl | exact absurd (by decide) hb

@[simp] theorem closeMoment_moment (s : State) : (closeMoment s).hport.moment = false := rfl

/-! ### The read stream (R12) -/

@[simp] theorem requestRead_reads (k : BitVec 4) (a : Word) (n : Nat) (r : Reader) (s : State) :
    (requestRead k a n r s).hport.reads =
      joinStream { kind := k, addr := a, len := n, reader := r, fresh := s.hport.moment } s.hport.reads := rfl

@[simp] theorem requestRead_moment (k : BitVec 4) (a : Word) (n : Nat) (r : Reader) (s : State) :
    (requestRead k a n r s).hport.moment = s.hport.moment := rfl

@[simp] theorem cancelReads_moment (p : Reader → Bool) (s : State) :
    (cancelReads p s).hport.moment = s.hport.moment := rfl

/-- A request joins the stream somewhere, and no other read changes. -/
theorem joinStream_split (q : ReadReq) (l : List ReadReq) :
    joinStream q l = l.takeWhile (fun r => !(r.fresh && decide (readRank q < readRank r))) ++
      q :: l.dropWhile (fun r => !(r.fresh && decide (readRank q < readRank r))) := by
  induction l with
  | nil => rfl
  | cons r rest ih =>
    unfold joinStream
    cases h : r.fresh && decide (readRank q < readRank r)
    · rw [List.takeWhile_cons_of_pos (by simp [h]), List.dropWhile_cons_of_pos (by simp [h]), List.cons_append, ← ih]
      rfl
    · rw [List.takeWhile_cons_of_neg (by simp [h]), List.dropWhile_cons_of_neg (by simp [h])]
      rfl

theorem joinStream_perm (q : ReadReq) (l : List ReadReq) : (joinStream q l).Perm (q :: l) := by
  rw [joinStream_split]
  exact (List.perm_middle).trans (.cons q (by rw [List.takeWhile_append_dropWhile]))

@[simp] theorem mem_joinStream (q r : ReadReq) (l : List ReadReq) : r ∈ joinStream q l ↔ r = q ∨ r ∈ l :=
  (joinStream_perm q l).mem_iff.trans List.mem_cons

/-- Behind reads of earlier moments a request joins at the end. -/
theorem joinStream_of_settled (q : ReadReq) {l : List ReadReq} (h : ∀ r ∈ l, r.fresh = false) :
    joinStream q l = l ++ [q] := by
  induction l with
  | nil => rfl
  | cons r rest ih =>
    unfold joinStream
    simp [h r (by simp), ih (fun x hx => h x (by simp [hx]))]

theorem readRank_le (q : ReadReq) : readRank q ≤ 2 := by
  unfold readRank
  split
  · decide
  · split <;> decide

/-- A data fetch joins at the end of the stream (R12). -/
theorem joinStream_staging {q : ReadReq} (k : q.kind = 4) (l : List ReadReq) : joinStream q l = l ++ [q] := by
  induction l with
  | nil => rfl
  | cons r rest ih =>
    have : ¬readRank q < readRank r := by
      have hq : readRank q = 2 := by simp [readRank, k]
      have := readRank_le r
      omega
    unfold joinStream
    simp [this, ih]

end Sys2Proof.Machine
end

