-- ==== Sys2Proof/Laws/Invariant.lean ====
section
/-! SUPPORT. Each part of the invariant rests on a few blocks: whatever leaves those alone keeps it. -/

namespace Sys2Proof.Machine

theorem nullEntryHolds.kept {bs : List Block} {s t : State} (h : nullEntryHolds s) (f : OnlyChanges bs s t)
    (n : Block.table ∉ bs) : nullEntryHolds t := by
  have e : t.table = s.table := f .table n
  unfold nullEntryHolds getEntry at *
  rw [e]; exact h

theorem grantsFenced.kept {bs : List Block} {s t : State} (h : grantsFenced s) (f : OnlyChanges bs s t)
    (n : Block.table ∉ bs) : grantsFenced t := by
  have e : t.table = s.table := f .table n
  intro i hi
  have := h i
  unfold getEntry at *
  rw [e] at *
  exact this hi

theorem fencesAnswered.kept {bs : List Block} {s t : State} (h : fencesAnswered s) (f : OnlyChanges bs s t)
    (n : Block.table ∉ bs) (m : Block.xeng ∉ bs) : fencesAnswered t := by
  have e : t.table = s.table := f .table n
  have x : t.xeng = s.xeng := f .xeng m
  intro i h1 h2
  have := h i
  unfold getEntry engaged at *
  rw [e] at *
  rw [x]
  exact this h1 h2

theorem queueFits.kept {bs : List Block} {s t : State} (h : queueFits s) (f : OnlyChanges bs s t)
    (n : Block.wq ∉ bs) : queueFits t := by
  have e : t.wq = s.wq := f .wq n
  unfold queueFits at *
  rw [e]; exact h

theorem attentionFits.kept {bs : List Block} {s t : State} (h : attentionFits s) (f : OnlyChanges bs s t)
    (n : Block.aiu ∉ bs) : attentionFits t := by
  have e : t.aiu = s.aiu := f .aiu n
  unfold attentionFits at *
  rw [e]; exact h

theorem levelBitsFree.kept {bs : List Block} {s t : State} (h : levelBitsFree s) (f : OnlyChanges bs s t)
    (n : Block.aiu ∉ bs) : levelBitsFree t := by
  have e : t.aiu = s.aiu := f .aiu n
  unfold levelBitsFree at *
  rw [e]; exact h

theorem directFits.kept {bs : List Block} {s t : State} (h : directFits s) (f : OnlyChanges bs s t)
    (n : Block.dau ∉ bs) (m : Block.xeng ∉ bs) : directFits t := by
  have e : t.dau = s.dau := f .dau n
  have x : t.xeng = s.xeng := f .xeng m
  unfold directFits at *
  rw [e, x]; exact h

/-- An empty engine asks nothing of the Done list. -/
theorem directFits.of_idle {s : State} (h1 : s.dau.pending.length ≤ Config.directListSize)
    (h2 : s.dau.done.length ≤ Config.directListSize) (x : s.xeng = none) : directFits s :=
  ⟨h1, h2, fun y hy => by rw [x] at hy; cases hy⟩

theorem reasonsShown.kept {bs : List Block} {s t : State} (h : reasonsShown s) (f : OnlyChanges bs s t)
    (n : Block.seq ∉ bs) (m : Block.dau ∉ bs) : reasonsShown t := by
  have e : t.seq = s.seq := f .seq n
  have d : t.dau = s.dau := f .dau m
  unfold reasonsShown at *
  rw [e, d]; exact h

theorem busyHolds.kept {bs : List Block} {s t : State} (h : busyHolds s) (f : OnlyChanges bs s t)
    (n : Block.seq ∉ bs) : busyHolds t := by
  have e : t.seq = s.seq := f .seq n
  unfold busyHolds at *
  rw [e]; exact h

theorem exchangeLive.kept {bs : List Block} {s t : State} (h : exchangeLive s) (f : OnlyChanges bs s t)
    (n : Block.xeng ∉ bs) (a : Block.segA ∉ bs) (b : Block.segB ∉ bs) : exchangeLive t := by
  have x : t.xeng = s.xeng := f .xeng n
  have ea : t.segA = s.segA := f .segA a
  have eb : t.segB = s.segB := f .segB b
  intro y hy
  rw [x] at hy
  have := h y hy
  unfold segLive at *
  cases hg : y.segment <;> rw [hg] at this <;> simp only [getSeg] at * <;> first | rwa [ea] | rwa [eb]

/-- An empty engine is on no segment. -/
theorem exchangeLive.of_idle {s : State} (x : s.xeng = none) : exchangeLive s :=
  fun y hy => by rw [x] at hy; cases hy

/-- An entry is engaged by no exchange while the engine is empty. -/
theorem engaged_of_idle {s : State} (x : s.xeng = none) (i : EntryIx) : engaged s i = false := by
  unfold engaged; rw [x]

/-- A quarantine keeps the rule that ties it to DARK, if the segment is not DARK. -/
theorem quarantineFits.of_quarantine {c : Segment} (h : c.mode ≠ .dark) :
    quarantineFits { c with quarantined := true } :=
  ⟨fun e => absurd e h, fun _ => rfl⟩

/-- A segment whose mode is neither DARK nor FAULTED may be quarantined or not. -/
theorem quarantineFits.of_mode {c : Segment} (d : c.mode ≠ .dark) (f : c.mode ≠ .faulted) : quarantineFits c :=
  ⟨fun e => absurd e d, fun e => absurd e f⟩

end Sys2Proof.Machine
end

