-- ==== Sys2Proof/Laws/WalkerState.lean ====
section
/-! SUPPORT. What the walker keeps over a turn's end, an abandoned decision and a segment event (R99), and what a turn's
end writes. -/

namespace Sys2Proof.Machine

/-- The walker's state over the end of a turn: the hand is empty, it decides again, and a pass goes on behind the head. -/
theorem endTurn_walk (t : Turn) (stop : Option Cause) (s : State) :
    (endTurn t stop s).walk = { s.walk with
      hand := .nothing, waiting := false,
      pass := if t.inPass then s.walk.pass.map (fun p =>
        { p with prev := some t.addr, next := t.head.w0, fetched := p.fetched + 1 }) else s.walk.pass } := by
  have key (b : Bool) (i : WqItem) : (if b = true then enqueue i s else s).walk = s.walk := by
    split
    · exact enqueue_only i s .walk (by decide)
    · rfl
  unfold endTurn
  dsimp only
  split <;> simp only [wakeWalker, setHand, releaseSlots, passAfter, *]

/-- The one write of a turn's end, where there is a visit, skip steps or a stop to report (R81). -/
theorem endTurn_items (t : Turn) (stop : Option Cause) {s : State} (h : s.wq.items.length < 32 ∨ 0 < s.wq.reserved) :
    let visit := if t.made = 0 then none else t.last
    (endTurn t stop s).wq.items = s.wq.items ++
      (if visit.isSome || t.skipping.isSome || stop.isSome then
        [.status t.addr (headStatusWord t.head.w3 visit t.skipping stop) t.cls (headEntry t.head)
          (visit.isSome && headNotifyVisit t.head) stop t.head.w0] else []) := by
  have key (b : Bool) (i : WqItem) :
      (if b = true then enqueue i s else s).wq.items = s.wq.items ++ (if b = true then [i] else []) := by
    split
    · rw [enqueue_of_room i h]
    · simp
  unfold endTurn
  dsimp only
  split <;> simp only [wakeWalker, setHand, releaseSlots, passAfter, key]

/-- The parts of the walker that segment events, STOP and the fall to READY keep (R99). -/
structure SameRings (s t : State) : Prop where
  anchorReg : t.walk.anchorReg = s.walk.anchorReg
  anchorWritten : t.walk.anchorWritten = s.walk.anchorWritten
  latched : t.walk.latched = s.walk.latched
  service : t.walk.service = s.walk.service
  bulk : t.walk.bulk = s.walk.bulk
  slots : t.walk.slots = s.walk.slots
  window : t.walk.window = s.walk.window
  timedDone : t.walk.timedDone = s.walk.timedDone
  streamDone : t.walk.streamDone = s.walk.streamDone
  aperiodicOver : t.walk.aperiodicOver = s.walk.aperiodicOver

theorem SameRings.refl (s : State) : SameRings s s := ⟨rfl, rfl, rfl, rfl, rfl, rfl, rfl, rfl, rfl, rfl⟩

theorem SameRings.trans {s t u : State} (h : SameRings s t) (k : SameRings t u) : SameRings s u :=
  ⟨k.1.trans h.1, k.2.trans h.2, k.3.trans h.3, k.4.trans h.4, k.5.trans h.5, k.6.trans h.6, k.7.trans h.7,
    k.8.trans h.8, k.9.trans h.9, k.10.trans h.10⟩

/-- What leaves the walker alone keeps its rings. -/
theorem SameRings.of_walk {s t : State} (h : t.walk = s.walk) : SameRings s t := by constructor <;> rw [h]

theorem endTurn_rings (t : Turn) (stop : Option Cause) (s : State) : SameRings s (endTurn t stop s) := by
  constructor <;> rw [endTurn_walk]

theorem abandonDecision_rings (s : State) : SameRings s (abandonDecision s) := by
  have h0 : SameRings s (cancelReads decisionReader (setLook .nothing s)) := ⟨rfl, rfl, rfl, rfl, rfl, rfl, rfl, rfl, rfl, rfl⟩
  unfold abandonDecision
  dsimp only
  split
  · exact h0
  · split
    · exact h0.trans (endTurn_rings _ _ _)
    · exact h0.trans (endTurn_rings _ _ _)
    · exact h0.trans ⟨rfl, rfl, rfl, rfl, rfl, rfl, rfl, rfl, rfl, rfl⟩
  · exact h0.trans ⟨rfl, rfl, rfl, rfl, rfl, rfl, rfl, rfl, rfl, rfl⟩

theorem setCtrl_rings (c : CtrlState) (s : State) : SameRings s (setCtrl c s) := by
  unfold setCtrl
  split
  · exact .refl s
  · dsimp only
    have h : SameRings s (wakeWalker (setEdge irqSeq { s with seq := { s.seq with state := c } })) :=
      ⟨rfl, rfl, rfl, rfl, rfl, rfl, rfl, rfl, rfl, rfl⟩
    split
    · exact h
    · exact h.trans (abandonDecision_rings _)

theorem fallIfLast_rings (w : Bool) (s : State) : SameRings s (fallIfLast w s) := by
  unfold fallIfLast
  split
  · exact setCtrl_rings .ready s
  · exact .refl s

/-- A CUT keeps the rings, the slots and the cycle's state (R92, R99). -/
theorem finish_cut_rings (x : Exchange) (s : State) : SameRings s (finish .cut x s) := by
  have h0 : haltsByStrike x .cut s = false := by simp [haltsByStrike, strikesHalt, strikes]
  have h1 (u : State) : outcomeFifo x .cut u = u := by unfold outcomeFifo; split <;> simp_all
  have h2 (u : State) : outcomeLog x .cut false u = u := rfl
  have h3 (u : State) : SameRings u (handOver x .cut false u) := by
    unfold handOver
    split
    · rw [directOutcome_cut]
      exact ⟨rfl, rfl, rfl, rfl, rfl, rfl, rfl, rfl, rfl, rfl⟩
    · unfold ringOutcome
      split
      · dsimp only
        split
        · exact ⟨rfl, rfl, rfl, rfl, rfl, rfl, rfl, rfl, rfl, rfl⟩
        · exact endTurn_rings _ _ u
      · exact .refl u
  unfold finish
  simp only [h0, h1, h2]
  refine SameRings.trans ?_ ((h3 _).trans (.of_walk (grantFence_only _ _ .walk (by decide))))
  exact .of_walk ((cutStaging_only .cut _ .walk (by decide)).trans (outcomeEntry_only x .cut s .walk (by decide)))

theorem cutOn_rings (g : Seg) (s : State) : SameRings s (cutOn g s) := by
  unfold cutOn
  split
  · split
    · exact finish_cut_rings _ s
    · exact .refl s
  · exact .refl s

end Sys2Proof.Machine
end

