-- ==== Sys2Proof/WellFormed.lean ====
section
/-! DEFINITION. Which commands can occur: the bounds the rules put on what arrives from the bus and the host. -/

namespace Sys2Proof

/-- A frame's payload is at most 512 bytes (R100: size is 0..512). -/
def Frame.wf (f : Frame) : Bool := decide (f.payload.length ≤ 512)

/-- A reply that is a frame has a frame's bounds. -/
def Reply.wf : Reply → Bool
  | .frame f => f.wf
  | .broken => true

/-- The bounds on each command's operands: a reply's payload (R100), a staged packet's bytes (R117: up to 512), the
place of a failing access within a packet's bytes (R11, R13: below 512), and an access that stays inside the
Bank (R5). Every other operand is bounded by its type. -/
def Instr.wf : Instr → Bool
  | .replyEnd r => r.wf
  | .stagingFillDone bytes => decide (bytes.length ≤ 512)
  | .hostMemoryFault _ offset => decide (offset.toNat < 512)
  | .bankWrite offset .dword _ => decide (offset.toNat + 8 ≤ 64)
  | .bankWrite offset .word _ => decide (offset.toNat + 4 ≤ 64)
  | .bankWrite offset .half _ => decide (offset.toNat + 2 ≤ 64)
  | _ => true

end Sys2Proof
end

