-- ==== Sys2Proof/Tests/Slice0.lean ====
section
/-! SUPPORT. Tests of single steps on small states (expected values from the rules each names), the checks of
well-formedness on terms that fail them, and, for every statement with hypotheses, states that meet them. -/

set_option maxRecDepth 8000

namespace Sys2Proof.Tests

open Sys2Proof Sys2Proof.Machine

/-! ### Well-formedness -/

theorem test_wf_refuses_long_reply :
    (Instr.replyEnd (.frame { kind := .data, address := 1, channel := 0, seqBit := false, size := 0,
                              payload := List.replicate 513 0 })).wf = false := by decide

theorem test_wf_accepts_full_reply :
    (Instr.replyEnd (.frame { kind := .data, address := 1, channel := 0, seqBit := false, size := 512,
                              payload := List.replicate 512 0 })).wf = true := by decide

theorem test_wf_refuses_long_packet : (Instr.stagingFillDone (List.replicate 513 0)).wf = false := by decide

theorem test_wf_refuses_far_fault : (Instr.hostMemoryFault .read 512).wf = false := by decide

theorem test_wf_refuses_halfword_past_bank : (Instr.bankWrite 63 .half 0).wf = false := by decide

theorem test_wf_refuses_word_past_bank : (Instr.bankWrite 61 .word 0).wf = false := by decide

theorem test_wf_refuses_wide_past_bank : (Instr.bankWrite 57 .dword 0).wf = false := by decide

theorem test_wf_accepts_last_bank_byte : (Instr.bankWrite 63 .byte 0).wf = true := by decide

/-! ### Small states -/

def inCtrl (c : CtrlState) (s : State) : State := { s with seq := { s.seq with state := c } }

def withCommand (w : Word) (s : State) : State := { s with seq := { s.seq with busy := true, command := some w } }

def inMode (g : Seg) (m : SegMode) (s : State) : State := setSeg g { getSeg s g with mode := m, bias := true } s

def withEngine (x : Exchange) (s : State) : State := { s with xeng := some x }

def withItems (l : List WqItem) (s : State) : State := { s with wq := { s.wq with items := l } }

def inWindow (w : Window) (s : State) : State := { s with walk := { s.walk with window := w } }

/-- An entry of station 5, channel 2, at most 16 bytes to a packet. -/
def station : Entry :=
  { Entry.null with valid := true, address := 5, channel := 2, payloadCode := 1 }

/-- The controller is running with segment A ENABLED and entry 1 in use. -/
def running : State := setEntry 1 station (inMode .a .enabled (inCtrl .running State.reset))

/-- A DATA or any other frame from station 5, channel 2. -/
def fromStation (k : FrameKind) (seqBit : Bool) (bytes : List Byte) : Frame :=
  { kind := k, address := 5, channel := 2, seqBit := seqBit, size := 0, payload := bytes }

/-- A ring exchange for entry 1 on segment A. -/
def exchange (p : XPhase) (q : Request) : Exchange :=
  { phase := p, request := q, direct := false, entry := 1, segment := .a, maxPayload := 16, tail := false,
    frame := some (fromStation .push false []), room := 1024, data := [], accept := none, rewritten := false }

/-- A head at 0x100 for entry 1 whose record stands at 0x200: 20 bytes, end_xfer. -/
def turn (kind : BitVec 32) (p : TurnPhase) : Turn :=
  { cls := .service, addr := 0x100, head := { w0 := 0x140, w1 := 0x13, w2 := 0x200, w3 := 0 }, record := 0x200,
    seg := { w0 := 0x210, w1 := 0x900, w2 := 0x140004 ||| kind, w3 := 0 }, made := 0, last := none, skipping := none,
    undo := none, inPass := false, phase := p }

def withTurn (t : Turn) (s : State) : State := { s with walk := { s.walk with hand := .turn t } }

/-- The turn's record is current with `g` bytes done. -/
def withProgress (k : RecKind) (g : Nat) (s : State) : State :=
  setSlot 1 (some { record := 0x200, kind := k, progress := g, tailOnly := false }) s

def withRead (r : ReadReq) (s : State) : State := { s with hport := { s.hport with reads := [r] } }

def withWrite (s : State) : State :=
  { s with hport := { s.hport with write := some { kind := 5, addr := 0x20C, bytes := [1, 0, 0, 0], live := true } } }

/-- A PEEK of entry 1 into Bank bytes 0 to 3. -/
def peek : DirReq :=
  { poke := false, entry := 1, offset := 0, len := 4, tag := 7, regnum := 0x1234, tries := 0, defers := 0, data := [] }

def withRequest (r : DirReq) (s : State) : State := { s with dau := { s.dau with pending := [r] } }

/-- The state after a command, and the same state where a command would not complete. -/
def ran (c : Instr) (s : State) : State :=
  match exec c s with
  | .next t => t
  | _ => s

/-! ### Registers -/

/-- R6. -/
theorem test_ident_reads : readWord State.reset 0x000 = 0xC2640003 := by decide

/-- R136, R5: the low byte at the lowest offset. -/
theorem test_bank_halfword_is_little_endian :
    bankByte (ran (.bankWrite 62 .half 0xABCD) State.reset) 62 = 0xCD ∧
    bankByte (ran (.bankWrite 62 .half 0xABCD) State.reset) 63 = 0xAB := by decide

/-- R136: a byte locked by a PEEK is dropped, the next one is written. -/
theorem test_bank_write_spares_locked_bytes :
    bankByte (ran (.bankWrite 2 .half 0x1111) (withRequest peek State.reset)) 3 = 0 ∧
    (ran (.bankWrite 2 .half 0x1111) (withRequest peek State.reset)).dau.bankWriteDropped = true := by decide

/-- R65, through the register window. -/
theorem test_register_write_selects_entry : (ran (.registerWrite 0x060 .word 0x45) State.reset).select = 5 := by decide

/-- R1: a doubleword is two words in ascending order. -/
theorem test_wide_write_reaches_both_registers :
    (ran (.registerWrite 0x02C .dword 0x000000C800001000) State.reset).ctim.periodicOpen = 0x1000 ∧
    (ran (.registerWrite 0x02C .dword 0x000000C800001000) State.reset).ctim.lateMark = 0xC8 := by decide

/-- R1: a wide read takes both segment status registers, lower offset first, and clears the flags of both. -/
theorem test_wide_read_clears_both_segments :
    let s := setMode .b .idle (setMode .a .present State.reset)
    (registerRead 0x010 .dword s).1 = 0x0000010100000102 ∧ (registerRead 0x010 .dword s).2.segA.stateChanged = false ∧
    (registerRead 0x010 .dword s).2.segB.stateChanged = false := by decide

/-- R5: a misaligned word read of the Bank returns 0. -/
theorem test_misaligned_bank_read_is_zero :
    readWord (ran (.bankWrite 0 .word 0x04030201) State.reset) 0x101 = 0 ∧
    readWord (ran (.bankWrite 0 .word 0x04030201) State.reset) 0x100 = 0x04030201 := by decide

/-- R50: 7991 is 8 below 7999, 7990 is not. -/
theorem test_cycle_len_takes_eight_below : (ran (.cycleLenWrite 7991) State.reset).ctim.lenPending = some 7991 := by
  decide

theorem test_cycle_len_refuses_nine_below : (ran (.cycleLenWrite 7990) State.reset).elog.busCode = 3 := by decide

/-- R52. -/
theorem test_cycle_number_in_ready :
    (ran (.cycleNumberWrite 0x77) (inCtrl .ready State.reset)).ctim.number = 0x77 ∧
    (ran (.cycleNumberWrite 0x77) State.reset).ctim.number = 0 := by decide

/-- R78: bits 3..0 are reserved. -/
theorem test_anchor_write_drops_low_bits :
    readWord (ran (.ringAnchorWrite .timed 0x12345678) State.reset) 0x048 = 0x12345670 := by decide

/-- R122. -/
theorem test_ring_base_needs_alignment :
    (ran (.rxRingBaseWrite 0x1008) State.reset).rx.base = 0 ∧ (ran (.rxRingBaseWrite 0x1008) State.reset).elog.hostAddr = 0x50 := by
  decide

theorem test_present_ring_size_clears_indices :
    (ran (.rxRingSizeWrite 8) { running with rx := { running.rx with fill := 3 } }).rx.fill = 0 := by decide

theorem test_ring_size_clears_indices : (ran (.rxRingSizeWrite 64) { State.reset with rx := { State.reset.rx with fill := 3 } }).rx.fill = 0 := by
  decide

/-- R123: 8 is not below the size 8. -/
theorem test_return_write_below_size :
    (ran (.rxReturnWrite 7) State.reset).rx.ret = 7 ∧ (ran (.rxReturnWrite 8) State.reset).elog.hostAddr = 0x5C := by decide

/-- R47: allow and trust in any state, rate and timeout with them in DARK. -/
theorem test_seg_cfg_byte : segCfgByte (ran (.segCfgWrite 0x1F05) State.reset).segA = 0x05 ∧
    segCfgByte (ran (.segCfgWrite 0x1F05) State.reset).segB = 0x1F := by decide

theorem test_seg_cfg_keeps_timeout_when_enabled :
    segCfgByte (ran (.segCfgWrite 0x0019) running).segA = 0x09 ∧
    (ran (.segCfgWrite 0x0019) running).segA.cmdIgnored = true := by decide

/-- R48. -/
theorem test_seg_status_read_clears :
    (ran (.segStatusRead .a) { State.reset with segA := { State.reset.segA with wakeSeen := true } }).segA.wakeSeen = false ∧
    (ran (.segStatusRead .a) { State.reset with segA := { State.reset.segA with wakeSeen := true } }).hport.readData = 0x200 := by
  decide

/-- R30. -/
theorem test_seq_status_write_clears_flag :
    (ran (.seqStatusWrite 0x2000) { State.reset with seq := { State.reset.seq with tableRefused := true } }).seq.tableRefused
      = false := by decide

/-- R149, R150. -/
theorem test_irq_write_clears_edge :
    (ran (.irqPendingWrite 0x40) (setEdge 6 (setEdge 7 State.reset))).aiu.edges = 0x80 := by decide

theorem test_irq_mask_asserts_line : irqLine (ran (.irqMaskWrite 0x80) (setEdge 7 State.reset)) = true := by decide

/-- R147, R148. -/
theorem test_attn_pop_latches_head :
    (ran .attnPop (offerAttn .visit .bulk 3 0x4560 State.reset)).aiu.attnHead = 0x4560 ∧
    (ran .attnPop (offerAttn .visit .bulk 3 0x4560 State.reset)).hport.readData = 0xD81 := by decide

theorem test_attn_status_clears_lost :
    (ran (.attnStatusWrite 0x10000) { State.reset with aiu := { State.reset.aiu with lost := 9, overflow := true } }).aiu.lost = 0 := by
  decide

/-- R154: a single write with permit and wipe only sets the permit. -/
theorem test_wipe_needs_earlier_permit :
    (ran (.busWipe 3) (offerBus 0x10 (some .b) 4 State.reset)).elog.busCode = 0x10 ∧
    (ran (.busWipe 3) (ran (.busWipe 3) (offerBus 0x10 (some .b) 4 State.reset))).elog.busCode = 0 := by decide

theorem test_host_wipe_clears_address :
    (ran (.hostWipe 0x20) (ran (.hostWipe 0x10) (offerHost 1 0 0x50 State.reset))).elog.hostAddr = 0 := by decide

/-- R142. -/
theorem test_direct_status_clears_reason :
    (ran (.directStatusWrite 0x10) (ran (.peekRequest 1 0 0) State.reset)).dau.rejectReason = .none := by decide

/-- R134, R135: the range of offset 18 ends at the section boundary 32. -/
theorem test_peek_request_takes_section_rest : (ran (.peekRequest 1 18 2) running).dau.pending.map (·.len) = [14] := by decide

theorem test_poke_request_takes_snapshot :
    (ran (.pokeRequest 1 0 2) (ran (.bankWrite 0 .word 0x04030201) running)).dau.pending.map (·.data) = [[1, 2, 3, 4]] := by
  decide

/-- R141. -/
theorem test_done_pop_returns_record :
    (ran .directDonePop { State.reset with dau := { State.reset.dau with done := [{ poke := true, tag := 5, status := .refused, count := 0 }] } }).hport.readData
      = 0x453 := by decide

/-- R64, R68, R71. -/
theorem test_entry_w0_makes_valid :
    (getEntry (ran (.entryW0Write 0x00012051) { State.reset with select := 1 }) 1) = station := by decide

theorem test_entry_w0_refused_when_valid :
    (ran (.entryW0Write 0x00012061) { running with select := 1 }).seq.tableRefused = true := by decide

theorem test_entry_w1_needs_fence :
    (ran (.entryW1Write 0x40) { running with select := 1 }).elog.busCode = 1 ∧
    (getEntry (ran (.entryW1Write 0x40) { State.reset with select := 1 }) 1).halted = true := by decide

/-! ### The Sequencer and the segments -/

/-- R8. -/
theorem test_hard_reset_keeps_nothing : (ran (.hardReset true false) running).segA.mode = .dark ∧
    (ran (.hardReset true false) running).segA.bias = true := by decide

theorem test_reset_input_holds :
    (ran .run (ran .powerOnResetAsserted running)).seq.state = .offline ∧
    (ran (.powerOnReset false true) (ran .powerOnResetAsserted running)).segB.bias = true := by decide

/-- R17. -/
theorem test_seq_cmd_write_while_busy : (ran (.seqCmdWrite 4) (withCommand 4 running)).seq.refuseReason = .busy := by decide

/-- R18. -/
theorem test_illegal_op : (ran .illegalOpRefused (withCommand 6 running)).seq.refuseReason = .illegalOp := by decide

theorem test_run_needs_segment : (ran .run (withCommand 4 (inCtrl .ready State.reset))).seq.refuseReason = .noSegment := by
  decide

/-- R20, R37: a NOP carries POWER to segment B. -/
theorem test_nop_powers_segment :
    (ran .nop (withCommand 0x120 (inCtrl .ready { State.reset with segB := { State.reset.segB with allow := true } }))).segB.mode
      = .idle := by decide

/-- R21, R55: the immediate cycle start leaves the number. -/
theorem test_configure : (ran .configure (withCommand 3 State.reset)).seq.state = .ready ∧
    (ran .configure (withCommand 3 State.reset)).aiu.edges = 0x081 := by decide

/-- R22, R23. -/
theorem test_run : (ran .run (withCommand 4 (inCtrl .armed State.reset))).seq.state = .running := by decide

theorem test_stop : (ran .stop (withCommand 5 running)).seq.state = .stopping := by decide

/-- R24, R162. -/
theorem test_restart_waits : (ran .restart (withCommand 1 running)).seq.busy = true := by decide

/-- R24, R81: a burst that waits for its next exchange ends its visit with the head status write. -/
theorem test_restart_ends_a_waiting_burst :
    let t := { turn 0 .burstReady with cls := .bulk, made := 1, last := some .success }
    (ran .restart (withTurn t (withCommand 1 running))).wq.items = [.status 0x100 0x10100 .bulk 1 false none 0x140] ∧
    (ran .restart (withTurn t (withCommand 1 running))).walk.hand = .nothing := by decide

theorem test_restart_actions : (ran .restartActions (ran .restart (withCommand 1 running))).seq.state = .armed := by decide

/-- R25. -/
theorem test_offline_darkens : (ran .offline (withCommand 2 running)).segA.mode = .dark ∧
    (ran .offline (withCommand 2 running)).ctim.remain = 7999 := by decide

/-- R37, R46. -/
theorem test_power_needs_allow : (ran (.power .a) (inCtrl .ready State.reset)).elog.busCode = 2 := by decide

/-- R38, R39: entry 1's sequence bit is cleared; the controller falls to READY. -/
theorem test_reset_zeroes_entries :
    (getEntry (ran (.reset .a) (setEntry 1 { station with seqOut := true } running)) 1).seqOut = false ∧
    (ran (.reset .a) running).seq.state = .ready := by decide

/-- R43. -/
theorem test_disable : (ran (.disable .a) running).segA.mode = .dark := by decide

/-- R41, R42. -/
theorem test_doze_then_wake : (ran (.doze .a) running).segA.mode = .dozing ∧
    (ran (.wake .a) (ran (.doze .a) running)).segA.mode = .waking := by decide

theorem test_wake_request_is_seen : (ran (.wakeRequest .a false) (ran (.doze .a) running)).segA.wakeSeen = true := by decide

/-- R158. -/
theorem test_release : (ran (.release .a) (quarantine .a running)).segA.quarantined = false := by decide

/-- R35, R36. -/
theorem test_bias_loss_detaches : (ran (.biasChange .a false) running).segA.mode = .idle := by decide

/-- R44, R156. -/
theorem test_babble_quarantines : (ran (.babble { seg := .a, driving := false }) running).segA.quarantined = true ∧
    (ran (.babble { seg := .a, driving := false }) running).elog.busCode = 0x23 := by decide

/-- R44, R101: the watch is suspended while the ACCEPT is being sent, not while it is held back. -/
theorem test_babble_and_the_accept :
    (ran (.babble { seg := .a, driving := true }) (withEngine (exchange .accepting (.pull 8)) running)).segA.mode = .enabled ∧
    (ran (.babble { seg := .a, driving := false }) (withEngine (exchange .accepting (.pull 8)) running)).segA.mode = .faulted := by decide

/-! ### Events due together -/

/-- R163 with its wake request at a cycle start, behind the register access of R4. -/
theorem test_events_due_together :
    (running.fallDue [.walkerDecision, .replyEnd .broken, .cycleStart true true, .irqMaskWrite 1, .wakeRequest .b false,
      .babble { seg := .a, driving := false }]).pending =
    [.irqMaskWrite 1, .babble { seg := .a, driving := false }, .wakeRequest .b true, .cycleStart true true, .replyEnd .broken,
      .walkerDecision] := by decide

/-- R163: the read channel's fault is taken before the write channel's, and a hard reset removes both. -/
theorem test_faults_due_together :
    (running.fallDue [.hostMemoryFault .write 0, .hostMemoryFault .read 0]).pending =
      [.hostMemoryFault .read 0, .hostMemoryFault .write 0] ∧
    (running.fallDue [.hostMemoryFault .write 0, .hardReset true true]).pending = [.hardReset true true] := by decide

/-- R12: the head's record (kind 2) and the next packet's descriptor (kind 3) become due at one moment, in whichever order the rows
are taken; rows that are not due together join as they come. -/
theorem test_reads_due_together :
    let seek : Seek := { stage := .search .service .high, start := some 0x100, fetched := 1, cur := 0x100,
                         rot := Rotation.empty, firstEmpty := true }
    let s := withWrite (withRead { kind := 1, addr := 0x100, len := 16, reader := .head }
      { running with rx := { running.rx with fifo := [[5]], ret := 4 }, walk := { running.walk with hand := .headWait seek },
                     wq := { running.wq with items := [.link 0x300 0 0, .packet 1 1 .service 0 false], started := true } })
    let head : Instr := .recordFetchDone 0x100 0x13 0x200 0
    (ran .hostWriteComplete (ran head (s.fallDue [head, .hostWriteComplete]))).hport.reads.map (·.kind) = [3, 2] ∧
    (ran .hostWriteComplete (ran head s)).hport.reads.map (·.kind) = [2, 3] := by decide

/-! ### Cycle timing -/

/-- R54, R56: the beacon carries the new number. -/
theorem test_cycle_start_sends_beacon :
    (ran (.cycleStart true false) running).segA.beacon = some { payload := 1, outlived := false } ∧
    (ran (.cycleStart true false) running).walk.window = .starting := by decide

/-- R44, R56: a Standard beacon ends before a Reduced one started with it, also if that one is abandoned by a RESET; babble on
its segment is then told from activity during the beacon by the row's operand. A beacon without a slower one goes on until
BEACON_END. -/
theorem test_babble_after_own_beacon_with_other_abandoned :
    let slow := setSeg .b { getSeg running .b with mode := .enabled, bias := true, reduced := true } running
    let s := ran (.reset .b) (ran (.cycleStart true true) slow)
    (getSeg s .a).beacon.isSome = true ∧ (getSeg s .b).beacon = none ∧ s.walk.window = .starting ∧
    (getSeg (ran (.babble { seg := .a, driving := false }) s) .a).mode = .faulted ∧
    (getSeg (ran (.babble { seg := .a, driving := true }) s) .a).mode = .enabled ∧
    (getSeg (ran (.babble { seg := .a, driving := false }) (ran (.cycleStart true true) running)) .a).mode = .enabled := by
  decide

/-- R40: the third counted cycle start ends RESETTING. -/
theorem test_third_cycle_start_enables :
    (ran (.cycleStart true true) { inMode .a .resetting running with
      segA := { (inMode .a .resetting running).segA with counted := 2 } }).segA.mode = .enabled := by decide

/-- R57. -/
theorem test_beacon_end_opens_early_window :
    (ran .beaconEnd (ran (.cycleStart true false) running)).walk.window = .early := by decide

theorem test_periodic_open_reached : (ran .periodicOpenReached running).ctim.remain = 7200 := by decide

/-- R63: a reply still arriving is OVERLONG, a strike. -/
theorem test_cutoff_strikes :
    (getEntry (ran .cycleEndCutoff (withEngine (exchange .receiving (.push 4)) running)) 1).strikesOut = 1 := by decide

/-! ### Exchanges -/

/-- R138: the front PEEK is given the bus in the late window. -/
theorem test_decision_serves_peek :
    (ran .walkerDecision (withRequest peek (inWindow .late running))).xeng.map (·.request) = some (.peek 4) := by decide

/-- R101: register number low byte first, then the length. -/
theorem test_peek_frame :
    (ran .exchangeStart (ran .walkerDecision (withRequest peek (inWindow .late running)))).xeng.bind (·.frame) =
      some { kind := .peek, address := 5, channel := 0, seqBit := false, size := 3, payload := [0x34, 0x12, 4] } := by decide

/-- R103. -/
theorem test_request_sent_opens_window :
    (ran .requestSent (withEngine (exchange .sending (.push 4)) running)).xeng.map (·.phase) = some .window := by decide

theorem test_reply_begun_notes_room :
    (ran .replyBegun (withEngine (exchange .window (.pull 8)) { running with rx := { running.rx with fifo := [[1, 2, 3]] } })).xeng.map
      (·.room) = some 1021 := by decide

/-- R106: SUCCESS flips seq_out. -/
theorem test_accept_flips_seq_out :
    (getEntry (ran (.replyEnd (.frame (fromStation .accept false []))) (withEngine (exchange .receiving (.push 4)) running)) 1).seqOut
      = true := by decide

/-- R105, order 5: another channel is UNSOLICITED, logged by trust. -/
theorem test_other_channel_is_unsolicited :
    (ran (.replyEnd (.frame { fromStation .accept false [] with channel := 3 }))
      (withEngine (exchange .receiving (.push 4)) running)).elog.busCode = 0x22 := by decide

/-- R103, R112: the third strike halts. -/
theorem test_third_silence_halts :
    (getEntry (ran .replyTimeout (withEngine (exchange .window (.push 4)) (setEntry 1 { station with strikesOut := 2 } running))) 1).halted
      = true := by decide

/-- R108, R120: the packet is committed when the ACCEPT has been sent. -/
theorem test_accept_sent_commits :
    (ran .acceptSent (withEngine { exchange .accepting (.pull 8) with data := [1, 2], accept := some (.success, fromStation .accept false []) } running)).rx.fifo
      = [[1, 2]] := by decide

/-- R117. -/
theorem test_fill_stages :
    (ran (.stagingFillDone [9]) (withRead { kind := 4, addr := 0x900, len := 1, reader := .staging }
      { running with stage := { buf := .filling (some .poke), waiting := none } })).stage.buf = .staged .poke [9] := by decide

/-! ### Host memory -/

/-- R79, R83: the head at the latched anchor is fetched, and its record after it. -/
theorem test_decision_fetches_head :
    (ran .walkerDecision (inWindow .late { running with walk := { running.walk with latched := #v[0x100, 0, 0, 0] } })).hport.reads
      = [{ kind := 1, addr := 0x100, len := 16, reader := .head }] := by decide

theorem test_head_leads_to_record :
    (ran (.recordFetchDone 0x100 0x13 0x200 0) (ran .walkerDecision
      (inWindow .late { running with walk := { running.walk with latched := #v[0x100, 0, 0, 0] } }))).hport.reads
      = [{ kind := 2, addr := 0x200, len := 16, reader := .record }] := by decide

/-- R128, R98: COMPLETE and DONE_SERVICE are released with the write. -/
theorem test_write_releases_complete :
    (ran .hostWriteComplete (withWrite (withItems [.segment 0x200 0x11 .ok true true .service 1 0x100] running))).aiu.edges = 4 := by
  decide

/-- R13: a descriptor fetch fault is code 0x20 with the record's address. -/
theorem test_descriptor_fault_seals :
    (ran (.hostMemoryFault .read 0) (withRead { kind := 1, addr := 0x100, len := 16, reader := .head } running)).seq.state = .sealed ∧
    (ran (.hostMemoryFault .read 0) (withRead { kind := 1, addr := 0x100, len := 16, reader := .head } running)).elog.hostAddr = 0x100 := by
  decide

/-- R143, R159. -/
theorem test_seal_completion_flushes :
    (ran .sealCompletion (withRequest peek { running with seq := { running.seq with sealPending := true } })).dau.done.map (·.status)
      = [.sealed] := by decide

/-- R90: the write-back, the link update and the visit's status write. -/
theorem test_consume_queues_three :
    (ran .consumeRecord (withTurn { turn 0 (.refetched .ok 20 { w0 := 0x210, w1 := 0, w2 := 0, w3 := 0 }) with made := 1, last := some .success } running)).wq.items
      = [.segment 0x200 0x140011 .ok true false .service 1 0x100, .link 0x100 0x210 0x140,
         .status 0x100 0x10100 .service 1 false none 0x140] := by decide

/-- R85, R81: a record shortened to its progress completes SHORT without an exchange; with no record behind it there is no skip
step, and the head gets no status write. -/
theorem test_shortened_record_is_no_visit :
    (ran .consumeRecord (withTurn { turn 1 (.refetched .short 16 { w0 := 0, w1 := 0, w2 := 0, w3 := 0 }) with
      seg := { w0 := 0, w1 := 0x900, w2 := 0x80001, w3 := 0 } } running)).wq.items
      = [.segment 0x200 0x100021 .short false false .service 1 0x100, .link 0x100 0 0x140] := by decide

/-- R89: a skipped end_xfer record ends the skip. -/
theorem test_skip_ends_at_end_xfer :
    (ran .skipStep (withTurn (turn 0 (.skipGot 0x200 { w0 := 0x210, w1 := 0, w2 := 4, w3 := 0 }))
      { running with wq := { running.wq with reserved := 3 } })).wq.items.length = 3 := by decide

/-! ### States that meet the statements' hypotheses: the queue, reset and registers -/

theorem witness_StepTakesFrontCommand : ({ State.reset with pending := [.nop] } : State).pending = .nop :: [] := rfl

/-- A running controller at a countdown, with the cycle's PERIODIC_OPEN sampled at 7200. -/
def atRemain (n : BitVec 13) : State := { running with ctim := { running.ctim with remain := n } }

theorem witness_IdleStepIsOneTick :
    (State.reset.pending = [] ∧ State.reset.seq.state = .offline) ∧
    (∀ n, (atRemain n).pending = [] ∧ awake (atRemain n) ∧ (atRemain n).seq.state ≠ .offline ∧ (atRemain n).xeng = none) ∧
    (1 < (atRemain 2).ctim.remain.toNat ∧ (atRemain 2).ctim.remain - 1 ≠ (atRemain 2).ctim.openSampled) ∧
    ((atRemain 7201).ctim.remain - 1 = (atRemain 7201).ctim.openSampled) ∧
    ((withEngine (exchange .receiving (.push 4)) (atRemain 1)).ctim.remain = 1 ∧
      (withEngine (exchange .receiving (.push 4)) (atRemain 1)).xeng ≠ none) ∧
    (atRemain 0).ctim.remain = 0 :=
  ⟨by decide, fun _ => ⟨rfl, rfl, fun h => (by cases h), rfl⟩, by decide, by decide,
    by decide, by decide⟩

theorem witness_EventsDueTogetherWaitInOrder :
    (∃ c ∈ [Instr.nop, .hardReset true true], hardResets c) ∧ (∀ c ∈ [Instr.nop, .cycleStart true true], ¬hardResets c) := by
  simp [hardResets]

theorem witness_ResetClearsAndHoldsEverything :
    (awake running ∧ (0x1 : BitVec 64).getLsbD 0 = true) ∧
    (ran .powerOnResetAsserted running).hport.heldInReset = true ∧ Instr.run ≠ .powerOnResetAsserted ∧
    (∀ a b, Instr.run ≠ .powerOnReset a b) :=
  ⟨by decide, by decide, by decide, fun _ _ h => by cases h⟩

theorem witness_RegistersAfterHardReset :
    awake running ∧ exec (.hardReset true false) running = .next (ran (.hardReset true false) running) := ⟨rfl, rfl⟩

theorem witness_IdentIsFixed : awake running ∧ Width.word ≠ .dword := by decide

theorem witness_UnwritableOffsetsKeepEverything :
    awake running ∧ inBank (0x0FF#9).toNat = false ∧ inBank (0x140#9).toNat = false ∧ (0x005#9).toNat % 4 ≠ 0 ∧
    (0x0AC#9).toNat ∈ [0x0A8, 0x0AC] ∧ (0x0C4 ≤ (0x0C4#9).toNat ∧ (0x0FC#9).toNat < 0x100) ∧ 0x140 ≤ (0x140#9).toNat := by
  decide

theorem witness_PlainRegisterWrites :
    (awake running ∧ (0x2 : BitVec 64).getLsbD 0 = false ∧ running.seq.state ≠ .ready) ∧
    (inCtrl .ready running).seq.state = .ready := by decide

theorem witness_RegisterWriteIsItsRow :
    (0x2#32).getLsbD 1 = true ∧ (0x20#32).getLsbD 5 = true ∧ (507#9).toNat + 4 < 512 ∧
    (Width.half ≠ .dword ∧ (56#6).toNat + 8 ≤ 64) ∧ awake running ∧ 0x000 ∉ [0x010, 0x014, 0x080, 0x09C] ∧ 0x101 % 4 ≠ 0 := by
  decide

theorem witness_BankWriteStoresUnlockedBytes :
    awake running ∧ (63#6).toNat + 1 ≤ 64 ∧ ((62#6).toNat % 2 = 0 ∧ (62#6).toNat + 2 ≤ 64) ∧
    ((60#6).toNat % 4 = 0 ∧ (60#6).toNat + 4 ≤ 64) ∧ ((56#6).toNat % 4 = 0 ∧ (56#6).toNat + 8 ≤ 64) ∧
    (1#6).toNat % 2 ≠ 0 ∧ (2#6).toNat % 4 ≠ 0 := by decide

/-! ### The Sequencer -/

theorem witness_SeqCmdWriteRecordsOrRefuses :
    (awake running ∧ running.seq.busy = false) ∧ (withCommand 4 running).seq.busy = true := by decide

theorem witness_RefusedCommandsChangeNothingElse :
    (awake running ∧ (withCommand 3 running).seq.command = some 3 ∧ refusal 3 (withCommand 3 running) ≠ .none) ∧
    refusal 4 (withCommand 4 running) = .none ∧ refusal 7 (withCommand 7 running) = .illegalOp := by decide

theorem witness_NopCarriesItsSegmentOperation :
    awake (withCommand 0x120 running) ∧ (withCommand 0x120 running).seq.command = some 0x120 ∧ ctrlOp 0x120 = 0 ∧
    refusal 0x120 (withCommand 0x120 running) = .none ∧ segOp 0x020 = 0 := by decide

theorem witness_RunStartsTheSchedule :
    (awake (withCommand 4 running) ∧ (withCommand 4 running).seq.command = some 4 ∧ ctrlOp 4 = 4 ∧
      refusal 4 (withCommand 4 running) = .none ∧ (withCommand 4 running).seq.state = .running) ∧
    refusal 4 (withCommand 4 (inCtrl .armed running)) = .none := by decide

theorem witness_ConfigureStartsTheTimer :
    let s := withCommand 0x113 (State.afterReset true false)
    awake s ∧ s.seq.command = some 0x113 ∧ ctrlOp 0x113 = 3 ∧ refusal 0x113 s = .none ∧ Quiet s :=
  ⟨rfl, rfl, rfl, by decide, by constructor <;> rfl⟩

theorem witness_StopEndsTheSchedule :
    (awake (withCommand 5 running) ∧ (withCommand 5 running).seq.command = some 5 ∧ ctrlOp 5 = 5 ∧
      refusal 5 (withCommand 5 running) = .none ∧ (withCommand 5 running).seq.state = .running) ∧
    (refusal 5 (withCommand 5 (inCtrl .stopping running)) = .none ∧
      (withTurn (turn 0 .exchanging) running).walk.hand = .turn (turn 0 .exchanging)) := by decide

theorem witness_RestartBeginsItsWait :
    (awake (withCommand 1 running) ∧ (withCommand 1 running).seq.command = some 1 ∧ ctrlOp 1 = 1 ∧
      refusal 1 (withCommand 1 running) = .none) ∧
    (∀ t, (withTurn t (withCommand 1 running)).walk.hand = .turn t) ∧
    (∀ t : Turn, (withCommand 1 running).walk.hand = .turn t → False) ∧
    ((turn 0 .exchanging).phase = .exchanging ∧
      (∃ code n snap, (turn 0 (.refetched .ok 20 (turn 0 .exchanging).seg)).phase = .refetched code n snap) ∧
      ∃ link snap, (turn 0 (.skipGot 0x210 (turn 0 .exchanging).seg)).phase = .skipGot link snap) ∧
    ((∃ code n, (turn 0 (.refetch .ok 20)).phase = .refetch code n) ∧ (turn 0 .burstFetch).phase = .burstFetch ∧
      (turn 0 .burstReady).skipping = none ∧ (turn 0 .burstReady).made = 0 ∧
      ({ turn 0 .burstReady with made := 1, last := some .success } : Turn).last = some .success) ∧
    ((turn 0 (.skipFetch 0x210)).phase = .skipFetch 0x210 ∧ (withCommand 1 running).wq.items.length + 2 ≤ 32) :=
  ⟨by decide, fun _ => rfl, fun _ h => (by cases h), ⟨rfl, ⟨_, _, _, rfl⟩, _, _, rfl⟩,
    ⟨⟨_, _, rfl⟩, rfl, rfl, rfl, rfl⟩, rfl, by decide⟩

theorem witness_RestartActionsClearTheWork :
    let s := ran .restart (withCommand 1 running)
    awake s ∧ s.seq.restartInHand = true ∧ s.xeng = none ∧ s.hport.reads = [] ∧ s.hport.write = none ∧
    s.seq.sealPending = false ∧ s.walk.hand = .nothing := by decide

theorem witness_OfflineClearsTheWork :
    (awake (withCommand 2 running) ∧ (withCommand 2 running).seq.command = some 2 ∧ ctrlOp 2 = 2 ∧
      (withCommand 2 running).seq.state ≠ .offline) ∧ (withCommand 2 State.reset).seq.state = .offline := by decide

theorem witness_ControllerStateChangesAreReported :
    exec .stop (withCommand 5 running) = .next (ran .stop (withCommand 5 running)) ∧
    (ran .stop (withCommand 5 running)).seq.state ≠ running.seq.state := ⟨rfl, by decide⟩

theorem witness_StickyFlagsNeedSoftware :
    awake running ∧ exec (.seqStatusWrite 0x2000) { running with seq := { running.seq with tableRefused := true } } =
      .next (ran (.seqStatusWrite 0x2000) { running with seq := { running.seq with tableRefused := true } }) ∧
    (ran (.seqStatusWrite 0x2000) { running with seq := { running.seq with tableRefused := true } }).seq.tableRefused
      = false := ⟨rfl, rfl, by decide⟩

/-! ### Segments -/

theorem witness_SegmentOperationsAreTakenOrIgnored :
    (awake running ∧ running.seq.state ≠ .offline ∧ (getSeg running .a).mode = .enabled) ∧
    (∃ s : State, s.seq.state ≠ .offline ∧ (getSeg s .b).mode = .dark ∧ (getSeg s .b).allow = true) ∧
    ((getSeg (inMode .a .dozing running) .a).mode = .dozing ∧ exchangeOn running .a = false) ∧
    ((getSeg (quarantine .a running) .a).quarantined = true ∧ (getSeg (quarantine .a running) .a).mode ≠ .faulted ∧
      fatalCode running.elog.busCode = false) ∧
    exchangeOn (withEngine (exchange .window (.push 4)) (inMode .a .dozing running)) .a = true :=
  ⟨by decide, ⟨setSeg .b { getSeg running .b with allow := true } running, by decide⟩, by decide, by decide, by decide⟩

theorem witness_SegmentOperationsAreTakenOrIgnored_ignored :
    awake running ∧ running.seq.state ≠ .offline ∧ ¬((getSeg running .b).mode = .dark ∧ (getSeg running .b).allow = true) ∧
    (getSeg running .b).mode = .dark ∧ (getSeg running .b).mode ≠ .enabled ∧ (getSeg running .b).mode ≠ .dozing ∧
    (getSeg running .b).quarantined = false := by decide

theorem witness_ResetEntersResetting :
    awake running ∧ running.seq.state ≠ .offline ∧ (getSeg running .a).mode = .enabled := by decide

/-- What `LeavesSegment` and `CutEndsTheVisit` say of a state with an exchange on segment A, and of one with none. -/
theorem witness_LeavesSegment :
    let x := exchange .window (.push 4)
    let t := turn 0 .exchanging
    let s := withTurn t (withEngine x running)
    (s.xeng = some x ∧ x.segment = .a ∧ x.direct = false ∧ s.walk.hand = .turn t ∧ s.seq.state ≠ .sealed ∧ t.skipping = none ∧
      s.wq.items.length < 32) ∧
    (inCtrl .sealed s).seq.state = .sealed ∧ exchangeOn running .a = false ∧ running.walk.hand = .nothing := by decide

theorem witness_DisableEntersDark :
    awake running ∧ running.seq.state ≠ .offline ∧ (getSeg running .a).mode ≠ .dark ∧ (getSeg running .b).mode = .dark := by
  decide

theorem witness_BiasChangeMovesTheSegment :
    (awake running ∧ (getSeg running .a).bias ≠ false ∧ (getSeg running .a).mode ≠ .dark ∧
      (getSeg running .a).mode ≠ .faulted ∧ (getSeg running .a).mode ≠ .idle) ∧
    ((getSeg running .b).bias ≠ true ∧ (getSeg running .b).mode = .dark) ∧
    (∃ s : State, (getSeg s .b).bias ≠ true ∧ (getSeg s .b).mode = .idle) :=
  ⟨by decide, by decide, ⟨setSeg .b { getSeg running .b with mode := .idle } running, by decide⟩⟩

theorem witness_BabbleFaultsTheSegment :
    (awake running ∧ (getSeg running .a).mode = .enabled ∧ (getSeg running .a).beacon = none) ∧
    (∀ x, running.xeng = some x → x.segment = .a → x.phase ≠ .sending ∧ (x.phase = .accepting → false = false)) ∧
    (∃ s : State, (getSeg s .a).mode = .resetting ∧ 2 ≤ (getSeg s .a).counted) ∧ (getSeg running .b).mode = .dark ∧
    (∃ s : State, (getSeg s .a).mode = .resetting ∧ (getSeg s .a).counted = 1 ∧ (getSeg s .b).mode = .waking ∧
      (getSeg s .b).counted = 0) ∧
    (∃ s : State, awake s ∧ (getSeg s .a).mode = .enabled ∧ (getSeg s .a).beacon = some { payload := 1, outlived := true }) ∧
    (∃ s : State, awake s ∧ (getSeg s .a).beacon = some { payload := 1, outlived := false }) ∧
    ((withEngine (exchange .sending (.push 4)) running).xeng = some (exchange .sending (.push 4)) ∧
      (exchange .sending (.push 4)).segment = .a ∧ (exchange .sending (.push 4)).phase = .sending) ∧
    ((withEngine (exchange .accepting (.pull 4)) running).xeng = some (exchange .accepting (.pull 4)) ∧
      (exchange .accepting (.pull 4)).segment = .a ∧ (exchange .accepting (.pull 4)).phase = .accepting) :=
  ⟨by decide, (fun _ h => nomatch (show none = some _ from h)),
    ⟨setSeg .a { getSeg running .a with mode := .resetting, counted := 2 } running, by decide⟩, by decide,
    ⟨setSeg .b { getSeg running .b with mode := .waking } (setSeg .a { getSeg running .a with mode := .resetting, counted := 1 } running),
      by decide⟩,
    ⟨setSeg .a { getSeg running .a with beacon := some { payload := 1, outlived := true } } running, by decide⟩,
    ⟨setSeg .a { getSeg running .a with beacon := some { payload := 1, outlived := false } } running, by decide⟩,
    by decide, by decide⟩

theorem witness_SegCfgWriteActsPerSegment : awake running := rfl

theorem witness_SegStatusReadClearsFlags : awake running := rfl

/-! ### Cycle timing and the table -/

theorem witness_CycleStartTakesItsSteps :
    (awake running ∧ running.seq.state ≠ .offline ∧ running.xeng = none) ∧
    (∃ s : State, s.stage.buf = .filling (some .poke)) ∧ (∀ tag, running.stage.buf ≠ .filling tag) :=
  ⟨by decide, ⟨{ running with stage := { buf := .filling (some .poke), waiting := none } }, rfl⟩,
    fun _ h => nomatch (show StageBuf.empty = .filling _ from h)⟩

theorem witness_WindowsOpenInOrder :
    (awake running ∧ (inWindow .starting running).walk.window = .starting) ∧ running.walk.window ≠ .starting ∧
    (running.seq.state ≠ .offline ∧ running.ctim.openSampled.toNat ≤ running.ctim.remain.toNat) ∧
    State.reset.seq.state = .offline ∧
    (∃ s : State, s.ctim.openSampled = 7200 ∧ s.ctim.remain.toNat < s.ctim.openSampled.toNat) :=
  ⟨by decide, by decide, by decide, rfl, ⟨{ running with ctim := { running.ctim with remain := 7199 } }, by decide⟩⟩

/-- A decision in the periodic window, or in the early one at the sampled PERIODIC_OPEN, with either pass to begin. -/
theorem witness_WindowsOpenInOrder_passes :
    let s := inWindow .periodic { running with walk := { running.walk with timedDone := false, streamDone := false } }
    let a := { s with walk := { s.walk with latched := Vector.replicate 4 0x100 } }
    let e := inWindow .early { s with ctim := { s.ctim with remain := 7200 } }
    (awake s ∧ s.xeng = none ∧ s.seq.restartInHand = false ∧ s.walk.hand = .nothing ∧ s.walk.waiting = false ∧
      s.walk.window = .periodic ∧ s.walk.pass = none ∧ s.seq.state = .running) ∧
    (e.walk.window = .early ∧ e.ctim.remain.toNat ≤ e.ctim.openSampled.toNat) ∧
    (a.walk.timedDone = false ∧ latchedAnchor a .timed ≠ 0 ∧ pendingHeadLink a (latchedAnchor a .timed) = none) ∧
    (a.walk.streamDone = false ∧ latchedAnchor a .stream ≠ 0 ∧ pendingHeadLink a (latchedAnchor a .stream) = none) ∧
    (latchedAnchor s .timed = 0 ∧ latchedAnchor s .stream = 0) ∧
    (inCtrl .armed s).seq.state = .armed ∧ (inWindow .starting s).walk.window = .starting := by decide

theorem witness_CutoffEndsTheExchange (p : XPhase) :
    let x := exchange p (.push 4)
    awake (withEngine x running) ∧ (withEngine x running).seq.state ≠ .offline ∧ (withEngine x running).xeng = some x ∧
    x.phase = p := ⟨rfl, (fun h => nomatch (show CtrlState.running = .offline from h)), rfl, rfl⟩

theorem witness_CycleLenWriteIsTested :
    awake running ∧
    (7840 ≤ 8007 ∧ 8007 ≤ 8159 ∧ 8007 ≤ running.ctim.len.toNat + 8 ∧ running.ctim.len.toNat ≤ 8007 + 8) ∧
    ¬(8008 ≤ running.ctim.len.toNat + 8) := by decide

theorem witness_EntryW0WriteIsJudged :
    awake running ∧ State.reset.select = 0 ∧ ({ running with select := 1 } : State).select ≠ 0 ∧
    ((0x10#32).getLsbD 0 = false) ∧
    ((0x61#32).getLsbD 0 = true ∧ (getEntry running 1).valid = true ∧ (getEntry running 1).fenceGranted = false ∧
      (0x61#32).extractLsb' 4 5 ≠ (getEntry running 1).address) := by decide

theorem witness_EntryW1WriteIsJudged :
    awake running ∧ ({ running with select := 1 } : State).select ≠ 0 ∧ (getEntry State.reset 1).valid = false ∧
    ((getEntry running 1).valid = true ∧ (getEntry running 1).fenceGranted = false ∧
      (1#32).getLsbD 0 ≠ (getEntry running 1).seqOut) := by decide

/-! ### The walker -/

/-- The early window is open at the reset values. -/
theorem witness_DecisionGivesTheDirectTurn_early :
    (inWindow .early running).walk.window = .early ∧
    (inWindow .early running).ctim.openSampled.toNat < (inWindow .early running).ctim.remain.toNat := by decide

theorem witness_DecisionGivesTheDirectTurn :
    let s := withRequest peek (inWindow .late running)
    awake s ∧ s.xeng = none ∧ s.seq.restartInHand = false ∧ s.seq.state = .running ∧ s.walk.hand = .nothing ∧
    s.walk.waiting = false ∧ s.walk.window = .late ∧ s.walk.aperiodicOver = false ∧ s.dau.pending = peek :: [] ∧
    s.dau.done.length < 4 ∧ (getEntry s 1).fenceGranted = false ∧ (getEntry s 1).valid = true ∧
    (getEntry s 1).address ≠ 0 ∧ (getSeg s .a).mode = .enabled ∧ (getSeg s .a).quarantined = false ∧
    directSymbols false 4 24 * 1 + s.ctim.markSampled.toNat ≤ s.ctim.remain.toNat := by decide

theorem witness_DecisionCompletesABarredRequest :
    let s := inMode .a .dozing { inWindow .early running with dau := { running.dau with pending := [peek, peek] } }
    awake s ∧ s.xeng = none ∧ s.seq.restartInHand = false ∧ s.seq.state = .running ∧ s.walk.hand = .nothing ∧
    s.walk.waiting = false ∧ (s.walk.window = .early ∧ s.ctim.openSampled.toNat < s.ctim.remain.toNat) ∧
    s.walk.aperiodicOver = false ∧ s.dau.pending = peek :: [peek] ∧ s.dau.done.length < 4 ∧ barredBy s peek ≠ none ∧
    (inCtrl .armed s).seq.state = .armed ∧ (barredDone [peek, peek] s).pending = [] := by decide

/-- The SERVICE ring begins at 0x100. -/
def anchored : State := { running with walk := { running.walk with latched := #v[0x100, 0, 0, 0] } }

/-- The high search of SERVICE has asked for the head at 0x100. -/
def firstSeek : Seek :=
  { stage := .search .service .high, start := some 0x100, fetched := 1, cur := 0x100, rot := Rotation.empty,
    firstEmpty := true }

/-- The pass of a class has asked for the head at 0x100. -/
def passSeek100 (c : RingClass) : Seek :=
  { stage := .pass c, start := some 0x100, fetched := 1, cur := 0x100, rot := Rotation.empty, firstEmpty := false }

/-- A record is the candidate at 0x100, with a pass that stands there. -/
def candidate (k : Seek) (t : Turn) : State :=
  let s := inWindow .late anchored
  { s with walk := { s.walk with hand := .candidate k t,
                                 pass := some { prev := none, next := 0x100, start := none, fetched := 0 } } }

/-- The start rule at a countdown (R60). -/
def fitsAt (n : Nat) (q : Request) : Prop := ringSymbols q 24 * 1 + 160 ≤ n

theorem witness_WalkerDecisionsServeTheRings :
    (let s := inWindow .late anchored
     awake s ∧ s.xeng = none ∧ s.seq.restartInHand = false ∧ s.seq.state = .running ∧ s.walk.hand = .nothing ∧
     s.walk.waiting = false ∧ s.walk.aperiodicOver = false ∧ s.dau.pending = [] ∧ s.walk.service = Rotation.empty ∧
     s.walk.window = .late ∧ latchedAnchor s .service ≠ 0 ∧ (latchedAnchor s .service).extractLsb' 0 4 = 0#4 ∧
     followed s (searchHead (latchedAnchor s .service) none)) ∧
    (let s := inWindow .early running
     s.ctim.openSampled.toNat < s.ctim.remain.toNat ∧ latchedAnchor s .service = 0 ∧ latchedAnchor s .timed = 0 ∧
     latchedAnchor s .stream = 0) := by unfold followed; decide

/-- BULK has its ring at 0x300 and SERVICE none; the high cursor's head leads on to 0x310, or back to the anchor; or it is the
low search's turn. -/
theorem witness_WalkerDecisionsServeTheRings_rotation :
    let s (rot : Rotation) : State := { inWindow .late running with
      walk := { (inWindow .late running).walk with latched := #v[0, 0x300, 0, 0], bulk := rot } }
    let on (link : Word) : Rotation :=
      { high := some { head := 0x310, link := link }, low := some { head := 0x320, link := 0x330 }, lowTurn := false }
    (latchedAnchor (s (on 0x320)) .service = 0 ∧ latchedAnchor (s (on 0x320)) .bulk = 0x300 ∧
      (s (on 0x320)).walk.window = .late ∧ getRot (s (on 0x320)) .bulk = on 0x320 ∧ (0x320 : Word) ≠ 0x300) ∧
    followed (s (on 0x320)) (searchHead 0x300 (on 0x320).high) ∧
    (∃ u, (on 0x300).high = some u ∧ u.link = 0x300) ∧ followed (s (on 0x300)) (searchHead 0x300 (on 0x300).low) ∧
    ({ on 0x320 with lowTurn := true } : Rotation).lowTurn = true := by
  refine ⟨by decide, by unfold followed; decide, ⟨_, rfl, rfl⟩, by unfold followed; decide, rfl⟩

/-- A PULL needs nothing staged, a PUSH of 16 bytes does; at 7999 ticks both fit, at 300 neither. -/
theorem witness_WalkerDecisionsServeTheRings_packets :
    packetByRules 16 (turn 1 .burstReady).seg 0 false = .pull 16 ∧ packetByRules 16 (turn 0 .burstReady).seg 0 false = .push 16 ∧
    fitsAt 7999 (.pull 16) ∧ ¬fitsAt 300 (.pull 16) ∧ packetBytes (.pull 16) = none ∧ packetBytes (.push 16) = some 16 ∧
    running.stage.buf = .empty := by unfold fitsAt; decide

theorem witness_WalkerDecisionsServeTheRings_candidate :
    let t := turn 1 .burstReady
    ((∀ k, (candidate k t).walk.hand = .candidate k t) ∧ (withTurn t (candidate firstSeek t)).walk.hand = .turn t) ∧
    passesTests (candidate firstSeek t) .service t.head ∧ doneSoFar (candidate firstSeek t) t 0 false ∧
    (t.cls = stageClass firstSeek.stage ∧ t.addr = firstSeek.cur ∧ t.phase = .burstReady ∧
      (candidate firstSeek t).walk.window = .late) := by
  refine ⟨⟨fun _ => rfl, rfl⟩, ?_, ?_, by decide⟩
  · unfold passesTests; dsimp only; decide
  · unfold doneSoFar; dsimp only; decide

/-- A burst of BULK that waits for its second exchange at 300 ticks, where nothing fits. -/
theorem witness_WalkerDecisionsServeTheRings_burst :
    let t := { turn 1 .burstReady with cls := .bulk, made := 1, last := some .success, undo := some Rotation.empty }
    let s := withTurn t (inWindow .late running)
    (s.walk.hand = .turn t ∧ t.phase = .burstReady ∧ t.cls = .bulk ∧ t.inPass = false ∧ 0 < t.made ∧
      t.last = some .success ∧ t.skipping = none ∧ s.wq.items.length < 32 ∧ t.undo = some Rotation.empty) ∧
    passesTests s .bulk t.head ∧ doneSoFar s t 0 false := by
  refine ⟨by decide, ?_, ?_⟩
  · unfold passesTests; dsimp only; decide
  · unfold doneSoFar; dsimp only; decide

theorem witness_WalkerDecisionsServeTheRings_pass :
    let t := { turn 1 .burstReady with cls := .timed }
    let s := candidate (passSeek100 .timed) t
    passesTests s .timed t.head ∧ ((passSeek100 .timed).stage = .pass .timed ∧ (passSeek100 .stream).stage = .pass .stream ∧
      s.walk.timedDone = false ∧ t.head.w0 ≠ 0 ∧ t.head.w0.extractLsb' 0 4 = 0#4 ∧ t.head.w0 ≠ latchedAnchor s .timed ∧
      pendingHeadLink s t.head.w0 = none) := by
  refine ⟨?_, by decide⟩
  unfold passesTests; dsimp only; decide

/-- The head at 0x100 is being fetched by the high search of SERVICE. -/
def fetchingHead : State :=
  withRead { kind := 1, addr := 0x100, len := 16, reader := .head }
    { anchored with walk := { anchored.walk with hand := .headWait firstSeek } }

theorem witness_ReturnedHeadIsTested :
    let s := fetchingHead
    (awake s ∧ s.hport.reads = { kind := 1, addr := 0x100, len := 16, reader := .head } :: [] ∧ (1#4) ≠ 4 ∧
      s.walk.hand = .headWait firstSeek) ∧
    ((0x13#32).getLsbD 0 = true ∧ (0x13#32).getLsbD 1 = true ∧ (0#32).getLsbD 0 = false ∧ (0#32).getLsbD 1 = false ∧
      (0x200#32) ≠ 0 ∧ (0x13#32).extractLsb' 4 6 = 1#6 ∧ (0x200#32).extractLsb' 0 4 = 0#4) ∧
    ((getEntry s 1).fenceGranted = false ∧ (getEntry s 1).valid = true ∧ (getEntry s 1).address ≠ 0 ∧
      (getEntry s 1).payloadCode ≠ 7 ∧ (getEntry s 1).classLock = 0 ∧ (getEntry s 1).halted = false ∧
      (getSeg s .a).mode = .enabled ∧ (getSeg s .a).quarantined = false ∧ recordPending s 0x200 = false ∧
      4 ≤ freeSlots s) ∧
    ((0x204#32).extractLsb' 0 4 ≠ 0#4 ∧ 1 ≤ freeSlots s) := by decide

/-- A disabled head with a bad link, and one that is the 256th; a TIMED head of period 2 and phase 1 in cycle 0. -/
theorem witness_ReturnedHeadIsTested_traversal :
    (fetchingHead.seq.state = .running ∧ (0x12#32).getLsbD 0 = false ∧ (0x104#32).extractLsb' 0 4 ≠ 0#4) ∧
    ({ firstSeek with fetched := 256 }.start = some 0x100 ∧ (0x110#32).extractLsb' 0 4 = 0#4 ∧
      (0x110#32) ≠ latchedAnchor fetchingHead .service) ∧
    (fetchingHead.ctim.number.toNat % 2 ^ ((0x110000#32).extractLsb' 16 3).toNat ≠
      ((0x110000#32).extractLsb' 20 7).toNat % 2 ^ ((0x110000#32).extractLsb' 16 3).toNat) ∧
    ((candidate firstSeek (turn 1 .burstReady)).walk.pass =
        some { prev := none, next := 0x100, start := none, fetched := 0 } ∧
      fetchingHead.walk.timedDone = false ∧ (0x110#32) ≠ latchedAnchor fetchingHead .timed ∧
      pendingHeadLink fetchingHead 0x110 = none) := by decide

/-- Behind the disabled head at 0x100 of a search of the SERVICE ring of anchor 0x100: on to 0x110; back at the anchor; and, for the
low search, back at the head it began at. -/
theorem witness_ReturnedHeadIsTested_rotation :
    (fetchingHead.seq.state = .running ∧ fetchingHead.walk.hand = .headWait firstSeek ∧
      firstSeek.stage = .search .service .high ∧ (0x12#32).getLsbD 0 = false ∧ (0x11#32).getLsbD 1 = decide (Search.high = .low)) ∧
    ((0x110 : Word) ≠ latchedAnchor fetchingHead .service ∧ firstSeek.fetched < 256 ∧
      latchedAnchor fetchingHead .service = 0x100 ∧ (0x100#32).extractLsb' 0 4 = 0#4) ∧
    (followed fetchingHead 0x110 ∧ followed fetchingHead (searchHead 0x100 firstSeek.rot.low) ∧ followed fetchingHead 0x100) ∧
    (firstSeek.start = some 0x100 ∧ firstSeek.firstEmpty = true ∧ ({ firstSeek with firstEmpty := false } : Seek).firstEmpty = false) ∧
    (fetchingHead.walk.window ≠ .late ∧ (inWindow .late fetchingHead).walk.window = .late ∧
      fetchingHead.walk.bulk = Rotation.empty ∧ latchedAnchor fetchingHead .bulk = 0) := by
  unfold followed
  decide

/-- The record of the head at 0x100 is being fetched; an OPEN of 20 bytes is refused, a PULL is not. -/
theorem witness_ReturnedHeadIsTested_record :
    let q : ReadReq := { kind := 2, addr := 0x200, len := 16, reader := .record }
    let h := (turn 0 .burstReady).head
    let s := withRead q { anchored with walk := { anchored.walk with hand := .recordWait firstSeek h } }
    (awake s ∧ s.hport.reads = q :: [] ∧ q.kind ≠ 4 ∧ q.reader = .record ∧ s.walk.hand = .recordWait firstSeek h) ∧
    (passesTests s .service h ∧ kindBarred .service 16 (turn 2 .burstReady).seg ∧
      ¬kindBarred .service 16 (turn 1 .burstReady).seg ∧ s.wq.items.length + 2 ≤ 32) ∧
    (h.w1.getLsbD 0 = true ∧ h.w3.getLsbD 0 = false ∧ h.w2 ≠ 0 ∧
      (getEntry (setEntry 1 { station with fence := true, fenceGranted := true } s) (headEntry h)).fenceGranted = true) := by
  unfold passesTests kindBarred
  dsimp only
  decide

theorem witness_ConsumedRecordQueuesItsWrites :
    let snap : Rec := { w0 := 0x210, w1 := 0, w2 := 0, w3 := 0 }
    let t := { turn 0 (.refetched .ok 20 snap) with made := 1, last := some .success }
    awake (withTurn t running) ∧ (withTurn t running).walk.hand = .turn t ∧ t.phase = .refetched .ok 20 snap ∧
    t.cls ≠ .bulk ∧ RecCode.ok ≠ .short ∧ 0 < t.made ∧ t.last = some .success ∧ t.skipping = none ∧
    headEntry t.head ≠ 0 ∧ (withTurn t running).wq.items.length + 3 ≤ 32 := by decide

/-- A burst of two exchanges goes on with the record at 0x210 after its first. -/
theorem witness_ConsumedRecordQueuesItsWrites_burst :
    let snap : Rec := { w0 := 0x210, w1 := 0, w2 := 0, w3 := 0 }
    let t := { turn 0 (.refetched .ok 20 snap) with
                 cls := .bulk, made := 1, last := some .success, head := { (turn 0 .burstReady).head with w1 := 0x1013 } }
    let s := inWindow .late (withTurn t running)
    (t.cls = .bulk ∧ s.seq.state = .running ∧ s.seq.restartInHand = false ∧ s.walk.window = .late ∧ s.walk.turnOver = false ∧
      t.made < (t.head.w1.extractLsb' 12 3).toNat + 1 ∧ snap.w0 ≠ t.record ∧ snap.w0 ∉ t.written ∧
      s.wq.items.length + 6 ≤ 32) ∧
    passesTests s .bulk { t.head with w2 := snap.w0 } ∧
    ((t.head.w1.extractLsb' 12 3).toNat + 1 ≤ ({ t with made := 2 } : Turn).made) := by
  unfold passesTests
  dsimp only
  decide

/-- A record completed without an exchange: SHORT with a link of 0, or with its end_xfer. -/
theorem witness_ConsumedRecordQueuesItsWrites_unserved :
    let snap : Rec := { w0 := 0, w1 := 0, w2 := 0, w3 := 0 }
    let t := turn 1 (.refetched .short 16 snap)
    awake (withTurn t running) ∧ (withTurn t running).walk.hand = .turn t ∧ t.phase = .refetched .short 16 snap ∧ snap.w0 = 0 ∧
    recEnd t.seg = true ∧ t.made = 0 ∧ t.skipping = none ∧ headEntry t.head ≠ 0 ∧
    (withTurn t running).wq.items.length + 2 ≤ 32 := by decide

theorem witness_SkipStepTakesOneRecord :
    let snap (w0 w2 : Word) : Rec := { w0 := w0, w1 := 0, w2 := w2, w3 := 0 }
    let t := { turn 0 (.skipGot 0x200 (snap 0x210 4)) with made := 1, last := some .success }
    let s := withTurn t { running with wq := { running.wq with reserved := 3 } }
    (awake s ∧ s.walk.hand = .turn t ∧ t.phase = .skipGot 0x200 (snap 0x210 4) ∧ t.last = some .success ∧
      s.seq.restartInHand = false ∧ 1 ≤ s.wq.reserved ∧ s.wq.items.length + 3 ≤ 32 ∧ recEnd (snap 0x210 4) = true) ∧
    (recEnd (snap 0x210 0) = false ∧ (0x210#32) ≠ 0 ∧ (0x210#32).extractLsb' 0 4 = 0#4 ∧
      recordPending s 0x210 = false ∧ (0x210#32) ≠ 0x200 ∧ (0x210#32) ∉ t.written ∧
      s.wq.items.length + s.wq.reserved < 32) ∧
    (withItems (List.replicate 29 (.link 0x300 0 0)) s).wq.items.length + s.wq.reserved = 32 ∧
    (0x210#32) ∈ { t with written := [0x210] }.written := by decide

/-! ### Exchanges -/

theorem witness_ExchangeStartBuildsTheFrame :
    let x := exchange .held (.push 4)
    let s := withEngine x running
    (awake s ∧ s.xeng = some x ∧ x.phase = .held ∧ s.seq.restartInHand = false ∧ s.seq.state = .running ∧
      (getEntry s 1).fenceGranted = false ∧ (getEntry s 1).valid = true ∧ (getEntry s 1).address ≠ 0 ∧
      (getEntry s 1).halted = false ∧ (getSeg s .a).mode = .enabled ∧ (getSeg s .a).quarantined = false) ∧
    (inCtrl .stopping s).seq.state = .stopping := by decide

theorem witness_FrameSentOpensTheReplyWindow :
    (awake (withEngine (exchange .sending (.push 4)) (inCtrl .stopping running)) ∧
      (inCtrl .stopping running).seq.state ≠ .running ∧ (exchange .sending (.push 4)).phase = .sending) ∧
    (∃ n, (exchange .sending (.push 4)).request = .push n) ∧ (∃ n, (exchange .sending (.pull 8)).request = .pull n) ∧
    running.seq.state = .running ∧ (exchange .window (.push 4)).phase = .window :=
  ⟨by decide, ⟨4, rfl⟩, ⟨8, rfl⟩, rfl, rfl⟩

theorem witness_RepliesEndTheExchange :
    (awake running ∧ (withEngine (exchange .receiving (.pull 8)) running).xeng = some (exchange .receiving (.pull 8)) ∧
      (exchange .receiving (.pull 8)).phase = .receiving ∧
      (exchange .receiving (.pull 8)).frame = some (fromStation .push false [])) ∧
    classByRules (exchange .receiving (.pull 8)) (fromStation .push false []) (.frame (fromStation .data false [1])) = .success ∧
    classByRules (exchange .receiving (.pull 8)) (fromStation .push false []) (.frame (fromStation .data true [1])) = .duplicate ∧
    classByRules (exchange .receiving (.push 8)) (fromStation .push false []) .broken = .corrupt ∧
    (exchange .window (.push 8)).phase = .window ∧
    ({ exchange .accepting (.pull 8) with accept := some (.success, fromStation .accept false []) } : Exchange).accept
      = some (.success, fromStation .accept false []) := by decide

/-- A PUSH of 16 bytes of a record of 20 is answered ACCEPT, REFUSE, DEFER or not at all. -/
theorem witness_PushOutcomesMoveTheRecord :
    let x := exchange .receiving (.push 16)
    let t := turn 0 .exchanging
    let s := withProgress .push 0 (withTurn t (withEngine x running))
    let sent := fromStation .push false []
    (awake s ∧ s.xeng = some x ∧ x.phase = .receiving ∧ x.frame = some sent ∧ x.direct = false ∧
      x.request = .push 16 ∧ x.tail = false ∧ s.walk.hand = .turn t ∧ t.cls = .service ∧ s.seq.state ≠ .sealed ∧
      recKind t.seg = .push ∧ t.skipping = none ∧ s.wq.items.length + 2 ≤ 32) ∧
    (headEntry t.head ≠ 0 ∧ t.record = t.head.w2 ∧ getSlot s (headEntry t.head) =
      some { record := t.record, kind := recKind t.seg, progress := 0, tailOnly := false }) ∧
    (0 + 16 < (t.seg.w2.extractLsb' 16 14).toNat ∧ ¬(0 + 20 < (t.seg.w2.extractLsb' 16 14).toNat) ∧
      (t.seg.w2.extractLsb' 16 14).toNat % 16 ≠ 0) ∧
    (classByRules x sent (.frame (fromStation .accept false [])) = .success ∧
      classByRules x sent (.frame (fromStation .refuse false [])) = .refused ∧
      classByRules x sent (.frame (fromStation .defer false [])) = .deferred ∧ classByRules x sent .broken = .corrupt) ∧
    (exchange .window (.push 16)).phase = .window ∧ s.seq.state ≠ .offline := by decide

/-- A burst may go on after its first exchange; a third strike falls on an entry with two. -/
theorem witness_PushOutcomesMoveTheRecord_classes :
    let x := exchange .receiving (.push 16)
    let t := { turn 0 .exchanging with cls := .bulk, head := { (turn 0 .exchanging).head with w1 := 0x7013 } }
    let s := inWindow .late (withProgress .push 0 (withTurn t (withEngine x running)))
    (t.cls = .bulk ∧ s.seq.state = .running ∧ s.seq.restartInHand = false ∧ s.walk.window = .late ∧ s.walk.turnOver = false ∧
      x.entry = headEntry t.head ∧ t.made + 1 < (t.head.w1.extractLsb' 12 3).toNat + 1 ∧ s.wq.items.length + 4 ≤ 32) ∧
    passesTests s .bulk t.head ∧ ({ t with cls := .stream } : Turn).cls = .stream ∧
    ((t.head.w1.extractLsb' 12 3).toNat + 1 ≤ ({ t with made := 7 } : Turn).made + 1) ∧
    (struck (getEntry (setEntry 1 { station with strikesOut := 2 } s) 1).strikesOut = 3 ∧ x.rewritten = false ∧
      struck (getEntry s 1).strikesOut ≠ 3) := by
  unfold passesTests
  dsimp only
  decide

/-- The tail of a PUSH of 32 bytes, a NUDGE and an OPEN, each answered ACCEPT. -/
theorem witness_PushOutcomesMoveTheRecord_kinds :
    let sent := fromStation .push false []
    let tail := { exchange .receiving (.push 0) with tail := true }
    let opens := exchange .receiving .open
    let t (w2 : Word) : Turn := { turn 0 .exchanging with seg := { (turn 0 .exchanging).seg with w2 := w2 } }
    let s (k : RecKind) (g : Nat) (x : Exchange) (t : Turn) : State := withProgress k g (withTurn t (withEngine x running))
    (tail.request = .push 0 ∧ tail.tail = true ∧ classByRules tail sent (.frame (fromStation .accept false [])) = .success ∧
      recKind (t 0x200004).seg = .push ∧ (t 0x200004).cls ≠ .stream ∧ (s .push 32 tail (t 0x200004)).xeng = some tail ∧
      getSlot (s .push 32 tail (t 0x200004)) 1 =
        some { record := 0x200, kind := .push, progress := 32, tailOnly := false }) ∧
    (recKind (t 3).seg = .nudge ∧ (t 3).cls = .service ∧ getSlot (s .nudge 0 tail (t 3)) 1 =
        some { record := 0x200, kind := .nudge, progress := 0, tailOnly := false }) ∧
    (opens.request = .open ∧ classByRules opens sent (.frame (fromStation .accept false [])) = .success ∧
      recKind (t 0x80002).seg = .open ∧ getSlot (s .open 0 opens (t 0x80002)) 1 =
        some { record := 0x200, kind := .open, progress := 0, tailOnly := false }) := by decide

theorem witness_PullOutcomesMoveTheRecord :
    let x (bytes : List Byte) : Exchange :=
      { exchange .accepting (.pull 16) with accept := some (.success, fromStation .accept false []), data := bytes }
    let t := turn 1 .exchanging
    let s := withProgress .pull 4 (withTurn t (withEngine (x (List.replicate 16 0)) running))
    (awake s ∧ s.xeng = some (x (List.replicate 16 0)) ∧ (x []).phase = .accepting ∧ (x []).direct = false ∧
      (x []).request = .pull 16 ∧ s.walk.hand = .turn t ∧ t.cls = .service ∧ s.seq.state ≠ .sealed ∧
      recKind t.seg = .pull ∧ t.skipping = none ∧ s.wq.items.length + 2 ≤ 32) ∧
    (headEntry t.head ≠ 0 ∧ t.record = t.head.w2 ∧ getSlot s (headEntry t.head) =
      some { record := t.record, kind := recKind t.seg, progress := 4, tailOnly := false }) ∧
    (4 + (x (List.replicate 16 0)).data.length = (t.seg.w2.extractLsb' 16 14).toNat ∧
      (x (List.replicate 15 0)).data.length < 16 ∧ 0 + (x (List.replicate 16 0)).data.length < 20) := by decide

/-- The other outcomes of a PULL at count 4: answered with a duplicate, with each other reply, or not at all; a third strike
falls on an entry with two. -/
theorem witness_PullOutcomesMoveTheRecord_others :
    let x := exchange .receiving (.pull 16)
    let sent := fromStation .push false []
    (x.frame = some sent ∧ classByRules x sent (.frame (fromStation .defer false [])) = .deferred ∧
      classByRules x sent (.frame (fromStation .refuse false [])) = .refused ∧ classByRules x sent .broken = .corrupt ∧
      classByRules { x with room := 3 } sent (.frame (fromStation .data false [1, 2, 3, 4])) = .overrun) ∧
    ({ x with accept := some (.duplicate, sent), phase := .accepting } : Exchange).accept = some (.duplicate, sent) ∧
    (exchange .window (.pull 16)).phase = .window ∧
    (struck (getEntry (setEntry 1 { station with strikesIn := 2 } running) 1).strikesIn = 3 ∧ x.rewritten = false ∧
      struck (getEntry running 1).strikesIn ≠ 3) := by decide

theorem witness_PullOutcomesMoveTheRecord_burst :
    let x : Exchange :=
      { exchange .accepting (.pull 16) with accept := some (.success, fromStation .accept false []), data := List.replicate 16 0 }
    let t := { turn 1 .exchanging with cls := .bulk, head := { (turn 1 .exchanging).head with w1 := 0x7013 } }
    let s := inWindow .late (withProgress .pull 0 (withTurn t (withEngine x running)))
    (awake s ∧ s.xeng = some x ∧ x.phase = .accepting ∧ x.direct = false ∧ x.request = .pull 16 ∧ s.walk.hand = .turn t ∧
      t.cls = .bulk ∧ s.seq.state = .running ∧ s.seq.restartInHand = false ∧ s.walk.window = .late ∧
      s.walk.turnOver = false ∧ recKind t.seg = .pull ∧ x.entry = headEntry t.head ∧ t.record = t.head.w2 ∧
      getSlot s (headEntry t.head) = some { record := t.record, kind := .pull, progress := 0, tailOnly := false }) ∧
    passesTests s .bulk t.head ∧
    (t.made + 1 < (t.head.w1.extractLsb' 12 3).toNat + 1 ∧ 0 + x.data.length < (t.seg.w2.extractLsb' 16 14).toNat ∧
      x.maxPayload ≤ x.data.length ∧ s.wq.items.length + 5 ≤ 32) := by
  unfold passesTests
  dsimp only
  decide

theorem witness_PullOutcomesMoveTheRecord_overrun :
    let x := { exchange .receiving (.pull 8) with room := 7 }
    let t := turn 1 .exchanging
    let s := withTurn t (withEngine x running)
    let f := fromStation .data false (List.replicate 8 1)
    (awake s ∧ s.xeng = some x ∧ x.phase = .receiving ∧ x.frame = some (fromStation .push false []) ∧ x.direct = false ∧
      x.request = .pull 8 ∧ s.walk.hand = .turn t ∧ t.cls = .service ∧ s.seq.state ≠ .sealed ∧ t.skipping = none ∧
      s.wq.items.length + 1 ≤ 32) ∧
    (f.kind = .data ∧ f.address = (fromStation .push false []).address ∧ f.channel = (fromStation .push false []).channel ∧
      f.seqBit = (fromStation .push false []).seqBit ∧ f.payload.length ≤ 8 ∧ x.room < f.payload.length) := by decide

theorem witness_FillDoneStagesThePacket :
    let q : ReadReq := { kind := 4, addr := 0x900, len := 1, reader := .staging }
    let w : FillReq := { tag := .poke, addr := 0xA00, len := 2 }
    (awake (withRead q running) ∧ (withRead q running).hport.reads = q :: [] ∧ q.kind = 4 ∧ q.len = [9#8].length) ∧
    (∃ s : State, s.stage = { buf := .filling (some .poke), waiting := none }) ∧
    (∃ s : State, s.stage = { buf := .filling none, waiting := none }) ∧
    (∃ s : State, s.stage = { buf := .filling none, waiting := some w }) ∧
    ({ q with reader := .discard } : ReadReq).reader ≠ .staging :=
  ⟨by decide, ⟨{ running with stage := _ }, rfl⟩, ⟨{ running with stage := _ }, rfl⟩, ⟨{ running with stage := _ }, rfl⟩,
    by decide⟩

/-! ### The Write Queue, the ring and faults -/

theorem witness_PerformedWriteReleasesItsReports :
    let i : WqItem := .segment 0x200 0x11 .ok true true .service 1 0x100
    let j : WqItem := .link 0x100 0x210 0x140
    let s := withWrite (withItems [i, j] running)
    awake s ∧ performs s ∧ s.hport.write = some { kind := 5, addr := 0x20C, bytes := [1, 0, 0, 0], live := true } ∧
    s.wq.items = i :: [j] ∧ (writeOf i).isSome = true ∧ writeOf j = some (6, 0x108, 0x210) := by decide

/-- A packet of three bytes at the front of the Write Queue. -/
def draining (d : Drain) : State :=
  { withItems [.packet 3 1 .bulk 0x42 true] running with
    wq := { items := [.packet 3 1 .bulk 0x42 true], reserved := 0, started := true, drain := d },
    rx := { running.rx with fifo := [[1, 2, 3]] } }

/-- R122, R124: a write of the present size clears RX_FILL under a packet, and the descriptor that was fetched, at index 3, is
the one written back. -/
theorem test_write_back_goes_to_the_fetched_descriptor :
    let s := withRead { kind := 3, addr := 0x30, len := 16, reader := .descriptor } (draining .fetching)
    let s := ran (.rxRingSizeWrite 8) (ran (.recordFetchDone 0x900 3 0 0) { s with rx := { s.rx with fill := 3, ret := 5 } })
    s.rx.fill = 0 ∧ (ran .hostWriteComplete s).hport.write.map (fun w => (w.kind, w.addr)) = some (9, 0x38) := by decide

theorem witness_DescriptorStepsDrainThePacket :
    (awake (draining .fetching) ∧ performs (draining .fetching) ∧
      (draining .fetching).wq.items = .packet 3 1 .bulk 0x42 true :: [] ∧ (draining .fetching).rx.fifo = [1, 2, 3] :: []) ∧
    (let s := withRead { kind := 3, addr := 0, len := 16, reader := .descriptor } (draining .fetching)
     s.hport.reads = { kind := 3, addr := 0, len := 16, reader := .descriptor } :: [] ∧ s.wq.drain = .fetching ∧
     s.hport.write = none ∧ 0 < min ((1#32).extractLsb' 0 15).toNat 16384) ∧
    ((withWrite (draining (.writing 0 2))).wq.drain = .writing 0 2 ∧
      (withWrite (draining (.writing 0 2))).hport.write.isSome = true) ∧
    ((withWrite (draining (.writingBack 2))).wq.drain = .writingBack 2 ∧ 2 < [1#8, 2, 3].length ∧ [1#8, 2, 3].length ≤ 3) ∧
    min ((0#32).extractLsb' 0 15).toNat 16384 = 0 ∧
    ((draining .waits).rx.ret.toNat < (draining .waits).rx.size.toNat ∧ (draining .waits).wq.drain = .waits ∧
      (draining .waits).rx.fill.toNat < (draining .waits).rx.size.toNat ∧
      (7#32).extractLsb' 0 10 ≠ (draining .waits).rx.fill ∧ (0#32).extractLsb' 0 10 = (draining .waits).rx.fill) := by
  decide

theorem witness_RingRegisterWritesAreTested :
    (awake State.reset ∧ State.reset.seq.state = .offline ∧ (∀ i ∈ State.reset.wq.items, (writeOf i).isSome = true) ∧
      (0x1000#32).extractLsb' 0 4 = 0#4 ∧ (1024#32).extractLsb' 0 11 ∈ [512, 1024]) ∧
    (running.seq.state ≠ .offline ∧ running.seq.state ≠ .ready) ∧ (8#32).extractLsb' 0 11 = running.rx.size ∧
    ((7#32).extractLsb' 0 10).toNat < State.reset.rx.size.toNat ∧ State.reset.rx.size.toNat ≤ ((8#32).extractLsb' 0 10).toNat := by
  decide

theorem witness_HostMemoryFaultSeals :
    let s := withRead { kind := 4, addr := 0x900, len := 16, reader := .staging } running
    (awake s ∧ outstandingOn s .read = some (4, 0x900, 16) ∧ (15#10).toNat < 16 ∧ s.seq.state ≠ .offline ∧
      s.seq.state ≠ .sealed) ∧
    (outstandingOn (withWrite running) .write = some (5, 0x20C, 4) ∧ (5#4) ≠ 4 ∧ (5#4) ≠ 8) ∧
    (inCtrl .sealed s).seq.state = .sealed ∧ leftOn s .read = false ∧
    leftOn (withRead { kind := 1, addr := 0x100, len := 16, reader := .discard, left := true } running) .read = true := by decide

theorem witness_SealCompletionEmptiesTheQueues :
    let s := withRequest peek { running with seq := { running.seq with state := .sealed, sealPending := true } }
    awake s ∧ s.seq.sealPending = true ∧ s.xeng = none := by decide

/-! ### Direct access, attention, interrupts and logs -/

theorem witness_DirectRequestsAreChecked :
    awake running ∧ running.seq.state = .running ∧ running.dau.pending.length < 4 ∧ (getEntry running 1).valid = true ∧
    (getEntry running 2).valid = false ∧ State.reset.seq.state = .offline ∧
    (∃ r ∈ (withRequest peek running).dau.pending, r.poke = false ∧ 3 < r.offset.toNat + r.len) ∧
    ({ running with dau := { running.dau with pending := List.replicate 4 peek } } : State).dau.pending.length = 4 := by
  decide

theorem witness_DirectRegistersPopAndClear :
    awake running ∧ running.dau.done = [] ∧
    (∃ s : State, awake s ∧ s.dau.done = { poke := true, tag := 5, status := .refused, count := 0 } :: []) :=
  ⟨rfl, rfl, ⟨{ running with dau := { running.dau with done := [_] } }, rfl, rfl⟩⟩

theorem witness_AttentionQueueOffersAndPops :
    let r : Attn := { cause := .late, cls := .timed, entry := 3, cycle := 0, head := 0x100 }
    let full : Aiu := { State.reset.aiu with queue := List.replicate 16 { r with cause := .visit } }
    ((r.cause = .late) ∧ ∃ q ∈ [r], q.cause = r.cause ∧ q.entry = r.entry) ∧
    ((¬∃ q ∈ full.queue, q.cause = r.cause ∧ q.entry = r.entry) ∧ 16 ≤ full.queue.length) ∧
    (State.reset.aiu.queue.length < 16 ∧ awake State.reset ∧ State.reset.aiu.queue = []) ∧
    ((0x10000#32).getLsbD 16 = true ∧ (0#32).getLsbD 16 = false) := by decide

theorem witness_InterruptLineFollowsPendingAndMask : awake running ∧ levelBitsFree running := by
  unfold levelBitsFree; decide

theorem witness_WipesNeedAPermit : awake running := rfl

/-! ### The invariant -/

theorem witness_StepKeepsInv :
    Inv (withCommand 4 { State.afterReset true false with pending := [.run] }) ∧
    step (withCommand 4 { State.afterReset true false with pending := [.run] }) =
      .next (ran .run (withCommand 4 (State.afterReset true false))) := by
  have h : ∀ i, getEntry (withCommand 4 { State.afterReset true false with pending := [.run] }) i = Entry.null := by
    intro i; simp [getEntry, withCommand, State.afterReset]
  refine ⟨⟨h 0, fun i hi => ?_, fun i hi => ?_, by unfold queueFits; decide, ?_, ?_, ?_, ?_, ?_, ?_, ?_, ?_⟩, rfl⟩
  · rw [h i] at hi; cases hi
  · rw [h i] at hi; cases hi
  · unfold attentionFits; decide
  · unfold levelBitsFree; decide
  · exact ⟨by decide, by decide, fun x hx => by cases hx⟩
  · unfold reasonsShown; decide
  · unfold busyHolds; decide
  · unfold quarantineFits; decide
  · unfold quarantineFits; decide
  · intro x hx; cases hx

theorem witness_StepKeepsOfflineQuiet :
    OfflineQuiet { State.afterReset true true with pending := [.nop] } ∧
    step { State.afterReset true true with pending := [.nop] } = .next (State.afterReset true true) :=
  ⟨fun _ => by constructor <;> rfl, rfl⟩

end Sys2Proof.Tests
end

section
/-! SUPPORT. Register accesses out of reset (1.1, 1.2): what a write reaches, and the part's identity register (R6). -/

namespace Sys2Proof.Machine

/-! ### Accesses out of reset (R8) -/

/-- Only the power-on reset input holds an access back (R8). -/
@[simp] theorem unlessHeld_of_awake {s : State} (f : State → State) (h : awake s) : unlessHeld f s = f s :=
  if_neg (by simp [h])

theorem exec_registerWrite_of_awake {s : State} (off : BitVec 9) (w : Width) (v : BitVec 64) (h : awake s) :
    exec (.registerWrite off w v) s = .next (registerWrite off.toNat w v s) :=
  congrArg Host.Outcome.next (unlessHeld_of_awake _ h)

/-- A byte read returns the byte of the aligned 32-bit value at its place (R1). -/
theorem readNarrow_byte (s : State) (off : Nat) :
    readNarrow s off false = (field (readWord s (off / 4 * 4)) (8 * (off % 4)) 8).setWidth 16 := rfl

/-- An aligned halfword read returns the half of the aligned 32-bit value at its place (R1). -/
theorem readNarrow_half (s : State) {off : Nat} (h : off % 2 = 0) :
    readNarrow s off true = field (readWord s (off / 4 * 4)) (8 * (off % 4)) 16 := by
  simp [readNarrow, h]

/-! ### IDENT (R6) -/

theorem readWord_ident {s : State} (h : awake s) : readWord s 0x000 = Config.ident := by
  simp [readWord, h]

/-- IDENT has no writable field, and a narrow write reaches none outside the Bank (R2, R6). A doubleword is two writes, the
second of them to GLOBAL_CTL. -/
theorem registerWrite_ident {w : Width} (v : BitVec 64) (s : State) (hw : w ≠ .dword) : registerWrite 0x000 w v s = s := by
  cases w with
  | byte => rfl
  | half => rfl
  | word => rfl
  | dword => exact absurd rfl hw

/-- Settles O7: every state out of reset reads IDENT as the constant, a narrow read takes its bytes from that value, and
the write map holds no row at its offset. -/
theorem identIsFixed : Obligations.IdentIsFixed := by
  intro s hs
  have hword : readWord s 0x000 = 0xC2640003 := readWord_ident hs
  refine ⟨hword, ?_, ?_, ?_, ?_, ?_, ?_, fun w v hw => ?write⟩
  case write => exact (exec_registerWrite_of_awake 0x000 w v hs).trans (congrArg _ (registerWrite_ident v s hw))
  all_goals simp [readNarrow_byte, readNarrow_half, hword, field]

end Sys2Proof.Machine
end

section
/-! SUPPORT. Taking a command (R18, R19): the checks are the two tables of R18, a taken command is refused or carried out, and
no part of carrying one out touches cmd_refused or refuse_reason. -/

namespace Sys2Proof.Machine

/-! ### The checks (R18) -/

/-- ctrl_op names one of the six control operations, or is 6 or 7 (2.2). -/
theorem ctrlOp_cases (w : Word) : ctrlOp w = 0 ∨ ctrlOp w = 1 ∨ ctrlOp w = 2 ∨ ctrlOp w = 3 ∨ ctrlOp w = 4 ∨
    ctrlOp w = 5 ∨ ctrlOp w = 6 ∨ ctrlOp w = 7 := by
  generalize ctrlOp w = op
  bv_omega

/-- The checks in their order answer as the two tables of R18. -/
theorem commandRefusal_eq_refusal (w : Word) (s : State) : commandRefusal w s = refusal w s := by
  have hseven : segOp w = 7#3 ↔ (segOp w).toNat = 7 := by bv_omega
  have hnone : segOp w = 0#3 ↔ (segOp w).toNat = 0 := by bv_omega
  rcases ctrlOp_cases w with h | h | h | h | h | h | h | h
  all_goals
    cases hst : s.seq.state <;> simp [commandRefusal, stateRefusal, refusal, refusedWith, h, hst, hseven, hnone]

/-- Check 1 of R18 refuses ctrl_op 6 and 7 in every state. -/
theorem refusal_of_illegal {w : Word} (s : State) (hop : ctrlOp w = 6 ∨ ctrlOp w = 7) : refusal w s = .illegalOp := by
  obtain h | h := hop <;> simp [refusal, refusedWith, h]

/-! ### Taking a command (R18, R19) -/

/-- A pending command with this ctrl_op is carried out if no line of R18 refuses it; else the refusal is recorded and the
command finished. -/
theorem takeCommand_of_op {w : Word} {s : State} {op : BitVec 3} (accept : Word → State → State)
    (hc : s.seq.command = some w) (hop : ctrlOp w = op) :
    takeCommand op accept s =
      if refusal w s = .none then accept w s else finishCommand (recordRefusal (refusal w s) s) := by
  simp only [takeCommand, hc, if_pos hop, commandRefusal_eq_refusal]
  cases refusal w s <;> rfl

theorem takeCommand_of_ne {w : Word} {s : State} {op : BitVec 3} (accept : Word → State → State)
    (hc : s.seq.command = some w) (hop : ctrlOp w ≠ op) : takeCommand op accept s = s := by
  simp [takeCommand, hc, hop]

theorem takeCommand_of_none {s : State} (op : BitVec 3) (accept : Word → State → State) (hc : s.seq.command = none) :
    takeCommand op accept s = s := by
  simp [takeCommand, hc]

/-- A command of ctrl_op 6 or 7 is refused once: after the first taking no command is pending. -/
theorem illegalOp_of_illegal {w : Word} {s : State} (hc : s.seq.command = some w) (hop : ctrlOp w = 6 ∨ ctrlOp w = 7) :
    illegalOp s = finishCommand (recordRefusal (refusal w s) s) := by
  have hr : refusal w s ≠ .none := by simp [refusal_of_illegal s hop]
  unfold illegalOp
  obtain h | h := hop
  · rw [takeCommand_of_op _ hc h, if_neg hr]
    exact takeCommand_of_none 7 _ rfl
  · rw [takeCommand_of_ne _ hc (by simp [h]), takeCommand_of_op _ hc h, if_neg hr]

/-- What an accepted command does, by its ctrl_op (2.2); 6 and 7 are never accepted. -/
def carriedOut (w : Word) (s : State) : State :=
  match (ctrlOp w).toNat with
  | 0 => acceptNop w s
  | 1 => acceptRestart w s
  | 2 => acceptOffline w s
  | 3 => acceptConfigure w s
  | 4 => acceptRun w s
  | 5 => acceptStop w s
  | _ => s

/-- The row of the pending command refuses it by R18, or carries it out. -/
theorem exec_rowOf {w : Word} {s : State} (hs : awake s) (hc : s.seq.command = some w) :
    exec (rowOf w) s = .next
      (if refusal w s = .none then carriedOut w s else finishCommand (recordRefusal (refusal w s) s)) := by
  have taken {op : BitVec 3} (accept : Word → State → State) (hop : ctrlOp w = op) :=
    (unlessHeld_of_awake (takeCommand op accept) hs).trans (takeCommand_of_op accept hc hop)
  rcases ctrlOp_cases w with h | h | h | h | h | h | h
  · simpa [rowOf, carriedOut, h, exec, execNop] using taken acceptNop h
  · simpa [rowOf, carriedOut, h, exec, execRestart] using taken acceptRestart h
  · simpa [rowOf, carriedOut, h, exec, execOffline] using taken acceptOffline h
  · simpa [rowOf, carriedOut, h, exec, execConfigure] using taken acceptConfigure h
  · simpa [rowOf, carriedOut, h, exec, execRun] using taken acceptRun h
  · simpa [rowOf, carriedOut, h, exec, execStop] using taken acceptStop h
  · have row : rowOf w = .illegalOpRefused := by obtain h | h := h <;> simp [rowOf, h]
    have refused : unlessHeld illegalOp s = finishCommand (recordRefusal (refusal w s) s) :=
      (unlessHeld_of_awake _ hs).trans (illegalOp_of_illegal hc h)
    rw [row, if_neg (by simp [refusal_of_illegal s h])]
    exact congrArg Host.Outcome.next refused

/-! ### What a segment operation does to the Sequencer (R27) -/

/-- Of the Sequencer nothing but the controller state differs between `s` and `t`. -/
def MovesStateOnly (s t : State) : Prop := t.seq = { s.seq with state := t.seq.state }

theorem MovesStateOnly.of_seq {s t : State} (h : t.seq = s.seq) : MovesStateOnly s t := by
  unfold MovesStateOnly; rw [h]

theorem MovesStateOnly.trans {s t u : State} (h : MovesStateOnly s t) (k : MovesStateOnly t u) : MovesStateOnly s u := by
  unfold MovesStateOnly at *
  rw [k, h]

theorem setCtrl_movesStateOnly (c : CtrlState) (s : State) : MovesStateOnly s (setCtrl c s) := by
  unfold MovesStateOnly; rw [setCtrl_seq]

@[simp] theorem setMode_seq (g : Seg) (m : SegMode) (s : State) : (setMode g m s).seq = s.seq := by simp [setMode]

@[simp] theorem clearQuarantine_seq (g : Seg) (s : State) : (clearQuarantine g s).seq = s.seq := by simp [clearQuarantine]

@[simp] theorem silenceSegment_seq (g : Seg) (s : State) : (silenceSegment g s).seq = s.seq :=
  (setSeg_seq g _ _).trans (cutOn_only g s .seq (by decide))

theorem ignoreOp_movesStateOnly (g : Seg) (s : State) : MovesStateOnly s (ignoreOp g s) :=
  .of_seq (ignoreOp_only g s .seq (by cases g <;> decide))

/-- The end of a segment's change: the fall to READY moves the state alone. -/
theorem fallIfLast_movesStateOnly (wasLive : Bool) {s t : State} (h : t.seq = s.seq) :
    MovesStateOnly s (pumpQueue (fallIfLast wasLive t)) := by
  unfold MovesStateOnly
  rw [pumpQueue_seq, fallIfLast_seq, h]

theorem offerOp_movesStateOnly (op : BitVec 3) (g : Seg) (s : State) : MovesStateOnly s (offerOp op g s) := by
  have ignored := ignoreOp_movesStateOnly g s
  unfold offerOp
  split
  case h_1 => unfold segPower; split; exacts [.of_seq (setMode_seq g _ s), ignored]
  case h_2 => unfold segReset; split; exacts [fallIfLast_movesStateOnly _ (by simp), ignored]
  case h_3 => unfold segDisable; split; exacts [.of_seq rfl, fallIfLast_movesStateOnly _ (by simp)]
  case h_4 => unfold segDoze; split; exacts [.of_seq (setMode_seq g _ s), ignored]
  case h_5 => unfold segWake; split; exacts [.of_seq (setMode_seq g _ s), ignored]
  case h_6 => unfold segRelease; split; exacts [.of_seq (clearQuarantine_seq g s), ignored]
  case h_7 => exact .of_seq rfl

theorem offerOps_movesStateOnly (w : Word) (s : State) : MovesStateOnly s (offerOps w s) := by
  have share (p : Bool) (g : Seg) (t : State) : MovesStateOnly t (if p then offerOp (segOp w) g t else t) := by
    split
    · exact offerOp_movesStateOnly _ g t
    · exact .of_seq rfl
  exact (share _ .a s).trans (share _ .b _)

/-! ### What an accepted command leaves of an earlier refusal (R30) -/

/-- cmd_refused and refuse_reason are in `t` what they were in `s`. -/
def KeepsRefusal (s t : State) : Prop :=
  t.seq.cmdRefused = s.seq.cmdRefused ∧ t.seq.refuseReason = s.seq.refuseReason

theorem MovesStateOnly.keepsRefusal {s t : State} (h : MovesStateOnly s t) : KeepsRefusal s t := by
  unfold MovesStateOnly at h
  constructor <;> rw [h]

/-- A seg_op and the end of its command, after a change of the controller state. -/
theorem MovesStateOnly.commandEnd {s t : State} (h : MovesStateOnly s t) (w : Word) :
    KeepsRefusal s (finishCommand (offerOps w t)) :=
  (h.trans (offerOps_movesStateOnly w t)).keepsRefusal

theorem acceptConfigure_keepsRefusal (w : Word) (s : State) : KeepsRefusal s (acceptConfigure w s) :=
  have start := MovesStateOnly.of_seq (immediateCycleStart_only (setCtrl .ready s) .seq (by decide))
  ((setCtrl_movesStateOnly .ready s).trans start).commandEnd w

theorem acceptStop_keepsRefusal (w : Word) (s : State) : KeepsRefusal s (acceptStop w s) := by
  refine MovesStateOnly.commandEnd ?_ w
  split
  · exact .of_seq rfl
  · exact (setCtrl_movesStateOnly .stopping s).trans (.of_seq (pumpQueue_seq _))

theorem acceptRestart_keepsRefusal (w : Word) (s : State) : KeepsRefusal s (acceptRestart w s) := by
  have hseq : (acceptRestart w s).seq = { s.seq with command := none, restartInHand := true, restartFaulted := false } :=
    handAtRestart_only _ .seq (by decide)
  unfold KeepsRefusal
  simp [hseq]

@[simp] theorem cutAny_seq (s : State) : (cutAny s).seq = s.seq := by
  unfold cutAny
  split
  · exact finish_cut_only _ s .seq (by decide)
  · rfl

theorem acceptOffline_keepsRefusal (w : Word) (s : State) : KeepsRefusal s (acceptOffline w s) := by
  unfold acceptOffline
  split
  · exact ⟨rfl, rfl⟩
  · have refused := congrArg Sequencer.cmdRefused (cutAny_seq s)
    have reason := congrArg Sequencer.refuseReason (cutAny_seq s)
    exact ⟨refused, reason⟩

theorem carriedOut_keepsRefusal (w : Word) (s : State) : KeepsRefusal s (carriedOut w s) := by
  unfold carriedOut
  split
  case h_1 => exact (MovesStateOnly.of_seq rfl).commandEnd w
  case h_2 => exact acceptRestart_keepsRefusal w s
  case h_3 => exact acceptOffline_keepsRefusal w s
  case h_4 => exact acceptConfigure_keepsRefusal w s
  case h_5 => exact (setCtrl_movesStateOnly .running s).commandEnd w
  case h_6 => exact acceptStop_keepsRefusal w s
  case h_7 => exact ⟨rfl, rfl⟩

/-- Settles O13: the row of a pending command records R18's refusal and finishes the command, or carries it out, and every
part of carrying one out leaves an earlier refusal as it is. -/
theorem refusedCommandsChangeNothingElse : Obligations.RefusedCommandsChangeNothingElse := by
  intro w s hs hc
  have row := exec_rowOf hs hc
  refine ⟨fun refused => ?_, fun accepted => ?_⟩
  · exact row.trans (by rw [if_neg refused]; rfl)
  · rw [if_pos accepted] at row
    exact ⟨_, row, carriedOut_keepsRefusal w s⟩

end Sys2Proof.Machine
end

section
/-! SUPPORT. A write of CYCLE_LEN (R50, R51): its two tests, and the offer it makes where one of them fails. -/

namespace Sys2Proof.Machine

/-- A value is accepted when it is in range and at most 8 from the effective value (R50). -/
theorem lenAccepted_iff (v len : BitVec 13) : lenAccepted v len = true ↔
    7840 ≤ v.toNat ∧ v.toNat ≤ 8159 ∧ v.toNat ≤ len.toNat + 8 ∧ len.toNat ≤ v.toNat + 8 := by
  simp [lenAccepted, and_assoc]

/-- An offer that names no segment enters the Bus Log and sets ERRLOG; there is no segment it could quarantine (R152). -/
theorem offerBus_none (code : BitVec 8) (i : EntryIx) (s : State) :
    offerBus code none i s = { s with
      elog := busAfterOffer s.elog code 0 i (cycleLow12 s),
      aiu := { s.aiu with edges := s.aiu.edges ||| (1#11 <<< irqErrlog) } } := rfl

theorem exec_cycleLenWrite_of_awake (v : Word) {s : State} (h : awake s) :
    exec (.cycleLenWrite v) s = .next (writeCycleLen v s) :=
  congrArg Host.Outcome.next (unlessHeld_of_awake _ h)

/-- Settles O33: the two tests of R50 are the statement's range and step; a value that passes becomes the pending one, and
any other makes an offer to the Bus Log that names no segment. -/
theorem cycleLenWriteIsTested : Obligations.CycleLenWriteIsTested := by
  intro v s hs n
  have tested := lenAccepted_iff (v.extractLsb' 0 13) s.ctim.len
  rw [exec_cycleLenWrite_of_awake v hs]
  refine ⟨fun passes => ?accepted, fun fails => ?refused⟩
  case accepted => exact congrArg _ (if_pos (tested.mpr passes))
  case refused =>
    have offers : writeCycleLen v s = offerBus codeCycleLenRefused none 0 s := if_neg (mt tested.mp fails)
    rw [offers, offerBus_none]
    rfl

end Sys2Proof.Machine
end

section
/-! SUPPORT. A write of DIRECT_REQ (R133 to R135): the range it names, the checks it is judged by, and the record it becomes
where all of them pass. -/

namespace Sys2Proof.Machine

/-! ### The range of a request (R133) -/

/-- Sections are 4 bytes long below Bank offset 16 and 16 bytes long from there on (9.1). -/
def sectionUnit (off : BitVec 6) : Nat := if off.toNat < 16 then 4 else 16

/-- A range ends at the next multiple of its section's length. -/
theorem rangeLen_eq (off : BitVec 6) :
    rangeLen off = (off.toNat / sectionUnit off + 1) * sectionUnit off - off.toNat := by
  simp only [rangeLen, sectionEnd, sectionUnit]
  split <;> rfl

/-- No range leaves the Bank. -/
theorem rangeLen_fits (off : BitVec 6) : off.toNat + rangeLen off ≤ 64 := by
  have hoff := off.isLt
  simp only [rangeLen, sectionEnd]
  split <;> omega

/-! ### The checks (R134) -/

/-- Check 4 asks for a byte shared with the range of a pending PEEK. -/
theorem overlapsPeek_iff (d : Direct) (off : BitVec 6) : overlapsPeek d off = true ↔
    ∃ r ∈ d.pending, r.poke = false ∧ off.toNat < r.offset.toNat + r.len ∧
      r.offset.toNat < off.toNat + rangeLen off := by
  simp [overlapsPeek, overlaps]

/-- A request that fails a check leaves its reason and the flag rejected, and nothing else (R142). -/
theorem directRequest_of_rejected (poke : Bool) {i : EntryIx} {off : BitVec 6} (tag : BitVec 4) {s : State}
    (h : rejectOf s i off ≠ .none) : directRequest poke i off tag s =
      { s with dau := { s.dau with rejectReason := rejectOf s i off, rejected := true } } := by
  unfold directRequest
  split
  case h_1 accepted => exact absurd accepted h
  case h_2 => rfl

/-- A request that passes every check joins the back of the Pending list, and the walker decides again (R95). -/
theorem directRequest_of_accepted (poke : Bool) {i : EntryIx} {off : BitVec 6} (tag : BitVec 4) {s : State}
    (h : rejectOf s i off = .none) : directRequest poke i off tag s =
      wakeWalker { s with dau := { s.dau with pending := s.dau.pending ++ [requestRecord poke i off tag s] } } := by
  simp only [directRequest, h]

/-! ### The snapshot of a POKE (R135) -/

theorem bankBytes_length {off : BitVec 6} {n : Nat} (s : State) (h : off.toNat + n ≤ 64) :
    (bankBytes s off n).length = n := by
  simp only [bankBytes, List.length_take, List.length_drop, Vector.length_toList]
  omega

/-- Byte k of a snapshot is the Bank byte k places above its offset. -/
theorem bankBytes_getElem? {off : BitVec 6} {n k : Nat} (s : State) (h : off.toNat + n ≤ 64) (hk : k < n) :
    (bankBytes s off n)[k]? = some (bankByte s (off.toNat + k)) := by
  have inBank : off.toNat + k < 64 := by omega
  simp [bankBytes, bankByte, List.getElem?_take_of_lt hk, inBank]

/-! ### The two rows -/

theorem exec_directRequest_of_awake (poke : Bool) (i off : BitVec 6) (tag : BitVec 4) {s : State} (h : awake s) :
    exec (if poke then .pokeRequest i off tag else .peekRequest i off tag) s =
      .next (directRequest poke i off tag s) := by
  cases poke <;> exact congrArg Host.Outcome.next (unlessHeld_of_awake _ h)

/-- Settles O53: the reason is the first check of R134 that fails; with none, the record of R135 joins the list, and its
snapshot stays within the Bank because its range does. -/
theorem directRequestsAreChecked : Obligations.DirectRequestsAreChecked := by
  intro poke i off tag s hs request unit len reason
  have hlen : rangeLen off = len := rangeLen_eq off
  have checks : rejectOf s i off = reason := by
    simp only [rejectOf, overlapsPeek_iff, hlen, Config.directListSize, reason]
  have row : exec request s = .next (directRequest poke i off tag s) := exec_directRequest_of_awake poke i off tag hs
  refine ⟨fun rejected => ?rejected, fun accepted => ?accepted⟩
  case rejected => rw [row, directRequest_of_rejected poke tag (checks ▸ rejected), checks]
  case accepted =>
    have fits : off.toNat + len ≤ 64 := hlen ▸ rangeLen_fits off
    refine ⟨if poke then bankBytes s off len else [], ?joins, ?peek, ?poke⟩
    case joins =>
      rw [row, directRequest_of_accepted poke tag (checks.trans accepted), requestRecord, hlen]
      rfl
    case peek =>
      rintro rfl
      rfl
    case poke =>
      rintro rfl
      exact ⟨bankBytes_length s fits, fun k hk => bankBytes_getElem? s fits hk⟩

end Sys2Proof.Machine
end

section
/-! SUPPORT. The attention queue (10.1 to 10.3): the fields of a record's W0, the table of an offer, the pop, and the write
of ATTN_STATUS. -/

namespace Sys2Proof.Machine

/-! ### Placed fields -/

/-- A number placed in a word is read back at its place. -/
@[simp] theorem extractLsb'_place_same {n lo : Nat} (v : BitVec n) (fits : lo + n ≤ 32) :
    (place v lo).extractLsb' lo n = v := by
  ext i hi
  have inWord : lo + i < 32 := by omega
  simp [place, inWord, BitVec.getLsbD_eq_getElem hi]

/-- A number placed in a word leaves the bits below and above its place 0. -/
@[simp] theorem extractLsb'_place_disjoint {n lo : Nat} (v : BitVec n) (pos width : Nat)
    (apart : pos + width ≤ lo ∨ lo + n ≤ pos) :
    (place v lo).extractLsb' pos width = 0 := by
  ext i hi
  obtain below | above := apart
  · have : pos + i < lo := by omega
    simp [place, this]
  · have : n ≤ pos + i - lo := by omega
    simp [place, BitVec.getLsbD_of_ge v _ this]

/-! ### W0 of a record (10.1) -/

theorem attnWord_valid (r : Attn) : (attnWord r).getLsbD 0 = true := by simp [attnWord]

/-- The valid bit is the number 1 placed at bit 0. -/
theorem attnWord_eq_places (r : Attn) : attnWord r =
    place 1#1 0 ||| place (causeCode r.cause) 4 ||| place (classCode r.cls) 8 ||| place r.entry 10 ||| place r.cycle 16 := rfl

/-- The places of W0's fields do not overlap, so each is read back as it was placed. -/
theorem attnWord_fields (r : Attn) :
    (attnWord r).extractLsb' 4 4 = causeCode r.cause ∧ (attnWord r).extractLsb' 8 2 = classCode r.cls ∧
    (attnWord r).extractLsb' 10 6 = r.entry ∧ (attnWord r).extractLsb' 16 12 = r.cycle := by
  simp [attnWord_eq_places, BitVec.extractLsb'_or]

/-! ### The table of an offer (R146) -/

/-- Line 1 of R146: an offer repeats a held record when its cause is one of the three that coalesce and a record with the
same cause and entry is in the queue. -/
def RepeatsHeld (u : Aiu) (r : Attn) : Prop :=
  (r.cause = .rxOverrun ∨ r.cause = .late ∨ r.cause = .miss) ∧ ∃ q ∈ u.queue, q.cause = r.cause ∧ q.entry = r.entry

theorem coalesces_iff (c : Cause) : coalesces c = true ↔ c = .rxOverrun ∨ c = .late ∨ c = .miss := by
  cases c <;> simp [coalesces]

/-- The model's test of line 1. -/
theorem repeatsHeld_iff (u : Aiu) (r : Attn) :
    (coalesces r.cause && u.queue.any (fun q => q.cause == r.cause && q.entry == r.entry)) = true ↔ RepeatsHeld u r := by
  simp [RepeatsHeld, coalesces_iff]

theorem attnAfterOffer_of_repeatsHeld {u : Aiu} {r : Attn} (h : RepeatsHeld u r) : attnAfterOffer u r = u :=
  if_pos ((repeatsHeld_iff u r).mpr h)

theorem attnAfterOffer_of_full {u : Aiu} {r : Attn} (h : ¬RepeatsHeld u r) (full : 16 ≤ u.queue.length) :
    attnAfterOffer u r = { u with lost := if u.lost = 255 then 255 else u.lost + 1, overflow := true } := by
  have full : Config.attnQueueSize ≤ u.queue.length := full
  simp [attnAfterOffer, mt (repeatsHeld_iff u r).mp h, full]

theorem attnAfterOffer_of_room {u : Aiu} {r : Attn} (h : ¬RepeatsHeld u r) (room : u.queue.length < 16) :
    attnAfterOffer u r = { u with queue := u.queue ++ [r] } :=
  (if_neg (mt (repeatsHeld_iff u r).mp h)).trans (if_neg (Nat.not_le.mpr room))

/-! ### The pop (R147) -/

theorem exec_attnPop_of_awake {s : State} (h : awake s) : exec .attnPop s = .next (popAttn s) :=
  congrArg Host.Outcome.next (if_neg (by simp [h]))

theorem popAttn_of_nil {s : State} (h : s.aiu.queue = []) :
    popAttn s = { s with hport := { s.hport with readData := 0 } } := by
  simp [popAttn, h]

theorem popAttn_of_cons {s : State} {r : Attn} {rest : List Attn} (h : s.aiu.queue = r :: rest) :
    popAttn s = { s with hport := { s.hport with readData := attnWord r },
                         aiu := { s.aiu with queue := rest, attnHead := r.head } } := by
  simp [popAttn, h]

/-- ATTN_POP shows W0 of the oldest record. -/
theorem readWord_attnPop {s : State} {r : Attn} {rest : List Attn} (hs : awake s) (h : s.aiu.queue = r :: rest) :
    readWord s 0x080 = attnWord r := by
  simp [readWord, hs, h]

/-! ### The write of ATTN_STATUS (R148) -/

theorem exec_attnStatusWrite_of_awake (v : Word) {s : State} (h : awake s) :
    exec (.attnStatusWrite v) s = .next (writeAttnStatus v s) :=
  congrArg Host.Outcome.next (unlessHeld_of_awake _ h)

theorem writeAttnStatus_of_set {v : Word} (s : State) (h : v.getLsbD 16 = true) :
    writeAttnStatus v s = { s with aiu := { s.aiu with lost := 0, overflow := false } } :=
  if_pos h

theorem writeAttnStatus_of_clear {v : Word} (s : State) (h : v.getLsbD 16 = false) : writeAttnStatus v s = s :=
  if_neg (ne_true_of_eq_false h)

/-- Settles O55: the three lines of R146 by the test of line 1 and the queue's length, the pop by the queue's shape with the
fields of the word it returns, and the write of ATTN_STATUS by its overflow bit. -/
theorem attentionQueueOffersAndPops : Obligations.AttentionQueueOffersAndPops := by
  refine ⟨fun u r => ⟨attnAfterOffer_of_repeatsHeld, attnAfterOffer_of_full, attnAfterOffer_of_room⟩, fun v s hs => ?_⟩
  have pop : exec .attnPop s = .next (popAttn s) := exec_attnPop_of_awake hs
  have write : exec (.attnStatusWrite v) s = .next (writeAttnStatus v s) := exec_attnStatusWrite_of_awake v hs
  refine ⟨fun empty => ?popEmpty, fun r rest held => ?popHeld, fun set => ?writeSet, fun clear => ?writeClear⟩
  case popEmpty => rw [pop, popAttn_of_nil empty]
  case popHeld =>
    rw [readWord_attnPop hs held]
    exact ⟨by rw [pop, popAttn_of_cons held], attnWord_valid r, attnWord_fields r⟩
  case writeSet => rw [write, writeAttnStatus_of_set s set]
  case writeClear => rw [write, writeAttnStatus_of_clear s clear]

end Sys2Proof.Machine
end

section
/-! SUPPORT. Every row over the queue (R4, log 1, log 2): each answers a next state, and none touches the commands that wait. -/

namespace Sys2Proof.Machine

/-! ### Rows answer a next state -/

/-- No row stops the controller: `after` is what `exec` answers. -/
theorem exec_eq_after (c : Instr) (s : State) : exec c s = .next (after c s) := by
  cases c <;> rfl

theorem after_of_exec {c : Instr} {s t : State} (h : exec c s = .next t) : after c s = t := by
  rw [exec_eq_after] at h
  exact Host.Outcome.next.inj h

/-! ### The waiting commands -/

/-- The operation leaves the waiting commands alone. -/
def KeepsQueue (f : State → State) : Prop := ∀ s, (f s).pending = s.pending

theorem KeepsQueue.of_only {bs : List Block} {f : State → State} (h : ∀ s, OnlyChanges bs s (f s))
    (n : Block.pending ∉ bs) : KeepsQueue f := fun s => h s .pending n

theorem KeepsQueue.unlessHeld {f : State → State} (h : KeepsQueue f) : KeepsQueue (unlessHeld f) := by
  intro s
  unfold Machine.unlessHeld
  split
  · rfl
  · exact h s

theorem KeepsQueue.unlessOffline {f : State → State} (h : KeepsQueue f) : KeepsQueue (unlessOffline f) := by
  intro s
  unfold Machine.unlessOffline
  split
  · rfl
  · exact h s

/-- The rows of a taken command. -/
theorem takeCommand_keepsQueue (op : BitVec 3) {f : Word → State → State} {bs : List Block}
    (h : ∀ w u, OnlyChanges bs u (f w u)) (sub : ∀ b ∈ bs, b ∈ commandBlocks) : KeepsQueue (takeCommand op f) :=
  .of_only (takeCommand_only op f (fun w u => (h w u).mono sub) (by decide) (by decide)) (by decide)

/-! ### Register accesses -/

theorem writeGlobalCtl_keepsQueue (v : Word) : KeepsQueue (writeGlobalCtl v) := by
  intro s
  unfold writeGlobalCtl
  split <;> rfl

theorem writeSeqCmd_keepsQueue (v : Word) : KeepsQueue (writeSeqCmd v) := by
  intro s
  unfold writeSeqCmd
  split <;> rfl

theorem writeCycleLen_keepsQueue (v : Word) : KeepsQueue (writeCycleLen v) := by
  intro s
  unfold writeCycleLen
  split <;> rfl

theorem writeCycleNumber_keepsQueue (v : Word) : KeepsQueue (writeCycleNumber v) := by
  intro s
  unfold writeCycleNumber
  split <;> rfl

theorem writeAttnStatus_keepsQueue (v : Word) : KeepsQueue (writeAttnStatus v) := by
  intro s
  unfold writeAttnStatus
  split <;> rfl

theorem popAttn_keepsQueue : KeepsQueue popAttn := by
  intro s
  unfold popAttn
  split <;> rfl

theorem writeRegister_keepsQueue (off : Nat) (v : Word) : KeepsQueue (writeRegister off v) := by
  intro s
  unfold writeRegister
  split
  case h_1 => exact writeGlobalCtl_keepsQueue v s
  case h_2 => exact writeSeqCmd_keepsQueue v s
  case h_4 => exact writeSegCfg_only v s .pending (by decide)
  case h_5 => exact writeCycleLen_keepsQueue v s
  case h_6 => exact writeCycleNumber_keepsQueue v s
  case h_13 => exact writeRxBase_only v s .pending (by decide)
  case h_14 => exact writeRxSize_only v s .pending (by decide)
  case h_15 => exact writeRxReturn_only v s .pending (by decide)
  case h_17 => exact writeEntryW0_only v s .pending (by decide)
  case h_18 => exact writeEntryW1_only v s .pending (by decide)
  case h_19 => exact writeAttnStatus_keepsQueue v s
  case h_21 => exact directRequest_only _ _ _ _ s .pending (by decide)
  all_goals rfl

theorem writeWord_keepsQueue (off : Nat) (v : Word) : KeepsQueue (writeWord off v) := by
  intro s
  unfold writeWord
  split
  · rfl
  · split
    · exact writeBank_only _ _ _ s .pending (by decide)
    · exact writeRegister_keepsQueue off v s

theorem registerWrite_keepsQueue (off : Nat) (w : Width) (v : BitVec 64) : KeepsQueue (registerWrite off w v) := by
  intro s
  have narrow (n : Width) : (if inBank off then writeBank (off - 0x100) n v s else s).pending = s.pending := by
    split
    · exact writeBank_only _ _ _ s .pending (by decide)
    · rfl
  cases w with
  | byte => exact narrow .byte
  | half => exact narrow .half
  | word => exact writeWord_keepsQueue off _ s
  | dword => exact (writeWord_keepsQueue (off + 4) _ _).trans (writeWord_keepsQueue off _ s)

/-- A read that the held controller answers with 0 keeps the queue if the read itself does. -/
theorem heldOr_keepsQueue {f : State → State} (h : KeepsQueue f) :
    KeepsQueue (fun s => if s.hport.heldInReset then heldRead s else f s) := by
  intro s
  dsimp only
  split
  · rfl
  · exact h s

/-! ### Every row -/

theorem illegalOp_keepsQueue : KeepsQueue illegalOp := by
  have taken (op : BitVec 3) : KeepsQueue (takeCommand op (fun _ s => s)) :=
    takeCommand_keepsQueue op (fun _ u => .refl [] u) (by decide)
  exact fun s => (taken 7 _).trans (taken 6 s)

/-- No row touches the commands that wait behind it, a hard reset not either. -/
theorem after_keepsQueue (c : Instr) : KeepsQueue (after c) := by
  cases c with
  | powerOnReset a b => exact fun s => rfl
  | hardReset a b => exact KeepsQueue.unlessHeld (f := hardReset a b) (fun s => rfl)
  | nop => exact (takeCommand_keepsQueue 0 acceptNop_only (by decide)).unlessHeld
  | configure => exact (takeCommand_keepsQueue 3 acceptConfigure_only (by decide)).unlessHeld
  | run => exact (takeCommand_keepsQueue 4 acceptRun_only (by decide)).unlessHeld
  | stop => exact (takeCommand_keepsQueue 5 acceptStop_only (by decide)).unlessHeld
  | restart => exact (takeCommand_keepsQueue 1 acceptRestart_only (by decide)).unlessHeld
  | restartActions => exact (KeepsQueue.of_only restartActions_only (by decide)).unlessHeld
  | offline => exact (takeCommand_keepsQueue 2 acceptOffline_only (by decide)).unlessHeld
  | power g => exact (KeepsQueue.of_only (segPower_only g) (by cases g <;> decide)).unlessOffline.unlessHeld
  | reset g => exact (KeepsQueue.of_only (segReset_only g) (by cases g <;> decide)).unlessOffline.unlessHeld
  | disable g => exact (KeepsQueue.of_only (segDisable_only g) (by cases g <;> decide)).unlessOffline.unlessHeld
  | doze g => exact (KeepsQueue.of_only (segDoze_only g) (by cases g <;> decide)).unlessOffline.unlessHeld
  | wake g => exact (KeepsQueue.of_only (segWake_only g) (by cases g <;> decide)).unlessOffline.unlessHeld
  | release g => exact (KeepsQueue.of_only (segRelease_only g) (by cases g <;> decide)).unlessOffline.unlessHeld
  | biasChange g l => exact (KeepsQueue.of_only (biasChange_only g l) (by cases g <;> decide)).unlessHeld
  | babble a => exact (KeepsQueue.of_only (babble_only a.seg a.driving) (by cases a.seg <;> decide)).unlessHeld
  | wakeRequest g a => exact (KeepsQueue.of_only (wakeRequest_only g a) (by cases g <;> decide)).unlessHeld
  | cycleStart a b => exact (KeepsQueue.of_only (cycleStart_only a b) (by decide)).unlessHeld
  | beaconEnd => exact (KeepsQueue.of_only beaconEnd_only (by decide)).unlessHeld
  | periodicOpenReached => exact (KeepsQueue.of_only periodicOpenReached_only (by decide)).unlessHeld
  | cycleEndCutoff => exact (KeepsQueue.of_only cycleEndCutoff_only (by decide)).unlessHeld
  | walkerDecision => exact (KeepsQueue.of_only walkerDecision_only (by decide)).unlessHeld
  | requestSent => exact (KeepsQueue.of_only requestSent_only (by decide)).unlessHeld
  | replyTimeout => exact (KeepsQueue.of_only replyTimeout_only (by decide)).unlessHeld
  | replyEnd r => exact (KeepsQueue.of_only (replyEnd_only r) (by decide)).unlessHeld
  | acceptSent => exact (KeepsQueue.of_only acceptSent_only (by decide)).unlessHeld
  | stagingFillDone l => exact (KeepsQueue.of_only (stagingFillDone_only l) (by decide)).unlessHeld
  | recordFetchDone w0 w1 w2 w3 =>
    exact (KeepsQueue.of_only (recordFetchDone_only { w0 := w0, w1 := w1, w2 := w2, w3 := w3 }) (by decide)).unlessHeld
  | hostWriteComplete => exact (KeepsQueue.of_only hostWriteComplete_only (by decide)).unlessHeld
  | hostMemoryFault ch o => exact (KeepsQueue.of_only (hostMemoryFault_only ch o) (by decide)).unlessHeld
  | sealCompletion => exact (KeepsQueue.of_only sealCompletion_only (by decide)).unlessHeld
  | seqStatusWrite v => exact KeepsQueue.unlessHeld (f := writeSeqStatus v) (fun s => rfl)
  | segStatusRead g =>
    exact heldOr_keepsQueue (KeepsQueue.of_only (readSegStatus_only g) (by cases g <;> decide))
  | segCfgWrite v => exact (KeepsQueue.of_only (writeSegCfg_only v) (by decide)).unlessHeld
  | cycleLenWrite v => exact (writeCycleLen_keepsQueue v).unlessHeld
  | cycleNumberWrite v => exact (writeCycleNumber_keepsQueue v).unlessHeld
  | ringAnchorWrite k v => exact KeepsQueue.unlessHeld (f := writeAnchor k v) (fun s => rfl)
  | rxRingBaseWrite v => exact (KeepsQueue.of_only (writeRxBase_only v) (by decide)).unlessHeld
  | rxRingSizeWrite v => exact (KeepsQueue.of_only (writeRxSize_only v) (by decide)).unlessHeld
  | rxReturnWrite v => exact (KeepsQueue.of_only (writeRxReturn_only v) (by decide)).unlessHeld
  | entryW0Write v => exact (KeepsQueue.of_only (writeEntryW0_only v) (by decide)).unlessHeld
  | entryW1Write v => exact (KeepsQueue.of_only (writeEntryW1_only v) (by decide)).unlessHeld
  | attnPop => exact heldOr_keepsQueue popAttn_keepsQueue
  | attnStatusWrite v => exact (writeAttnStatus_keepsQueue v).unlessHeld
  | peekRequest i o t => exact (KeepsQueue.of_only (directRequest_only false i o t) (by decide)).unlessHeld
  | pokeRequest i o t => exact (KeepsQueue.of_only (directRequest_only true i o t) (by decide)).unlessHeld
  | directStatusWrite v => exact KeepsQueue.unlessHeld (f := writeDirectStatus v) (fun s => rfl)
  | directDonePop => exact heldOr_keepsQueue (KeepsQueue.of_only popDone_only (by decide))
  | irqPendingWrite v => exact KeepsQueue.unlessHeld (f := writeIrqPending v) (fun s => rfl)
  | irqMaskWrite v => exact KeepsQueue.unlessHeld (f := writeIrqMask v) (fun s => rfl)
  | busWipe v => exact KeepsQueue.unlessHeld (f := writeLogCtl _) (fun s => rfl)
  | hostWipe v => exact KeepsQueue.unlessHeld (f := writeLogCtl _) (fun s => rfl)
  | bankWrite o w v => exact (KeepsQueue.of_only (writeBank_only o.toNat w v) (by decide)).unlessHeld
  | registerWrite o w v => exact (registerWrite_keepsQueue o.toNat w v).unlessHeld
  | exchangeStart => exact (KeepsQueue.of_only exchangeStart_only (by decide)).unlessHeld
  | consumeRecord => exact (KeepsQueue.of_only consumeRecord_only (by decide)).unlessHeld
  | skipStep => exact (KeepsQueue.of_only skipStep_only (by decide)).unlessHeld
  | seqCmdWrite v => exact (writeSeqCmd_keepsQueue v).unlessHeld
  | illegalOpRefused => exact illegalOp_keepsQueue.unlessHeld
  | powerOnResetAsserted => exact fun s => rfl
  | replyBegun => exact (KeepsQueue.of_only replyBegun_only (by decide)).unlessHeld

/-- Settles O4: `exec` answers a next state for every row, and the frame of each row's operation leaves the queue out. -/
theorem commandsCompleteAndKeepQueue : Obligations.CommandsCompleteAndKeepQueue :=
  fun c s => ⟨after c s, exec_eq_after c s, after_keepsQueue c s⟩

/-- Settles O1: a step is `exec` of the front command by definition. -/
theorem stepTakesFrontCommand : Obligations.StepTakesFrontCommand := by
  intro c rest s waiting
  unfold step
  rw [waiting]

end Sys2Proof.Machine
end

section
/-! SUPPORT. What a walker decision or a look-ahead can do (R95, R118), said once: it is a run of a few elementary updates,
none of which touches the Write Queue, the progress slots or the attention queue. -/

namespace Sys2Proof.Machine

/-! ### The elementary updates -/

/-- The anchors, the progress slots and the mark of a closed turn are in `v` what they were in `w`. -/
structure SameStores (w v : Walker) : Prop where
  anchorReg : v.anchorReg = w.anchorReg
  anchorWritten : v.anchorWritten = w.anchorWritten
  latched : v.latched = w.latched
  slots : v.slots = w.slots
  turnOver : v.turnOver = w.turnOver

/-- In addition the window, the marks of the passes and the pass in progress are the same. -/
structure SameCycle (w v : Walker) : Prop extends SameStores w v where
  window : v.window = w.window
  timedDone : v.timedDone = w.timedDone
  streamDone : v.streamDone = w.streamDone
  pass : v.pass = w.pass

/-- Nothing of the walker but its look-ahead changes. -/
def LookOnly (w v : Walker) : Prop := v = { w with look := v.look }

theorem LookOnly.sameCycle {w v : Walker} (h : LookOnly w v) : SameCycle w v := by
  rw [h]
  exact ⟨⟨rfl, rfl, rfl, rfl, rfl⟩, rfl, rfl, rfl, rfl⟩

/-- An elementary update of a decision; `keeps` says what a change of the walker's own state leaves alone. -/
inductive DecisionUpdate (keeps : Walker → Walker → Prop) : State → State → Prop
  | walker (s : State) (w : Walker) (kept : keeps s.walk w) : DecisionUpdate keeps s { s with walk := w }
  | request (s : State) (kind : BitVec 4) (addr : Word) (len : Nat) (reader : Reader) :
      DecisionUpdate keeps s (requestRead kind addr len reader s)
  | cancel (s : State) (p : Reader → Bool) : DecisionUpdate keeps s (cancelReads p s)
  | stage (s : State) (b : StageBuf) (w : Option FillReq) : DecisionUpdate keeps s (setStage b w s)
  | broken (s : State) (addr : Word) : DecisionUpdate keeps s (ringBroken addr s)
  | barred (s : State) (st : DirStatus) : DecisionUpdate keeps s (completeDirect st [] s)
  | choose (s : State) (x : Exchange) : DecisionUpdate keeps s { s with xeng := some x }

/-- A run of elementary updates. -/
abbrev Decides (keeps : Walker → Walker → Prop) : State → State → Prop := Relation.ReflTransGen (DecisionUpdate keeps)

theorem Decides.refl {keeps : Walker → Walker → Prop} (s : State) : Decides keeps s s := Relation.ReflTransGen.refl

theorem Decides.after {keeps : Walker → Walker → Prop} {s t u : State} (h : Decides keeps t u)
    (first : DecisionUpdate keeps s t) : Decides keeps s u := Relation.ReflTransGen.head first h

theorem Decides.mono {keeps keeps' : Walker → Walker → Prop} (sub : ∀ w v, keeps w v → keeps' w v) {s t : State}
    (h : Decides keeps s t) : Decides keeps' s t := by
  refine Relation.ReflTransGen.mono ?_ _ _ h
  intro u v step
  cases step with
  | walker w kept => exact .walker u w (sub _ _ kept)
  | request k a n r => exact .request u k a n r
  | cancel p => exact .cancel u p
  | stage b w => exact .stage u b w
  | broken a => exact .broken u a
  | barred st => exact .barred u st
  | choose x => exact .choose u x

theorem Decides.widen {s t : State} (h : Decides SameCycle s t) : Decides SameStores s t :=
  h.mono fun _ _ kept => kept.toSameStores

theorem Decides.cycle {s t : State} (h : Decides LookOnly s t) : Decides SameCycle s t := h.mono fun _ _ => LookOnly.sameCycle

/-- What every elementary update leaves alone a whole run leaves alone. -/
theorem Decides.same {keeps : Walker → Walker → Prop} {α : Type} (f : State → α)
    (each : ∀ s t, DecisionUpdate keeps s t → f t = f s) {s t : State} (h : Decides keeps s t) : f t = f s := by
  induction h with
  | refl => rfl
  | tail _ step ih => exact (each _ _ step).trans ih

/-! ### Look-ahead -/

theorem stageNow_decides (tag : StageTag) (bytes : List Byte) (s : State) : Decides LookOnly s (stageNow tag bytes s) :=
  (Decides.refl _).after (.stage _ _ _) |>.after (.cancel s _)

theorem startFill_decides (q : FillReq) (s : State) : Decides LookOnly s (startFill q s) :=
  (Decides.refl _).after (.stage _ _ _) |>.after (.request s _ _ _ _)

theorem requestFill_decides (q : FillReq) (s : State) : Decides LookOnly s (requestFill q s) := by
  have fill : Decides LookOnly s (if q.len = 0 then stageNow q.tag [] s else startFill q s) := by
    split
    · exact stageNow_decides q.tag [] s
    · exact startFill_decides q s
  unfold requestFill
  split
  · exact fill
  · split
    · exact .refl s
    · exact fill
  · split
    · exact .refl s
    · split
      · exact stageNow_decides q.tag [] s
      · split
        · exact .refl s
        · exact (Decides.refl _).after (.stage s s.stage.buf (some q))

theorem setLook_update (l : Look) (s : State) : DecisionUpdate LookOnly s (setLook l s) :=
  .walker s _ rfl

theorem lookFetch_decides (k : Seek) (s : State) : Decides LookOnly s (lookFetch k s) :=
  (Decides.refl _).after (setLook_update _ _) |>.after (.request s _ _ _ _)

theorem ringBroken_decides {keeps : Walker → Walker → Prop} (addr : Word) (s : State) : Decides keeps s (ringBroken addr s) :=
  (Decides.refl _).after (.broken s addr)

theorem lookRings_decides (l : List RingClass) (s : State) : Decides LookOnly s (lookRings l s) := by
  induction l with
  | nil => exact .refl s
  | cons c rest ih =>
    unfold lookRings
    split
    · exact lookFetch_decides _ s
    · exact ih
    · exact ringBroken_decides _ s
    · exact ih

theorem lookFound_decides {after : State → State} (f : Found) {s : State} (h : Decides LookOnly s (after s)) :
    Decides LookOnly s (lookFound after f s) := by
  unfold lookFound
  split
  · exact lookFetch_decides _ s
  · exact h
  · exact ringBroken_decides _ s
  · exact .refl s

theorem lookStream_decides (s : State) : Decides LookOnly s (lookStream s) := by
  unfold lookStream
  split
  · exact .refl s
  · exact lookFound_decides _ (.refl s)

theorem lookPasses_decides (s : State) : Decides LookOnly s (lookPasses s) := by
  unfold lookPasses
  split
  · exact lookStream_decides s
  · exact lookFound_decides _ (lookStream_decides s)

theorem afterPass_decides (c : RingClass) (s : State) : Decides LookOnly s (afterPass c s) := by
  unfold afterPass
  split
  · exact lookStream_decides s
  · exact .refl s

theorem lookPass_decides (s : State) : Decides LookOnly s (lookPass s) := by
  unfold lookPass
  dsimp only
  split
  · exact lookPasses_decides s
  · split
    · split <;> exact lookFound_decides _ (afterPass_decides _ s)
    · exact lookFound_decides _ (afterPass_decides _ s)

theorem lookAperiodic_decides (s : State) : Decides LookOnly s (lookAperiodic s) := by
  unfold lookAperiodic
  split
  · exact .refl s
  · exact lookRings_decides _ s

theorem lookBurst_decides (t : Turn) (x : Exchange) (s : State) : Decides LookOnly s (lookBurst t x s) := by
  unfold lookBurst
  split
  · exact lookAperiodic_decides s
  · exact requestFill_decides _ s
  · exact .refl s
  · exact (Decides.refl _).after (setLook_update _ _) |>.after (.request s _ _ _ _)

theorem lookLate_decides (s : State) : Decides LookOnly s (lookLate s) := by
  unfold lookLate
  split
  · exact lookBurst_decides _ _ s
  · exact lookAperiodic_decides s

theorem lookAhead_decides (s : State) : Decides LookOnly s (lookAhead s) := by
  unfold lookAhead
  split
  · refine Decides.after ?_ (setLook_update .nothing s)
    refine Decides.after ?_ (.cancel _ lookReader)
    dsimp only
    split
    · exact lookPasses_decides _
    · exact lookPass_decides _
    · exact lookLate_decides _
    · exact .refl _
  · exact .refl s

theorem lookOver_decides (k : Seek) (h : Rec) (s : State) : Decides LookOnly s (lookOver k h s) := by
  unfold lookOver
  refine Decides.after ?_ (setLook_update .nothing s)
  dsimp only
  split
  · exact lookFound_decides _ (afterPass_decides _ _)
  · split
    · exact lookFetch_decides _ _
    · exact lookRings_decides _ _
    · exact ringBroken_decides _ _
    · exact lookRings_decides _ _

theorem lookHeadReturned_decides (k : Seek) (h : Rec) (s : State) : Decides LookOnly s (lookHeadReturned k h s) := by
  unfold lookHeadReturned
  dsimp only
  split
  · split
    · exact (Decides.refl _).after (setLook_update _ s)
    · exact (Decides.refl _).after (setLook_update _ _) |>.after (.request s _ _ _ _)
  · exact lookOver_decides k h s

theorem lookFill_decides (h r : Rec) (s : State) : Decides LookOnly s (lookFill h r s) := by
  unfold lookFill
  dsimp only
  split
  · exact .refl s
  · split
    · exact requestFill_decides _ s
    · exact .refl s

theorem lookRecordReturned_decides (k : Seek) (h r : Rec) (s : State) :
    Decides LookOnly s (lookRecordReturned k h r s) := by
  unfold lookRecordReturned
  dsimp only
  split
  · exact lookOver_decides k h s
  · exact (lookFill_decides _ _ _).after (setLook_update .nothing s)

theorem lookBurstReturned_decides (h r : Rec) (s : State) : Decides LookOnly s (lookBurstReturned h r s) := by
  unfold lookBurstReturned
  refine Decides.after ?_ (setLook_update .nothing s)
  dsimp only
  split
  · exact lookAperiodic_decides _
  · exact lookFill_decides _ _ _

/-! ### Decisions -/

theorem setHand_update (h : Hand) (s : State) : DecisionUpdate SameCycle s (setHand h s) :=
  .walker s _ ⟨⟨rfl, rfl, rfl, rfl, rfl⟩, rfl, rfl, rfl, rfl⟩

theorem wakeWalker_update (s : State) : DecisionUpdate SameCycle s (wakeWalker s) :=
  .walker s _ ⟨⟨rfl, rfl, rfl, rfl, rfl⟩, rfl, rfl, rfl, rfl⟩

theorem beginDecision_update (s : State) : DecisionUpdate SameCycle s (beginDecision s) :=
  .walker s _ ⟨⟨rfl, rfl, rfl, rfl, rfl⟩, rfl, rfl, rfl, rfl⟩

theorem setRot_update (c : RingClass) (r : Rotation) (s : State) : DecisionUpdate SameCycle s (setRot c r s) := by
  cases c <;>
    exact .walker s _ ⟨⟨rfl, rfl, rfl, rfl, rfl⟩, rfl, rfl, rfl, rfl⟩

theorem waitLook_decides (s : State) : Decides SameCycle s (waitLook s) :=
  (lookAhead_decides _).cycle.after (setHand_update .nothing s)

/-- A search leads to heads of a search of the same ring only (R96). -/
theorem traverse_search {s : State} {c : RingClass} {n : Nat} {k : Seek} {prev : Option Word} {next : Word} {k' : Seek}
    {prev' : Option Word} (found : traverse s n k prev next = .head k' prev') (h : ∃ m, k.stage = .search c m) :
    ∃ m, k'.stage = .search c m := by
  induction n generalizing k prev next with
  | zero => simp [traverse] at found
  | succ n ih =>
    obtain ⟨m, hm⟩ := h
    unfold traverse at found
    split at found
    · simp at found
    · split at found
      · rw [hm] at found
        cases m with
        | high => exact ih found ⟨.low, rfl⟩
        | low =>
          dsimp only at found
          split at found
          · simp at found
          · exact ih found ⟨.second, rfl⟩
        | second => simp at found
      · split at found
        · simp at found
        · dsimp only at found
          split at found
          · exact ih found ⟨m, hm⟩
          · obtain ⟨rfl, -⟩ := Found.head.inj found
            exact ⟨m, hm⟩

theorem beginRing_search {s : State} {c : RingClass} {k : Seek} {prev : Option Word}
    (found : beginRing s c = .head k prev) : ∃ m, k.stage = .search c m := by
  unfold beginRing at found
  dsimp only at found
  split at found
  · simp at found
  · split at found
    · exact traverse_search found ⟨.low, rfl⟩
    · exact traverse_search found ⟨.high, rfl⟩

theorem issueHead_of_search {k : Seek} {c : RingClass} {m : Search} (h : k.stage = .search c m) (prev : Option Word)
    (s : State) : issueHead k prev s = setHand (.headWait k) (requestRead 1 k.cur 16 .head s) := by
  unfold issueHead
  rw [h]

theorem issueHead_of_pass {k : Seek} {c : RingClass} (h : k.stage = .pass c) (prev : Option Word) (s : State) :
    issueHead k prev s = setHand (.headWait k) (requestRead 1 k.cur 16 .head { s with walk := { s.walk with
      pass := some { prev := prev, next := k.cur, start := k.start, fetched := k.fetched - 1 } } }) := by
  unfold issueHead
  rw [h]

theorem issueHead_search_decides {k : Seek} {c : RingClass} (h : ∃ m, k.stage = .search c m) (prev : Option Word)
    (s : State) : Decides SameCycle s (issueHead k prev s) := by
  obtain ⟨m, hm⟩ := h
  rw [issueHead_of_search hm]
  exact (Decides.refl _).after (setHand_update _ _) |>.after (.request s _ _ _ _)

theorem walkerBroken_decides (addr : Word) (s : State) : Decides SameCycle s (walkerBroken addr s) :=
  (ringBroken_decides addr _).after (setHand_update .nothing s)

theorem offerRings_decides (l : List RingClass) (s : State) : Decides SameCycle s (offerRings l s) := by
  induction l generalizing s with
  | nil => exact waitLook_decides s
  | cons c rest ih =>
    unfold offerRings
    split
    case h_1 found => exact issueHead_search_decides (beginRing_search found) _ s
    case h_2 => exact (ih _).after (setRot_update _ _ s)
    case h_3 => exact walkerBroken_decides _ s
    case h_4 => exact ih s

theorem chooseDirect_decides (r : DirReq) (s : State) : Decides SameCycle s (chooseDirect r s) := by
  have choose (x : Exchange) (u : State) : Decides SameCycle u (setHand .nothing (wakeWalker { u with xeng := some x })) :=
    (Decides.refl _).after (setHand_update _ _) |>.after (wakeWalker_update _) |>.after (.choose u x)
  unfold chooseDirect
  dsimp only
  split
  · exact (stageNow_decides .poke r.data s).cycle.trans (choose _ _)
  · exact choose _ s

theorem endAperiodic_update (s : State) : DecisionUpdate SameCycle s (endAperiodic s) :=
  .walker s _ ⟨⟨rfl, rfl, rfl, rfl, rfl⟩, rfl, rfl, rfl, rfl⟩

theorem aperiodic_decides (n : Nat) (s : State) : Decides SameCycle s (aperiodic n s) := by
  induction n generalizing s with
  | zero => exact offerRings_decides _ s
  | succ n ih =>
    unfold aperiodic
    split
    · split
      · exact offerRings_decides _ s
      · split
        · exact (ih _).after (.barred s _)
        · split
          · exact chooseDirect_decides _ s
          · exact (waitLook_decides _).after (endAperiodic_update s)
    · exact offerRings_decides _ s

theorem aperiodicDecision_decides (s : State) : Decides SameCycle s (aperiodicDecision s) := by
  unfold aperiodicDecision
  split
  · exact waitLook_decides s
  · exact aperiodic_decides _ s

/-! ### Decisions that move a pass or a window -/

theorem issueHead_decides (k : Seek) (prev : Option Word) (s : State) : Decides SameStores s (issueHead k prev s) := by
  have fetch (u : State) : Decides SameStores u (setHand (.headWait k) (requestRead 1 k.cur 16 .head u)) :=
    Decides.widen ((Decides.refl _).after (setHand_update _ _) |>.after (.request u _ _ _ _))
  unfold issueHead
  split
  · exact (fetch _).after (.walker s _ ⟨rfl, rfl, rfl, rfl, rfl⟩)
  · exact fetch s

theorem closePasses_update (s : State) : DecisionUpdate SameStores s (closePasses s) :=
  .walker s _ ⟨rfl, rfl, rfl, rfl, rfl⟩

theorem walkerWaits_decides (s : State) : Decides SameCycle s (walkerWaits s) :=
  (Decides.refl _).after (setHand_update .nothing s)

theorem streamStage_decides (s : State) : Decides SameStores s (streamStage s) := by
  have late : Decides SameStores s (aperiodicDecision (closePasses s)) :=
    (aperiodicDecision_decides _).widen.after (closePasses_update s)
  unfold streamStage
  split
  · exact late
  · split
    · exact issueHead_decides _ _ s
    · exact late
    · exact (walkerBroken_decides _ s).widen
    · exact (walkerWaits_decides s).widen

theorem periodicStage_decides (s : State) : Decides SameStores s (periodicStage s) := by
  unfold periodicStage
  split
  · exact (aperiodicDecision_decides _).widen.after (closePasses_update s)
  · split
    · exact streamStage_decides s
    · split
      · exact issueHead_decides _ _ s
      · exact (streamStage_decides _).after (.walker s _ ⟨rfl, rfl, rfl, rfl, rfl⟩)
      · exact (walkerBroken_decides _ s).widen
      · exact (walkerWaits_decides s).widen

theorem freshDecision_decides (s : State) : Decides SameStores s (freshDecision s) := by
  have begun : Decides SameStores s (beginDecision s) := ((Decides.refl _).after (beginDecision_update s)).widen
  unfold freshDecision
  refine begun.trans ?_
  dsimp only
  generalize beginDecision s = u
  split
  · exact (walkerWaits_decides u).widen
  · exact (walkerWaits_decides u).widen
  · split
    · exact (periodicStage_decides _).after (.walker u _ ⟨rfl, rfl, rfl, rfl, rfl⟩)
    · exact (aperiodicDecision_decides u).widen
  · exact periodicStage_decides u
  · exact (aperiodicDecision_decides u).widen

theorem searchOn_decides (c : RingClass) (k : Seek) (h : Rec) (s : State) : Decides SameStores s (searchOn c k h s) := by
  unfold searchOn
  split
  · exact issueHead_decides _ _ s
  · exact Decides.widen ((offerRings_decides _ _).after (setRot_update _ _ s))
  · exact (walkerBroken_decides _ s).widen
  · exact (offerRings_decides _ s).widen

theorem passOver_decides (k : Seek) (h : Rec) (s : State) : Decides SameStores s (passOver k h s) := by
  unfold passOver
  refine Decides.after ?_ (.walker s { s.walk with hand := .nothing } ⟨rfl, rfl, rfl, rfl, rfl⟩)
  dsimp only [setHand]
  split
  · exact (periodicStage_decides _).after (.walker _ _ ⟨rfl, rfl, rfl, rfl, rfl⟩)
  · exact searchOn_decides _ _ _ _

/-! ### What decisions leave alone -/

/-- A ring found broken changes no more of the walker than its hand, its look-ahead and its waiting. -/
theorem ringBroken_walk (addr : Word) (s : State) : ∃ hand look waiting,
    (ringBroken addr s).walk = { s.walk with hand := hand, look := look, waiting := waiting } := by
  unfold ringBroken hostFault
  dsimp only
  split <;> exact ⟨_, _, _, rfl⟩

theorem Decides.walk {keeps : Walker → Walker → Prop} {α : Type} (f : Walker → α)
    (each : ∀ w v, keeps w v → f v = f w)
    (hands : ∀ (w : Walker) hand look waiting, f { w with hand := hand, look := look, waiting := waiting } = f w)
    {s t : State} (h : Decides keeps s t) : f t.walk = f s.walk := by
  refine h.same (fun s => f s.walk) fun s t step => ?_
  cases step with
  | walker w kept => exact each _ _ kept
  | broken a =>
    obtain ⟨hand, look, waiting, e⟩ := ringBroken_walk a s
    rw [e]
    exact hands _ _ _ _
  | barred st => exact congrArg f (completeDirect_only st [] s .walk (by decide))
  | request | cancel | stage | choose => rfl

theorem Decides.slots {s t : State} (h : Decides SameStores s t) : t.walk.slots = s.walk.slots :=
  h.walk Walker.slots (fun _ _ kept => kept.slots) (fun _ _ _ _ => rfl)

theorem Decides.sameCycle {s t : State} (h : Decides SameCycle s t) : SameCycle s.walk t.walk where
  anchorReg := h.walk Walker.anchorReg (fun _ _ kept => kept.anchorReg) (fun _ _ _ _ => rfl)
  anchorWritten := h.walk Walker.anchorWritten (fun _ _ kept => kept.anchorWritten) (fun _ _ _ _ => rfl)
  latched := h.walk Walker.latched (fun _ _ kept => kept.latched) (fun _ _ _ _ => rfl)
  slots := h.walk Walker.slots (fun _ _ kept => kept.slots) (fun _ _ _ _ => rfl)
  turnOver := h.walk Walker.turnOver (fun _ _ kept => kept.turnOver) (fun _ _ _ _ => rfl)
  window := h.walk Walker.window (fun _ _ kept => kept.window) (fun _ _ _ _ => rfl)
  timedDone := h.walk Walker.timedDone (fun _ _ kept => kept.timedDone) (fun _ _ _ _ => rfl)
  streamDone := h.walk Walker.streamDone (fun _ _ kept => kept.streamDone) (fun _ _ _ _ => rfl)
  pass := h.walk Walker.pass (fun _ _ kept => kept.pass) (fun _ _ _ _ => rfl)

/-- No decision touches the Write Queue. -/
theorem Decides.wq {keeps : Walker → Walker → Prop} {s t : State} (h : Decides keeps s t) : t.wq = s.wq := by
  refine h.same State.wq fun s t step => ?_
  cases step with
  | broken a => exact ringBroken_only a s .wq (by decide)
  | barred st => exact completeDirect_only st [] s .wq (by decide)
  | walker | request | cancel | stage | choose => rfl

end Sys2Proof.Machine
end

section
/-! SUPPORT. What every row reports (R30, R31, R149): no interrupt edge and no sticky flag is lost, and the controller's state
changes with SEQ set. The rows that may do otherwise are the resets, RUN, OFFLINE and the writes of the registers that clear. -/

namespace Sys2Proof.Machine

/-! ### The relation -/

/-- No edge and no sticky flag of `s` is lost in `t`, and the controller is in the same state, or has entered one that no
RUN and no OFFLINE leads to, with SEQ set (R31). -/
structure Reported (s t : State) : Prop where
  state : t.seq.state = s.seq.state ∨
    (t.seq.state ≠ .running ∧ t.seq.state ≠ .offline ∧ t.aiu.edges.getLsbD irqSeq = true)
  edges : ∀ n, s.aiu.edges.getLsbD n = true → t.aiu.edges.getLsbD n = true
  cmdRefused : s.seq.cmdRefused = true → t.seq.cmdRefused = true
  tableRefused : s.seq.tableRefused = true → t.seq.tableRefused = true
  writesDiscarded : s.seq.writesDiscarded = true → t.seq.writesDiscarded = true

/-- What leaves the Sequencer alone and keeps the edges. -/
theorem Reported.of_seq {s t : State} (seq : t.seq = s.seq)
    (edges : ∀ n, s.aiu.edges.getLsbD n = true → t.aiu.edges.getLsbD n = true) : Reported s t where
  state := .inl (by rw [seq])
  edges := edges
  cmdRefused := by rw [seq]; exact id
  tableRefused := by rw [seq]; exact id
  writesDiscarded := by rw [seq]; exact id

/-- What leaves the Sequencer alone and the edges, whatever else it does to the Attention and Interrupt Unit. -/
theorem Reported.of_edges {s t : State} (seq : t.seq = s.seq) (edges : t.aiu.edges = s.aiu.edges) : Reported s t :=
  .of_seq seq (by rw [edges]; exact fun _ => id)

theorem Reported.refl (s : State) : Reported s s := .of_edges rfl rfl

theorem Reported.trans {s t u : State} (h : Reported s t) (k : Reported t u) : Reported s u where
  state := by
    obtain same | changed := k.state
    · obtain same' | ⟨run, off, edge⟩ := h.state
      · exact .inl (same.trans same')
      · exact .inr ⟨by rwa [same], by rwa [same], k.edges _ edge⟩
    · exact .inr changed
  edges n := k.edges n ∘ h.edges n
  cmdRefused := k.cmdRefused ∘ h.cmdRefused
  tableRefused := k.tableRefused ∘ h.tableRefused
  writesDiscarded := k.writesDiscarded ∘ h.writesDiscarded

/-- What is reported from a state that differs in neither the Sequencer nor the edges. -/
theorem Reported.behind {s t u : State} (h : Reported t u) (seq : t.seq = s.seq) (edges : t.aiu.edges = s.aiu.edges) :
    Reported s u :=
  (of_edges seq edges).trans h

theorem Reported.of_only {bs : List Block} {s t : State} (f : OnlyChanges bs s t) (seq : Block.seq ∉ bs)
    (aiu : Block.aiu ∉ bs) : Reported s t :=
  .of_edges (f .seq seq) (congrArg Aiu.edges (f .aiu aiu))

/-! ### Shared operations -/

theorem edges_or (e f : BitVec 11) (n : Nat) (h : e.getLsbD n = true) : (e ||| f).getLsbD n = true := by
  rw [BitVec.getLsbD_or, h, Bool.true_or]

theorem setEdge_reported (i : Nat) (s : State) : Reported s (setEdge i s) := .of_seq rfl fun n => edges_or _ _ n

/-- After SEQ has been set it is pending. -/
theorem setEdge_irqSeq (s : State) : (setEdge irqSeq s).aiu.edges.getLsbD irqSeq = true := by
  rw [setEdge_bit irqSeq irqSeq s (by decide)]
  simp

theorem offerAttn_reported (cause : Cause) (c : RingClass) (i : EntryIx) (head : Word) (s : State) :
    Reported s (offerAttn cause c i head s) :=
  .of_edges rfl (attnAfterOffer_edges _ _)

theorem offerHost_reported (code : BitVec 8) (kind : BitVec 4) (addr : Word) (s : State) :
    Reported s (offerHost code kind addr s) :=
  .of_seq rfl fun n => edges_or _ _ n

theorem offerBus_reported (code : BitVec 8) (g : Option Seg) (i : EntryIx) (s : State) :
    Reported s (offerBus code g i s) := by
  refine .of_seq ?_ (by rw [offerBus_aiu]; exact fun n => edges_or _ _ n)
  cases g with
  | none => rfl
  | some g => exact offerBus_only code g i s .seq (by cases g <;> decide)

theorem pumpQueue_reported (s : State) : Reported s (pumpQueue s) := by
  refine .of_seq (pumpQueue_seq s) ?_
  obtain same | set := pumpQueue_aiu s
  · rw [same]
    exact fun _ => id
  · rw [set]
    exact fun n => edges_or _ _ n

theorem sealNow_reported (s : State) : Reported s (sealNow s) where
  state := .inr ⟨by simp [sealNow], by simp [sealNow], setEdge_irqSeq _⟩
  edges n := edges_or _ _ n
  cmdRefused := id
  tableRefused := id
  writesDiscarded := id

theorem hostFault_reported (code : BitVec 8) (kind : BitVec 4) (addr : Word) (s : State) :
    Reported s (hostFault code kind addr s) := by
  have offered := offerHost_reported code kind addr s
  unfold hostFault
  dsimp only
  split
  · exact offered
  · exact ⟨offered.state, offered.edges, offered.cmdRefused, offered.tableRefused, offered.writesDiscarded⟩
  · exact offered.trans (sealNow_reported _)

theorem accessFault_reported (left : Bool) (code : BitVec 8) (kind : BitVec 4) (addr : Word) (s : State) :
    Reported s (accessFault left code kind addr s) := by
  cases left
  · exact hostFault_reported code kind addr s
  · exact offerHost_reported code kind addr s

theorem setCtrl_reported {c : CtrlState} (run : c ≠ .running) (off : c ≠ .offline) (s : State) :
    Reported s (setCtrl c s) := by
  have seq := setCtrl_seq c s
  refine ⟨?_, ?_, by rw [seq]; exact id, by rw [seq]; exact id, by rw [seq]; exact id⟩
  · by_cases same : s.seq.state = c
    · exact .inl (by rw [seq]; exact same.symm)
    · refine .inr ⟨by rwa [seq], by rwa [seq], ?_⟩
      rw [setCtrl_aiu, if_neg same]
      exact setEdge_irqSeq s
  · rw [setCtrl_aiu]
    split
    · exact fun _ => id
    · exact fun n => edges_or _ _ n

theorem fallIfLast_reported (wasLive : Bool) (s : State) : Reported s (fallIfLast wasLive s) := by
  unfold fallIfLast
  split
  · exact setCtrl_reported (by decide) (by decide) s
  · exact .refl s

theorem setMode_reported (g : Seg) (m : SegMode) (s : State) : Reported s (setMode g m s) :=
  .of_seq (setMode_seq g m s) (by cases g <;> exact fun n => edges_or _ _ n)

theorem setSeg_reported (g : Seg) (c : Segment) (s : State) : Reported s (setSeg g c s) := by
  cases g <;> exact .of_edges rfl rfl

theorem discardQueue_reported (s : State) : Reported s (discardQueue s) where
  state := .inl rfl
  edges _ := id
  cmdRefused := id
  tableRefused := id
  writesDiscarded h := by simp [discardQueue, orphanWrite, cancelReads, h]

theorem recordRefusal_reported (r : RefuseReason) (s : State) : Reported s (recordRefusal r s) where
  state := .inl rfl
  edges n := edges_or _ _ n
  cmdRefused _ := rfl
  tableRefused := id
  writesDiscarded := id

theorem finishCommand_reported (s : State) : Reported s (finishCommand s) := ⟨.inl rfl, fun _ => id, id, id, id⟩

/-! ### The walker -/

theorem DecisionUpdate.reported {keeps : Walker → Walker → Prop} {s t : State} (h : DecisionUpdate keeps s t) :
    Reported s t := by
  cases h with
  | broken a => exact hostFault_reported _ _ a s
  | barred st => exact .of_only (completeDirect_only st [] s) (by decide) (by decide)
  | walker | request | cancel | stage | choose => exact .of_edges rfl rfl

theorem Decides.reported {keeps : Walker → Walker → Prop} {s t : State} (h : Decides keeps s t) : Reported s t := by
  induction h with
  | refl => exact .refl s
  | tail _ step ih => exact ih.trans step.reported

theorem passOver_reported (k : Seek) (h : Rec) (s : State) : Reported s (passOver k h s) := (passOver_decides k h s).reported

theorem endTurn_reported (t : Turn) (stop : Option Cause) (s : State) : Reported s (endTurn t stop s) :=
  .of_only (endTurn_only t stop s) (by decide) (by decide)

theorem headReturned_reported (k : Seek) (h : Rec) (s : State) : Reported s (headReturned k h s) := by
  have stopped (c : RingClass) (cause : Cause) : Reported s (stopHead c k.cur h cause s) :=
    .of_only (stopHead_only _ _ _ _ s) (by decide) (by decide)
  unfold headReturned
  dsimp only
  split
  · exact passOver_reported k h s
  · split
    · exact passOver_reported k h s
    · exact (stopped _ _).trans (passOver_reported k h _)
    · split
      · exact passOver_reported k h s
      · split
        · have given : Reported s (giveTurn k h (reserve 2 s)) :=
            .of_only ((reserve_only 2 s).then (giveTurn_only k h _) (ds := [.wq, .walk]) (by decide) (by decide))
              (by decide) (by decide)
          exact given.trans (.of_only (skipFrom_only _ _ _) (by decide) (by decide))
        · exact .of_edges rfl rfl

theorem refuseKind_reported (k : Seek) (h r : Rec) (s : State) : Reported s (refuseKind k h r s) := by
  have items : Reported s (releaseSlots
      (enqueue (.status k.cur (headStatusWord h.w3 none none (some .kindMismatch)) (stageClass k.stage) (headEntry h) false
          (some .kindMismatch) h.w0)
        (enqueue (recordItem (newTurn k h r) .kindMismatch 0) (dropSlot (headEntry h) h.w2 s)))) :=
    .of_only ((dropSlot_only _ _ s).then (ds := [.walk, .wq])
      (((enqueue_only _ _).trans (enqueue_only _ _)).trans (releaseSlots_only _)) (by decide) (by decide))
      (by decide) (by decide)
  exact items.trans (passOver_reported k h _)

theorem recordReturned_reported (k : Seek) (h r : Rec) (s : State) : Reported s (recordReturned k h r s) := by
  have released : Reported s (releaseSlots s) := .of_edges rfl rfl
  unfold recordReturned
  dsimp only
  split
  · exact released.trans (passOver_reported k h _)
  · exact (released.trans (.of_only (stopHead_only _ _ _ _ _) (by decide) (by decide))).trans (passOver_reported k h _)
  · split
    · exact refuseKind_reported k h r s
    · exact .of_edges rfl rfl

theorem beginConsume_reported (t : Turn) (code : RecCode) (n : Nat) (s : State) : Reported s (beginConsume t code n s) :=
  .of_edges rfl rfl

theorem passLate_reported (k : Seek) (t : Turn) (s : State) : Reported s (passLate k t s) := by
  have offered := offerAttn_reported .late t.cls (headEntry t.head) t.addr s
  unfold passLate
  dsimp only
  split
  · exact offered.trans (beginConsume_reported t .missed 0 _)
  · exact offered.trans ((passOver_reported k t.head _).behind rfl rfl)

theorem failsStart_reported (k : Seek) (t : Turn) (s : State) : Reported s (failsStart k t s) := by
  unfold failsStart
  split
  · exact passLate_reported k t s
  · exact (waitLook_decides (releaseSlots (endAperiodic s))).reported.behind rfl rfl

theorem notReady_reported (k : Seek) (t : Turn) (tag : StageTag) (s : State) : Reported s (notReady k t tag s) := by
  unfold notReady
  split
  · exact (passLate_reported k t (markLate tag s)).behind rfl rfl
  · exact (offerRings_decides _ (setHand .nothing (releaseSlots s))).reported.behind rfl rfl

theorem giveTurn_reported (k : Seek) (h : Rec) (s : State) : Reported s (giveTurn k h s) :=
  .of_only (giveTurn_only k h s) (by decide) (by decide)

theorem tryPacket_reported (k : Seek) (t : Turn) (q : Request) (tail : Bool) (g : Nat) (s : State) :
    Reported s (tryPacket k t q tail g s) := by
  have chosen (u : Turn) (v : State) : Reported v (chooseRing u q tail (giveTurn k t.head v)) :=
    (giveTurn_reported k t.head v).trans (.of_edges rfl rfl)
  unfold tryPacket
  split
  · exact chosen _ s
  · have filled (f : FillReq) : Reported s (requestFill f s) := (requestFill_decides f s).reported
    dsimp only
    split
    · exact (filled _).trans (chosen _ _)
    · exact (filled _).trans (notReady_reported _ _ _ _)

theorem takeSlot_reported (h r : Rec) (s : State) : Reported s (takeSlot h r s) :=
  .of_only (takeSlot_only h r s) (by decide) (by decide)

theorem judgeCandidate_reported (k : Seek) (t : Turn) (s : State) : Reported s (judgeCandidate k t s) := by
  have released : Reported s (releaseSlots s) := .of_edges rfl rfl
  unfold judgeCandidate
  split
  · exact (freshDecision_decides (setHand .nothing (releaseSlots s))).reported.behind rfl rfl
  · split
    · exact released.trans (passOver_reported k t.head _)
    · exact (released.trans (.of_only (stopHead_only _ _ _ _ _) (by decide) (by decide))).trans (passOver_reported _ _ _)
    · unfold judgeWork
      refine (takeSlot_reported t.head t.seg s).trans ?_
      dsimp only
      split
      · exact (giveTurn_reported k t.head _).trans (beginConsume_reported _ _ _ _)
      · split
        · exact tryPacket_reported _ _ _ _ _ _
        · exact failsStart_reported _ _ _

theorem burstExchange_reported (t : Turn) (s : State) : Reported s (burstExchange t s) := by
  unfold burstExchange
  split
  · exact endTurn_reported t none s
  · exact endTurn_reported t _ s
  · refine (takeSlot_reported t.head t.seg s).trans ?_
    generalize takeSlot t.head t.seg s = u
    dsimp only
    split
    · exact beginConsume_reported t _ _ u
    · split
      · unfold burstPacket
        split
        · exact .of_edges rfl rfl
        · rename_i f _
          have filled : Reported u (requestFill f u) := (requestFill_decides f u).reported
          dsimp only
          split
          · exact filled.trans (.of_edges rfl rfl)
          · exact filled.trans (endTurn_reported t none _)
      · exact (Reported.of_only (putBack_only t u) (by decide) (by decide)).trans
          ((endTurn_reported t none (endAperiodic (putBack t u))).behind rfl rfl)

theorem joinReads_reported (n : Nat) (s : State) : Reported s (joinReads n s) := .of_edges rfl rfl

theorem walkerDecision_reported (s : State) : Reported s (walkerDecision s) := by
  have ahead : Reported s (cancelReads lookReader (setLook .nothing s)) := .of_edges rfl rfl
  have rest {t u : State} (n : Nat) (h : Reported t u) : Reported t (joinReads n (pumpQueue u)) :=
    (h.trans (pumpQueue_reported u)).trans (joinReads_reported n _)
  unfold walkerDecision
  split
  · exact .refl s
  · dsimp only
    split
    · split
      · exact .refl s
      · exact rest _ (ahead.trans (freshDecision_decides _).reported)
    · exact rest _ (ahead.trans (judgeCandidate_reported _ _ _))
    · split
      · exact rest _ (ahead.trans (burstExchange_reported _ _))
      · exact .refl s
    · exact .refl s

theorem descriptorReturned_reported (desc : Word) (r : Rec) (s : State) : Reported s (descriptorReturned desc r s) := by
  unfold descriptorReturned
  split
  · exact (pumpQueue_reported (setDrain (.holds desc r.w0 (descSize r.w1)) s)).behind rfl rfl
  · exact .refl s

theorem snapshotReturned_reported (q : ReadReq) (r : Rec) (s : State) : Reported s (snapshotReturned q r s) := by
  unfold snapshotReturned
  split
  · exact descriptorReturned_reported q.addr r s
  · exact headReturned_reported _ r s
  · exact recordReturned_reported _ _ r s
  · split <;> exact .of_edges rfl rfl
  · split <;> exact .of_edges rfl rfl
  · split
    · exact .of_only (burstReturned_only _ r s) (by decide) (by decide)
    · exact .refl s
  · exact (lookHeadReturned_decides _ r s).reported
  · exact (lookRecordReturned_decides _ _ r s).reported
  · exact (lookBurstReturned_decides _ r s).reported
  · exact .refl s

theorem recordFetchDone_reported (r : Rec) (s : State) : Reported s (recordFetchDone r s) := by
  unfold recordFetchDone
  split
  · exact .refl s
  · split
    · exact .refl s
    · have popped (u : State) : Reported u (popRead u) := .of_edges rfl rfl
      exact ((snapshotReturned_reported _ r s).trans (popped _)).trans (pumpQueue_reported _)

theorem consumeRecord_reported (s : State) : Reported s (consumeRecord s) := by
  unfold consumeRecord
  split
  · split
    · exact (Reported.of_only (consumeTurn_only _ _ _ _ s) (by decide) (by decide)).trans (pumpQueue_reported _)
    · exact .refl s
  · exact .refl s

theorem skipStep_reported (s : State) : Reported s (skipStep s) := by
  unfold skipStep
  split
  · split
    · exact (Reported.of_only (skipTurn_only _ _ _ s) (by decide) (by decide)).trans (pumpQueue_reported _)
    · exact .refl s
  · exact .refl s

/-! ### Exchanges -/

theorem outcomeFifo_reported (x : Exchange) (o : XOutcome) (s : State) : Reported s (outcomeFifo x o s) := by
  unfold outcomeFifo
  split
  · exact .of_edges rfl rfl
  · split
    · exact offerAttn_reported _ _ _ _ s
    · exact .refl s
  · exact .refl s

theorem outcomeLog_reported (x : Exchange) (o : XOutcome) (halts : Bool) (s : State) :
    Reported s (outcomeLog x o halts s) := by
  have trusted : Reported s (match trustCode (getSeg s x.segment).guarded o with
      | some code => offerBus code (some x.segment) x.entry s
      | none => s) := by
    split
    · exact offerBus_reported _ _ _ s
    · exact .refl s
  unfold outcomeLog
  dsimp only
  split
  · exact trusted.trans (offerBus_reported _ _ _ _)
  · exact trusted

theorem succeeded_reported (t : Turn) (x : Exchange) (s : State) : Reported s (succeeded t x s) := by
  have queued (a : Advance) : Reported s (queuePacket t x a s) := by
    unfold queuePacket
    split
    · exact (Reported.of_only (enqueue_only _ s) (by decide) (by decide)).trans (pumpQueue_reported _)
    · exact .refl s
  unfold succeeded
  dsimp only
  split
  · exact (queued _).trans (beginConsume_reported t _ _ _)
  · rename_i g tailOnly _
    have kept : Reported s (keepSlot t g tailOnly (queuePacket t x (successAdvance t x (countSoFar t s)) s)) :=
      (queued _).trans (.of_only (keepSlot_only t _ _ _) (by decide) (by decide))
    split
    · exact kept.trans (.of_only (burstContinue_only t true _) (by decide) (by decide))
    · exact kept.trans (endTurn_reported t none _)

theorem ringOutcome_reported (x : Exchange) (o : XOutcome) (halts : Bool) (s : State) :
    Reported s (ringOutcome x o halts s) := by
  unfold ringOutcome
  split
  · dsimp only
    split
    · exact .of_edges rfl rfl
    · split
      · exact endTurn_reported _ none s
      · exact succeeded_reported _ x s
      · exact .of_only (haltedOut_only _ _ _ s) (by decide) (by decide)
      · split
        · exact .of_only (haltedOut_only _ _ _ s) (by decide) (by decide)
        · exact .of_only (unfinished_only _ _ s) (by decide) (by decide)
  · exact .refl s

theorem handOver_reported (x : Exchange) (o : XOutcome) (halts : Bool) (s : State) :
    Reported s (handOver x o halts s) := by
  unfold handOver
  split
  · exact (Reported.of_only (directOutcome_only o x.data s) (by decide) (by decide)).trans (.of_edges rfl rfl)
  · exact ringOutcome_reported x o halts s

theorem finish_reported (o : XOutcome) (x : Exchange) (s : State) : Reported s (finish o x s) := by
  have entry : Reported s (outcomeEntry x o s) := .of_only (outcomeEntry_only x o s) (by decide) (by decide)
  have logged (halts : Bool) : Reported s (outcomeLog x o halts (outcomeFifo x o (outcomeEntry x o s))) :=
    (entry.trans (outcomeFifo_reported x o _)).trans (outcomeLog_reported x o halts _)
  have cut (u : State) : Reported u { cutStaging o u with xeng := none } :=
    (Reported.of_only (cutStaging_only o u) (by decide) (by decide)).trans (.of_edges rfl rfl)
  exact ((((logged _).trans (cut _)).trans (handOver_reported x o _ _))).trans
    (.of_only (grantFence_only _ _) (by decide) (by decide))

theorem finish_pump_reported (o : XOutcome) (x : Exchange) (s : State) : Reported s (pumpQueue (finish o x s)) :=
  (finish_reported o x s).trans (pumpQueue_reported _)

theorem exchangeStart_reported (s : State) : Reported s (exchangeStart s) := by
  unfold exchangeStart
  split
  · split
    · split
      · exact .of_edges rfl rfl
      · exact (Reported.of_only (dropHeld_only _ s) (by decide) (by decide)).trans (pumpQueue_reported _)
    · exact .refl s
  · exact .refl s

theorem requestSent_reported (s : State) : Reported s (requestSent s) := by
  unfold requestSent
  split
  · split
    · rename_i x _ _
      dsimp only
      refine (lookAhead_decides _).reported.behind ?_ ?_ <;> cases x.request <;> rfl
    · exact .refl s
  · exact .refl s

theorem replyEnd_reported (r : Reply) (s : State) : Reported s (replyEnd r s) := by
  unfold replyEnd
  split
  · split
    · dsimp only
      split
      · exact .of_edges rfl rfl
      · exact finish_pump_reported _ _ s
    · exact .refl s
  · exact .refl s

theorem replyTimeout_reported (s : State) : Reported s (replyTimeout s) := by
  unfold replyTimeout
  split
  · split
    · exact finish_pump_reported _ _ s
    · exact .refl s
  · exact .refl s

theorem acceptSent_reported (s : State) : Reported s (acceptSent s) := by
  unfold acceptSent
  split
  · split
    · exact finish_pump_reported _ _ s
    · exact .refl s
  · exact .refl s

theorem cutoff_reported (s : State) : Reported s (cutoff s) := by
  unfold cutoff
  split
  · split
    · exact finish_pump_reported _ _ s
    · exact (finish_pump_reported _ _ _).behind rfl rfl
    · exact finish_pump_reported _ _ s
  · exact .refl s

/-! ### Segments -/

theorem silenceSegment_reported (g : Seg) (s : State) : Reported s (silenceSegment g s) :=
  (Reported.of_only (cutOn_only g s) (by decide) (by decide)).trans (setSeg_reported g _ _)

theorem ignoreOp_reported (g : Seg) (s : State) : Reported s (ignoreOp g s) :=
  (setSeg_reported g _ s).trans (offerBus_reported _ _ _ _)

/-- A segment's change is over: the fall to READY, and the queue's next write. -/
theorem fallIfLast_pump_reported (wasLive : Bool) (s : State) : Reported s (pumpQueue (fallIfLast wasLive s)) :=
  (fallIfLast_reported wasLive s).trans (pumpQueue_reported _)

theorem leaveTo_reported (g : Seg) (m : SegMode) (s : State) : Reported s (leaveTo g m s) :=
  ((silenceSegment_reported g s).trans (setMode_reported g m _)).trans (fallIfLast_pump_reported _ _)

theorem segReset_reported (g : Seg) (s : State) : Reported s (segReset g s) := by
  unfold segReset
  split
  · exact (((silenceSegment_reported g s).trans (setMode_reported g .resetting _)).trans
      (.of_only (mapEntries_only _ _) (by decide) (by decide))).trans (fallIfLast_pump_reported _ _)
  · exact ignoreOp_reported g s

theorem segDisable_reported (g : Seg) (s : State) : Reported s (segDisable g s) := by
  unfold segDisable
  split
  · exact .refl s
  · exact (((silenceSegment_reported g s).trans (setSeg_reported g _ _)).trans (setMode_reported g .dark _)).trans
      (fallIfLast_pump_reported _ _)

theorem segPower_reported (g : Seg) (s : State) : Reported s (segPower g s) := by
  unfold segPower
  split
  · exact setMode_reported g _ s
  · exact ignoreOp_reported g s

theorem segDoze_reported (g : Seg) (s : State) : Reported s (segDoze g s) := by
  unfold segDoze
  split
  · exact setMode_reported g _ s
  · exact ignoreOp_reported g s

theorem segWake_reported (g : Seg) (s : State) : Reported s (segWake g s) := by
  unfold segWake
  split
  · exact setMode_reported g _ s
  · exact ignoreOp_reported g s

theorem segRelease_reported (g : Seg) (s : State) : Reported s (segRelease g s) := by
  unfold segRelease
  split
  · exact (setSeg_reported g _ s).trans (.of_edges rfl rfl)
  · exact ignoreOp_reported g s

theorem offerOp_reported (op : BitVec 3) (g : Seg) (s : State) : Reported s (offerOp op g s) := by
  unfold offerOp
  split
  · exact segPower_reported g s
  · exact segReset_reported g s
  · exact segDisable_reported g s
  · exact segDoze_reported g s
  · exact segWake_reported g s
  · exact segRelease_reported g s
  · exact .refl s

theorem offerOps_reported (w : Word) (s : State) : Reported s (offerOps w s) := by
  have share (p : Bool) (g : Seg) (t : State) : Reported t (if p then offerOp (segOp w) g t else t) := by
    split
    · exact offerOp_reported _ g t
    · exact .refl t
  exact (share _ .a s).trans (share _ .b _)

theorem biasChange_reported (g : Seg) (level : Bool) (s : State) : Reported s (biasChange g level s) := by
  have followed : Reported s (setBias g level s) := setSeg_reported g _ s
  unfold biasChange
  split
  · exact .refl s
  · dsimp only
    split
    · exact followed
    · exact followed
    · exact followed.trans (setMode_reported g .present _)
    · exact followed
    · exact followed
    · exact followed.trans (leaveTo_reported g .idle _)

theorem babble_reported (g : Seg) (driving : Bool) (s : State) : Reported s (babble g driving s) := by
  unfold babble
  split
  · have flagged (u : State) : Reported u (flagFault g u) := (setSeg_reported g _ u).trans (setEdge_reported _ _)
    exact ((((silenceSegment_reported g s).trans (setMode_reported g .faulted _)).trans (flagged _)).trans
      (offerBus_reported _ _ _ _)).trans (fallIfLast_pump_reported _ _)
  · exact .refl s

theorem wakeRequest_reported (g : Seg) (atStart : Bool) (s : State) : Reported s (wakeRequest g atStart s) := by
  unfold wakeRequest
  split
  · exact ((setMode_reported g .waking s).trans (setSeg_reported g _ _)).trans (setEdge_reported _ _)
  · exact .refl s

theorem writeSegCfg_reported (v : Word) (s : State) : Reported s (writeSegCfg v s) := by
  have byte (g : Seg) (b : BitVec 8) (t : State) : Reported t (writeSegCfgByte g b t) := by
    unfold writeSegCfgByte
    dsimp only
    split
    · exact setSeg_reported g _ t
    · split
      · exact setSeg_reported g _ t
      · exact (setSeg_reported g _ t).trans (ignoreOp_reported g _)
  exact (byte .a _ s).trans (byte .b _ _)

/-! ### The Cycle Timer -/

theorem countStart_reported (g : Seg) (pin : Bool) (s : State) : Reported s (countStart g pin s) := by
  unfold countStart
  dsimp only
  split
  · split
    · exact setMode_reported g _ s
    · exact setSeg_reported g _ s
  · split
    · exact setSeg_reported g _ s
    · split
      · exact setMode_reported g _ s
      · exact setSeg_reported g _ s
  · exact .refl s

theorem startTransitions_reported (wasLive : Bool) (s : State) : Reported s (startTransitions wasLive s) := by
  unfold startTransitions
  split
  · exact setCtrl_reported (by decide) (by decide) s
  · split
    · exact setCtrl_reported (by decide) (by decide) s
    · exact .refl s
  · exact .refl s

theorem reloadSample_reported (count : Bool) (s : State) :
    Reported s (setEdge irqCycle (startSample (startReload count s))) :=
  (setEdge_reported irqCycle (startSample (startReload count s))).behind rfl rfl

theorem cycleStart_reported (a b : Bool) (s : State) : Reported s (cycleStart a b s) := by
  have pins (u : State) : Reported u (setPins a b u) := .of_edges rfl rfl
  have beacon (g : Seg) (u : State) : Reported u (startBeacon g u) :=
    .of_only (startBeacon_only g u) (by cases g <;> decide) (by cases g <;> decide)
  have walker (u : State) : Reported u (startWalker latchWritten u) :=
    .of_only (startWalker_only latchWritten latchWritten_only u) (by decide) (by decide)
  have actions (u : State) : Reported u (cycleActions a b u) :=
    (((((reloadSample_reported true u).trans (beacon .a _)).trans (beacon .b _)).trans (walker _)).trans
      ((countStart_reported .a a _).trans (countStart_reported .b b _))).trans (startTransitions_reported _ _)
  unfold cycleStart
  split
  · exact .refl s
  · exact (((cutoff_reported s).trans (pins _)).trans (actions _)).trans (pumpQueue_reported _)

theorem immediateCycleStart_reported (s : State) : Reported s (immediateCycleStart s) :=
  (reloadSample_reported false s).trans
    (.of_only (startWalker_only latchAll latchAll_only _) (by decide) (by decide))

theorem cycleEndCutoff_reported (s : State) : Reported s (cycleEndCutoff s) := by
  unfold cycleEndCutoff
  split
  · exact .refl s
  · exact (cutoff_reported { s with ctim := { s.ctim with remain := 0 } }).behind rfl rfl

theorem writeCycleLen_reported (v : Word) (s : State) : Reported s (writeCycleLen v s) := by
  unfold writeCycleLen
  split
  · exact .of_edges rfl rfl
  · exact offerBus_reported _ _ _ s

/-! ### The Sequencer -/

theorem takeCommand_reported {op : BitVec 3} {f : Word → State → State} (accepted : ∀ w u, Reported u (f w u))
    (s : State) : Reported s (takeCommand op f s) := by
  unfold takeCommand
  split
  · exact .refl s
  · split
    · split
      · exact accepted _ s
      · exact (recordRefusal_reported _ s).trans (finishCommand_reported _)
    · exact .refl s

theorem acceptNop_reported (w : Word) (s : State) : Reported s (acceptNop w s) :=
  (offerOps_reported w s).trans (finishCommand_reported _)

theorem acceptConfigure_reported (w : Word) (s : State) : Reported s (acceptConfigure w s) :=
  (((setCtrl_reported (by decide) (by decide) s).trans (immediateCycleStart_reported _)).trans
    (offerOps_reported w _)).trans (finishCommand_reported _)

theorem acceptStop_reported (w : Word) (s : State) : Reported s (acceptStop w s) := by
  unfold acceptStop
  split
  · exact acceptNop_reported w s
  · exact (((setCtrl_reported (by decide) (by decide) s).trans (pumpQueue_reported _)).trans
      (offerOps_reported w _)).trans (finishCommand_reported _)

theorem acceptRestart_reported (w : Word) (s : State) : Reported s (acceptRestart w s) := by
  have begun (u : State) : Reported u (setLook .nothing (cancelAllReads { u with
      seq := { u.seq with command := none, restartInHand := true, restartFaulted := false } })) :=
    ⟨.inl rfl, fun _ => id, id, id, id⟩
  exact (begun s).trans (.of_only (handAtRestart_only _) (by decide) (by decide))

theorem restartState_entered (s : State) : restartState s ≠ .running ∧ restartState s ≠ .offline := by
  unfold restartState
  split
  · decide
  · split <;> decide

theorem restartActionsBody_reported (s : State) : Reported s (restartActionsBody s) := by
  have emptied : Reported s (emptyStaging (discardQueue s)) := (discardQueue_reported s).trans (.of_edges rfl rfl)
  have walker (u : State) : Reported u (closeOpenPass (emptySlots (latchAll u))) :=
    .of_only (((latchAll_only u).trans (emptySlots_only _)).trans (closeOpenPass_only _)) (by decide) (by decide)
  have lists (u : State) : Reported u (mapEntries (fun e => { e with fenceGranted := e.fence }) (emptyAttn (emptyLists u))) :=
    .of_edges rfl rfl
  exact (emptied.trans (walker _)).trans (lists _)

theorem restartActions_reported (s : State) : Reported s (restartActions s) := by
  have done (u : State) : Reported u (wakeWalker (setEdge irqSeq { finishCommand u with
      seq := { (finishCommand u).seq with restartInHand := false, restartFaulted := false } })) :=
    ⟨.inl rfl, fun n => edges_or _ _ n, id, id, id⟩
  unfold restartActions
  split
  · have entered := restartState_entered (restartActionsBody s)
    exact ((restartActionsBody_reported s).trans (setCtrl_reported entered.1 entered.2 _)).trans (done _)
  · exact .refl s

theorem sealCompletion_reported (s : State) : Reported s (sealCompletion s) := by
  have flagged (u : State) : Reported u { u with seq := { u.seq with sealPending := false } } :=
    ⟨.inl rfl, fun _ => id, id, id, id⟩
  unfold sealCompletion
  split
  · exact ((discardQueue_reported s).trans (flagged _)).trans (.of_only (sealFlush_only _ _) (by decide) (by decide))
  · exact .refl s

theorem illegalOp_reported (s : State) : Reported s (illegalOp s) := by
  have taken (op : BitVec 3) (u : State) : Reported u (takeCommand op (fun _ s => s) u) :=
    takeCommand_reported (fun _ v => .refl v) u
  exact (taken 6 s).trans (taken 7 _)

theorem writeSeqCmd_reported (v : Word) (s : State) : Reported s (writeSeqCmd v s) := by
  unfold writeSeqCmd
  split
  · exact recordRefusal_reported .busy s
  · exact ⟨.inl rfl, fun _ => id, id, id, id⟩

/-! ### The Station Table, the receive ring, faults -/

theorem refuseTable_reported (i : EntryIx) (g : Seg) (s : State) : Reported s (refuseTable i g s) := by
  have flagged : Reported s { s with seq := { s.seq with tableRefused := true } } :=
    ⟨.inl rfl, fun _ => id, id, fun _ => rfl, id⟩
  exact flagged.trans (offerBus_reported _ _ _ _)

theorem afterAccepted_reported (i : EntryIx) (rewrites : Bool) (s : State) : Reported s (afterAccepted i rewrites s) :=
  .of_only (afterAccepted_only i rewrites s) (by decide) (by decide)

theorem setEntry_reported (i : EntryIx) (e : Entry) (s : State) : Reported s (setEntry i e s) :=
  .of_only (setEntry_only i e s) (by decide) (by decide)

theorem writeEntryW0_reported (v : Word) (s : State) : Reported s (writeEntryW0 v s) := by
  unfold writeEntryW0
  dsimp only
  split
  · exact .refl s
  · split
    · exact (setEntry_reported _ _ s).trans (afterAccepted_reported _ _ _)
    · exact (setEntry_reported _ _ s).trans (refuseTable_reported _ _ _)

theorem writeEntryW1_reported (v : Word) (s : State) : Reported s (writeEntryW1 v s) := by
  unfold writeEntryW1
  dsimp only
  split
  · exact .refl s
  · split
    · exact (setEntry_reported _ _ s).trans (afterAccepted_reported _ _ _)
    · exact refuseTable_reported _ _ s

theorem refuseRxConfig_reported (off : Word) (s : State) : Reported s (refuseRxConfig off s) :=
  offerHost_reported _ _ off s

theorem writeRxBase_reported (v : Word) (s : State) : Reported s (writeRxBase v s) := by
  unfold writeRxBase
  split
  · exact .of_edges rfl rfl
  · exact refuseRxConfig_reported _ s

theorem writeRxSize_reported (v : Word) (s : State) : Reported s (writeRxSize v s) := by
  unfold writeRxSize
  split
  · split
    · exact .of_edges rfl rfl
    · exact refuseRxConfig_reported _ s
  · exact refuseRxConfig_reported _ s

theorem writeRxReturn_reported (v : Word) (s : State) : Reported s (writeRxReturn v s) := by
  unfold writeRxReturn
  split
  · exact (pumpQueue_reported { s with rx := { s.rx with ret := field v 0 10 } }).behind rfl rfl
  · exact refuseRxConfig_reported _ s

theorem releaseReports_reported (i : WqItem) (s : State) : Reported s (releaseReports i s) := by
  have offers (p : Prop) [Decidable p] (cause : Cause) (c : RingClass) (e : EntryIx) (head : Word) (u : State) :
      Reported u (if p then offerAttn cause c e head u else u) := by
    split
    · exact offerAttn_reported _ _ _ _ u
    · exact .refl u
  cases i with
  | packet => exact .refl s
  | link => exact .refl s
  | segment record word code endXfer notify c e head =>
    show Reported s (releaseSegment code endXfer notify c e head s)
    unfold releaseSegment
    have reports := (offers (code = .missed) .miss c e head s).trans (offers (notify = true) .complete c e head _)
    cases endXfer || notify with
    | true => exact reports.trans (setEdge_reported _ _)
    | false => exact reports
  | status head word c e visit stop next =>
    show Reported s (releaseStatus c e visit stop head s)
    unfold releaseStatus
    have visited := offers (visit = true) .visit c e head s
    cases stop with
    | none => exact visited
    | some cause => exact visited.trans (offerAttn_reported _ _ _ _ _)

theorem writePerformed_reported (s : State) : Reported s (writePerformed s) := by
  unfold writePerformed
  split
  · exact .refl s
  · split
    · exact .of_edges rfl rfl
    · exact .of_only (descriptorDone_only _ s) (by decide) (by decide)
    · exact .refl s
  · have popped : Reported s (popItem s) := .of_edges rfl rfl
    exact (popped.trans (releaseReports_reported _ _)).trans (.of_edges rfl rfl)

theorem hostWriteComplete_reported (s : State) : Reported s (hostWriteComplete s) := by
  unfold hostWriteComplete
  split
  · exact .refl s
  · have taken : Reported s { s with hport := { s.hport with write := none } } := .of_edges rfl rfl
    refine taken.trans ?_
    dsimp only
    split
    · exact (writePerformed_reported _).trans (pumpQueue_reported _)
    · split
      · exact .of_edges rfl rfl
      · exact pumpQueue_reported _

theorem hostMemoryFault_reported (ch : Chan) (o : BitVec 10) (s : State) : Reported s (hostMemoryFault ch o s) := by
  cases ch with
  | read =>
    show Reported s (readFault o s)
    unfold readFault
    split
    · exact .refl s
    · split
      · exact (accessFault_reported _ _ _ _ s).trans (.of_edges rfl rfl)
      · exact .refl s
  | write =>
    show Reported s (writeFault o s)
    unfold writeFault
    split
    · exact .refl s
    · split
      · exact ((accessFault_reported _ _ _ _ _).trans (pumpQueue_reported _)).behind rfl rfl
      · exact .refl s

theorem popAttn_reported (s : State) : Reported s (popAttn s) := by
  unfold popAttn
  split <;> exact .of_edges rfl rfl

theorem writeAttnStatus_reported (v : Word) (s : State) : Reported s (writeAttnStatus v s) := by
  unfold writeAttnStatus
  split <;> exact .of_edges rfl rfl

theorem writeCycleNumber_reported (v : Word) (s : State) : Reported s (writeCycleNumber v s) := by
  unfold writeCycleNumber
  split <;> exact .of_edges rfl rfl

end Sys2Proof.Machine
end

section
/-! SUPPORT. The rows as the Sequencer sees them: which of them report (R31), and what a register write leaves of the Sequencer. -/

namespace Sys2Proof.Machine

/-! ### Sticky flags alone -/

/-- No sticky flag of SEQ_STATUS is lost. -/
structure Sticks (s t : State) : Prop where
  cmdRefused : s.seq.cmdRefused = true → t.seq.cmdRefused = true
  tableRefused : s.seq.tableRefused = true → t.seq.tableRefused = true
  writesDiscarded : s.seq.writesDiscarded = true → t.seq.writesDiscarded = true

theorem Reported.sticks {s t : State} (h : Reported s t) : Sticks s t := ⟨h.cmdRefused, h.tableRefused, h.writesDiscarded⟩

theorem Sticks.trans {s t u : State} (h : Sticks s t) (k : Sticks t u) : Sticks s u :=
  ⟨k.cmdRefused ∘ h.cmdRefused, k.tableRefused ∘ h.tableRefused, k.writesDiscarded ∘ h.writesDiscarded⟩

/-- No sticky flag is lost and the controller's state stays, whatever becomes of the edges. -/
structure KeepsMode (s t : State) : Prop extends Sticks s t where
  state : t.seq.state = s.seq.state

theorem KeepsMode.of_seq {s t : State} (seq : t.seq = s.seq) : KeepsMode s t := by
  refine ⟨⟨?_, ?_, ?_⟩, ?_⟩ <;> simp [seq]

theorem KeepsMode.trans {s t u : State} (h : KeepsMode s t) (k : KeepsMode t u) : KeepsMode s u :=
  ⟨h.toSticks.trans k.toSticks, k.state.trans h.state⟩

theorem KeepsMode.of_only {bs : List Block} {s t : State} (f : OnlyChanges bs s t) (n : Block.seq ∉ bs) : KeepsMode s t :=
  .of_seq (f .seq n)

/-! ### Commands -/

/-- What holds of every reported change, and of a command as it is accepted, holds of the command's row. -/
theorem takeCommand_of_accepted {P : State → State → Prop} (reported : ∀ s t, Reported s t → P s t) {op : BitVec 3}
    {f : Word → State → State} (accepted : ∀ w u, P u (f w u)) (s : State) : P s (takeCommand op f s) := by
  unfold takeCommand
  split
  · exact reported _ _ (.refl s)
  · split
    · split
      · exact accepted _ s
      · exact reported _ _ ((recordRefusal_reported _ s).trans (finishCommand_reported _))
    · exact reported _ _ (.refl s)

theorem unlessHeld_of {P : State → State → Prop} (refl : ∀ s, P s s) {f : State → State} {s : State} (h : P s (f s)) :
    P s (unlessHeld f s) := by
  unfold unlessHeld
  split
  · exact refl s
  · exact h

theorem unlessOffline_of {P : State → State → Prop} (refl : ∀ s, P s s) {f : State → State} {s : State} (h : P s (f s)) :
    P s (unlessOffline f s) := by
  unfold unlessOffline
  split
  · exact refl s
  · exact h

/-- RUN: the entry of RUNNING, and what is reported from there. -/
theorem acceptRun_reported (w : Word) (s : State) : Reported (setCtrl .running s) (acceptRun w s) :=
  (offerOps_reported w _).trans (finishCommand_reported _)

theorem setCtrl_sticks (c : CtrlState) (s : State) : Sticks s (setCtrl c s) := by
  refine ⟨?_, ?_, ?_⟩ <;> simp [setCtrl_seq]

theorem acceptRun_sticks (w : Word) (s : State) : Sticks s (acceptRun w s) :=
  (setCtrl_sticks .running s).trans (acceptRun_reported w s).sticks

/-- A change of the state by RUN sets SEQ (R31). -/
theorem acceptRun_sets_seq (w : Word) (s : State) (moved : (acceptRun w s).seq.state ≠ s.seq.state) :
    (acceptRun w s).aiu.edges.getLsbD irqSeq = true := by
  obtain same | ⟨-, -, edge⟩ := (acceptRun_reported w s).state
  · refine (acceptRun_reported w s).edges _ ?_
    rw [setCtrl_aiu]
    split
    case isTrue here => exact absurd (by rw [same, setCtrl_seq, here]) moved
    case isFalse => exact setEdge_irqSeq s
  · exact edge

/-- OFFLINE (R25): the state it leaves, with the SEQ edge. -/
theorem acceptOffline_state (w : Word) (s : State) :
    (acceptOffline w s).seq.state = .offline ∧
      (s.seq.state ≠ .offline → (acceptOffline w s).aiu.edges.getLsbD irqSeq = true) := by
  unfold acceptOffline
  split
  case isTrue off => exact ⟨off, fun on => absurd off on⟩
  case isFalse => exact ⟨rfl, fun _ => setEdge_irqSeq _⟩

theorem acceptOffline_sticks (w : Word) (s : State) : Sticks s (acceptOffline w s) := by
  unfold acceptOffline
  split
  · exact (finishCommand_reported s).sticks
  · have cut : Sticks s (cutAny s) := by
      unfold cutAny
      split
      · exact (finish_reported _ _ s).sticks
      · exact (Reported.refl s).sticks
    exact cut.trans ⟨id, id, (discardQueue_reported _).writesDiscarded⟩

/-! ### Every row -/

/-- A row that is a reset of its own (R8). -/
def resetRow (c : Instr) : Prop :=
  c = .powerOnResetAsserted ∨ (∃ a b, c = .powerOnReset a b) ∨ ∃ a b, c = .hardReset a b

/-- Every row reports what it does, but for RUN, OFFLINE, the resets, and the writes. -/
theorem after_reported (c : Instr) (s : State) :
    Reported s (after c s) ∨ c = .run ∨ c = .offline ∨ (∃ v, c = .seqStatusWrite v) ∨ (∃ v, c = .irqPendingWrite v) ∨
      (∃ o w v, c = .registerWrite o w v) ∨ resetRow c := by
  have awaken {f : State → State} (h : Reported s (f s)) : Reported s (unlessHeld f s) := unlessHeld_of .refl h
  have segment {f : State → State} (h : Reported s (f s)) : Reported s (unlessHeld (unlessOffline f) s) :=
    unlessHeld_of .refl (unlessOffline_of .refl h)
  have command {op : BitVec 3} {f : Word → State → State} (h : ∀ w u, Reported u (f w u)) :
      Reported s (unlessHeld (takeCommand op f) s) := awaken (takeCommand_reported h s)
  have only {bs : List Block} {f : State → State} (h : OnlyChanges bs s (f s)) (seq : Block.seq ∉ bs)
      (aiu : Block.aiu ∉ bs) : Reported s (unlessHeld f s) := awaken (.of_only h seq aiu)
  have same {f : State → State} (seq : (f s).seq = s.seq) (edges : (f s).aiu.edges = s.aiu.edges) :
      Reported s (unlessHeld f s) := awaken (.of_edges seq edges)
  have heldOr {f : State → State} (h : Reported s (f s)) :
      Reported s (if s.hport.heldInReset then heldRead s else f s) := by
    split
    · exact .of_edges rfl rfl
    · exact h
  cases c with
  | run => exact .inr (.inl rfl)
  | offline => exact .inr (.inr (.inl rfl))
  | seqStatusWrite v => exact .inr (.inr (.inr (.inl ⟨v, rfl⟩)))
  | irqPendingWrite v => exact .inr (.inr (.inr (.inr (.inl ⟨v, rfl⟩))))
  | registerWrite o w v => exact .inr (.inr (.inr (.inr (.inr (.inl ⟨o, w, v, rfl⟩)))))
  | powerOnResetAsserted => exact .inr (.inr (.inr (.inr (.inr (.inr (.inl rfl))))))
  | powerOnReset a b => exact .inr (.inr (.inr (.inr (.inr (.inr (.inr (.inl ⟨a, b, rfl⟩)))))))
  | hardReset a b => exact .inr (.inr (.inr (.inr (.inr (.inr (.inr (.inr ⟨a, b, rfl⟩)))))))
  | nop => exact .inl (command acceptNop_reported)
  | configure => exact .inl (command acceptConfigure_reported)
  | stop => exact .inl (command acceptStop_reported)
  | restart => exact .inl (command acceptRestart_reported)
  | restartActions => exact .inl (awaken (restartActions_reported s))
  | illegalOpRefused => exact .inl (awaken (illegalOp_reported s))
  | seqCmdWrite v => exact .inl (awaken (writeSeqCmd_reported v s))
  | power g => exact .inl (segment (segPower_reported g s))
  | reset g => exact .inl (segment (segReset_reported g s))
  | disable g => exact .inl (segment (segDisable_reported g s))
  | doze g => exact .inl (segment (segDoze_reported g s))
  | wake g => exact .inl (segment (segWake_reported g s))
  | release g => exact .inl (segment (segRelease_reported g s))
  | biasChange g l => exact .inl (awaken (biasChange_reported g l s))
  | babble a => exact .inl (awaken (babble_reported a.seg a.driving s))
  | wakeRequest g a => exact .inl (awaken (wakeRequest_reported g a s))
  | cycleStart a b => exact .inl (awaken (cycleStart_reported a b s))
  | beaconEnd => exact .inl (only (beaconEnd_only s) (by decide) (by decide))
  | periodicOpenReached => exact .inl (only (periodicOpenReached_only s) (by decide) (by decide))
  | cycleEndCutoff => exact .inl (awaken (cycleEndCutoff_reported s))
  | walkerDecision => exact .inl (awaken (walkerDecision_reported s))
  | exchangeStart => exact .inl (awaken (exchangeStart_reported s))
  | requestSent => exact .inl (awaken (requestSent_reported s))
  | replyBegun => exact .inl (only (replyBegun_only s) (by decide) (by decide))
  | replyTimeout => exact .inl (awaken (replyTimeout_reported s))
  | replyEnd r => exact .inl (awaken (replyEnd_reported r s))
  | acceptSent => exact .inl (awaken (acceptSent_reported s))
  | stagingFillDone l => exact .inl (only (stagingFillDone_only l s) (by decide) (by decide))
  | recordFetchDone w0 w1 w2 w3 => exact .inl (awaken (recordFetchDone_reported ⟨w0, w1, w2, w3⟩ s))
  | consumeRecord => exact .inl (awaken (consumeRecord_reported s))
  | skipStep => exact .inl (awaken (skipStep_reported s))
  | hostWriteComplete => exact .inl (awaken (hostWriteComplete_reported s))
  | hostMemoryFault ch o => exact .inl (awaken (hostMemoryFault_reported ch o s))
  | sealCompletion => exact .inl (awaken (sealCompletion_reported s))
  | segStatusRead g =>
    exact .inl (heldOr (.of_only (readSegStatus_only g s) (by cases g <;> decide) (by cases g <;> decide)))
  | segCfgWrite v => exact .inl (awaken (writeSegCfg_reported v s))
  | cycleLenWrite v => exact .inl (awaken (writeCycleLen_reported v s))
  | cycleNumberWrite v => exact .inl (awaken (writeCycleNumber_reported v s))
  | ringAnchorWrite k v => exact .inl (same (f := writeAnchor k v) rfl rfl)
  | rxRingBaseWrite v => exact .inl (awaken (writeRxBase_reported v s))
  | rxRingSizeWrite v => exact .inl (awaken (writeRxSize_reported v s))
  | rxReturnWrite v => exact .inl (awaken (writeRxReturn_reported v s))
  | entryW0Write v => exact .inl (awaken (writeEntryW0_reported v s))
  | entryW1Write v => exact .inl (awaken (writeEntryW1_reported v s))
  | attnPop => exact .inl (heldOr (popAttn_reported s))
  | attnStatusWrite v => exact .inl (awaken (writeAttnStatus_reported v s))
  | peekRequest i o t => exact .inl (only (directRequest_only false i o t s) (by decide) (by decide))
  | pokeRequest i o t => exact .inl (only (directRequest_only true i o t s) (by decide) (by decide))
  | directStatusWrite v => exact .inl (same (f := writeDirectStatus v) rfl rfl)
  | directDonePop => exact .inl (heldOr (.of_only (popDone_only s) (by decide) (by decide)))
  | irqMaskWrite v => exact .inl (same (f := writeIrqMask v) rfl rfl)
  | busWipe v => exact .inl (same (f := writeLogCtl _) rfl rfl)
  | hostWipe v => exact .inl (same (f := writeLogCtl _) rfl rfl)
  | bankWrite o w v => exact .inl (only (writeBank_only o.toNat w v s) (by decide) (by decide))

/-! ### Register writes -/

theorem refuseTable_keepsMode (i : EntryIx) (g : Seg) (s : State) : KeepsMode s (refuseTable i g s) := by
  have seq : (refuseTable i g s).seq = { s.seq with tableRefused := true } :=
    offerBus_only _ g i { s with seq := { s.seq with tableRefused := true } } .seq (by cases g <;> decide)
  refine ⟨⟨?_, ?_, ?_⟩, ?_⟩ <;> simp [seq]

theorem afterAccepted_keepsMode (i : EntryIx) (rewrites : Bool) (s : State) : KeepsMode s (afterAccepted i rewrites s) :=
  .of_only (afterAccepted_only i rewrites s) (by decide)

theorem writeEntryW0_keepsMode (v : Word) (s : State) : KeepsMode s (writeEntryW0 v s) := by
  have stored (e : Entry) : KeepsMode s (setEntry s.select e s) := .of_only (setEntry_only _ e s) (by decide)
  unfold writeEntryW0
  dsimp only
  split
  · exact .of_seq rfl
  · split
    · exact (stored _).trans (afterAccepted_keepsMode _ _ _)
    · exact (stored _).trans (refuseTable_keepsMode _ _ _)

theorem writeEntryW1_keepsMode (v : Word) (s : State) : KeepsMode s (writeEntryW1 v s) := by
  have stored (e : Entry) : KeepsMode s (setEntry s.select e s) := .of_only (setEntry_only _ e s) (by decide)
  unfold writeEntryW1
  dsimp only
  split
  · exact .of_seq rfl
  · split
    · exact (stored _).trans (afterAccepted_keepsMode _ _ _)
    · exact refuseTable_keepsMode _ _ s

theorem writeSeqCmd_keepsMode (v : Word) (s : State) : KeepsMode s (writeSeqCmd v s) := by
  unfold writeSeqCmd
  split
  · exact ⟨⟨fun _ => rfl, id, id⟩, rfl⟩
  · exact ⟨⟨id, id, id⟩, rfl⟩

theorem writeCycleLen_keepsMode (v : Word) (s : State) : KeepsMode s (writeCycleLen v s) := by
  unfold writeCycleLen
  split
  · exact .of_seq rfl
  · exact .of_seq (by rw [offerBus_none])

theorem writeCycleNumber_keepsMode (v : Word) (s : State) : KeepsMode s (writeCycleNumber v s) := by
  unfold writeCycleNumber
  split <;> exact .of_seq rfl

theorem writeAttnStatus_keepsMode (v : Word) (s : State) : KeepsMode s (writeAttnStatus v s) := by
  unfold writeAttnStatus
  split <;> exact .of_seq rfl

/-- A register write that is neither a hard reset nor a write of SEQ_STATUS loses no sticky flag and keeps the state. -/
theorem writeRegister_keepsMode (off : Nat) (v : Word) (s : State) (noReset : ¬ (off = 0x004 ∧ v.getLsbD 0 = true))
    (other : off ≠ 0x00C) : KeepsMode s (writeRegister off v s) := by
  unfold writeRegister
  split
  case h_1 =>
    have keep : bitAt v 0 = false := by
      rw [bitAt]
      simpa using noReset
    unfold writeGlobalCtl
    rw [keep]
    exact .of_seq rfl
  case h_2 => exact writeSeqCmd_keepsMode v s
  case h_3 => exact absurd rfl other
  case h_4 => exact .of_only (writeSegCfg_only v s) (by decide)
  case h_5 => exact writeCycleLen_keepsMode v s
  case h_6 => exact writeCycleNumber_keepsMode v s
  case h_13 => exact .of_only (writeRxBase_only v s) (by decide)
  case h_14 => exact .of_only (writeRxSize_only v s) (by decide)
  case h_15 => exact .of_only (writeRxReturn_only v s) (by decide)
  case h_17 => exact writeEntryW0_keepsMode v s
  case h_18 => exact writeEntryW1_keepsMode v s
  case h_19 => exact writeAttnStatus_keepsMode v s
  case h_21 => exact .of_only (directRequest_only _ _ _ _ s) (by decide)
  all_goals exact .of_seq rfl

theorem writeWord_keepsMode (off : Nat) (v : Word) (s : State) (noReset : ¬ (off = 0x004 ∧ v.getLsbD 0 = true))
    (other : off ≠ 0x00C) : KeepsMode s (writeWord off v s) := by
  unfold writeWord
  split
  · exact .of_seq rfl
  · split
    · exact .of_only (writeBank_only _ _ _ s) (by decide)
    · exact writeRegister_keepsMode off v s noReset other

/-- A 32-bit write that is not a hard reset keeps the controller's state. -/
theorem writeWord_state (off : Nat) (v : Word) (s : State) (noReset : ¬ (off = 0x004 ∧ v.getLsbD 0 = true)) :
    (writeWord off v s).seq.state = s.seq.state := by
  by_cases status : off = 0x00C
  · subst status
    rfl
  · exact (writeWord_keepsMode off v s noReset status).state

/-- The two halves of a wide write, neither of which is a hard reset. -/
theorem wide_noReset {off : BitVec 9} {v : BitVec 64} (noReset : ¬ resetsBy off .dword v) :
    ¬ (off.toNat = 0x004 ∧ (v.setWidth 32).getLsbD 0 = true) ∧
      ¬ (off.toNat + 4 = 0x004 ∧ ((v >>> 32).setWidth 32).getLsbD 0 = true) := by
  refine ⟨?_, ?_⟩
  · rintro ⟨low, bit⟩
    exact noReset (.inl ⟨BitVec.eq_of_toNat_eq low, .inr rfl, by simpa using bit⟩)
  · rintro ⟨high, bit⟩
    exact noReset (.inr ⟨BitVec.eq_of_toNat_eq (show off.toNat = 0 by omega), rfl, by simpa using bit⟩)

theorem word_noReset {off : BitVec 9} {v : BitVec 64} (noReset : ¬ resetsBy off .word v) :
    ¬ (off.toNat = 0x004 ∧ (v.setWidth 32).getLsbD 0 = true) := by
  rintro ⟨here, bit⟩
  exact noReset (.inl ⟨BitVec.eq_of_toNat_eq here, .inl rfl, by simpa using bit⟩)

theorem registerWrite_state (off : BitVec 9) (w : Width) (v : BitVec 64) (s : State) (noReset : ¬ resetsBy off w v) :
    (registerWrite off.toNat w v s).seq.state = s.seq.state := by
  have narrow (n : Width) :
      (if inBank off.toNat then writeBank (off.toNat - 0x100) n v s else s).seq.state = s.seq.state := by
    split
    · exact congrArg Sequencer.state (writeBank_only _ _ _ s .seq (by decide))
    · rfl
  cases w with
  | byte => exact narrow .byte
  | half => exact narrow .half
  | word => exact writeWord_state off.toNat _ s (word_noReset noReset)
  | dword =>
    obtain ⟨low, high⟩ := wide_noReset noReset
    exact (writeWord_state _ _ _ high).trans (writeWord_state _ _ s low)

/-- A register write that is no hard reset and no write of SEQ_STATUS, alone or as a part of a wide one, loses no flag. -/
theorem registerWrite_sticks (off : BitVec 9) (w : Width) (v : BitVec 64) (s : State) (noReset : ¬ resetsBy off w v)
    (other : ¬ (off = 0x00C ∨ (off = 0x008 ∧ w = .dword))) : Sticks s (registerWrite off.toNat w v s) := by
  have narrow (n : Width) : Sticks s (if inBank off.toNat then writeBank (off.toNat - 0x100) n v s else s) := by
    split
    · exact (KeepsMode.of_only (writeBank_only _ _ _ s) (by decide)).toSticks
    · exact (KeepsMode.of_seq rfl).toSticks
  have low : off.toNat ≠ 0x00C := fun here => other (.inl (BitVec.eq_of_toNat_eq here))
  cases w with
  | byte => exact narrow .byte
  | half => exact narrow .half
  | word => exact (writeWord_keepsMode off.toNat _ s (word_noReset noReset) low).toSticks
  | dword =>
    obtain ⟨lowKeeps, highKeeps⟩ := wide_noReset noReset
    have high : off.toNat + 4 ≠ 0x00C := by
      intro here
      exact other (.inr ⟨BitVec.eq_of_toNat_eq (show off.toNat = 8 by omega), rfl⟩)
    exact ((writeWord_keepsMode _ _ s lowKeeps low).trans (writeWord_keepsMode _ _ _ highKeeps high)).toSticks

/-! ### The obligations -/

/-- A register write that is a hard reset leaves the controller in OFFLINE. -/
theorem registerWrite_resets (off : BitVec 9) (w : Width) (v : BitVec 64) (s : State) (reset : resetsBy off w v) :
    (registerWrite off.toNat w v s).seq.state = .offline := by
  have global (x : Word) (u : State) (bit : x.getLsbD 0 = true) : (writeWord 0x004 x u).seq.state = .offline := by
    show (writeGlobalCtl x u).seq.state = .offline
    unfold writeGlobalCtl bitAt
    rw [if_pos bit]
    rfl
  obtain ⟨rfl, rfl | rfl, bit⟩ | ⟨rfl, rfl, bit⟩ := reset
  · exact global _ s (by simpa using bit)
  · exact (writeWord_state 0x008 _ _ (by simp)).trans (global _ s (by simpa using bit))
  · exact global _ _ (by simpa using bit)

/-- What a change of the controller's state by the row tells (2.1, 2.8, R31). -/
structure TellsState (s t : State) : Prop where
  run : t.seq.state = .running → s.seq.state = .running
  edge : t.seq.state ≠ s.seq.state → t.aiu.edges.getLsbD irqSeq = true

theorem TellsState.of_state {s t : State} (same : t.seq.state = s.seq.state) : TellsState s t :=
  ⟨same ▸ id, fun moved => absurd same moved⟩

theorem Reported.tellsState {s t : State} (h : Reported s t) : TellsState s t := by
  obtain same | ⟨run, -, edge⟩ := h.state
  · exact .of_state same
  · exact ⟨fun on => absurd on run, fun _ => edge⟩

theorem acceptOffline_tellsState (w : Word) (s : State) : TellsState s (acceptOffline w s) := by
  obtain ⟨off, edge⟩ := acceptOffline_state w s
  refine ⟨fun run => absurd (off.symm.trans run) (by decide), fun moved => edge ?_⟩
  rwa [off, ne_comm] at moved

/-- Every row but RUN and the resets tells of a change of the state. -/
theorem after_tellsState (c : Instr) (s : State) :
    TellsState s (after c s) ∨ c = .run ∨ resetRow c ∨ ∃ o w v, c = .registerWrite o w v ∧ resetsBy o w v := by
  have stay (u : State) : TellsState u u := .of_state rfl
  obtain rep | rfl | rfl | ⟨v, rfl⟩ | ⟨v, rfl⟩ | ⟨o, w, v, rfl⟩ | reset := after_reported c s
  · exact .inl rep.tellsState
  · exact .inr (.inl rfl)
  · exact .inl (unlessHeld_of stay (takeCommand_of_accepted (fun _ _ => Reported.tellsState) acceptOffline_tellsState s))
  · exact .inl (unlessHeld_of (f := writeSeqStatus v) stay (.of_state rfl))
  · exact .inl (unlessHeld_of (f := writeIrqPending v) stay (.of_state rfl))
  · by_cases reset : resetsBy o w v
    · exact .inr (.inr (.inr ⟨o, w, v, rfl, reset⟩))
    · exact .inl (unlessHeld_of stay (.of_state (registerWrite_state o w v s reset)))
  · exact .inr (.inr (.inl reset))

/-- A reset row does not lead into RUNNING. -/
theorem resetRow_not_running {c : Instr} (h : resetRow c) (s : State) :
    (after c s).seq.state = .running → s.seq.state = .running := by
  obtain rfl | ⟨a, b, rfl⟩ | ⟨a, b, rfl⟩ := h
  · exact nofun
  · exact nofun
  · exact unlessHeld_of (P := fun s t => t.seq.state = .running → s.seq.state = .running) (f := hardReset a b)
      (fun _ => id) nofun

theorem after_run_sets_seq (s : State) :
    (after .run s).seq.state ≠ s.seq.state → (after .run s).aiu.edges.getLsbD irqSeq = true :=
  unlessHeld_of (P := fun s t => t.seq.state ≠ s.seq.state → t.aiu.edges.getLsbD irqSeq = true)
    (fun _ moved => absurd rfl moved)
    (takeCommand_of_accepted (P := fun s t => t.seq.state ≠ s.seq.state → t.aiu.edges.getLsbD irqSeq = true)
      (fun _ _ rep => rep.tellsState.edge) acceptRun_sets_seq s)

/-- Settles O21: every row but RUN and the resets reports its change of the state (`after_tellsState`), and RUN sets SEQ. -/
theorem controllerStateChangesAreReported : Obligations.ControllerStateChangesAreReported := by
  intro c s t ran
  obtain rfl := after_of_exec ran
  obtain ⟨run, edge⟩ | rfl | reset | ⟨o, w, v, rfl, reset⟩ := after_tellsState c s
  · exact ⟨.inl ∘ run, .inl ∘ edge⟩
  · exact ⟨fun _ => .inr rfl, .inl ∘ after_run_sets_seq s⟩
  · exact ⟨.inl ∘ resetRow_not_running reset s, fun _ => .inr (reset.imp id (Or.imp id .inl))⟩
  · refine ⟨fun on => .inl ?_, fun _ => .inr (.inr (.inr (.inr ⟨o, w, v, rfl, reset⟩)))⟩
    exact unlessHeld_of (P := fun s t => t.seq.state = .running → s.seq.state = .running) (fun _ => id)
      (fun run => absurd ((registerWrite_resets o w v s reset).symm.trans run) (by decide)) on

/-- No row but a reset and a write of SEQ_STATUS loses a sticky flag. -/
theorem after_sticks (c : Instr) (s : State) :
    Sticks s (after c s) ∨ resetRow c ∨ (∃ v, c = .seqStatusWrite v) ∨ ∃ off w v, c = .registerWrite off w v ∧
      (resetsBy off w v ∨ off = 0x00C ∨ (off = 0x008 ∧ w = .dword)) := by
  have stay (u : State) : Sticks u u := ⟨id, id, id⟩
  obtain rep | rfl | rfl | status | ⟨v, rfl⟩ | ⟨o, w, v, rfl⟩ | reset := after_reported c s
  · exact .inl rep.sticks
  · exact .inl (unlessHeld_of stay (takeCommand_of_accepted (fun _ _ => Reported.sticks) acceptRun_sticks s))
  · exact .inl (unlessHeld_of stay (takeCommand_of_accepted (fun _ _ => Reported.sticks) acceptOffline_sticks s))
  · exact .inr (.inr (.inl status))
  · exact .inl (unlessHeld_of (f := writeIrqPending v) stay ⟨id, id, id⟩)
  · by_cases clears : resetsBy o w v ∨ o = 0x00C ∨ (o = 0x008 ∧ w = .dword)
    · exact .inr (.inr (.inr ⟨o, w, v, rfl, clears⟩))
    · obtain ⟨noReset, other⟩ := not_or.1 clears
      exact .inl (unlessHeld_of stay (registerWrite_sticks o w v s noReset other))
  · exact .inr (.inl reset)

/-- A flag that was set and is clear was not kept. -/
theorem Sticks.not_lost {s t : State} (h : Sticks s t) :
    ¬ (s.seq.cmdRefused = true ∧ t.seq.cmdRefused = false ∨ s.seq.tableRefused = true ∧ t.seq.tableRefused = false ∨
      s.seq.writesDiscarded = true ∧ t.seq.writesDiscarded = false) := by
  rintro (⟨was, lost⟩ | ⟨was, lost⟩ | ⟨was, lost⟩)
  · rw [h.cmdRefused was] at lost
    exact nomatch lost
  · rw [h.tableRefused was] at lost
    exact nomatch lost
  · rw [h.writesDiscarded was] at lost
    exact nomatch lost

/-- Settles O22: the write by its definition, and the other rows by `after_sticks`. -/
theorem stickyFlagsNeedSoftware : Obligations.StickyFlagsNeedSoftware := by
  refine ⟨fun v s out => ?_, fun c s t ran lost => ?_⟩
  · have up : exec (.seqStatusWrite v) s = .next (writeSeqStatus v s) :=
      congrArg Host.Outcome.next (unlessHeld_of_awake _ out)
    rw [up]
    simp [writeSeqStatus, bitAt, and_comm]
  · obtain rfl := after_of_exec ran
    obtain kept | reset | status | write := after_sticks c s
    · exact absurd lost kept.not_lost
    · exact reset.imp id (Or.imp id .inl)
    · exact .inr (.inr (.inr (.inl status)))
    · exact .inr (.inr (.inr (.inr write)))

end Sys2Proof.Machine
end

section
/-! SUPPORT. OFFLINE is quiet (R16, R25, R161): what a row can do in a quiet OFFLINE, and how the controller comes into OFFLINE. -/

namespace Sys2Proof.Machine

/-! ### What quietness looks at -/

/-- The part of the state that quietness is about, with the controller's state. -/
def atRest (s : State) :=
  ((s.seq.state, s.segA.mode, s.segA.beacon, s.segB.mode, s.segB.beacon), (s.ctim.number, s.ctim.remain, s.ctim.len),
    (s.walk.window, s.walk.hand, s.walk.look, s.walk.pass), (s.xeng, s.stage, s.wq, s.rx.fifo),
    (s.dau.pending, s.dau.done, s.aiu.queue))

/-- A quiet controller in OFFLINE. -/
structure Idle (s : State) : Prop extends Quiet s where
  offline : s.seq.state = .offline

theorem Idle.of_atRest {s t : State} (h : Idle s) (same : atRest t = atRest s) : Idle t := by
  simp only [atRest, Prod.mk.injEq] at same
  obtain ⟨⟨mode, modeA, driveA, modeB, driveB⟩, ⟨number, remain, len⟩, ⟨window, hand, look, pass⟩, ⟨xeng, stage, wq, fifo⟩,
    pending, done, queue⟩ := same
  exact ⟨⟨modeA.trans h.darkA, modeB.trans h.darkB, driveA.trans h.driveA, driveB.trans h.driveB, number.trans h.number,
    by rw [remain, len, h.remain], window.trans h.window, hand.trans h.hand, look.trans h.look, pass.trans h.pass,
    xeng.trans h.engine, stage.trans h.stage, wq.trans h.items, fifo.trans h.fifo, pending.trans h.requests,
    done.trans h.records, queue.trans h.attention⟩, mode.trans h.offline⟩

theorem Idle.quiet {s : State} (h : Idle s) : OfflineQuiet s := fun _ => h.toQuiet

theorem Idle.seg_dark {s : State} (h : Idle s) (g : Seg) : (getSeg s g).mode = .dark := by
  cases g
  · exact h.darkA
  · exact h.darkB

/-! ### Shared operations at rest -/

@[simp] theorem atRest_setEdge (i : Nat) (s : State) : atRest (setEdge i s) = atRest s := rfl

@[simp] theorem atRest_wakeWalker (s : State) : atRest (wakeWalker s) = atRest s := rfl

theorem atRest_setSeg {g : Seg} {c : Segment} {s : State} (mode : c.mode = (getSeg s g).mode)
    (beacon : c.beacon = (getSeg s g).beacon) : atRest (setSeg g c s) = atRest s := by
  cases g <;> simp [atRest, setSeg, mode, beacon, getSeg]

theorem atRest_quarantine (g : Seg) (s : State) : atRest (quarantine g s) = atRest s := by
  unfold quarantine
  split
  · rfl
  · exact atRest_setSeg rfl rfl

@[simp] theorem atRest_offerBus (code : BitVec 8) (g : Option Seg) (i : EntryIx) (s : State) :
    atRest (offerBus code g i s) = atRest s := by
  cases g with
  | none => rfl
  | some g =>
    unfold offerBus
    dsimp only
    split
    · exact atRest_quarantine g _
    · rfl

theorem atRest_setEntry (i : EntryIx) (e : Entry) (s : State) : atRest (setEntry i e s) = atRest s := by
  unfold setEntry
  split <;> rfl

@[simp] theorem atRest_offerHost (code : BitVec 8) (kind : BitVec 4) (addr : Word) (s : State) :
    atRest (offerHost code kind addr s) = atRest s := rfl

@[simp] theorem atRest_ignoreOp (g : Seg) (s : State) : atRest (ignoreOp g s) = atRest s :=
  (atRest_offerBus _ _ _ _).trans (atRest_setSeg rfl rfl)

theorem Idle.pumpQueue {s : State} (h : Idle s) : Idle (pumpQueue s) := by
  have inactive : queueActive s = false := by simp [queueActive, h.offline]
  rw [show Machine.pumpQueue s = s by simp [Machine.pumpQueue, inactive]]
  exact h

theorem Idle.hostFault {s : State} (h : Idle s) (code : BitVec 8) (kind : BitVec 4) (addr : Word) :
    Idle (hostFault code kind addr s) := by
  have offered : Idle (offerHost code kind addr s) := h.of_atRest rfl
  unfold Machine.hostFault
  dsimp only
  rw [offered.offline]
  exact offered

theorem Idle.accessFault {s : State} (h : Idle s) (left : Bool) (code : BitVec 8) (kind : BitVec 4) (addr : Word) :
    Idle (accessFault left code kind addr s) := by
  cases left
  · exact h.hostFault code kind addr
  · exact h.of_atRest rfl

/-! ### Commands -/

/-- A command in a quiet OFFLINE leaves it quiet where it is refused, and where it is accepted does what its own rule gives. -/
theorem Idle.takeCommand {s : State} (h : Idle s) {op : BitVec 3} {f : Word → State → State}
    (accepted : ∀ w, ctrlOp w = op → refusal w s = .none → OfflineQuiet (f w s)) : OfflineQuiet (takeCommand op f s) := by
  cases command : s.seq.command with
  | none => rw [takeCommand_of_none op f command]; exact h.quiet
  | some w =>
    by_cases here : ctrlOp w = op
    · rw [takeCommand_of_op f command here]
      split
      case isTrue ok => exact accepted w here ok
      case isFalse => exact (h.of_atRest (t := finishCommand (recordRefusal (refusal w s) s)) rfl).quiet
    · rw [takeCommand_of_ne f command here]
      exact h.quiet

/-- In OFFLINE a RESTART, a RUN and a STOP are refused, and a NOP that carries an operation. -/
theorem Idle.refuses {s : State} (h : Idle s) {w : Word} (ok : refusal w s = .none) :
    ctrlOp w ≠ 1 ∧ ctrlOp w ≠ 4 ∧ ctrlOp w ≠ 5 ∧ (ctrlOp w = 0 → segOp w = 0) := by
  unfold refusal refusedWith at ok
  rw [h.offline] at ok
  refine ⟨fun op => ?_, fun op => ?_, fun op => ?_, fun op => BitVec.eq_of_toNat_eq ?_⟩ <;> simp [op] at ok
  · split at ok <;> exact nomatch ok
  · split at ok <;> exact nomatch ok
  · split at ok
    · exact nomatch ok
    · by_contra carries
      exact nomatch (if_neg carries).symm.trans ok

theorem offerOps_none {w : Word} (none : segOp w = 0) (s : State) : offerOps w s = s := by
  unfold offerOps
  simp [none, offerOp]

theorem Idle.acceptNop {s : State} (h : Idle s) {w : Word} (op : ctrlOp w = 0) (ok : refusal w s = .none) :
    Idle (acceptNop w s) := by
  obtain ⟨-, -, -, plain⟩ := h.refuses ok
  unfold Machine.acceptNop
  rw [offerOps_none (plain op)]
  exact h.of_atRest rfl

/-- CONFIGURE leaves OFFLINE. -/
theorem acceptConfigure_leaves (w : Word) (s : State) : (acceptConfigure w s).seq.state ≠ .offline := by
  have rep : Reported (setCtrl .ready s) (acceptConfigure w s) :=
    ((immediateCycleStart_reported _).trans (offerOps_reported w _)).trans (finishCommand_reported _)
  obtain same | ⟨-, leaves, -⟩ := rep.state
  · rw [same, setCtrl_seq]
    exact nofun
  · exact leaves

theorem Idle.illegalOp {s : State} (h : Idle s) : Idle (illegalOp s) := by
  have taken (op : BitVec 3) {u : State} (k : Idle u) : Idle (Machine.takeCommand op (fun _ s => s) u) := by
    cases command : u.seq.command with
    | none => rw [takeCommand_of_none op _ command]; exact k
    | some w =>
      by_cases here : ctrlOp w = op
      · rw [takeCommand_of_op _ command here]
        split
        · exact k
        · exact k.of_atRest rfl
      · rw [takeCommand_of_ne _ command here]
        exact k
  exact taken 7 (taken 6 h)

theorem Idle.restartActions {s : State} (h : Idle s) : OfflineQuiet (restartActions s) := by
  unfold Machine.restartActions
  split
  · refine fun off => absurd off ?_
    show (setCtrl (restartState (restartActionsBody s)) (restartActionsBody s)).seq.state ≠ .offline
    rw [setCtrl_seq]
    exact (restartState_entered (restartActionsBody s)).2
  · exact h.quiet

theorem Idle.discardQueue {s : State} (h : Idle s) : Idle (discardQueue s) :=
  ⟨{ h with items := rfl, fifo := rfl }, h.offline⟩

theorem Idle.sealCompletion {s : State} (h : Idle s) : Idle (sealCompletion s) := by
  unfold Machine.sealCompletion
  split
  · have empty : (Machine.discardQueue s).dau.pending.length = 0 := by rw [h.discardQueue.requests]; rfl
    show Idle (sealFlush _ (Machine.discardQueue s).dau.pending.length)
    rw [empty]
    exact h.discardQueue.of_atRest rfl
  · exact h

theorem Idle.writeSeqCmd {s : State} (h : Idle s) (v : Word) : Idle (writeSeqCmd v s) := by
  unfold Machine.writeSeqCmd
  split <;> exact h.of_atRest rfl

/-! ### Segments and the Cycle Timer -/

theorem Idle.biasChange {s : State} (h : Idle s) (g : Seg) (level : Bool) : Idle (biasChange g level s) := by
  have followed : Idle (setBias g level s) := h.of_atRest (atRest_setSeg rfl rfl)
  unfold Machine.biasChange
  split
  · exact h
  · dsimp only
    rw [followed.seg_dark g]
    exact followed

theorem Idle.babble {s : State} (h : Idle s) (g : Seg) (driving : Bool) : babble g driving s = s := by
  simp [Machine.babble, babbleWatched, h.seg_dark g]

theorem Idle.wakeRequest {s : State} (h : Idle s) (g : Seg) (atStart : Bool) : wakeRequest g atStart s = s := by
  simp [Machine.wakeRequest, h.seg_dark g]

theorem Idle.writeSegCfg {s : State} (h : Idle s) (v : Word) : Idle (writeSegCfg v s) := by
  have byte (g : Seg) (b : BitVec 8) (u : State) : atRest (writeSegCfgByte g b u) = atRest u := by
    unfold writeSegCfgByte
    dsimp only
    split
    · exact atRest_setSeg rfl rfl
    · split
      · exact atRest_setSeg rfl rfl
      · exact (atRest_ignoreOp g _).trans (atRest_setSeg rfl rfl)
  exact h.of_atRest ((byte .b _ _).trans (byte .a _ s))

theorem Idle.writeCycleLen {s : State} (h : Idle s) (v : Word) : Idle (writeCycleLen v s) := by
  unfold Machine.writeCycleLen
  split
  · exact h.of_atRest rfl
  · exact h.of_atRest (atRest_offerBus _ _ _ s)

theorem Idle.writeCycleNumber {s : State} (h : Idle s) (v : Word) : writeCycleNumber v s = s := by
  simp [Machine.writeCycleNumber, h.offline]

/-! ### The Station Table, the receive ring, the lists -/

theorem Idle.afterAccepted {s : State} (h : Idle s) (i : EntryIx) (rewrites : Bool) : Idle (afterAccepted i rewrites s) := by
  have notEngaged : engaged s i = false := by simp [engaged, h.engine]
  unfold Machine.afterAccepted
  rw [notEngaged]
  exact h.of_atRest rfl

theorem Idle.refuseTable {s : State} (h : Idle s) (i : EntryIx) (g : Seg) : Idle (refuseTable i g s) :=
  h.of_atRest (atRest_offerBus _ _ _ _)

theorem Idle.writeEntryW0 {s : State} (h : Idle s) (v : Word) : Idle (writeEntryW0 v s) := by
  have stored (e : Entry) : Idle (setEntry s.select e s) := h.of_atRest (atRest_setEntry _ e s)
  unfold Machine.writeEntryW0
  dsimp only
  split
  · exact h
  · split
    · exact (stored _).afterAccepted _ _
    · exact (stored _).refuseTable _ _

theorem Idle.writeEntryW1 {s : State} (h : Idle s) (v : Word) : Idle (writeEntryW1 v s) := by
  have stored (e : Entry) : Idle (setEntry s.select e s) := h.of_atRest (atRest_setEntry _ e s)
  unfold Machine.writeEntryW1
  dsimp only
  split
  · exact h
  · split
    · exact (stored _).afterAccepted _ _
    · exact h.refuseTable _ _

theorem Idle.writeRxBase {s : State} (h : Idle s) (v : Word) : Idle (writeRxBase v s) := by
  unfold Machine.writeRxBase
  split <;> exact h.of_atRest rfl

theorem Idle.writeRxSize {s : State} (h : Idle s) (v : Word) : Idle (writeRxSize v s) := by
  unfold Machine.writeRxSize
  split
  · split <;> exact h.of_atRest rfl
  · exact h.of_atRest rfl

theorem Idle.writeRxReturn {s : State} (h : Idle s) (v : Word) : Idle (writeRxReturn v s) := by
  unfold Machine.writeRxReturn
  split
  · exact (h.of_atRest (t := { s with rx := { s.rx with ret := field v 0 10 } }) rfl).pumpQueue
  · exact h.of_atRest rfl

/-- A direct request in OFFLINE is rejected (R134). -/
theorem Idle.directRequest {s : State} (h : Idle s) (poke : Bool) (i : EntryIx) (o : BitVec 6) (tag : BitVec 4) :
    Idle (directRequest poke i o tag s) := by
  have rejected : rejectOf s i o = .notRunning := by simp [rejectOf, h.offline]
  unfold Machine.directRequest
  rw [rejected]
  exact h.of_atRest rfl

theorem writeBankBytes_atRest (i : Nat) (v : BitVec 64) (n : Nat) (s : State) :
    atRest (writeBankBytes i v s n) = atRest s := by
  induction n generalizing i v s with
  | zero => rfl
  | succ n ih =>
    refine (ih (i + 1) (v >>> 8) _).trans ?_
    unfold writeBankByte
    split <;> rfl

theorem Idle.writeBank {s : State} (h : Idle s) (o : Nat) (w : Width) (v : BitVec 64) : Idle (writeBank o w v s) := by
  have bytes (n : Nat) : Idle (writeBankBytes o v s n) := h.of_atRest (writeBankBytes_atRest o v n s)
  unfold Machine.writeBank
  split
  · exact bytes 1
  all_goals
    split
    · exact bytes _
    · exact h

theorem Idle.popAttn {s : State} (h : Idle s) : Idle (popAttn s) := by
  unfold Machine.popAttn
  rw [h.attention]
  exact h.of_atRest rfl

theorem Idle.popDone {s : State} (h : Idle s) : Idle (popDone s) := by
  unfold Machine.popDone
  rw [h.records]
  exact h.of_atRest rfl

theorem Idle.writeAttnStatus {s : State} (h : Idle s) (v : Word) : Idle (writeAttnStatus v s) := by
  unfold Machine.writeAttnStatus
  split
  · exact h.of_atRest rfl
  · exact h

/-! ### The host bus: what is left outstanding ends without effect (R14) -/

theorem Idle.snapshotReturned {s : State} (h : Idle s) (q : ReadReq) (r : Rec) : snapshotReturned q r s = s := by
  unfold Machine.snapshotReturned
  rw [h.hand, h.look]
  split <;> simp_all [descriptorReturned, h.items]

theorem Idle.recordFetchDone {s : State} (h : Idle s) (r : Rec) : Idle (recordFetchDone r s) := by
  unfold Machine.recordFetchDone
  split
  · exact h
  · split
    · exact h
    · rw [h.snapshotReturned]
      exact (h.of_atRest (t := popRead s) rfl).pumpQueue

theorem Idle.stagingFillDone {s : State} (h : Idle s) (bytes : List Byte) : Idle (stagingFillDone bytes s) := by
  unfold Machine.stagingFillDone
  rw [h.stage]
  split
  · exact h
  · split
    · split
      case h_1 filling => exact nomatch filling
      case h_2 filling => exact nomatch filling
      case h_3 => exact h.of_atRest rfl
    · exact h

theorem Idle.hostWriteComplete {s : State} (h : Idle s) : Idle (hostWriteComplete s) := by
  unfold Machine.hostWriteComplete
  split
  · exact h
  · have ended : Idle { s with hport := { s.hport with write := none } } := h.of_atRest rfl
    dsimp only
    split
    · have kept : writePerformed { s with hport := { s.hport with write := none } } =
          { s with hport := { s.hport with write := none } } := by simp [writePerformed, h.items]
      rw [kept]
      exact ended.pumpQueue
    · rw [show s.wq.started = false by rw [h.items], Bool.and_false, Bool.false_and]
      exact ended.pumpQueue

theorem Idle.hostMemoryFault {s : State} (h : Idle s) (ch : Chan) (o : BitVec 10) : Idle (hostMemoryFault ch o s) := by
  cases ch with
  | read =>
    show Idle (readFault o s)
    unfold readFault
    split
    · exact h
    · split
      · exact (h.accessFault _ _ _ _).of_atRest rfl
      · exact h
  | write =>
    show Idle (writeFault o s)
    unfold writeFault
    split
    · exact h
    · split
      · refine Idle.pumpQueue (Idle.accessFault ?_ _ _ _ _)
        exact h.of_atRest (by simp [atRest, h.items])
      · exact h

/-! ### Register writes -/

theorem afterReset_idle (a b : Bool) (s : State) : Idle (hardReset a b s) :=
  ⟨⟨rfl, rfl, rfl, rfl, rfl, rfl, rfl, rfl, rfl, rfl, rfl, rfl, rfl, rfl, rfl, rfl, rfl⟩, rfl⟩

theorem writeGlobalCtl_quiet (v : Word) (s : State) (h : OfflineQuiet s) : OfflineQuiet (writeGlobalCtl v s) := by
  unfold writeGlobalCtl
  split
  · exact (afterReset_idle _ _ s).quiet
  · exact fun off => { h off with }

theorem Idle.writeRegister {s : State} (h : Idle s) (off : Nat) (v : Word) : Idle (writeRegister off v s) := by
  unfold Machine.writeRegister
  split
  case h_1 =>
    unfold writeGlobalCtl
    split
    · exact afterReset_idle _ _ s
    · exact h.of_atRest rfl
  case h_2 => exact h.writeSeqCmd v
  case h_4 => exact h.writeSegCfg v
  case h_5 => exact h.writeCycleLen v
  case h_6 => exact (h.writeCycleNumber v).symm ▸ h
  case h_13 => exact h.writeRxBase v
  case h_14 => exact h.writeRxSize v
  case h_15 => exact h.writeRxReturn v
  case h_17 => exact h.writeEntryW0 v
  case h_18 => exact h.writeEntryW1 v
  case h_19 => exact h.writeAttnStatus v
  case h_21 => exact h.directRequest _ _ _ _
  all_goals exact h.of_atRest rfl

theorem Idle.writeWord {s : State} (h : Idle s) (off : Nat) (v : Word) : Idle (writeWord off v s) := by
  unfold Machine.writeWord
  split
  · exact h
  · split
    · exact h.writeBank _ _ _
    · exact h.writeRegister off v

/-- A 32-bit write keeps OFFLINE quiet: it is a reset, or leaves the controller's state. -/
theorem writeWord_quiet (off : Nat) (v : Word) {s : State} (h : OfflineQuiet s) : OfflineQuiet (writeWord off v s) := by
  by_cases off' : s.seq.state = .offline
  · exact (Idle.writeWord ⟨h off', off'⟩ off v).quiet
  · by_cases reset : off = 0x004 ∧ v.getLsbD 0 = true
    · obtain ⟨rfl, bit⟩ := reset
      exact writeGlobalCtl_quiet v s h
    · exact fun on => absurd ((writeWord_state off v s reset).symm.trans on) off'

theorem registerWrite_quiet (off : Nat) (w : Width) (v : BitVec 64) {s : State} (h : OfflineQuiet s) :
    OfflineQuiet (registerWrite off w v s) := by
  have narrow (n : Width) : OfflineQuiet (if inBank off then writeBank (off - 0x100) n v s else s) := by
    split
    · intro on
      have off' : s.seq.state = .offline :=
        (congrArg Sequencer.state (writeBank_only _ _ _ s .seq (by decide))).symm.trans on
      exact (Idle.writeBank ⟨h off', off'⟩ _ _ _).toQuiet
    · exact h
  cases w with
  | byte => exact narrow .byte
  | half => exact narrow .half
  | word => exact writeWord_quiet off _ h
  | dword => exact writeWord_quiet _ _ (writeWord_quiet off _ h)

/-! ### Into OFFLINE -/

/-- OFFLINE leaves a quiet controller (R25, R161). -/
theorem acceptOffline_quiet (w : Word) {s : State} (h : OfflineQuiet s) : OfflineQuiet (acceptOffline w s) := by
  unfold acceptOffline
  split
  case isTrue off => exact (Idle.of_atRest (t := finishCommand s) ⟨h off, off⟩ rfl).quiet
  case isFalse =>
    have stopped (u : State) (cut : u.xeng = none) : Quiet (finishCommand (setEdge irqSeq { leaveOutstanding (cancelAllReads
        (offlineActions { stopTimer u with segA := u.segA.offline, segB := u.segB.offline })) with seq := { u.seq with
          state := .offline, restartInHand := false, restartFaulted := false, sealPending := false } })) :=
      ⟨rfl, rfl, rfl, rfl, rfl, rfl, rfl, rfl, rfl, rfl, cut, rfl, rfl, rfl, rfl, rfl, rfl⟩
    have cut : (cutAny s).xeng = none := by
      unfold cutAny
      split
      case h_1 x on => exact finish_xeng .cut x s
      case h_2 none => exact none
    exact fun _ => { stopped (cutAny s) cut with }

/-- A command that OFFLINE refuses whatever else it says. -/
theorem Idle.takeRefused {s : State} (h : Idle s) {op : BitVec 3} {f : Word → State → State}
    (refused : ∀ w, refusal w s = .none → ctrlOp w ≠ op) : OfflineQuiet (Machine.takeCommand op f s) :=
  h.takeCommand fun w here ok => absurd here (refused w ok)

/-- Every row keeps a quiet OFFLINE quiet or leaves it. -/
theorem Idle.after {s : State} (h : Idle s) (c : Instr) : OfflineQuiet (after c s) := by
  have awaken {f : State → State} (k : OfflineQuiet (f s)) : OfflineQuiet (unlessHeld f s) := by
    unfold unlessHeld
    split
    · exact h.quiet
    · exact k
  have idle {f : State → State} (k : Idle (f s)) : OfflineQuiet (unlessHeld f s) := awaken k.quiet
  have same {f : State → State} (k : f s = s) : OfflineQuiet (unlessHeld f s) := awaken (k.symm ▸ h.quiet)
  have segment (f : State → State) : OfflineQuiet (unlessHeld (unlessOffline f) s) :=
    same (by rw [unlessOffline, if_pos h.offline])
  have heldOr {f : State → State} (k : Idle (f s)) :
      OfflineQuiet (if s.hport.heldInReset then heldRead s else f s) := by
    split
    · exact (h.of_atRest (t := heldRead s) rfl).quiet
    · exact k.quiet
  have exchange {f : State → State} {g : Exchange → State} (k : f s = match s.xeng with | some x => g x | none => s) :
      OfflineQuiet (unlessHeld f s) := same (by rw [k, h.engine])
  have hand {f : State → State} {g : Turn → State} (k : f s = match s.walk.hand with | .turn t => g t | _ => s) :
      OfflineQuiet (unlessHeld f s) := same (by rw [k, h.hand])
  cases c with
  | powerOnReset a b => exact (afterReset_idle a b s).quiet
  | powerOnResetAsserted => exact ((afterReset_idle _ _ s).of_atRest (t := assertReset s) rfl).quiet
  | hardReset a b => exact idle (f := hardReset a b) (afterReset_idle a b s)
  | nop => exact awaken (h.takeCommand fun w op ok => (h.acceptNop op ok).quiet)
  | configure => exact awaken (h.takeCommand fun w _ _ on => absurd on (acceptConfigure_leaves w s))
  | run => exact awaken (h.takeRefused fun w ok => (h.refuses ok).2.1)
  | stop => exact awaken (h.takeRefused fun w ok => (h.refuses ok).2.2.1)
  | restart => exact awaken (h.takeRefused fun w ok => (h.refuses ok).1)
  | restartActions => exact awaken h.restartActions
  | offline => exact awaken (h.takeCommand fun w _ _ => acceptOffline_quiet w h.quiet)
  | illegalOpRefused => exact idle h.illegalOp
  | seqCmdWrite v => exact idle (h.writeSeqCmd v)
  | power g => exact segment (segPower g)
  | reset g => exact segment (segReset g)
  | disable g => exact segment (segDisable g)
  | doze g => exact segment (segDoze g)
  | wake g => exact segment (segWake g)
  | release g => exact segment (segRelease g)
  | biasChange g l => exact idle (h.biasChange g l)
  | babble a => exact same (h.babble a.seg a.driving)
  | wakeRequest g a => exact same (h.wakeRequest g a)
  | cycleStart a b => exact same (f := cycleStart a b) (if_pos h.offline)
  | beaconEnd => exact same (f := beaconEnd) (if_neg (by rw [h.window]; exact nofun))
  | periodicOpenReached => exact same (f := periodicOpenReached) (if_pos (.inl h.offline))
  | cycleEndCutoff => exact same (f := cycleEndCutoff) (if_pos (.inl h.offline))
  | walkerDecision => exact same (f := walkerDecision) (if_pos (by simp [h.offline]))
  | exchangeStart => exact exchange rfl
  | requestSent => exact exchange rfl
  | replyBegun => exact exchange rfl
  | replyTimeout => exact exchange rfl
  | replyEnd r => exact exchange (f := replyEnd r) rfl
  | acceptSent => exact exchange rfl
  | stagingFillDone l => exact idle (h.stagingFillDone l)
  | recordFetchDone w0 w1 w2 w3 => exact idle (h.recordFetchDone ⟨w0, w1, w2, w3⟩)
  | consumeRecord => exact hand rfl
  | skipStep => exact hand rfl
  | hostWriteComplete => exact idle h.hostWriteComplete
  | hostMemoryFault ch o => exact idle (h.hostMemoryFault ch o)
  | sealCompletion => exact idle h.sealCompletion
  | seqStatusWrite v => exact idle (f := writeSeqStatus v) (h.of_atRest rfl)
  | segStatusRead g => exact heldOr (h.of_atRest (atRest_setSeg rfl rfl))
  | segCfgWrite v => exact idle (h.writeSegCfg v)
  | cycleLenWrite v => exact idle (h.writeCycleLen v)
  | cycleNumberWrite v => exact same (h.writeCycleNumber v)
  | ringAnchorWrite k v => exact idle (f := writeAnchor k v) (h.of_atRest rfl)
  | rxRingBaseWrite v => exact idle (h.writeRxBase v)
  | rxRingSizeWrite v => exact idle (h.writeRxSize v)
  | rxReturnWrite v => exact idle (h.writeRxReturn v)
  | entryW0Write v => exact idle (h.writeEntryW0 v)
  | entryW1Write v => exact idle (h.writeEntryW1 v)
  | attnPop => exact heldOr h.popAttn
  | attnStatusWrite v => exact idle (h.writeAttnStatus v)
  | peekRequest i o t => exact idle (h.directRequest false i o t)
  | pokeRequest i o t => exact idle (h.directRequest true i o t)
  | directStatusWrite v => exact idle (f := writeDirectStatus v) (h.of_atRest rfl)
  | directDonePop => exact heldOr h.popDone
  | irqPendingWrite v => exact idle (f := writeIrqPending v) (h.of_atRest rfl)
  | irqMaskWrite v => exact idle (f := writeIrqMask v) (h.of_atRest rfl)
  | busWipe v => exact idle (f := writeLogCtl _) (h.of_atRest rfl)
  | hostWipe v => exact idle (f := writeLogCtl _) (h.of_atRest rfl)
  | bankWrite o w v => exact idle (h.writeBank o.toNat w v)
  | registerWrite o w v => exact awaken (registerWrite_quiet o.toNat w v h.quiet)

/-- A controller that is not in OFFLINE comes there quiet: by OFFLINE or by a reset. -/
theorem after_enters_quiet {s : State} (on : s.seq.state ≠ .offline) (c : Instr) : OfflineQuiet (after c s) := by
  have quiet : OfflineQuiet s := fun off => absurd off on
  have stays {t : State} (same : t.seq.state = s.seq.state) : OfflineQuiet t := fun off => absurd (same.symm.trans off) on
  have reported {t : State} (rep : Reported s t) : OfflineQuiet t := by
    obtain same | ⟨-, leaves, -⟩ := rep.state
    · exact stays same
    · exact fun off => absurd off leaves
  have awaken {f : State → State} (k : OfflineQuiet (f s)) : OfflineQuiet (unlessHeld f s) := by
    unfold unlessHeld
    split
    · exact quiet
    · exact k
  have command {op : BitVec 3} {f : Word → State → State} (accepted : ∀ w, OfflineQuiet (f w s)) :
      OfflineQuiet (takeCommand op f s) := by
    unfold takeCommand
    split
    · exact quiet
    · split
      · split
        · exact accepted _
        · exact stays rfl
      · exact quiet
  obtain rep | rfl | rfl | ⟨v, rfl⟩ | ⟨v, rfl⟩ | ⟨o, w, v, rfl⟩ | rfl | ⟨a, b, rfl⟩ | ⟨a, b, rfl⟩ := after_reported c s
  · exact reported rep
  · refine awaken (command fun w off => ?_)
    obtain same | ⟨-, leaves, -⟩ := (acceptRun_reported w s).state
    · rw [same, setCtrl_seq] at off
      exact nomatch off
    · exact absurd off leaves
  · exact awaken (command fun w => acceptOffline_quiet w quiet)
  · exact awaken (f := writeSeqStatus v) (stays rfl)
  · exact awaken (f := writeIrqPending v) (stays rfl)
  · exact awaken (registerWrite_quiet o.toNat w v quiet)
  · exact ((afterReset_idle _ _ s).of_atRest (t := assertReset s) rfl).quiet
  · exact (afterReset_idle a b s).quiet
  · exact awaken (f := hardReset a b) (afterReset_idle a b s).quiet

/-- A tick does not bring the controller into OFFLINE. -/
theorem tick_reported (s : State) : Reported s (tick s) := by
  unfold tick
  split
  · exact .refl s
  · split
    · exact cycleStart_reported _ _ s
    · dsimp only
      split <;> split
      · exact (cutoff_reported _).behind rfl rfl
      · exact .of_edges rfl rfl
      · exact (cutoff_reported _).behind rfl rfl
      · exact .of_edges rfl rfl

/-- Settles O60: in a quiet OFFLINE each row keeps it so (`Idle.after`), and the rows that lead there leave it quiet
(`after_enters_quiet`); a tick does nothing in OFFLINE. -/
theorem stepKeepsOfflineQuiet : Obligations.StepKeepsOfflineQuiet := by
  intro s t quiet ran
  unfold step at ran
  split at ran
  · obtain rfl := Host.Outcome.next.inj ran
    by_cases off : s.seq.state = .offline
    · have still : tick (closeMoment s) = closeMoment s := by simp [tick, closeMoment, off]
      rw [still]
      exact (Idle.of_atRest (t := closeMoment s) ⟨quiet off, off⟩ rfl).quiet
    · obtain same | ⟨-, leaves, -⟩ := (tick_reported (closeMoment s)).state
      · exact fun on => absurd (same.symm.trans on) off
      · exact fun on => absurd on leaves
  · rename_i c rest _
    obtain rfl := after_of_exec ran
    by_cases off : s.seq.state = .offline
    · exact Idle.after (Idle.of_atRest (t := { s with pending := rest }) ⟨quiet off, off⟩ rfl) c
    · exact after_enters_quiet (s := { s with pending := rest }) off c

end Sys2Proof.Machine
end

section
/-! SUPPORT. The invariant is no invariant of every state that meets it (R70): it allows a head fetch beside an exchange under way,
and the decision that the returned head leads to puts a direct exchange in its place. -/

namespace Sys2Proof.Machine

/-- A station in use on segment A. -/
def plainStation : Entry := { Entry.null with valid := true, address := 5, payloadCode := 1 }

/-- Armed in the periodic window, with entry 1's exchange being sent and its fence raised meanwhile; the pass waits for its last
head, and a PEEK of entry 2 waits for a turn. -/
def fencedUnderFetch : State :=
  let s := State.reset
  setEntry 2 plainStation (setEntry 1 { plainStation with fence := true }
    { s with
      seq := { s.seq with state := .armed },
      segA := { s.segA with mode := .enabled },
      walk := { s.walk with window := .periodic, hand := .headWait (passSeek .timed none 1) },
      xeng := some { phase := .sending, request := .push 0, direct := false, entry := 1, segment := .a, maxPayload := 16,
                     tail := false, frame := none, room := 0, data := [], accept := none, rewritten := false },
      dau := { s.dau with pending := [{ poke := false, entry := 2, offset := 0, len := 4, tag := 0, regnum := 0, tries := 0,
                                        defers := 0, data := [] }] },
      hport := { s.hport with reads := [{ kind := 1, addr := 0x100, len := 16, reader := .head }] },
      pending := [.recordFetchDone 0 0 0 0] })

theorem getEntry_fencedUnderFetch (i : EntryIx) : getEntry fencedUnderFetch i =
    if i = 2 then plainStation else if i = 1 then { plainStation with fence := true } else Entry.null := by
  unfold fencedUnderFetch
  split
  case isTrue here => rw [here, getEntry_setEntry_same _ _ (by decide)]
  case isFalse other =>
    rw [getEntry_setEntry_of_ne _ _ other]
    split
    case isTrue here => rw [here, getEntry_setEntry_same _ _ (by decide)]
    case isFalse other =>
      rw [getEntry_setEntry_of_ne _ _ other]
      simp [getEntry, State.reset, State.afterReset]

theorem fencedUnderFetch_inv : Inv fencedUnderFetch := by
  refine ⟨getEntry_fencedUnderFetch 0, fun i granted => ?_, fun i fence _ => ?_, by unfold queueFits; decide,
    by unfold attentionFits; decide, by unfold levelBitsFree; decide, ⟨by decide, by decide, ?_⟩, by unfold reasonsShown; decide,
    by unfold busyHolds; decide, by unfold quarantineFits; decide, by unfold quarantineFits; decide, ?_⟩
  · rw [getEntry_fencedUnderFetch] at granted
    split at granted
    · exact nomatch granted
    · split at granted <;> exact nomatch granted
  · rw [getEntry_fencedUnderFetch] at fence
    split at fence
    · exact nomatch fence
    · split at fence
      case isTrue here => subst here; decide
      case isFalse => exact nomatch fence
  · intro x on
    obtain rfl := Option.some.inj on
    exact nofun
  · intro x on
    obtain rfl := Option.some.inj on
    decide

/-- Refutes O59: from `fencedUnderFetch`, which meets the invariant, the returned head ends the pass, and the late window's decision
puts the PEEK of entry 2 in the engine; entry 1's fence then stands neither granted nor under an engagement. -/
theorem not_stepKeepsInv : ¬ Obligations.StepKeepsInv := by
  intro keeps
  have ran : step fencedUnderFetch = .next (after (.recordFetchDone 0 0 0 0) { fencedUnderFetch with pending := [] }) :=
    exec_eq_after (.recordFetchDone 0 0 0 0) { fencedUnderFetch with pending := [] }
  have kept := keeps fencedUnderFetch _ fencedUnderFetch_inv ran
  have answered := kept.answered 1 (by decide) (by decide)
  exact absurd answered (by decide)

end Sys2Proof.Machine
end

section
/-! SUPPORT. Rows that fall due together (R163, R4): the line of R163's table that names a row is a function of its place. -/

namespace Sys2Proof.Machine

/-! ### Places and lines -/

/-- The line of R163's table of a place; a place that only rows beside the table take has the line before it. -/
def lineAt : Nat → Nat
  | 0 => 0
  | 1 => 10
  | 2 => 20
  | 3 => 21
  | 4 => 30
  | 5 => 31
  | 6 => 32
  | 7 => 33
  | 8 => 34
  | 9 => 35
  | 10 => 40
  | 11 => 50
  | 12 => 50
  | 13 => 60
  | 14 => 70
  | 15 => 70
  | 16 => 70
  | _ => 80

theorem lineAt_mono : ∀ m ≤ 17, ∀ n ≤ 17, m ≤ n → lineAt m ≤ lineAt n := by decide

theorem eventOrder_le (c : Instr) : eventOrder c ≤ 17 := by
  cases c with
  | hostMemoryFault ch o => cases ch <;> simp [eventOrder]
  | babble a => cases h : a.seg <;> simp [eventOrder, lineOrder, h]
  | biasChange g l => cases g <;> simp [eventOrder, lineOrder]
  | wakeRequest g a => cases g <;> simp [eventOrder, lineOrder]
  | _ => simp [eventOrder]

/-- A row that the table names stands at the place of its line. -/
theorem lineAt_of_lineOfTable {c : Instr} {a : Nat} (named : lineOfTable c = some a) : lineAt (eventOrder c) = a := by
  cases c with
  | hostMemoryFault ch o => cases ch <;> exact Option.some.inj named
  | babble b => cases h : b.seg <;> simp_all [eventOrder, lineOrder, lineOfTable, lineAt]
  | biasChange g l => cases g <;> exact Option.some.inj named
  | wakeRequest g b => cases g <;> exact Option.some.inj named
  | beaconEnd | periodicOpenReached | requestSent | replyBegun | sealCompletion | restartActions | exchangeStart
  | consumeRecord | skipStep => exact nomatch named
  | _ => exact Option.some.inj named

/-- The register accesses are the rows of place 0 (R4). -/
theorem lineOfTable_zero (c : Instr) : lineOfTable c = some 0 ↔ eventOrder c = 0 := by
  cases c with
  | hostMemoryFault ch o => cases ch <;> simp [lineOfTable, eventOrder]
  | babble b => cases h : b.seg <;> simp [lineOfTable, eventOrder, lineOrder, h]
  | biasChange g l => cases g <;> simp [lineOfTable, eventOrder, lineOrder]
  | wakeRequest g b => cases g <;> simp [lineOfTable, eventOrder, lineOrder]
  | _ => simp [lineOfTable, eventOrder]

/-- The register accesses and the hard resets of a line of their own are what a hard reset leaves (R163). -/
theorem survivesReset_eq (c : Instr) :
    survivesReset c = (lineOfTable c == some 0 || lineOfTable c == some 10) := by
  cases c with
  | hostMemoryFault ch o => cases ch <;> rfl
  | babble b => cases h : b.seg <;> simp [survivesReset, lineOfTable, eventOrder, lineOrder, h]
  | biasChange g l => cases g <;> rfl
  | wakeRequest g b => cases g <;> rfl
  | _ => rfl

theorem isCycleStart_eq (c : Instr) : isCycleStart c = (lineOfTable c == some 40) := by
  cases c with
  | hostMemoryFault ch o => cases ch <;> rfl
  | babble b => cases h : b.seg <;> simp [isCycleStart, lineOfTable, h]
  | biasChange g l => cases g <;> rfl
  | wakeRequest g b => cases g <;> rfl
  | _ => rfl

theorem writesReset_iff (off : BitVec 9) (w : Width) (v : BitVec 64) : writesReset off w v = true ↔ resetsBy off w v := by
  cases w <;> simp [writesReset, resetsBy]

theorem resets_iff (c : Instr) : resets c = true ↔ hardResets c := by
  cases c with
  | registerWrite off w v => simp [resets, hardResets, writesReset_iff]
  | _ => simp [resets, hardResets]

/-! ### A wake request due with a cycle start (R42) -/

theorem atCycleStart_order (c : Instr) : eventOrder (atCycleStart c) = eventOrder c := by
  cases c <;> rfl

/-- Only a wake request is marked, and that stands behind the register accesses and the resets. -/
theorem atCycleStart_of_early {c : Instr} (early : eventOrder c ≤ 1) : atCycleStart c = c := by
  cases c with
  | wakeRequest g b => cases g <;> simp [eventOrder, lineOrder] at early
  | _ => rfl

theorem resets_atCycleStart (c : Instr) : resets (atCycleStart c) = resets c := by
  cases c <;> rfl

theorem atCycleStart_eq (c : Instr) : atCycleStart c = dueWith true c := by
  cases c with
  | wakeRequest g b => simp [atCycleStart, dueWith]
  | _ => rfl

theorem dueWith_false (c : Instr) : dueWith false c = c := by
  cases c with
  | wakeRequest g b => simp [dueWith]
  | _ => rfl

/-- A filter that keeps early rows only does not see the mark. -/
theorem filter_atCycleStart {p : Instr → Bool} (early : ∀ c, p c = true → eventOrder c ≤ 1)
    (same : ∀ c, p (atCycleStart c) = p c) (due : List Instr) : (due.map atCycleStart).filter p = due.filter p := by
  induction due with
  | nil => rfl
  | cons c rest ih =>
    rw [List.map_cons, List.filter_cons, List.filter_cons, same c, ih]
    split
    case isTrue kept => rw [atCycleStart_of_early (early c kept)]
    case isFalse => rfl

/-! ### What is taken together -/

/-- The rows due together, the wake requests marked if a cycle start is among them. -/
def marked (due : List Instr) : List Instr := due.map (dueWith (due.any (fun c => lineOfTable c == some 40)))

theorem takenTogether_eq (due : List Instr) :
    takenTogether due = inOrder (if (marked due).any resets then (marked due).filter survivesReset else marked due) := by
  have start : due.any isCycleStart = due.any (fun c => lineOfTable c == some 40) :=
    congrArg due.any (funext isCycleStart_eq)
  have rows : (if due.any isCycleStart then due.map atCycleStart else due) = marked due := by
    unfold marked
    rw [start]
    cases due.any (fun c => lineOfTable c == some 40) with
    | true => exact List.map_congr_left fun c _ => atCycleStart_eq c
    | false => exact ((List.map_congr_left fun c _ => dueWith_false c).trans (List.map_id due)).symm
  unfold takenTogether
  dsimp only
  rw [rows]

theorem filter_marked {p : Instr → Bool} (early : ∀ c, p c = true → eventOrder c ≤ 1)
    (same : ∀ c, p (atCycleStart c) = p c) (due : List Instr) : (marked due).filter p = due.filter p := by
  unfold marked
  cases due.any (fun c => lineOfTable c == some 40) with
  | true => rw [← List.map_congr_left fun c _ => atCycleStart_eq c, filter_atCycleStart early same]
  | false => rw [List.map_congr_left fun c _ => dueWith_false c, List.map_id']

theorem any_marked_resets (due : List Instr) : (marked due).any resets = due.any resets := by
  unfold marked
  cases due.any (fun c => lineOfTable c == some 40) with
  | true =>
    rw [← List.map_congr_left fun c _ => atCycleStart_eq c, List.any_map]
    exact congrArg due.any (funext resets_atCycleStart)
  | false => rw [List.map_congr_left fun c _ => dueWith_false c, List.map_id']

/-- The register accesses join in the order they are given (R4). -/
theorem takenTogether_accesses (due : List Instr) :
    (takenTogether due).filter (fun c => eventOrder c == 0) = due.filter (fun c => eventOrder c == 0) := by
  have accesses : (marked due).filter (fun c => eventOrder c == 0) = due.filter (fun c => eventOrder c == 0) :=
    filter_marked (fun c first => by simp_all) (fun c => by rw [atCycleStart_order]) due
  rw [takenTogether_eq, inOrder_filter]
  split
  · rw [List.filter_filter, ← accesses]
    refine List.filter_congr fun c _ => ?_
    cases h : eventOrder c == 0
    · rfl
    · simp_all [survivesReset]
  · exact accesses

/-- Settles O3: the queue is put in order by places (`inOrder_pairwise`), and the lines of the table follow the places. -/
theorem eventsDueTogetherWaitInOrder : Obligations.EventsDueTogetherWaitInOrder := by
  intro due s
  have access : (fun c => lineOfTable c == some 0) = fun c => eventOrder c == 0 :=
    funext fun c => Bool.eq_iff_iff.2 (by simpa using lineOfTable_zero c)
  have ordered : (takenTogether due).Pairwise (fun c d => eventOrder c ≤ eventOrder d) := by
    rw [takenTogether_eq]
    exact inOrder_pairwise _
  have survivors : (marked due).filter survivesReset = due.filter survivesReset :=
    filter_marked (fun c early => by simpa [survivesReset] using early)
      (fun c => by simp [survivesReset, atCycleStart_order]) due
  refine ⟨takenTogether due, ?_, ordered.imp ?_, ordered.imp ?_, ?_, fun reset => ?_, fun noReset => ?_⟩
  · simp only [State.fallDue, openMoment, List.isEmpty_iff]
    rfl
  · intro c d before a b namedC namedD
    rw [← lineAt_of_lineOfTable namedC, ← lineAt_of_lineOfTable namedD]
    exact lineAt_mono _ (eventOrder_le c) _ (eventOrder_le d) before
  · intro c d before first
    exact (lineOfTable_zero c).2 (Nat.le_zero.1 (before.trans ((lineOfTable_zero d).1 first).le))
  · rw [access]
    exact takenTogether_accesses due
  · have found : (marked due).any resets = true := by
      obtain ⟨c, mem, hard⟩ := reset
      rw [any_marked_resets]
      exact List.any_eq_true.2 ⟨c, mem, (resets_iff c).2 hard⟩
    rw [takenTogether_eq, if_pos found, survivors, ← funext survivesReset_eq]
    exact inOrder_perm _
  · have none : ¬ (marked due).any resets = true := by
      rw [any_marked_resets, List.any_eq_true]
      rintro ⟨c, mem, hard⟩
      exact noReset c mem ((resets_iff c).1 hard)
    rw [takenTogether_eq, if_neg none]
    exact inOrder_perm _

end Sys2Proof.Machine
end

section
/-! SUPPORT. The Bank's bytes (R5, R136), the registers after a reset (R8), and the register window as the rows of its registers
(R1 to R3). -/

namespace Sys2Proof.Machine

/-- A row out of reset does what its operation does (R8). -/
theorem next_unlessHeld {s : State} (out : awake s) (f : State → State) :
    (Host.Outcome.next (unlessHeld f s) : Host.Outcome State Fault Refusal) = .next (f s) :=
  congrArg Host.Outcome.next (unlessHeld_of_awake f out)

/-- While the power-on reset input is asserted such a row does nothing (R8). -/
theorem unlessHeld_of_held {s : State} (f : State → State) (held : s.hport.heldInReset = true) : unlessHeld f s = s :=
  if_pos held

/-! ### Bank writes byte by byte -/

@[simp] theorem locked_writeBankByte (i j : Nat) (b : Byte) (s : State) :
    locked (writeBankByte i b s).dau j = locked s.dau j := by
  unfold writeBankByte
  split <;> rfl

theorem writeBankBytes_changes (i : Nat) (v : BitVec 64) (n : Nat) (s : State) :
    ∃ b d, writeBankBytes i v s n = { s with dau := { s.dau with bank := b, bankWriteDropped := d } } := by
  induction n generalizing i v s with
  | zero => exact ⟨_, _, rfl⟩
  | succ n ih =>
    obtain ⟨b, d, rest⟩ := ih (i + 1) (v >>> 8) (writeBankByte i (v.setWidth 8) s)
    refine ⟨b, d, rest.trans ?_⟩
    unfold writeBankByte
    split <;> rfl

/-- A Bank write changes nothing but bytes and the mark of a dropped one. -/
theorem writeBankBytes_eq (i : Nat) (v : BitVec 64) (n : Nat) (s : State) :
    writeBankBytes i v s n = { s with dau := { s.dau with
      bank := (writeBankBytes i v s n).dau.bank, bankWriteDropped := (writeBankBytes i v s n).dau.bankWriteDropped } } := by
  obtain ⟨b, d, changed⟩ := writeBankBytes_changes i v n s
  rw [changed]

theorem bankByte_writeBankByte {i : Nat} (b : Byte) (s : State) (h : i < 64) (j : Nat) :
    bankByte (writeBankByte i b s) j = if j = i ∧ locked s.dau i = false then b else bankByte s j := by
  by_cases here : j = i
  · subst here
    cases lock : locked s.dau j with
    | false => simp [bankByte_writeBankByte_same b s h lock]
    | true => simp [writeBankByte, lock, bankByte]
  · simp [here, bankByte_writeBankByte_of_ne b s here]

/-- Each byte of a Bank write is stored at its place unless it is locked. -/
theorem bankByte_writeBankBytes (i : Nat) (v : BitVec 64) (n : Nat) (s : State) (fits : i + n ≤ 64) (j : Nat) :
    bankByte (writeBankBytes i v s n) j =
      if i ≤ j ∧ j < i + n ∧ locked s.dau j = false then v.extractLsb' (8 * (j - i)) 8 else bankByte s j := by
  induction n generalizing i v s with
  | zero => simp [writeBankBytes]; omega
  | succ n ih =>
    have byte : v.setWidth 8 = v.extractLsb' (8 * (i - i)) 8 := by ext k; simp
    have later (h : i + 1 ≤ j) : (v >>> 8).extractLsb' (8 * (j - (i + 1))) 8 = v.extractLsb' (8 * (j - i)) 8 := by
      ext k
      simp only [BitVec.getElem_extractLsb', BitVec.getLsbD_ushiftRight]
      congr 1
      omega
    have rest := ih (i + 1) (v >>> 8) (writeBankByte i (v.setWidth 8) s) (by omega)
    rw [bankByte_writeBankByte _ s (by omega), locked_writeBankByte] at rest
    refine rest.trans ?_
    by_cases first : j = i
    · subst first
      simp [byte]
    · by_cases behind : i + 1 ≤ j
      · simp [later behind, first, show i ≤ j by omega, show j < i + 1 + n ↔ j < i + (n + 1) by omega, behind]
      · simp [behind, first, show ¬ i ≤ j by omega]

theorem bankWriteDropped_writeBankByte (i : Nat) (b : Byte) (s : State) :
    (writeBankByte i b s).dau.bankWriteDropped = (s.dau.bankWriteDropped || locked s.dau i) := by
  unfold writeBankByte
  cases lock : locked s.dau i <;> simp

/-- A write of a locked byte, and nothing else, sets bank_write_dropped (R136). -/
theorem bankWriteDropped_writeBankBytes (i : Nat) (v : BitVec 64) (n : Nat) (s : State) :
    (writeBankBytes i v s n).dau.bankWriteDropped = true ↔
      s.dau.bankWriteDropped = true ∨ ∃ j, i ≤ j ∧ j < i + n ∧ locked s.dau j = true := by
  induction n generalizing i v s with
  | zero => simp [writeBankBytes]; omega
  | succ n ih =>
    refine (ih (i + 1) (v >>> 8) _).trans ?_
    rw [bankWriteDropped_writeBankByte, Bool.or_eq_true, or_assoc]
    refine or_congr_right ⟨?_, ?_⟩
    · rintro (lock | ⟨j, low, high, lock⟩)
      · exact ⟨i, le_rfl, by omega, lock⟩
      · exact ⟨j, by omega, by omega, by simpa using lock⟩
    · rintro ⟨j, low, high, lock⟩
      by_cases first : j = i
      · exact .inl (first ▸ lock)
      · exact .inr ⟨j, by omega, by omega, by simpa using lock⟩

/-- Settles O11: an aligned write is its bytes one after the other. -/
theorem bankWriteStoresUnlockedBytes : Obligations.BankWriteStoresUnlockedBytes := by
  intro off v s out
  have row (w : Width) : exec (.bankWrite off w v) s = .next (writeBank off.toNat w v s) := next_unlessHeld out _
  refine ⟨fun w n shape fits => ⟨writeBankBytes off.toNat v s n, ?_, fun i _ => bankByte_writeBankBytes _ v n s fits i,
    bankWriteDropped_writeBankBytes _ v n s, writeBankBytes_eq _ v n s⟩, fun odd => ?_, fun odd => ⟨?_, ?_⟩⟩
  · rw [row]
    obtain ⟨rfl, rfl⟩ | ⟨rfl, rfl, even⟩ | ⟨rfl, rfl, even⟩ | ⟨rfl, rfl, even⟩ := shape
    · rfl
    all_goals exact congrArg _ (if_pos even)
  all_goals exact (row _).trans (congrArg _ (if_neg odd))

/-! ### A Bank write in parts -/

/-- A write of `n` bytes looks at the `n` low bytes of its value. -/
theorem writeBankBytes_of_low (n : Nat) {v u : BitVec 64} (same : ∀ k < 8 * n, v.getLsbD k = u.getLsbD k) (i : Nat)
    (s : State) : writeBankBytes i v s n = writeBankBytes i u s n := by
  induction n generalizing i v u s with
  | zero => rfl
  | succ n ih =>
    have byte : v.setWidth 8 = u.setWidth 8 := by
      ext k hk
      simpa using same k (by omega)
    unfold writeBankBytes
    rw [byte]
    refine ih (fun k hk => ?_) (i + 1) _
    simpa using same (8 + k) (by omega)

theorem writeBankBytes_add (i : Nat) (v : BitVec 64) (s : State) (m n : Nat) :
    writeBankBytes i v s (m + n) = writeBankBytes (i + m) (v >>> (8 * m)) (writeBankBytes i v s m) n := by
  induction m generalizing i v s with
  | zero => simp [writeBankBytes]
  | succ m ih =>
    rw [show m + 1 + n = m + n + 1 by omega]
    refine (ih (i + 1) (v >>> 8) _).trans ?_
    rw [show i + 1 + m = i + (m + 1) by omega, ← BitVec.shiftRight_add, show 8 + 8 * m = 8 * (m + 1) by omega]
    rfl

end Sys2Proof.Machine
end

section
/-! SUPPORT. What a reset leaves, the register window as the rows of its registers (R1 to R3, R8), and one tick (R49). -/

namespace Sys2Proof.Machine

/-! ### Reset -/

/-- While the power-on reset input is asserted every row but the input's own leaves the state, or returns the 0 of a read. -/
theorem after_of_held {s : State} (held : s.hport.heldInReset = true) (c : Instr) (asserts : c ≠ .powerOnResetAsserted)
    (releases : ∀ a b, c ≠ .powerOnReset a b) : after c s = s ∨ after c s = heldRead s := by
  have read {f : State → State} : (if s.hport.heldInReset then heldRead s else f s) = heldRead s := if_pos held
  cases c with
  | powerOnResetAsserted => exact absurd rfl asserts
  | powerOnReset a b => exact absurd rfl (releases a b)
  | segStatusRead g => exact .inr (read (f := readSegStatus g))
  | attnPop => exact .inr (read (f := popAttn))
  | directDonePop => exact .inr (read (f := popDone))
  | _ => exact .inl (unlessHeld_of_held _ held)

/-- Settles O5: the resets all leave `hardReset`, and a held controller answers by `after_of_held`. -/
theorem resetClearsAndHoldsEverything : Obligations.ResetClearsAndHoldsEverything := by
  refine ⟨fun a b s => ⟨rfl, fun out => next_unlessHeld out (hardReset a b), fun v out bit => ?_⟩, fun s => ?_, ?_⟩
  · have global : registerWrite 0x004 .word v s = hardReset s.segA.biasPin s.segB.biasPin s := if_pos (by simpa [bitAt] using bit)
    calc exec (.registerWrite 0x004 .word v) s = .next (registerWrite 0x004 .word v s) := next_unlessHeld out _
      _ = .next (hardReset s.segA.biasPin s.segB.biasPin s) := by rw [global]
      _ = exec (.hardReset s.segA.biasPin s.segB.biasPin) s := (next_unlessHeld out _).symm
  · exact ⟨assertReset s, rfl, rfl, fun off => by simp [readWord, assertReset],
      by simp [irqLine, irqActive, assertReset, hardReset, State.afterReset], rfl, rfl, rfl, rfl⟩
  · intro c s held asserts releases
    rw [exec_eq_after]
    exact (after_of_held held c asserts releases).imp (congrArg _) (congrArg _)

theorem getEntry_hardReset (a b : Bool) (s : State) (i : EntryIx) : getEntry (hardReset a b s) i = Entry.null := by
  simp [getEntry, hardReset, State.afterReset]

theorem bankByte_hardReset (a b : Bool) (s : State) (i : Nat) : bankByte (hardReset a b s) i = 0 := by
  simp only [bankByte, hardReset, State.afterReset, Vector.toList_replicate]
  rw [List.getD_eq_getElem?_getD, List.getElem?_replicate]
  split <;> rfl

/-- Settles O6: each register's field of the reset state. -/
theorem registersAfterHardReset : Obligations.RegistersAfterHardReset := by
  intro a b s t out ran
  obtain rfl := Host.Outcome.next.inj ((next_unlessHeld out (hardReset a b)).symm.trans ran)
  have reads {off : Nat} {w : Bool → Bool → Word} (all : ∀ a b, readWord (State.afterReset a b) off = w a b) :
      readWord (hardReset a b s) off = w a b := all a b
  have fixed {off : Nat} {w : Word} (all : ∀ a b, readWord (State.afterReset a b) off = w) :
      readWord (hardReset a b s) off = w := all a b
  refine ⟨fixed (by decide), fixed (by decide), fixed (by decide), fixed (by decide),
    reads (w := fun a _ => if a then 0x10 else 0) (by decide), reads (w := fun _ b => if b then 0x10 else 0) (by decide),
    fixed (by decide), fixed (by decide), fixed (by decide), fixed (by decide), fixed (by decide), fixed (by decide), ?_,
    fixed (by decide), fun i _ => bankByte_hardReset a b s i, getEntry_hardReset a b s,
    by simp [irqLine, irqActive, hardReset, State.afterReset], rfl, rfl⟩
  intro off mem
  have zero : ∀ a b, ∀ off ∈ [0x040, 0x044, 0x048, 0x04C, 0x050, 0x058, 0x05C, 0x060, 0x064, 0x068, 0x06C, 0x070, 0x080,
      0x084, 0x088, 0x090, 0x094, 0x098, 0x09C, 0x0A0, 0x0A4, 0x0A8, 0x0B0, 0x0B4, 0x0B8, 0x0BC, 0x0C0],
      readWord (State.afterReset a b) off = 0 := by decide
  exact zero a b off mem

/-- Settles O58: every part of the invariant reads a field of the reset state. -/
theorem resetHasInv : Obligations.ResetHasInv := by
  have null (i : EntryIx) : getEntry State.reset i = Entry.null := getEntry_hardReset false false State.reset i
  refine ⟨⟨null 0, fun i granted => ?_, fun i fence => ?_, by unfold queueFits; decide, by unfold attentionFits; decide,
    by unfold levelBitsFree; decide, ⟨by decide, by decide, fun x on => by cases on⟩, by unfold reasonsShown; decide, by unfold busyHolds; decide,
    by unfold quarantineFits; decide, by unfold quarantineFits; decide, fun x on => by cases on⟩, (afterReset_idle false false State.reset).quiet,
    rfl⟩
  · rw [null i] at granted
    exact nomatch granted
  · rw [null i] at fence
    exact nomatch fence

/-! ### The write map -/

/-- A 32-bit write at a register's offset is the row of that register, out of reset or held. -/
theorem exec_registerWrite_word {off : BitVec 9} {f : State → State} (v : BitVec 64) (s : State)
    (same : writeWord off.toNat (v.setWidth 32) s = f s) :
    exec (.registerWrite off .word v) s = .next (unlessHeld f s) := by
  show Host.Outcome.next (unlessHeld (registerWrite off.toNat .word v) s) = _
  unfold unlessHeld
  rw [← same]
  rfl

/-- A 32-bit write where the write map holds no row, or misaligned, is ignored (R1, R2). -/
theorem writeWord_of_unmapped {off : Nat} (v : Word) (s : State)
    (unmapped : off % 4 ≠ 0 ∨ (inBank off = false ∧ writeRegister off v s = s)) : writeWord off v s = s := by
  unfold writeWord
  obtain odd | ⟨outside, none⟩ := unmapped
  · exact if_pos odd
  · rw [outside, none]
    split <;> rfl

theorem writeRegister_of_high {off : Nat} (high : 0x0C0 < off) (v : Word) (s : State) : writeRegister off v s = s := by
  unfold writeRegister
  split <;> first | rfl | exact absurd high (by decide)

/-- Settles O8: none of these writes finds a row in the write map. -/
theorem unwritableOffsetsKeepEverything : Obligations.UnwritableOffsetsKeepEverything := by
  intro off v s out
  have word (kept : writeWord off.toNat (v.setWidth 32) s = s) : exec (.registerWrite off .word v) s = .next s :=
    (next_unlessHeld out _).trans (congrArg _ kept)
  have narrow (w : Width) (kept : registerWrite off.toNat w v s = s) : exec (.registerWrite off w v) s = .next s :=
    (next_unlessHeld out _).trans (congrArg _ kept)
  refine ⟨fun outside => ⟨narrow .byte ?_, narrow .half ?_⟩, fun odd => word (writeWord_of_unmapped _ s (.inl odd)),
    fun mem => word (writeWord_of_unmapped _ s (.inr ?_)), fun low high => word (writeWord_of_unmapped _ s (.inr ⟨?_, ?_⟩)),
    fun high => word (writeWord_of_unmapped _ s (.inr ⟨?_, ?_⟩))⟩
  · simp [registerWrite, outside]
  · simp [registerWrite, outside]
  · generalize off.toNat = n at mem
    simp only [List.mem_cons, List.not_mem_nil, or_false] at mem
    rcases mem with rfl | rfl | rfl | rfl | rfl | rfl | rfl | rfl | rfl | rfl | rfl | rfl | rfl | rfl | rfl | rfl | rfl |
      rfl | rfl | rfl | rfl | rfl | rfl | rfl <;> exact ⟨rfl, rfl⟩
  · simp [inBank]; omega
  · exact writeRegister_of_high (by omega) _ s
  · simp [inBank]; omega
  · exact writeRegister_of_high (by omega) _ s

theorem extractLsb'_setWidth_low (v : BitVec 64) (n : Nat) (fits : n ≤ 32) :
    field (v.setWidth 32) 0 n = v.extractLsb' 0 n := by
  ext k hk
  simp [field]
  omega

theorem get_writeAnchor {α : Type} (v : Vector α 4) (c d : RingClass) (x : α) :
    (v.set (classIx c).val x (classIx c).isLt).get (classIx d) = if d = c then x else v.get (classIx d) := by
  have place : classIx c = classIx d ↔ d = c := by cases c <;> cases d <;> decide
  rw [Vector.get_eq_getElem, Vector.getElem_set, Vector.get_eq_getElem]
  simp only [← Fin.ext_iff, place]

/-- Settles O9: the write map's entry of each register. -/
theorem plainRegisterWrites : Obligations.PlainRegisterWrites := by
  intro v s out
  have wr {off : BitVec 9} {t : State} (same : registerWrite off.toNat .word v s = t) :
      exec (.registerWrite off .word v) s = .next t := (next_unlessHeld out _).trans (congrArg _ same)
  refine ⟨wr ?_, wr ?_, wr ?_, wr ?_, fun bit => wr ?_, fun n => ⟨fun ready => ?_, fun other => ?_⟩, fun c a => ?_⟩
  · rw [← extractLsb'_setWidth_low v 13 (by decide)]; rfl
  · rw [← extractLsb'_setWidth_low v 10 (by decide)]; rfl
  · rw [← extractLsb'_setWidth_low v 6 (by decide)]; rfl
  · rw [← extractLsb'_setWidth_low v 16 (by decide)]; rfl
  · have low : bitAt (v.setWidth 32) 0 = false := by simpa [bitAt] using bit
    have fill : bitAt (v.setWidth 32) 1 = v.getLsbD 1 := by simp [bitAt]
    show writeGlobalCtl (v.setWidth 32) s = _
    unfold writeGlobalCtl
    rw [low, fill]
    rfl
  · exact (next_unlessHeld out (writeCycleNumber n)).trans (congrArg _ (if_pos ready))
  · exact (next_unlessHeld out (writeCycleNumber n)).trans (congrArg _ (if_neg other))
  · refine ⟨writeAnchor c a s, next_unlessHeld out _, rfl, fun d => ⟨get_writeAnchor _ c d _, ?_⟩⟩
    refine (get_writeAnchor _ c d true).trans ?_
    by_cases h : d = c <;> simp [h]

end Sys2Proof.Machine
end

section
/-! SUPPORT. What the accesses on the host bus leave of the Host Port: GLOBAL_CTL.fill and the power-on reset input (R7, R8). -/

namespace Sys2Proof.Machine

/-- The register of the Host Port and the power-on reset input are the same. -/
structure SamePort (s t : State) : Prop where
  fill : t.hport.fill = s.hport.fill
  held : t.hport.heldInReset = s.hport.heldInReset

theorem SamePort.refl (s : State) : SamePort s s := ⟨rfl, rfl⟩

theorem SamePort.trans {s t u : State} (h : SamePort s t) (k : SamePort t u) : SamePort s u :=
  ⟨k.fill.trans h.fill, k.held.trans h.held⟩

theorem SamePort.of_hport {s t : State} (h : t.hport = s.hport) : SamePort s t := by
  constructor <;> rw [h]

theorem SamePort.behind {s t u : State} (h : SamePort t u) (port : t.hport = s.hport) : SamePort s u :=
  (of_hport port).trans h

theorem SamePort.of_only {bs : List Block} {s t : State} (f : OnlyChanges bs s t) (n : Block.hport ∉ bs) : SamePort s t :=
  .of_hport (f .hport n)

theorem SamePort.awake {s t : State} (h : SamePort s t) (out : awake s) : awake t := h.held.trans out

/-! ### The queue and the ends of a turn -/

theorem drainStep_port (len : Nat) (i : EntryIx) (c : RingClass) (cycle : BitVec 16) (x : Bool) (s : State) :
    SamePort s (drainStep len i c cycle x s) := by
  unfold drainStep
  split
  · split <;> exact ⟨rfl, rfl⟩
  · split <;> exact ⟨rfl, rfl⟩
  · split
    · exact .refl s
    · dsimp only
      split <;> exact ⟨rfl, rfl⟩
  · split <;> exact ⟨rfl, rfl⟩
  · exact .refl s

theorem pumpQueue_port (s : State) : SamePort s (pumpQueue s) := by
  unfold pumpQueue
  split
  · split
    · exact .refl s
    · exact drainStep_port _ _ _ _ _ s
    · split <;> exact ⟨rfl, rfl⟩
  · exact .refl s

theorem endTurn_port (t : Turn) (stop : Option Cause) (s : State) : SamePort s (endTurn t stop s) :=
  .of_only (endTurn_only t stop s) (by decide)

theorem abandonDecision_port (s : State) : SamePort s (abandonDecision s) := by
  have given : SamePort s (cancelReads decisionReader (setLook .nothing s)) := ⟨rfl, rfl⟩
  unfold abandonDecision
  dsimp only
  split
  · exact given
  · split
    · exact given.trans (endTurn_port _ none _)
    · exact given.trans (endTurn_port _ none _)
    · exact ⟨rfl, rfl⟩
  · exact ⟨rfl, rfl⟩

theorem setCtrl_port (c : CtrlState) (s : State) : SamePort s (setCtrl c s) := by
  unfold setCtrl
  split
  · exact .refl s
  · dsimp only
    split
    · exact ⟨rfl, rfl⟩
    · exact (abandonDecision_port _).behind rfl

theorem fallIfLast_port (wasLive : Bool) (s : State) : SamePort s (fallIfLast wasLive s) := by
  unfold fallIfLast
  split
  · exact setCtrl_port .ready s
  · exact .refl s

/-- What an exchange that ends CUT does of the host bus is to give up the fetches of its turn and to end it. -/
theorem ringOutcome_cut_port (x : Exchange) (halts : Bool) (s : State) : SamePort s (ringOutcome x .cut halts s) := by
  unfold ringOutcome
  split
  · dsimp only
    split
    · exact .of_hport rfl
    · exact endTurn_port _ none s
  · exact .refl s

theorem finish_cut_port (x : Exchange) (s : State) : SamePort s (finish .cut x s) := by
  have entry : SamePort s (outcomeEntry x .cut s) := .of_only (outcomeEntry_only x .cut s) (by decide)
  have fifo (u : State) : SamePort u (outcomeFifo x .cut u) := by
    unfold outcomeFifo
    split
    · exact .of_hport rfl
    · split
      · exact .of_hport rfl
      · exact .refl u
    · exact .refl u
  have logged (halts : Bool) (u : State) : SamePort u (outcomeLog x .cut halts u) := by
    unfold outcomeLog
    dsimp only
    split
    · exact .of_only (offerBus_only _ _ _ _) (by cases x.segment <;> decide)
    · exact .refl u
  have cleared (u : State) : SamePort u { cutStaging .cut u with xeng := none } := ⟨rfl, rfl⟩
  have handed (halts : Bool) (u : State) : SamePort u (handOver x .cut halts u) := by
    unfold handOver
    split
    · exact .of_only ((directOutcome_only .cut x.data u).then (wakeWalker_only _) (ds := [.dau, .walk]) (by decide) (by decide))
        (by decide)
    · exact ringOutcome_cut_port x halts u
  exact ((((entry.trans (fifo _)).trans (logged _ _)).trans (cleared _)).trans (handed _ _)).trans
    (.of_only (grantFence_only _ _) (by decide))

/-! ### Segment operations -/

theorem cutOn_port (g : Seg) (s : State) : SamePort s (cutOn g s) := by
  unfold cutOn
  split
  · split
    · exact finish_cut_port _ s
    · exact .refl s
  · exact .refl s

theorem setSeg_port (g : Seg) (c : Segment) (s : State) : SamePort s (setSeg g c s) := by
  cases g <;> exact ⟨rfl, rfl⟩

theorem setMode_port (g : Seg) (m : SegMode) (s : State) : SamePort s (setMode g m s) := by
  cases g <;> exact ⟨rfl, rfl⟩

theorem silenceSegment_port (g : Seg) (s : State) : SamePort s (silenceSegment g s) :=
  (cutOn_port g s).trans (.of_only (stopDriving_only g _) (by cases g <;> decide))

theorem fallIfLast_pump_port (wasLive : Bool) (s : State) : SamePort s (pumpQueue (fallIfLast wasLive s)) :=
  (fallIfLast_port wasLive s).trans (pumpQueue_port _)

theorem ignoreOp_port (g : Seg) (s : State) : SamePort s (ignoreOp g s) :=
  .of_only (ignoreOp_only g s) (by cases g <;> decide)

/-- A segment operation (2.2) leaves the Host Port's register and the reset input alone. -/
theorem offerOp_port (op : BitVec 3) (g : Seg) (s : State) : SamePort s (offerOp op g s) := by
  have taken {p : Prop} [Decidable p] {t : State} (h : SamePort s t) : SamePort s (if p then t else ignoreOp g s) := by
    split
    · exact h
    · exact ignoreOp_port g s
  unfold offerOp
  split
  · exact taken (setMode_port g _ s)
  · exact taken ((((silenceSegment_port g s).trans (setMode_port g .resetting _)).trans
      (.of_only (mapEntries_only _ _) (by decide))).trans (fallIfLast_pump_port _ _))
  · unfold segDisable
    split
    · exact .refl s
    · exact (((silenceSegment_port g s).trans (setSeg_port g _ _)).trans (setMode_port g .dark _)).trans
        (fallIfLast_pump_port _ _)
  · exact taken (setMode_port g _ s)
  · exact taken (setMode_port g _ s)
  · exact taken ((setSeg_port g _ s).trans (.of_hport rfl))
  · exact .refl s

/-! ### Register writes -/

/-- A 32-bit write out of reset leaves the reset input alone. -/
theorem writeWord_awake (off : Nat) (v : Word) {s : State} (out : awake s) : awake (writeWord off v s) := by
  have only {bs : List Block} {t : State} (f : OnlyChanges bs s t) (n : Block.hport ∉ bs) : awake t :=
    (SamePort.of_only f n).awake out
  unfold writeWord
  split
  · exact out
  split
  · exact only (writeBank_only _ _ _ s) (by decide)
  unfold writeRegister
  split
  case h_1 =>
    unfold writeGlobalCtl
    split
    · rfl
    · exact out
  case h_2 =>
    unfold writeSeqCmd
    split <;> exact out
  case h_4 => exact only (writeSegCfg_only v s) (by decide)
  case h_5 =>
    unfold writeCycleLen
    split <;> exact out
  case h_6 =>
    unfold writeCycleNumber
    split <;> exact out
  case h_13 => exact only (writeRxBase_only v s) (by decide)
  case h_14 => exact only (writeRxSize_only v s) (by decide)
  case h_15 =>
    unfold writeRxReturn
    split
    · exact (pumpQueue_port _).awake out
    · exact out
  case h_17 => exact only (writeEntryW0_only v s) (by decide)
  case h_18 => exact only (writeEntryW1_only v s) (by decide)
  case h_19 =>
    unfold writeAttnStatus
    split <;> exact out
  case h_21 => exact only (directRequest_only _ _ _ _ s) (by decide)
  all_goals exact out

end Sys2Proof.Machine
end

section
/-! SUPPORT. The register window as the rows of its registers (R1 to R3), the registers of the Sequencer, the Direct Access Unit, the
interrupts and the logs, and one tick (R49). -/

namespace Sys2Proof.Machine

/-! ### The write map -/

/-- A 32-bit write at a register's offset is the row of that register. -/
theorem exec_registerWrite_of_map {off : BitVec 9} {f : State → State} (v : Word) (s : State)
    (map : writeWord off.toNat v s = f s) :
    exec (.registerWrite off .word (v.setWidth 64)) s = .next (unlessHeld f s) := by
  refine exec_registerWrite_word (v.setWidth 64) s ?_
  rwa [BitVec.setWidth_setWidth_of_le v (by decide), BitVec.setWidth_eq]

/-- DIRECT_REQ holds the fields of a request of its kind (9.2). -/
theorem exec_directReq (v : Word) (s : State) : exec (.registerWrite 0x094 .word (v.setWidth 64)) s =
    exec (if v.getLsbD 0 then .pokeRequest (v.extractLsb' 4 6) (v.extractLsb' 16 6) (v.extractLsb' 24 4)
      else .peekRequest (v.extractLsb' 4 6) (v.extractLsb' 16 6) (v.extractLsb' 24 4)) s := by
  refine (exec_registerWrite_of_map (f := writeDirectReq v) v s rfl).trans ?_
  have fields : writeDirectReq v =
      directRequest (v.getLsbD 0) (v.extractLsb' 4 6) (v.extractLsb' 16 6) (v.extractLsb' 24 4) := rfl
  rw [fields]
  cases v.getLsbD 0 <;> rfl

/-- A wipe bit that is set already is not set again (R154). -/
theorem or_bit_of_set (v m : Word) (set : ∀ k < 32, m.getLsbD k = true → v.getLsbD k = true) : v ||| m = v := by
  ext k hk
  have := set k hk
  rw [BitVec.getElem_or]
  cases bit : m[k]
  · simp
  · simpa [BitVec.getLsbD_eq_getElem hk, bit] using this

/-- A wide write is its two halves, the first taken whole before the second. -/
theorem exec_registerWrite_dword (off : BitVec 9) (v : BitVec 64) (s : State) (fits : off.toNat + 4 < 512) :
    exec (.registerWrite off .dword v) s =
      exec (.registerWrite (off + 4) .word (v >>> 32)) (after (.registerWrite off .word v) s) := by
  have next : (off + 4).toNat = off.toNat + 4 := by
    rw [BitVec.toNat_add]
    exact Nat.mod_eq_of_lt fits
  show Host.Outcome.next (unlessHeld (registerWrite off.toNat .dword v) s) =
    .next (unlessHeld (registerWrite (off + 4).toNat .word (v >>> 32)) (unlessHeld (registerWrite off.toNat .word v) s))
  rw [next]
  by_cases held : s.hport.heldInReset = true
  · rw [unlessHeld_of_held _ held, unlessHeld_of_held _ held, unlessHeld_of_held _ held]
  · have out : awake s := by simpa using held
    rw [unlessHeld_of_awake _ out, unlessHeld_of_awake _ out]
    rw [unlessHeld_of_awake (registerWrite (off.toNat + 4) .word (v >>> 32)) 
      (show awake (registerWrite off.toNat .word v s) from writeWord_awake off.toNat _ out)]
    rfl

/-- The low word of a value holds its low bits. -/
theorem getLsbD_low_word (x : BitVec 64) (k : Nat) (low : k < 32) :
    ((x.setWidth 32).setWidth 64).getLsbD k = x.getLsbD k := by
  rw [BitVec.getLsbD_setWidth, BitVec.getLsbD_setWidth]
  simp [low, show k < 64 by omega]

/-- A write of any width in the Bank's window is the Bank's own row (R5). -/
theorem registerWrite_bank (off : BitVec 6) (w : Width) (x : BitVec 64) (s : State)
    (fits : w ≠ .dword ∨ off.toNat + 8 ≤ 64) :
    registerWrite (0x100 + off.setWidth 9 : BitVec 9).toNat w x s = writeBank off.toNat w x s := by
  have place : (0x100 + off.setWidth 9 : BitVec 9).toNat = 0x100 + off.toNat := by
    rw [BitVec.toNat_add, BitVec.toNat_setWidth]
    simp
    omega
  have bound := off.isLt
  have window (n : Nat) (low : n < 64) : inBank (0x100 + n) = true := by simp [inBank]; omega
  have back : 0x100 + off.toNat - 0x100 = off.toNat := by omega
  have inside : inBank (0x100 + off.toNat) = true := window _ bound
  have part (n : Nat) (even : n % 4 = 0) (low : n < 64) (y : Word) (u : State) :
      writeWord (0x100 + n) y u = writeBankBytes n (y.setWidth 64) u 4 := by
    unfold writeWord
    rw [if_neg (by omega), if_pos (window n low), show 0x100 + n - 0x100 = n from Nat.add_sub_cancel_left _ _]
    exact if_pos even
  have skipped (n : Nat) (odd : n % 4 ≠ 0) (y : Word) (u : State) : writeWord (0x100 + n) y u = u := by
    unfold writeWord
    rw [if_pos (by omega)]
  rw [place]
  cases w with
  | byte =>
    show (if inBank (0x100 + off.toNat) then writeBank (0x100 + off.toNat - 0x100) .byte x s else s) = _
    rw [if_pos inside, back]
  | half =>
    show (if inBank (0x100 + off.toNat) then writeBank (0x100 + off.toNat - 0x100) .half x s else s) = _
    rw [if_pos inside, back]
  | word =>
    show writeWord (0x100 + off.toNat) (x.setWidth 32) s = if off.toNat % 4 = 0 then writeBankBytes off.toNat x s 4 else s
    split
    case isTrue even =>
      rw [part _ even bound]
      exact writeBankBytes_of_low 4 (fun k hk => getLsbD_low_word x k (by omega)) _ s
    case isFalse odd => exact skipped _ odd _ s
  | dword =>
    have upper : off.toNat + 8 ≤ 64 := fits.resolve_left (fun h => h rfl)
    show writeWord (0x100 + off.toNat + 4) _ (writeWord (0x100 + off.toNat) (x.setWidth 32) s) =
      if off.toNat % 4 = 0 then writeBankBytes off.toNat x s (4 + 4) else s
    rw [Nat.add_assoc]
    split
    case isTrue even =>
      rw [part _ even bound, part _ (by omega) (by omega), writeBankBytes_add off.toNat x s 4 4,
        writeBankBytes_of_low 4 (v := (x.setWidth 32).setWidth 64) (u := x)
          (fun k hk => getLsbD_low_word x k (by omega)) _ s]
      exact writeBankBytes_of_low 4 (fun k hk => getLsbD_low_word (x >>> 32) k (by omega)) _ _
    case isFalse odd => rw [skipped _ odd, skipped _ (by omega)]

theorem wordRead_of_plain {off : Nat} (plain : off ∉ [0x010, 0x014, 0x080, 0x09C]) (s : State) :
    wordRead off s = (readWord s off, s) := by
  have none : readEffect off s = s := by
    unfold readEffect
    split <;> simp_all
  unfold wordRead unlessHeld
  rw [none]
  split <;> rfl

/-- The two words of a wide read, the second above the first. -/
theorem append_eq_shift_or (high low_word : Word) :
    high ++ low_word = (high.setWidth 64) <<< 32 ||| low_word.setWidth 64 := by
  refine BitVec.eq_of_getLsbD_eq fun i hi => ?_
  rw [BitVec.getLsbD_append, BitVec.getLsbD_or, BitVec.getLsbD_shiftLeft, BitVec.getLsbD_setWidth, BitVec.getLsbD_setWidth]
  by_cases low : i < 32
  · simp [low, hi]
  · simp [low, hi, BitVec.getLsbD_of_ge low_word i (by omega), show i - 32 < 64 by omega]

/-- Settles O10: each offset of the write map names its row's operation, and a wide access is taken in two parts. -/
theorem registerWriteIsItsRow : Obligations.RegisterWriteIsItsRow := by
  intro v s wr
  have row {off : BitVec 9} {c : Instr} {f : State → State} (is : exec c s = .next (unlessHeld f s))
      (map : writeWord off.toNat v s = f s) : wr off c := (exec_registerWrite_of_map v s map).trans is.symm
  have wiped {m : Word} {k : Nat} (bit : v.getLsbD k = true) (one : ∀ j < 32, m.getLsbD j = true → j = k) : v ||| m = v :=
    or_bit_of_set v m fun j hj set => one j hj set ▸ bit
  refine ⟨row rfl rfl, row rfl rfl, row rfl rfl, row rfl rfl, row rfl rfl, row rfl rfl, row rfl rfl, row rfl rfl,
    row rfl rfl, row rfl rfl, row rfl rfl, row rfl rfl, row rfl rfl, row rfl rfl, row rfl rfl, row rfl rfl, row rfl rfl,
    row rfl rfl, exec_directReq v s, fun bit => row rfl ?_, fun bit => row rfl ?_,
    fun off wide fits => exec_registerWrite_dword off wide s fits, fun off w x fits => ?_, fun out => ?_,
    fun off plain => ?_, fun off odd => ?_, fun off => ?_⟩
  · rw [wiped bit (by decide)]
    rfl
  · rw [wiped bit (by decide)]
    rfl
  · show Host.Outcome.next (unlessHeld _ s) = .next (unlessHeld _ s)
    unfold unlessHeld
    rw [registerWrite_bank off w x s fits]
  · have popped {off : Nat} {c : Instr} {f : State → State} (is : after c s = if s.hport.heldInReset then heldRead s else f s)
        (effect : readEffect off s = f s) : registerRead off .word s = ((readWord s off).setWidth 64, after c s) := by
      show ((wordRead off s).1.setWidth 64, (wordRead off s).2) = _
      unfold wordRead
      rw [unlessHeld_of_awake _ out, is, effect, if_neg (by simp [out])]
    exact ⟨popped rfl rfl, popped rfl rfl, popped rfl rfl, popped rfl rfl⟩
  · show ((wordRead off s).1.setWidth 64, (wordRead off s).2) = _
    rw [wordRead_of_plain plain]
  · simp [readWord, odd]
  · exact Prod.ext (append_eq_shift_or _ _) rfl

/-! ### Registers of one bit field each -/

/-- Settles O12: `writeSeqCmd` by its one test. -/
theorem seqCmdWriteRecordsOrRefuses : Obligations.SeqCmdWriteRecordsOrRefuses := by
  intro v s out
  have row : exec (.seqCmdWrite v) s = .next (writeSeqCmd v s) := next_unlessHeld out _
  refine ⟨fun idle => row.trans (congrArg _ ?_), fun busy => row.trans (congrArg _ ?_)⟩
  · simp [writeSeqCmd, idle]
  · simp [writeSeqCmd, busy, recordRefusal, setEdge, irqSeq]

/-- Settles O57: each log's part of LOG_CTL is judged apart. -/
theorem wipesNeedAPermit : Obligations.WipesNeedAPermit := by
  intro v s out bus host
  have busEq (w : Bool) : busCtl (v.getLsbD 0) w s.elog = bus w s.elog := by simp [busCtl, bus]
  have kept (w : Bool) : (bus w s.elog).hostPermit = s.elog.hostPermit := by
    simp only [bus]
    split <;> rfl
  have hostEq (w u : Bool) : hostCtl (v.getLsbD 4) u (bus w s.elog) = host u (bus w s.elog) := by
    simp [hostCtl, host, kept]
  have written (x : Word) (permit : x.getLsbD 0 = v.getLsbD 0 ∧ x.getLsbD 4 = v.getLsbD 4) :
      writeLogCtl x s = { s with elog := host (x.getLsbD 5) (bus (x.getLsbD 1) s.elog) } := by
    rw [← hostEq, ← busEq, ← permit.1, ← permit.2]
    rfl
  refine ⟨(next_unlessHeld out (writeLogCtl (v ||| 0x02#32))).trans (congrArg _ ?_),
    (next_unlessHeld out (writeLogCtl (v ||| 0x20#32))).trans (congrArg _ ?_),
    (exec_registerWrite_of_map v s rfl).trans ((next_unlessHeld out (writeLogCtl v)).trans (congrArg _ (written v ⟨rfl, rfl⟩)))⟩
  · rw [written _ (by simp)]
    simp
  · rw [written _ (by simp)]
    simp

/-- The level bits beside the edges (R149). -/
theorem irqPending_getLsbD (s : State) (n : Nat) : (irqPending s).getLsbD n =
    (s.aiu.edges.getLsbD n || (decide (n = 1) && !s.aiu.queue.isEmpty) || (decide (n = 9) && !s.dau.done.isEmpty)) := by
  have flag (b : Bool) (lo : Nat) (low : lo < 11) : (placeFlag b lo).getLsbD n = (decide (n = lo) && b) := by
    have word : n = lo → n < 32 := by omega
    by_cases here : n = lo
    · subst here
      cases b <;> simp [placeFlag, place, flagBit, word rfl]
    · by_cases above : lo < n
      · simp [placeFlag, place, here, BitVec.getLsbD_of_ge (flagBit b) (n - lo) (by omega)]
      · simp [placeFlag, place, here, show n < lo by omega]
  unfold irqPending
  rw [BitVec.getLsbD_or, BitVec.getLsbD_setWidth, BitVec.getLsbD_or, flag _ 1 (by decide), flag _ 9 (by decide)]
  by_cases low : n < 11
  · simp [low, Bool.or_assoc]
  · simp [low, show n ≠ 1 by omega, show n ≠ 9 by omega]

/-- Settles O56: the level bits are two bits of a word beside the edges. -/
theorem interruptLineFollowsPendingAndMask : Obligations.InterruptLineFollowsPendingAndMask := by
  intro v s out
  refine ⟨next_unlessHeld out (writeIrqPending v), next_unlessHeld out (writeIrqMask v), fun free => ?_, fun n not1 not9 => ?_,
    ?_, ?_⟩
  · obtain ⟨free1, free9⟩ := free
    rw [irqPending_getLsbD, irqPending_getLsbD, free1, free9]
    simp
  · rw [irqPending_getLsbD]
    simp [not1, not9]
  · unfold irqLine irqActive
    rw [bne_iff_ne]
    refine ⟨fun some => ?_, ?_⟩
    · by_contra none
      refine some (BitVec.eq_of_getLsbD_eq fun n _ => ?_)
      rw [BitVec.getLsbD_and, show BitVec.getLsbD (0 : BitVec 11) n = false from BitVec.getLsbD_zero]
      by_contra both
      exact none ⟨n, by simpa using both⟩
    · rintro ⟨n, pending, unmasked⟩ zero
      have bit := congrArg (BitVec.getLsbD · n) zero
      simp [pending, unmasked] at bit
  · have read : readWord s 0x0A8 = place (irqActive s) 0 := by simp [readWord, out]
    rw [read]
    exact extractLsb'_place_same _ (by decide)

/-- The valid bit is the number 1 placed at bit 0, and the direction one bit placed at bit 1 (9.6). -/
theorem doneWord_eq_places (r : DoneRec) : doneWord r =
    place 1#1 0 ||| place (flagBit r.poke) 1 ||| place r.tag 4 ||| place (dirStatusCode r.status) 8 |||
      place (BitVec.ofNat 5 r.count) 16 := rfl

/-- Settles O54: the flags by the write, the oldest record by the pop. -/
theorem directRegistersPopAndClear : Obligations.DirectRegistersPopAndClear := by
  intro v s out
  have popped : exec .directDonePop s = .next (popDone s) := congrArg Host.Outcome.next (if_neg (by simp [out]))
  refine ⟨(next_unlessHeld out (writeDirectStatus v)).trans (congrArg _ ?_), fun empty => popped.trans (congrArg _ ?_),
    fun r rest held => ⟨popDone s, popped, ?_, ?_, ?_, ?_, ?_, ?_⟩⟩
  · simp [writeDirectStatus, bitAt]
  · simp [popDone, empty]
  all_goals have read : readWord s 0x09C = doneWord r := by simp [readWord, out, held]
  · simp only [popDone, held, read, List.length_cons, Config.directListSize]
    by_cases full : 4 ≤ rest.length + 1
    · simp [full, wakeWalker, show ¬ rest.length + 1 < 4 by omega]
    · simp [full, show rest.length + 1 < 4 by omega]
  all_goals rw [read]
  · simp [doneWord]
  · cases h : r.poke <;> simp [doneWord, h, placeFlag, place, flagBit]
  all_goals simp [doneWord_eq_places, BitVec.extractLsb'_or]

/-- Settles O29: a read of the word, and the flags it shows. -/
theorem segStatusReadClearsFlags : Obligations.SegStatusReadClearsFlags := by
  intro g s out
  have read : readWord s (if g = .a then 0x010 else 0x014) = segStatusWord (getSeg s g) := by
    cases g <;> simp [readWord, out, getSeg]
  refine ⟨readSegStatus g s, congrArg Host.Outcome.next (if_neg (by simp [out])), by rw [read]; rfl, ?_⟩
  rw [read]
  generalize getSeg s g = c
  have flags : (segStatusWord c).extractLsb' 8 3 =
      (placeFlag c.stateChanged 8 ||| placeFlag c.wakeSeen 9 ||| placeFlag c.faultSeen 10).extractLsb' 8 3 := by
    simp [segStatusWord, placeFlag, BitVec.extractLsb'_or]
  have shown : ∀ a b c : Bool, (placeFlag a 8 ||| placeFlag b 9 ||| placeFlag c 10).extractLsb' 8 3 =
      flagBit c ++ flagBit b ++ flagBit a := by decide
  exact flags.trans (shown _ _ _)

end Sys2Proof.Machine
end

section
/-! SUPPORT. One tick (R49), and the commands up to their segment operations (R19 to R23). -/

namespace Sys2Proof.Machine

/-! ### One tick -/

/-- A tick of the countdown (R49, R57, R63). -/
theorem tick_of_counting {s : State} (out : awake s) (on : s.seq.state ≠ .offline) (counts : s.ctim.remain ≠ 0) :
    tick s =
      let counted : State := { s with ctim := { s.ctim with remain := s.ctim.remain - 1 } }
      let woken := if s.ctim.remain - 1 = s.ctim.openSampled then wakeWalker counted else counted
      if s.ctim.remain - 1 = 0 then cutoff woken else woken := by
  unfold tick
  rw [if_neg (by simp [out, on]), if_neg counts]
  dsimp only
  split <;> rfl

theorem tick_of_start {s : State} (out : awake s) (on : s.seq.state ≠ .offline) (zero : s.ctim.remain = 0) :
    tick s = cycleStart s.segA.biasPin s.segB.biasPin s := by
  unfold tick
  rw [if_neg (by simp [out, on]), if_pos zero]

/-- CYCLE_END_CUTOFF brings the countdown to 0 (R63, log 3). -/
theorem exec_cycleEndCutoff {s : State} (out : awake s) (on : s.seq.state ≠ .offline) {x : Exchange} (busy : s.xeng = some x) :
    exec .cycleEndCutoff s = .next (cutoff { s with ctim := { s.ctim with remain := 0 } }) := by
  refine (next_unlessHeld out cycleEndCutoff).trans (congrArg _ ?_)
  unfold cycleEndCutoff
  rw [if_neg (by simp [on, busy])]

theorem cutoff_of_free {s : State} (free : s.xeng = none) : cutoff s = s := by
  unfold cutoff
  rw [free]

/-- Settles O2: the branches of `tick` on the state whose moment is closed. -/
theorem idleStepIsOneTick : Obligations.IdleStepIsOneTick := by
  intro s idle s0 counted woken opens
  have taken : step s = .next (tick s0) := by
    unfold step
    rw [idle]
    rfl
  refine ⟨fun stands => ?_, fun out on => ⟨fun plain => ?_, fun last busy => ?_, fun zero => ?_⟩⟩
  · have stays : tick s0 = s0 := by
      refine if_pos ?_
      obtain held | off := stands
      · simp [s0, held]
      · simp [s0, off]
    rw [taken, stays]
  · have counts : s0.ctim.remain ≠ 0 := by
      obtain low | ⟨one, -⟩ := plain
      · rintro zero
        rw [show s.ctim.remain = 0 from zero] at low
        exact absurd low (by decide)
      · show s.ctim.remain ≠ 0
        rw [one]
        decide
    have kept (u : State) (free : u.xeng = s.xeng) : (if s.ctim.remain - 1 = 0 then cutoff u else u) = u := by
      split
      case isTrue zero =>
        obtain low | ⟨-, none⟩ := plain
        · have : s.ctim.remain = 1 := by bv_omega
          rw [this] at low
          exact absurd low (by decide)
        · exact cutoff_of_free (free.trans none)
      case isFalse => rfl
    rw [taken, tick_of_counting (s := s0) out on counts]
    refine ⟨fun closed => congrArg _ ?_, fun open' => congrArg _ ?_⟩
    · exact (kept _ (by split <;> rfl)).trans (if_neg closed)
    · exact (kept _ (by split <;> rfl)).trans (if_pos open')
  · obtain ⟨x, engine⟩ := Option.ne_none_iff_exists'.1 busy
    have counts : s0.ctim.remain ≠ 0 := by
      show s.ctim.remain ≠ 0
      rw [last]
      decide
    have zero : s.ctim.remain - 1 = 0 := by
      rw [last]
      rfl
    rw [taken, tick_of_counting (s := s0) out on counts]
    dsimp only
    rw [show s0.ctim.remain - 1 = 0 from zero, if_pos rfl]
    refine ⟨fun closed => ?_, fun open' => ?_⟩
    · rw [if_neg (show ¬ 0 = s0.ctim.openSampled from zero ▸ closed)]
      exact (exec_cycleEndCutoff (s := s0) out on engine).symm
    · rw [if_pos (show 0 = s0.ctim.openSampled from zero ▸ open')]
      exact (exec_cycleEndCutoff (s := woken s0) out on engine).symm
  · rw [taken, tick_of_start (s := s0) out on zero]
    exact (next_unlessHeld (s := s0) out _).symm

/-! ### Segment operations as rows (R19) -/

/-- An operation of a command is the segment's own row (2.2). -/
theorem offerOp_eq_row {s : State} (out : awake s) (on : s.seq.state ≠ .offline) (op : BitVec 3) (g : Seg) :
    offerOp op g s = match segRow op g with
      | some c => after c s
      | none => s := by
  have row {c : Instr} {f : State → State} (is : after c s = unlessHeld (unlessOffline f) s) : f s = after c s := by
    rw [is, unlessHeld_of_awake _ out]
    exact (if_neg on).symm
  unfold offerOp segRow
  generalize op.toNat = n
  split
  · exact row rfl
  · exact row rfl
  · exact row rfl
  · exact row rfl
  · exact row rfl
  · exact row rfl
  · split <;> simp_all

theorem segShare_eq {s : State} (out : awake s) (on : s.seq.state ≠ .offline) (selected : Bool) (op : BitVec 3) (g : Seg) :
    segShare selected op g s = if selected then offerOp op g s else s := by
  cases selected with
  | false => rfl
  | true =>
    rw [if_pos rfl, offerOp_eq_row out on]
    unfold segShare
    cases segRow op g <;> rfl

/-- A command's operation is offered as the rows of the segments it names, A first. -/
theorem offerOps_eq_segShares {s : State} (out : awake s) (on : s.seq.state ≠ .offline) (w : Word) :
    offerOps w s = segShares w s := by
  have first : SamePort s (if selectsA w then offerOp (segOp w) .a s else s) := by
    split
    · exact offerOp_port _ .a s
    · exact .refl s
  have stays : (if selectsA w then offerOp (segOp w) .a s else s).seq.state ≠ .offline := by
    split
    · obtain same | ⟨-, leaves, -⟩ := (offerOp_reported (segOp w) .a s).state
      · rwa [same]
      · exact leaves
    · exact on
  unfold offerOps segShares
  rw [segShare_eq out on, segShare_eq (first.awake out) stays]

theorem segShares_none {w : Word} (none : segOp w = 0) (s : State) : segShares w s = s := by
  unfold segShares segShare
  rw [none]
  cases selectsA w <;> cases selectsB w <;> rfl

/-! ### Accepted commands -/

/-- An accepted command does what its own rule gives. -/
theorem exec_of_accepted {c : Instr} {op : BitVec 3} {f : Word → State → State} {w : Word} {s : State}
    (row : exec c s = .next (unlessHeld (takeCommand op f) s)) (out : awake s) (command : s.seq.command = some w)
    (here : ctrlOp w = op) (ok : refusal w s = .none) : exec c s = .next (f w s) := by
  rw [row, unlessHeld_of_awake _ out, takeCommand_of_op f command here, if_pos ok]

/-- Settles O14: in OFFLINE only a NOP without an operation is accepted. -/
theorem nopCarriesItsSegmentOperation : Obligations.NopCarriesItsSegmentOperation := by
  intro w s out command op ok
  have accepted : exec .nop s = .next (acceptNop w s) := exec_of_accepted rfl out command op ok
  refine ⟨accepted.trans (congrArg _ (congrArg finishCommand ?_)), fun none => accepted.trans (congrArg _ ?_)⟩
  · by_cases off : s.seq.state = .offline
    · have none : segOp w = 0 := by
        unfold refusal refusedWith at ok
        simp [op, off] at ok
        refine BitVec.eq_of_toNat_eq ?_
        by_contra carries
        split at ok
        · exact nomatch ok
        · exact nomatch (if_neg carries).symm.trans ok
      rw [offerOps_none none, segShares_none none]
    · exact offerOps_eq_segShares out off w
  · exact congrArg finishCommand (offerOps_none none s)

/-- A command other than OFFLINE's is not accepted in OFFLINE: RUN, STOP, RESTART (R18). -/
theorem accepted_not_offline {w : Word} {s : State} (ok : refusal w s = .none)
    (op : ctrlOp w = 1 ∨ ctrlOp w = 4 ∨ ctrlOp w = 5) : s.seq.state ≠ .offline := by
  intro off
  unfold refusal refusedWith at ok
  rw [off] at ok
  obtain op | op | op := op <;> simp [op] at ok
  all_goals split at ok <;> exact nomatch ok

/-- Settles O15: `setCtrl` by whether the state changes. -/
theorem runStartsTheSchedule : Obligations.RunStartsTheSchedule := by
  intro w s out command op ok
  have on := accepted_not_offline ok (.inr (.inl op))
  have accepted : exec .run s = .next (finishCommand (offerOps w (setCtrl .running s))) :=
    exec_of_accepted (f := acceptRun) rfl out command op ok
  refine ⟨fun running => ?_, fun other => ?_⟩
  · have stays : setCtrl .running s = s := if_pos running
    rw [accepted, stays, offerOps_eq_segShares out on]
    rfl
  · have moves : setCtrl .running s = wakeWalker (setEdge irqSeq { s with seq := { s.seq with state := .running } }) := by
      unfold setCtrl
      rw [if_neg other]
      rfl
    have on' : (wakeWalker (setEdge irqSeq { s with seq := { s.seq with state := .running } })).seq.state ≠ .offline := nofun
    rw [accepted, moves]
    exact congrArg (fun u => Host.Outcome.next (finishCommand u)) (offerOps_eq_segShares (by exact out) on' w)

/-! ### Edges alone -/

theorem OnlyRaises.of_aiu {s t : State} (same : t.aiu = s.aiu) : OnlyRaises s t := by
  refine ⟨?_, ?_⟩ <;> rw [same]
  exact fun _ => id

theorem OnlyRaises.refl (s : State) : OnlyRaises s s := .of_aiu rfl

theorem OnlyRaises.trans {s t u : State} (h : OnlyRaises s t) (k : OnlyRaises t u) : OnlyRaises s u :=
  ⟨by rw [k.1, h.1], fun n => k.2 n ∘ h.2 n⟩

theorem OnlyRaises.of_edge {s t : State} {i : Nat} (edge : t.aiu = { s.aiu with edges := s.aiu.edges ||| (1#11 <<< i) }) :
    OnlyRaises s t := by
  refine ⟨?_, fun n => ?_⟩ <;> rw [edge]
  exact edges_or _ _ n

theorem setEdge_raises (i : Nat) (s : State) : OnlyRaises s (setEdge i s) := .of_edge rfl

theorem pumpQueue_raises (s : State) : OnlyRaises s (pumpQueue s) := by
  obtain same | edge := pumpQueue_aiu s
  · exact .of_aiu same
  · exact .of_edge edge

theorem setCtrl_raises (c : CtrlState) (s : State) : OnlyRaises s (setCtrl c s) := by
  have aiu := setCtrl_aiu c s
  split at aiu
  · exact .of_aiu aiu
  · exact .of_edge aiu

theorem setCtrl_sets_seq {c : CtrlState} {s : State} (moves : s.seq.state ≠ c) :
    (setCtrl c s).aiu.edges.getLsbD irqSeq = true := by
  rw [setCtrl_aiu, if_neg moves]
  exact setEdge_irqSeq s

/-! ### STOP -/

/-- A turn whose exchange is on the bus goes on where a decision is given up (R23, R99). -/
theorem abandonDecision_exchanging {s : State} {t : Turn} (hand : s.walk.hand = .turn t) (busy : t.phase = .exchanging) :
    (abandonDecision s).walk.hand = .turn t := by
  have kept : (cancelReads decisionReader (setLook .nothing s)).walk.hand = .turn t := hand
  unfold abandonDecision
  dsimp only
  rw [kept]
  dsimp only
  rw [busy]
  exact hand

theorem setCtrl_exchanging {s : State} {c : CtrlState} {t : Turn} (hand : s.walk.hand = .turn t)
    (busy : t.phase = .exchanging) : (setCtrl c s).walk.hand = .turn t := by
  unfold setCtrl
  split
  · exact hand
  · dsimp only
    split
    · exact hand
    · exact abandonDecision_exchanging hand busy

/-- Settles O17: `setCtrl` gives up a decision, and keeps a turn whose exchange is on the bus. -/
theorem stopEndsTheSchedule : Obligations.StopEndsTheSchedule := by
  intro w s out command op ok
  have on := accepted_not_offline ok (.inr (.inr op))
  have accepted : exec .stop s = .next (acceptStop w s) := exec_of_accepted rfl out command op ok
  refine ⟨fun stopping => ?_, fun running => ⟨pumpQueue (setCtrl .stopping s), ?_, ?_, ?_, ?_, ?_, ?_, ?_, ?_, ?_, ?_⟩⟩
  · rw [accepted, ← offerOps_eq_segShares out on]
    exact congrArg _ (congrArg finishCommand (congrArg (offerOps w) (if_pos stopping)))
  · have seq : (pumpQueue (setCtrl .stopping s)).seq.state ≠ .offline := by
      rw [pumpQueue_seq, setCtrl_seq]
      exact nofun
    rw [accepted, ← offerOps_eq_segShares (((setCtrl_port _ s).trans (pumpQueue_port _)).awake out) seq]
    exact congrArg _ (congrArg finishCommand (congrArg (offerOps w) (if_neg (by simp [running]))))
  · rw [pumpQueue_seq, setCtrl_seq]
  · rw [pumpQueue_xeng]
    exact setCtrl_only .stopping s .xeng (by decide)
  · rw [pumpQueue_walk, (setCtrl_rings .stopping s).slots]
  · rw [pumpQueue_walk, (setCtrl_rings .stopping s).service]
  · rw [pumpQueue_walk, (setCtrl_rings .stopping s).bulk]
  · intro t hand busy
    rw [pumpQueue_walk]
    exact setCtrl_exchanging hand busy
  · exact (setCtrl_raises .stopping s).trans (pumpQueue_raises _)
  · exact (pumpQueue_raises _).2 _ (setCtrl_sets_seq (by simp [running]))
  · exact (setCtrl_only .stopping s).trans ((pumpQueue_only _).mono (by decide))

end Sys2Proof.Machine
end

section
/-! SUPPORT. CONFIGURE, RESTART and OFFLINE (R21, R24, R25, R162, R161): the latch of the anchors, a turn's last items, and what the
three commands leave of the work. -/

namespace Sys2Proof.Machine

/-! ### The anchors (R78) -/

theorem latchedAnchor_latchAnchor (c d : RingClass) (s : State) :
    latchedAnchor (latchAnchor c s) d = if d = c then s.walk.anchorReg.get (classIx d) else latchedAnchor s d := by
  have set : latchedAnchor (latchAnchor c s) d =
      if d = c then s.walk.anchorReg.get (classIx c) else latchedAnchor s d := by
    unfold latchAnchor
    cases c <;> exact get_writeAnchor s.walk.latched _ d _
  rw [set]
  split
  case isTrue same => rw [same]
  case isFalse => rfl

theorem anchorWritten_latchAnchor (c d : RingClass) (s : State) :
    (latchAnchor c s).walk.anchorWritten.get (classIx d) = (decide (d ≠ c) && s.walk.anchorWritten.get (classIx d)) := by
  have set : (latchAnchor c s).walk.anchorWritten.get (classIx d) =
      if d = c then false else s.walk.anchorWritten.get (classIx d) := by
    unfold latchAnchor
    cases c <;> exact get_writeAnchor s.walk.anchorWritten _ d _
  rw [set]
  by_cases same : d = c <;> simp [same]

@[simp] theorem anchorReg_latchAnchor (c : RingClass) (s : State) : (latchAnchor c s).walk.anchorReg = s.walk.anchorReg := by
  cases c <;> rfl

/-- CONFIGURE and RESTART latch all four anchors. -/
theorem latchedAnchor_latchAll (c : RingClass) (s : State) :
    latchedAnchor (latchAll s) c = s.walk.anchorReg.get (classIx c) := by
  unfold latchAll
  simp only [latchedAnchor_latchAnchor, anchorReg_latchAnchor]
  cases c <;> simp

theorem anchorWritten_latchAll (c : RingClass) (s : State) : (latchAll s).walk.anchorWritten.get (classIx c) = false := by
  unfold latchAll
  simp only [anchorWritten_latchAnchor]
  cases c <;> simp

/-! ### CONFIGURE -/

/-- Without work in hand there is nothing to give up but a look-ahead and the reads. -/
theorem abandonDecision_of_idle {s : State} (idle : s.walk.hand = .nothing) :
    abandonDecision s = cancelReads decisionReader (setLook .nothing s) := by
  have kept : (cancelReads decisionReader (setLook .nothing s)).walk.hand = .nothing := idle
  unfold abandonDecision
  dsimp only
  rw [kept]

/-- With nothing in hand, nothing staged and no beacon out a start of the walker opens the early window at once. -/
theorem startWalker_of_idle {latch : State → State} {s : State} (idle : s.walk.hand = .nothing)
    (empty : s.stage = { buf := .empty, waiting := none }) (silent : s.segA.beacon = none ∧ s.segB.beacon = none) :
    startWalker latch s = wakeWalker (latch { cancelReads decisionReader (setLook .nothing s) with
      walk := { s.walk with window := .early, timedDone := false, streamDone := false, pass := none, aperiodicOver := false,
                            look := .nothing } }) := by
  have beacons (u : State) (same : u.segA = s.segA ∧ u.segB = s.segB) : beaconsOut u = false := by
    simp [beaconsOut, same.1, same.2, silent.1, silent.2]
  have staged (u : State) (same : u.stage = s.stage) : stageAtCycleStart u = u := by
    have nothing : u.stage = { buf := .empty, waiting := none } := same.trans empty
    unfold stageAtCycleStart setStage
    rw [nothing]
    exact congrArg (fun x => { u with stage := x }) nothing.symm
  unfold startWalker
  rw [abandonDecision_of_idle idle]
  dsimp only
  rw [beacons (cancelReads decisionReader (setLook .nothing s)) ⟨rfl, rfl⟩, staged _ (by rfl)]
  simp [setLook, idle, leavePass]

/-- Settles O16: in a quiet OFFLINE the changes of state and the immediate cycle start find no work. -/
theorem configureStartsTheTimer : Obligations.ConfigureStartsTheTimer := by
  intro w s out command op ok quiet
  have off : s.seq.state = .offline := by
    by_contra on
    unfold refusal refusedWith at ok
    simp [op, on] at ok
    split at ok <;> exact nomatch ok
  have accepted : exec .configure s = .next (acceptConfigure w s) := exec_of_accepted rfl out command op ok
  have entered : setCtrl .ready s =
      cancelReads decisionReader (setLook .nothing (wakeWalker (setEdge irqSeq { s with seq := { s.seq with state := .ready } }))) := by
    unfold setCtrl
    rw [if_neg (by rw [off]; exact nofun)]
    exact abandonDecision_of_idle quiet.hand
  have started := startWalker_of_idle (latch := latchAll)
    (s := setEdge irqCycle (startSample (startReload false (setCtrl .ready s))))
    (by rw [entered]; exact quiet.hand) (by rw [entered]; exact quiet.stage)
    (by rw [entered]; exact ⟨quiet.driveA, quiet.driveB⟩)
  rw [entered] at started
  refine ⟨immediateCycleStart (setCtrl .ready s), ?_, ?_, ?_, ?_, fun c => ?_, ?_, ?_⟩
  case refine_1 =>
    have port : SamePort s (immediateCycleStart (setCtrl .ready s)) := by
      rw [entered, immediateCycleStart, started]
      exact ⟨rfl, rfl⟩
    have on : (immediateCycleStart (setCtrl .ready s)).seq.state ≠ .offline := by
      rw [entered, immediateCycleStart, started]
      exact nofun
    rw [accepted, ← offerOps_eq_segShares (port.awake out) on]
    rfl
  all_goals rw [entered, immediateCycleStart, started]
  · rfl
  · rfl
  · exact congrArg (fun e => { s.aiu with edges := e }) (BitVec.or_assoc _ _ _)
  · exact ⟨latchedAnchor_latchAll c _, anchorWritten_latchAll c _⟩
  · rw [show s.walk = { s.walk with look := .nothing } by rw [← quiet.look]]
    rfl
  · intro b n
    cases b <;> first | rfl | exact absurd (by decide) n

end Sys2Proof.Machine
end

section
/-! SUPPORT. RESTART's actions and OFFLINE (R24, R162, R25, R161): what they leave of the work. -/

namespace Sys2Proof.Machine

/-! ### An idle host bus -/

theorem cancelReads_of_empty {s : State} (p : Reader → Bool) (still : s.hport.reads = []) : cancelReads p s = s := by
  unfold cancelReads
  rw [still]
  exact congrArg (fun r => { s with hport := { s.hport with reads := r } }) still.symm

theorem orphanWrite_of_none {s : State} (still : s.hport.write = none) : orphanWrite s = s := by
  unfold orphanWrite
  rw [still]
  exact congrArg (fun w => { s with hport := { s.hport with write := w } }) still.symm

theorem discardQueue_hport_of_still {s : State} (reads : s.hport.reads = []) (write : s.hport.write = none) :
    (discardQueue s).hport = s.hport := by
  unfold discardQueue
  dsimp only
  rw [cancelReads_of_empty _ (by exact reads), orphanWrite_of_none (by exact write)]

theorem emptyStaging_hport_of_still {s : State} (reads : s.hport.reads = []) : (emptyStaging s).hport = s.hport := by
  unfold emptyStaging
  rw [cancelReads_of_empty _ (by exact reads)]

/-- A change of the controller's state with no work in hand and no read in the stream leaves the queue and the host bus alone. -/
theorem setCtrl_of_idle {s : State} (c : CtrlState) (idle : s.walk.hand = .nothing) (still : s.hport.reads = []) :
    (setCtrl c s).wq = s.wq ∧ (setCtrl c s).hport = s.hport ∧ (setCtrl c s).walk.pass = s.walk.pass := by
  unfold setCtrl
  split
  · exact ⟨rfl, rfl, rfl⟩
  · dsimp only
    split
    · exact ⟨rfl, rfl, rfl⟩
    · rw [abandonDecision_of_idle (by exact idle), cancelReads_of_empty _ (by exact still)]
      exact ⟨rfl, rfl, rfl⟩

/-! ### RESTART's actions -/

/-- A pass in progress is marked done with the one before it (R162). -/
theorem closeOpenPass_eq (s : State) : closeOpenPass s = { s with walk := { s.walk with
    pass := none, timedDone := s.walk.timedDone || s.walk.pass.isSome,
    streamDone := s.walk.streamDone || (s.walk.pass.isSome && s.walk.timedDone) } } := by
  unfold closeOpenPass
  cases h : s.walk.pass with
  | none =>
    simp only [Option.isSome_none, Bool.false_and, Bool.or_false]
    rw [← h]
  | some p => simp

theorem discardedItems_of_noWrite {s : State} (still : s.hport.write = none) : discardedItems s = s.wq.items := by
  unfold discardedItems
  cases h : s.wq.items with
  | nil => rfl
  | cons i rest => simp [still]

theorem getSlot_of_slots {s : State} (empty : s.walk.slots = Vector.replicate 64 none) (i : EntryIx) : getSlot s i = none := by
  unfold getSlot
  simp [empty]

/-- Settles O19: the actions, then the change of state with nothing in hand. -/
theorem restartActionsClearTheWork : Obligations.RestartActionsClearTheWork := by
  intro s out inHand free reads write noSeal idle
  have ready : restartReady s = true := by simp [restartReady, inHand, free, reads, write, noSeal, idle]
  obtain ⟨b, body⟩ : ∃ b, b = restartActionsBody s := ⟨_, rfl⟩
  have shape := body
  unfold restartActionsBody at shape
  dsimp only at shape
  rw [closeOpenPass_eq] at shape
  have idle' : b.walk.hand = .nothing := by rw [shape]; exact idle
  have port : b.hport = s.hport := by
    rw [shape]
    show (emptyStaging (discardQueue s)).hport = s.hport
    have queue := discardQueue_hport_of_still reads write
    rw [emptyStaging_hport_of_still (by rw [queue]; exact reads), queue]
  have discarded : b.seq.writesDiscarded = (s.seq.writesDiscarded || !s.wq.items.isEmpty) := by
    rw [shape, ← discardedItems_of_noWrite write]
    rfl
  obtain ⟨wq, hport, pass⟩ := setCtrl_of_idle (restartState b) idle' (by rw [port]; exact reads)
  have rings := setCtrl_rings (restartState b) b
  have mode : restartState b = if s.seq.restartFaulted = true then .sealed else if anyLive s = true then .armed else .ready := by
    rw [shape]
    rfl
  have result : restartActions s = wakeWalker (setEdge irqSeq { finishCommand (setCtrl (restartState b) b) with
      seq := { (finishCommand (setCtrl (restartState b) b)).seq with restartInHand := false, restartFaulted := false } }) := by
    unfold restartActions
    rw [if_pos ready, body]
  have taken := (next_unlessHeld out restartActions).trans (congrArg _ result)
  have frame := result ▸ restartActions_only s
  refine ⟨_, taken, ?_, wq.trans (by rw [shape]; rfl), ?_, ?_, fun c => ?_, ?_, ?_, fun i => ?_, ?_, ?_, ?_, ?_, ?_, ?_, ?_, ?_,
    fun i ne => ?_, ?_, ?_, hport.trans port⟩
  · show { (setCtrl (restartState b) b).seq with
      busy := false, command := none, restartInHand := false, restartFaulted := false } = _
    have kept : b.seq = { s.seq with writesDiscarded := b.seq.writesDiscarded } := by rw [shape]; rfl
    rw [setCtrl_seq, mode, kept, discarded]
  · exact (setCtrl_only _ b .rx (by decide)).trans (by rw [shape]; rfl)
  · exact (setCtrl_only _ b .stage (by decide)).trans (by rw [shape]; rfl)
  · show (setCtrl (restartState b) b).walk.latched.get (classIx c) = _
    rw [rings.latched, shape]
    exact latchedAnchor_latchAll c _
  · exact rings.service.trans (by rw [shape]; rfl)
  · exact rings.bulk.trans (by rw [shape]; rfl)
  · exact getSlot_of_slots (rings.slots.trans (by rw [shape]; rfl)) i
  · exact rings.anchorReg.trans (by rw [shape]; rfl)
  · exact rings.window.trans (by rw [shape]; rfl)
  · exact rings.aperiodicOver.trans (by rw [shape]; rfl)
  · exact pass.trans (by rw [shape]; rfl)
  · exact rings.timedDone.trans (by rw [shape]; rfl)
  · exact rings.streamDone.trans (by rw [shape]; rfl)
  · exact (setCtrl_only _ b .dau (by decide)).trans (by rw [shape]; rfl)
  · show { (setCtrl (restartState b) b).aiu with edges := (setCtrl (restartState b) b).aiu.edges ||| 0x080#11 } = _
    have kept : b.aiu = { s.aiu with queue := [] } := by rw [shape]; rfl
    rw [setCtrl_aiu]
    split
    · rw [kept]
    · rw [kept]
      have twice : (s.aiu.edges ||| 0x080#11) ||| 0x080#11 = s.aiu.edges ||| 0x080#11 := by rw [BitVec.or_assoc, BitVec.or_self]
      exact congrArg (fun e => { s.aiu with queue := [], edges := e }) twice
  · have table : (setCtrl (restartState b) b).table = b.table := setCtrl_only _ b .table (by decide)
    show (setCtrl (restartState b) b).table[i.toNat] = _
    simp only [table]
    show getEntry b i = _
    rw [shape, getEntry_mapEntries, if_neg ne]
    rfl
  · have table : (setCtrl (restartState b) b).table = b.table := setCtrl_only _ b .table (by decide)
    show (setCtrl (restartState b) b).table[(0 : EntryIx).toNat] = _
    simp only [table]
    show getEntry b 0 = _
    rw [shape, getEntry_mapEntries, if_pos rfl]
    rfl
  · exact frame.mono (by decide)

end Sys2Proof.Machine
end

section
/-! SUPPORT. The end of an exchange (R105 to R116): its classification, its entry, its log codes, its direct request. -/

namespace Sys2Proof.Machine

/-! ### The entry (R106 to R113) -/

theorem strikeOnce_eq_struck (n : BitVec 2) : strikeOnce n = struck n := by
  revert n
  decide

theorem strikeOut_eq_struckOut (e : Entry) : strikeOut e = struckOut e := by
  unfold strikeOut struckOut
  dsimp only
  rw [strikeOnce_eq_struck]
  by_cases three : struck e.strikesOut = 3#2
  · simp [three, haltEntry]
  · simp [three]

theorem strikeIn_eq_struckIn (e : Entry) : strikeIn e = struckIn e := by
  unfold strikeIn struckIn
  dsimp only
  rw [strikeOnce_eq_struck]
  by_cases three : struck e.strikesIn = 3#2
  · simp [three, haltEntry]
  · simp [three]

theorem deferOnce_eq (e : Entry) :
    deferOnce e = { e with deferCount := if e.deferCount.toNat < 65535 then e.deferCount + 1 else e.deferCount } := by
  have full (n : BitVec 16) : (if n == 65535 then 65535 else n + 1) = if n.toNat < 65535 then n + 1 else n := by
    by_cases top : n = 65535#16
    · subst top
      rfl
    · have below : n.toNat < 65535 := by bv_omega
      simp [top, below]
  unfold deferOnce
  rw [full]

theorem entryAfter_eq_byRules (q : Request) (o : XOutcome) (e : Entry) : entryAfter q o e = entryByRules q o e := by
  have push (o : XOutcome) : entryAfterPush o e = entryByRules (.push 0) o e := by
    cases o <;> first | rfl | exact strikeOut_eq_struckOut e | exact deferOnce_eq e
  have direct (o : XOutcome) : entryAfterDirect o e = entryByRules (.peek 0) o e := by
    cases o <;> first | rfl | exact deferOnce_eq e
  match q with
  | .push n => exact push o
  | .open => cases o <;> first | rfl | exact strikeOut_eq_struckOut e | exact deferOnce_eq e
  | .pull p => cases o <;> first | rfl | exact strikeIn_eq_struckIn e | exact deferOnce_eq e
  | .peek len => exact direct o
  | .poke len => exact direct o

/-! ### The Bus Log (R112, R114) -/

/-- The codes `l` offered one after another for a segment and an entry. -/
def offerCodes (l : List (BitVec 8)) (g : Seg) (i : EntryIx) (s : State) : State :=
  l.foldl (fun u c => offerBus c (some g) i u) s

theorem offerBus_ctim (c : BitVec 8) (g : Seg) (i : EntryIx) (s : State) : (offerBus c (some g) i s).ctim = s.ctim :=
  offerBus_only c g i s .ctim (by cases g <;> decide)

theorem offerCodes_elog (l : List (BitVec 8)) (g : Seg) (i : EntryIx) (s : State) : (offerCodes l g i s).elog =
    l.foldl (fun e c => busAfterOffer e c (segDetail g) i (cycleLow12 s)) s.elog := by
  induction l generalizing s with
  | nil => rfl
  | cons c l ih =>
    have cycle : cycleLow12 (offerBus c (some g) i s) = cycleLow12 s := by unfold cycleLow12; rw [offerBus_ctim]
    refine (ih _).trans ?_
    rw [cycle, offerBus_elog]
    rfl

theorem getSeg_offerCodes (l : List (BitVec 8)) (g : Seg) (i : EntryIx) (s : State) : getSeg (offerCodes l g i s) g =
    { getSeg s g with quarantined := (getSeg s g).quarantined || l.any fatalCode } := by
  induction l generalizing s with
  | nil => simp [offerCodes]
  | cons c l ih =>
    refine (ih _).trans ?_
    rw [getSeg_offerBus]
    simp [Bool.or_assoc]

theorem codesByRules_eq (guarded rewritten : Bool) (q : Request) (o : XOutcome) (e : Entry) :
    codesByRules guarded rewritten q o e =
      (trustCode guarded o).toList ++ if !rewritten && strikesHalt q o e then [0x10] else [] := by
  have halts (n : BitVec 2) : (if struck n = 3 ∧ rewritten = false then [0x10#8] else []) =
      if !rewritten && (strikeOnce n == 3) then [0x10] else [] := by
    rw [strikeOnce_eq_struck]
    cases rewritten <;> simp
  have none : (if !rewritten && false then [0x10#8] else []) = [] := by simp
  unfold codesByRules
  congr 1
  · cases o <;> rfl
  · cases q <;> cases o <;> first | exact halts _ | exact none.symm

theorem outcomeLog_eq_offerCodes (x : Exchange) (o : XOutcome) (halts : Bool) (s : State) : outcomeLog x o halts s =
    offerCodes ((trustCode (getSeg s x.segment).guarded o).toList ++ if halts then [0x10] else []) x.segment x.entry s := by
  unfold outcomeLog
  cases trustCode (getSeg s x.segment).guarded o <;> cases halts <;> rfl

/-! ### The state as the hand-over finds it -/

/-- The entry, the Receive FIFO and the Bus Log are dealt with and the engine is free (R116 steps 1 to 3). -/
def settledEnd (o : XOutcome) (x : Exchange) (s : State) : State :=
  { cutStaging o (outcomeLog x o (haltsByStrike x o s) (outcomeFifo x o (outcomeEntry x o s))) with xeng := none }

theorem finish_eq (o : XOutcome) (x : Exchange) (s : State) :
    finish o x s = grantFence x.entry (handOver x o (haltsByStrike x o s) (settledEnd o x s)) := rfl

theorem settledEnd_only (o : XOutcome) (x : Exchange) (s : State) :
    OnlyChanges [.table, .rx, .aiu, .elog, segBlock x.segment, .walk, .stage, .hport, .xeng] s (settledEnd o x s) :=
  (((outcomeEntry_only x o s).mono (by simp)).trans ((outcomeFifo_only x o _).mono (by simp))).trans
    (((outcomeLog_only x o _ _).mono (by simp)).trans
      (((cutStaging_only o _).then (clearEngine_only _) (ds := [.stage, .hport, .xeng]) (by simp) (by simp)).mono (by simp)))

theorem getEntry_of_table {s t : State} (same : t.table = s.table) (i : EntryIx) : getEntry t i = getEntry s i := by
  unfold getEntry
  simp only [same]

theorem getSeg_of_only {bs : List Block} {s t : State} {g : Seg} (f : OnlyChanges bs s t) (n : segBlock g ∉ bs) :
    getSeg t g = getSeg s g := by
  cases g
  · exact f .segA n
  · exact f .segB n

/-- The table after the end of an exchange, but for the fence. -/
theorem getEntry_settledEnd (o : XOutcome) (x : Exchange) (s : State) (i : EntryIx) :
    getEntry (settledEnd o x s) i =
      if i = x.entry ∧ i ≠ 0 ∧ x.rewritten = false then entryByRules x.request o (getEntry s i) else getEntry s i := by
  have later : (settledEnd o x s).table = (outcomeEntry x o s).table :=
    (cutStaging_only o _ .table (by decide)).trans ((outcomeLog_only x o _ _ .table (by cases x.segment <;> decide)).trans
      (outcomeFifo_only x o _ .table (by decide)))
  rw [getEntry_of_table later]
  unfold outcomeEntry
  cases rewritten : x.rewritten with
  | true => simp
  | false =>
    rw [if_neg Bool.false_ne_true]
    by_cases same : i = x.entry
    · subst same
      by_cases null : x.entry = 0
      · rw [null, setEntry_zero, if_neg (fun h => h.2.1 rfl)]
      · rw [getEntry_setEntry_same _ _ null, entryAfter_eq_byRules, if_pos ⟨rfl, null, rfl⟩]
    · rw [getEntry_setEntry_of_ne _ _ same, if_neg (fun h => same h.1)]

theorem getEntry_grantFence (i j : EntryIx) (s : State) : getEntry (grantFence i s) j =
    if j = i ∧ j ≠ 0 then { getEntry s j with fenceGranted := (getEntry s j).fence } else getEntry s j := by
  unfold grantFence
  by_cases same : j = i
  · subst same
    by_cases null : j = 0
    · rw [null, setEntry_zero, if_neg (fun h => h.2 rfl)]
    · rw [getEntry_setEntry_same _ _ null, if_pos ⟨rfl, null⟩]
  · rw [getEntry_setEntry_of_ne _ _ same, if_neg (fun h => same h.1)]

theorem getEntry_finish (o : XOutcome) (x : Exchange) (s : State) (i : EntryIx) :
    getEntry (finish o x s) i = if i = x.entry ∧ i ≠ 0 then
      (let e := if x.rewritten then getEntry s i else entryByRules x.request o (getEntry s i)
       { e with fenceGranted := e.fence }) else getEntry s i := by
  have handed : getEntry (handOver x o (haltsByStrike x o s) (settledEnd o x s)) i = getEntry (settledEnd o x s) i :=
    getEntry_of_table (handOver_only x o _ _ .table (by decide)) i
  rw [finish_eq, getEntry_grantFence, handed, getEntry_settledEnd]
  by_cases own : i = x.entry ∧ i ≠ 0
  · obtain ⟨rfl, null⟩ := own
    cases x.rewritten <;> simp [show x.entry ≠ 0#6 from null]
  · rw [if_neg own, if_neg own, if_neg (by rintro ⟨a, b, -⟩; exact own ⟨a, b⟩)]

/-! ### Direct requests (R139) -/

theorem completeDirect_dau {s : State} {r : DirReq} {rest : List DirReq} (front : s.dau.pending = r :: rest) (st : DirStatus)
    (bytes : List Byte) : (completeDirect st bytes s).dau = directDone r rest st bytes s := by
  unfold completeDirect
  rw [front]
  rfl

theorem directOutcome_dau (o : XOutcome) (bytes : List Byte) (s : State) :
    (directOutcome o bytes s).dau = directByRules o bytes s := by
  unfold directOutcome directByRules
  cases front : s.dau.pending with
  | nil => rfl
  | cons r rest =>
    have counted (f : DirReq → DirReq) : (setFront f s).dau = { s.dau with pending := f r :: rest } := by
      unfold setFront
      rw [front]
    have done (st : DirStatus) (l : List Byte) := completeDirect_dau front st l
    have third : r.tries + 1 = 3 ↔ r.tries = 2 := by omega
    have sixteenth : r.defers + 1 = 16 ↔ r.defers = 15 := by omega
    cases o with
    | deferred =>
      dsimp only
      simp only [sixteenth]
      split
      · exact done _ _
      · exact counted _
    | silence | corrupt =>
      dsimp only
      simp only [third]
      split
      · exact done _ _
      · exact counted _
    | success | refused | garbled | overlong | unsolicited => exact done _ _
    | duplicate | overrun | cut => rfl

theorem directDone_of_same {s t : State} (dau : t.dau = s.dau) (fill : t.hport.fill = s.hport.fill) (r : DirReq)
    (rest : List DirReq) (st : DirStatus) (bytes : List Byte) : directDone r rest st bytes t = directDone r rest st bytes s := by
  unfold directDone
  rw [dau, fill]

theorem directByRules_of_same {s t : State} (dau : t.dau = s.dau) (fill : t.hport.fill = s.hport.fill) (o : XOutcome)
    (bytes : List Byte) : directByRules o bytes t = directByRules o bytes s := by
  unfold directByRules
  simp only [directDone_of_same dau fill, dau]

theorem settledEnd_fill (o : XOutcome) (x : Exchange) (s : State) : (settledEnd o x s).hport.fill = s.hport.fill := by
  have logged : (outcomeLog x o (haltsByStrike x o s) (outcomeFifo x o (outcomeEntry x o s))).hport = s.hport :=
    (outcomeLog_only x o _ _ .hport (by cases x.segment <;> decide)).trans
      ((outcomeFifo_only x o _ .hport (by decide)).trans (outcomeEntry_only x o s .hport (by decide)))
  have cleared : (settledEnd o x s).hport.fill =
      (outcomeLog x o (haltsByStrike x o s) (outcomeFifo x o (outcomeEntry x o s))).hport.fill := by
    unfold settledEnd cutStaging
    split <;> rfl
  rw [cleared, logged]

theorem finish_dau (o : XOutcome) (x : Exchange) (s : State) :
    (finish o x s).dau = if x.direct then directByRules o x.data s else s.dau := by
  have before : (settledEnd o x s).dau = s.dau := settledEnd_only o x s .dau (by cases x.segment <;> decide)
  have handed : (finish o x s).dau = (handOver x o (haltsByStrike x o s) (settledEnd o x s)).dau :=
    grantFence_only _ _ .dau (by decide)
  rw [handed]
  unfold handOver
  split
  · exact (directOutcome_dau o x.data _).trans (directByRules_of_same before (settledEnd_fill o x s) o x.data)
  · exact (ringOutcome_only x o _ _ .dau (by decide)).trans before

/-! ### The whole end of an exchange (R116) -/

theorem finish_rx_eq_outcomeFifo (o : XOutcome) (x : Exchange) (s : State) :
    (finish o x s).rx = (outcomeFifo x o (outcomeEntry x o s)).rx :=
  (grantFence_only _ _ .rx (by decide)).trans ((handOver_only x o _ _ .rx (by decide)).trans
    ((cutStaging_only o _ .rx (by decide)).trans (outcomeLog_only x o _ _ .rx (by cases x.segment <;> decide))))

/-- The packet of a PULL is committed on SUCCESS (R120). -/
theorem finish_rx_of_pull {x : Exchange} {p : Nat} (pull : x.request = .pull p) (s : State) :
    (finish .success x s).rx = { s.rx with fifo := s.rx.fifo ++ [x.data] } := by
  have before : (outcomeEntry x .success s).rx = s.rx := outcomeEntry_only x .success s .rx (by decide)
  rw [finish_rx_eq_outcomeFifo, ← before]
  unfold outcomeFifo
  rw [pull]

theorem finish_rx_of_none {o : XOutcome} {x : Exchange} (other : ∀ p, x.request = .pull p → o ≠ .success) (s : State) :
    (finish o x s).rx = s.rx := by
  rw [finish_rx_eq_outcomeFifo]
  refine Eq.trans ?_ (outcomeEntry_only x o s .rx (by decide))
  unfold outcomeFifo
  split
  case h_1 p pull => exact absurd rfl (other p pull)
  case h_2 => split <;> rfl
  case h_3 => rfl

/-- What the log and the segment are found as by the offers of the outcome. -/
theorem finish_offers (o : XOutcome) (x : Exchange) (s : State) :
    ∃ u : State, getSeg u x.segment = getSeg s x.segment ∧ u.elog = s.elog ∧ u.ctim = s.ctim ∧
      (finish o x s).elog =
        (offerCodes (codesByRules (getSeg s x.segment).guarded x.rewritten x.request o (getEntry s x.entry))
          x.segment x.entry u).elog ∧
      getSeg (finish o x s) x.segment = getSeg
        (offerCodes (codesByRules (getSeg s x.segment).guarded x.rewritten x.request o (getEntry s x.entry))
          x.segment x.entry u) x.segment := by
  have stored : OnlyChanges [.table, .rx, .aiu] s (outcomeFifo x o (outcomeEntry x o s)) :=
    ((outcomeEntry_only x o s).mono (by decide)).trans ((outcomeFifo_only x o _).mono (by decide))
  have seg : getSeg (outcomeFifo x o (outcomeEntry x o s)) x.segment = getSeg s x.segment :=
    getSeg_of_only stored (by cases x.segment <;> decide)
  have logged := outcomeLog_eq_offerCodes x o (haltsByStrike x o s) (outcomeFifo x o (outcomeEntry x o s))
  rw [seg, haltsByStrike, ← codesByRules_eq] at logged
  have later : OnlyChanges [.stage, .hport, .xeng, .walk, .wq, .aiu, .dau, .table]
      (outcomeLog x o (haltsByStrike x o s) (outcomeFifo x o (outcomeEntry x o s))) (finish o x s) :=
    (((cutStaging_only o _).then (clearEngine_only _) (ds := [.stage, .hport, .xeng]) (by decide) (by decide)).mono
      (by decide)).trans (((handOver_only x o _ _).mono (by decide)).trans ((grantFence_only _ _).mono (by decide)))
  exact ⟨_, seg, stored .elog (by decide), stored .ctim (by decide), (later .elog (by decide)).trans (congrArg _ logged),
    (getSeg_of_only later (by cases x.segment <;> decide)).trans (congrArg (getSeg · x.segment) logged)⟩

theorem finish_endsWith (o : XOutcome) (x : Exchange) (s : State) : EndsWith o x s (pumpQueue (finish o x s)) := by
  obtain ⟨u, seg, elog, ctim, logged, quarantined⟩ := finish_offers o x s
  have cycle : cycleLow12 u = cycleLow12 s := by unfold cycleLow12; rw [ctim]
  have pumped (i : EntryIx) : getEntry (pumpQueue (finish o x s)) i = getEntry (finish o x s) i :=
    getEntry_of_table (pumpQueue_table _) i
  refine ⟨(pumpQueue_xeng _).trans (finish_xeng o x s), fun own => ?_, fun i other => ?_, ?_, (pumpQueue_rx _).trans ?_,
    ?_, ?_, (pumpQueue_dau _).trans (finish_dau o x s), finish_pump_only o x s⟩
  · rw [pumped, getEntry_finish, if_pos ⟨rfl, own⟩]
  · rw [pumped, getEntry_finish, if_neg (fun h => other h.1)]
  · rw [pumped, getEntry_finish, if_neg (fun h => h.2 rfl)]
  · split
    case h_1 p pull _ _ => exact finish_rx_of_pull pull s
    case h_2 other =>
      refine finish_rx_of_none (fun p pull success => ?_) s
      subst success
      exact other p _ pull rfl HEq.rfl
  · rw [pumpQueue_elog, logged, offerCodes_elog, elog, cycle]
  · rw [getSeg_of_only (pumpQueue_only _) (by cases x.segment <;> decide), quarantined, getSeg_offerCodes, seg]

end Sys2Proof.Machine
end

section
/-! SUPPORT. Head status words (R81), and what a CUT leaves of a visit (R92, R115). -/

namespace Sys2Proof.Machine

/-! ### Fields of a word -/

theorem getLsbD_putField {n : Nat} (w : Word) (lo : Nat) (v : BitVec n) (i : Nat) (low : i < 32) :
    (putField w lo v).getLsbD i = if lo ≤ i ∧ i < lo + n then v.getLsbD (i - lo) else w.getLsbD i := by
  by_cases within : lo ≤ i ∧ i < lo + n
  · obtain ⟨above, below⟩ := within
    have short : i - lo < n := by omega
    simp [putField, place, low, short, above, below, Nat.not_lt.2 above]
  · rw [if_neg within]
    by_cases above : lo ≤ i
    · have long : n ≤ i - lo := by omega
      simp [putField, place, low, BitVec.getLsbD_of_ge v _ long, show ¬ i - lo < n by omega]
    · simp [putField, place, low, show i < lo by omega]

theorem getElem_putField {n : Nat} (w : Word) (lo : Nat) (v : BitVec n) (i : Nat) (low : i < 32) :
    (putField w lo v)[i] = if lo ≤ i ∧ i < lo + n then v.getLsbD (i - lo) else w[i] := by
  rw [← BitVec.getLsbD_eq_getElem low, ← BitVec.getLsbD_eq_getElem low, getLsbD_putField w lo v i low]

theorem extractLsb'_putField_same {n : Nat} (w : Word) (lo : Nat) (v : BitVec n) (fits : lo + n ≤ 32) :
    (putField w lo v).extractLsb' lo n = v := by
  ext i h
  rw [BitVec.getElem_extractLsb', getLsbD_putField _ _ _ _ (by omega), if_pos (by omega), Nat.add_sub_cancel_left,
    BitVec.getLsbD_eq_getElem h]

theorem extractLsb'_putField_apart {n m : Nat} (w : Word) (lo at' : Nat) (v : BitVec n) (fits : at' + m ≤ 32)
    (apart : at' + m ≤ lo ∨ lo + n ≤ at') : (putField w lo v).extractLsb' at' m = w.extractLsb' at' m := by
  ext i h
  rw [BitVec.getElem_extractLsb', BitVec.getElem_extractLsb', getLsbD_putField _ _ _ _ (by omega), if_neg (by omega)]

/-! ### Head status words -/

/-- The bits of a head status word with a visit in it; `skipping` may be written as well. -/
theorem headStatusWord_visit (w3 : Word) (o : XOutcome) (skipping : Option Bool) (stop : Option Cause) :
    let w := headStatusWord w3 (some o) skipping stop
    w.extractLsb' 16 8 = w3.extractLsb' 16 8 + 1 ∧ w.extractLsb' 8 4 = outcomeCode o ∧
      w.getLsbD 1 = skipping.getD (w3.getLsbD 1) ∧
      w.getLsbD 0 = (stop.isSome || w3.getLsbD 0) ∧
      w.extractLsb' 4 4 = (stop.map causeCode).getD (w3.extractLsb' 4 4) := by
  have flag (b : Bool) : (flagBit b)[0] = b := by cases b <;> rfl
  intro w
  cases skipping <;> cases stop <;>
    simp [w, headStatusWord, field, extractLsb'_putField_same, extractLsb'_putField_apart, getElem_putField, flag]

theorem visitWord_headStatusWord (t : Turn) (o : XOutcome) (stop : Option Cause) :
    visitWord t o stop (headStatusWord t.head.w3 (some o) none stop) := by
  obtain ⟨visits, outcome, skips, stopped, cause⟩ := headStatusWord_visit t.head.w3 o none stop
  refine ⟨visits, outcome, skips, ?_⟩
  cases stop with
  | none => exact ⟨stopped, cause⟩
  | some c => exact ⟨stopped, cause⟩

/-- The status write of a visit that ends now (R81). -/
theorem endTurn_visit (t : Turn) (o : XOutcome) (stop : Option Cause) {s : State}
    (room : s.wq.items.length < 32 ∨ 0 < s.wq.reserved) (made : t.made ≠ 0) (last : t.last = some o) :
    (endTurn t stop s).wq.items = s.wq.items ++
      [.status t.addr (headStatusWord t.head.w3 (some o) t.skipping stop) t.cls (headEntry t.head)
        (t.head.w1.getLsbD 2) stop t.head.w0] := by
  rw [endTurn_items t stop room]
  simp [made, last, headNotifyVisit, bitAt]

/-! ### A CUT -/

theorem ringOutcome_cut_of_turn {s : State} {u : Turn} (x : Exchange) (halts : Bool) (turn : s.walk.hand = .turn u) :
    ringOutcome x .cut halts s =
      if s.seq.state = .sealed then setHand .nothing s else endTurn { u with made := u.made + 1, last := some .cut } none s := by
  unfold ringOutcome
  rw [turn]

/-- A CUT leaves the walker and the queue to the hand-over as they are. -/
theorem settledEnd_cut_only (x : Exchange) (s : State) : OnlyChanges [.table, .stage, .hport, .xeng] s (settledEnd .cut x s) := by
  have halts : haltsByStrike x .cut s = false := by simp [haltsByStrike, strikesHalt, strikes]
  have fifo (u : State) : outcomeFifo x .cut u = u := by unfold outcomeFifo; split <;> simp_all
  unfold settledEnd
  rw [halts, fifo]
  exact ((outcomeEntry_only x .cut s).mono (by decide)).trans
    (((cutStaging_only .cut _).then (clearEngine_only _) (ds := [.stage, .hport, .xeng]) (by decide) (by decide)).mono (by decide))

theorem getSlot_of_same {s t : State} (same : t.walk.slots = s.walk.slots) (i : EntryIx) : getSlot t i = getSlot s i := by
  unfold getSlot
  simp only [same]

theorem finish_cut_ends (x : Exchange) (s : State) : CutEndsTheVisit x s (finish .cut x s) := by
  have before := settledEnd_cut_only x s
  have walk : (settledEnd .cut x s).walk = s.walk := before .walk (by decide)
  have wq : (settledEnd .cut x s).wq = s.wq := before .wq (by decide)
  have seq : (settledEnd .cut x s).seq = s.seq := before .seq (by decide)
  refine ⟨?_, fun ring u turn => ⟨fun i => getSlot_of_same (finish_cut_rings x s).slots i, ?_⟩⟩
  · exact (grantFence_only _ _ .stage (by decide)).trans (handOver_only x _ _ _ .stage (by decide))
  · have handed : handOver x .cut (haltsByStrike x .cut s) (settledEnd .cut x s) =
        if s.seq.state = .sealed then setHand .nothing (settledEnd .cut x s)
        else endTurn { u with made := u.made + 1, last := some .cut } none (settledEnd .cut x s) := by
      unfold handOver
      rw [if_neg (by simp [ring]), ringOutcome_cut_of_turn x _ (by rw [walk]; exact turn), seq]
    have walked : (finish .cut x s).walk = (handOver x .cut (haltsByStrike x .cut s) (settledEnd .cut x s)).walk :=
      grantFence_only _ _ .walk (by decide)
    have queued : (finish .cut x s).wq = (handOver x .cut (haltsByStrike x .cut s) (settledEnd .cut x s)).wq :=
      grantFence_only _ _ .wq (by decide)
    rw [walked, queued, handed]
    refine ⟨?_, fun off => ?_, fun on => ?_⟩
    · split
      · rfl
      · rw [endTurn_walk]
    · rw [if_pos off]
      exact ⟨congrArg WriteQueue.items wq, show (settledEnd .cut x s).walk.pass = s.walk.pass by rw [walk]⟩
    · rw [if_neg on, endTurn_walk, walk]
      refine ⟨rfl, fun plain room => ⟨_, ?_, visitWord_headStatusWord u .cut none⟩⟩
      rw [endTurn_visit _ .cut none (by rw [wq]; exact .inl room) (Nat.succ_ne_zero _) rfl, wq, plain]

/-- What a CUT leaves is told by the hand, the queue, the slots, the pass and the staging buffer alone. -/
theorem CutEndsTheVisit.of_same {x : Exchange} {s s' t t' : State} (h : CutEndsTheVisit x s t) (seq : s'.seq.state = s.seq.state)
    (walk : s'.walk = s.walk) (wq : s'.wq.items = s.wq.items) (stage : t'.stage = t.stage)
    (slots : t'.walk.slots = t.walk.slots)
    (still : t.walk.hand = .nothing → t'.walk.hand = .nothing ∧ t'.wq.items = t.wq.items ∧ t'.walk.pass = t.walk.pass) :
    CutEndsTheVisit x s' t' := by
  obtain ⟨empty, visit⟩ := h
  refine ⟨stage.trans empty, fun ring u turn => ?_⟩
  obtain ⟨kept, gone, off, on⟩ := visit ring u (walk ▸ turn)
  obtain ⟨hand, items, pass⟩ := still gone
  refine ⟨fun i => ?_, hand, fun sealed => ?_, fun working => ?_⟩
  · rw [getSlot_of_same slots, kept, getSlot_of_same (congrArg Walker.slots walk)]
  · obtain ⟨same, stays⟩ := off (seq ▸ sealed)
    exact ⟨by rw [items, same, wq], by rw [pass, stays, walk]⟩
  · obtain ⟨goes, write⟩ := on (seq ▸ working)
    refine ⟨by rw [pass, goes, walk], fun plain room => ?_⟩
    obtain ⟨word, joined, told⟩ := write plain (wq ▸ room)
    exact ⟨word, by rw [items, joined, wq], told⟩

/-! ### The cut-off (R63) -/

theorem cutoff_of_phase {s : State} {x : Exchange} (busy : s.xeng = some x) : cutoff s = match x.phase with
    | .receiving => pumpQueue (finish .overlong x s)
    | .window => pumpQueue (finish (waitingEnd s) x { s with freeDraws := s.freeDraws + 1 })
    | _ => pumpQueue (finish .cut x s) := by
  unfold cutoff
  split
  case h_1 y engine =>
    cases busy.symm.trans engine
    rfl
  case h_2 free => cases busy.symm.trans free

/-- Settles O32: the phase decides the outcome `finish` is called with. -/
theorem cutoffEndsTheExchange : Obligations.CutoffEndsTheExchange := by
  intro s x out on busy s0
  have row := exec_cycleEndCutoff out on busy
  have engine : s0.xeng = some x := busy
  have cut (u : State) (seq : u.seq = s.seq) (walk : u.walk = s.walk) (wq : u.wq = s.wq) :
      CutEndsTheVisit x s (pumpQueue (finish .cut x u)) :=
    (finish_cut_ends x u).of_same (by rw [seq]) walk.symm (by rw [wq]) (pumpQueue_stage _) (by rw [pumpQueue_walk])
      (fun idle => ⟨by rw [pumpQueue_walk]; exact idle, pumpQueue_items _, by rw [pumpQueue_walk]⟩)
  refine ⟨fun phase => ⟨_, row.trans ?_, finish_endsWith .overlong x s0⟩,
    fun phase => ⟨_, row.trans ?_, finish_endsWith .cut x s0, cut s0 rfl rfl rfl⟩, fun phase => ?_⟩
  · rw [cutoff_of_phase engine, phase]
  · rw [cutoff_of_phase engine]
    obtain held | sending | accepting := phase
    · rw [held]
    · rw [sending]
    · rw [accepting]
  · have ends : exec .cycleEndCutoff s = .next (pumpQueue (finish (waitingEnd s0) x { s0 with freeDraws := s.freeDraws + 1 })) := by
      rw [row, cutoff_of_phase engine, phase]
    refine ⟨_, ends, ?_⟩
    unfold waitingEnd
    split
    · exact .inl (finish_endsWith .silence x _)
    · exact .inr ⟨finish_endsWith .cut x _, cut _ rfl rfl rfl⟩

/-! ### Classification (R105) -/

theorem unsolicited_iff (q : Request) (sent f : Frame) : unsolicited q sent f = true ↔ kindFits q f.kind = false ∨
    f.address ≠ sent.address ∨ (channelMatters q = true ∧ f.channel ≠ sent.channel) ∨
    (f.kind ≠ .data ∧ f.payload ≠ []) := by
  simp [unsolicited, or_assoc]

/-- R105's table with its parts under the names of the model. -/
theorem classByRules_frame (x : Exchange) (sent f : Frame) (whole : f.kind ≠ .garbled) : classByRules x sent (.frame f) =
    if unsolicited x.request sent f then .unsolicited
    else if permitted x.request < f.payload.length then .overlong
    else if f.kind = .defer then .deferred
    else if f.kind = .refuse then .refused
    else classifyData x sent f := by
  have fits (q : Request) : kindFits q f.kind = (match f.kind with
      | .accept => wantsAccept q
      | .data => !wantsAccept q
      | .defer => true
      | .refuse => true
      | _ => false) := by
    cases k : f.kind <;> first | rfl | exact absurd k whole
  unfold classByRules
  dsimp only
  rw [if_neg whole]
  simp only [unsolicited_iff, fits, classifyData]
  cases q : x.request <;> simp [wantsAccept, channelMatters, permitted] <;> rfl

theorem classifyData_of_accept {x : Exchange} (accepts : wantsAccept x.request = true) (sent f : Frame) :
    classifyData x sent f = .success := by
  unfold classifyData
  split
  case h_1 p pull =>
    rw [pull] at accepts
    cases accepts
  case h_2 => rfl

/-- The model's classification is R105's table: what is not DATA brings no bytes, or is unsolicited for them. -/
theorem classify_eq_byRules (x : Exchange) (sent : Frame) (r : Reply) : classify x sent r = classByRules x sent r := by
  cases r with
  | broken => rfl
  | frame f =>
    show classifyFrame x sent f = _
    by_cases garbled : f.kind = .garbled
    · simp [classifyFrame, classByRules, garbled]
    rw [classByRules_frame x sent f garbled, classifyFrame, if_neg garbled]
    by_cases stray : unsolicited x.request sent f = true
    · rw [if_pos stray, if_pos stray]
    rw [if_neg stray, if_neg stray]
    rw [unsolicited_iff, not_or, not_or, not_or] at stray
    obtain ⟨fits, -, -, empty⟩ := stray
    by_cases data : f.kind = .data
    · simp [data]
    have none : f.payload = [] := by
      by_contra some
      exact empty ⟨data, some⟩
    cases k : f.kind <;> simp_all [kindFits, classifyData_of_accept]

theorem acceptDue_iff (q : Request) (o : XOutcome) :
    acceptDue q o = true ↔ (o = .success ∨ o = .duplicate) ∧ ∃ n, q = .pull n ∨ q = .peek n := by
  cases q <;> simp [acceptDue, wantsAccept]

/-! ### The rows that end an exchange (R103) -/

theorem exec_replyEnd {s : State} (out : awake s) {x : Exchange} (busy : s.xeng = some x) (receiving : x.phase = .receiving)
    {sent : Frame} (begun : x.frame = some sent) (r : Reply) :
    exec (.replyEnd r) s = .next (if acceptDue x.request (classByRules x sent r) then
      { s with xeng := some { x with
          phase := .accepting, accept := some (classByRules x sent r, acceptFrame sent),
          data := if classByRules x sent r = .success then replyData r else [] } }
      else pumpQueue (finish (classByRules x sent r) x s)) := by
  have frame : sentFrame x = sent := by rw [sentFrame, begun]; rfl
  refine (next_unlessHeld out (replyEnd r)).trans (congrArg _ ?_)
  unfold replyEnd
  split
  case h_1 y engine =>
    cases busy.symm.trans engine
    rw [if_pos receiving, frame, classify_eq_byRules]
  case h_2 free => cases busy.symm.trans free

theorem exec_replyTimeout {s : State} (out : awake s) {x : Exchange} (busy : s.xeng = some x) (window : x.phase = .window) :
    exec .replyTimeout s = .next (pumpQueue (finish .silence x s)) := by
  refine (next_unlessHeld out replyTimeout).trans (congrArg _ ?_)
  unfold replyTimeout
  split
  case h_1 y engine =>
    cases busy.symm.trans engine
    rw [if_pos window]
  case h_2 free => cases busy.symm.trans free

theorem exec_acceptSent {s : State} (out : awake s) {x : Exchange} (busy : s.xeng = some x) (accepting : x.phase = .accepting)
    {o : XOutcome} {f : Frame} (answered : x.accept = some (o, f)) :
    exec .acceptSent s = .next (pumpQueue (finish o x s)) := by
  refine (next_unlessHeld out acceptSent).trans (congrArg _ ?_)
  unfold acceptSent
  split
  case h_1 y engine =>
    cases busy.symm.trans engine
    rw [accepting, answered]
  case h_2 free => cases busy.symm.trans free

/-- Settles O44: each row ends in `finish`, or in the ACCEPT that is due. -/
theorem repliesEndTheExchange : Obligations.RepliesEndTheExchange := by
  intro s x out busy
  refine ⟨fun r sent receiving begun => ⟨fun due f whole => ?_, fun notDue => ⟨_, ?_, finish_endsWith _ x s⟩⟩,
    fun window => ⟨_, exec_replyTimeout out busy window, finish_endsWith .silence x s⟩,
    fun o f accepting answered => ⟨_, exec_acceptSent out busy accepting answered, finish_endsWith o x s⟩⟩
  · rw [exec_replyEnd out busy receiving begun, if_pos ((acceptDue_iff _ _).2 due), whole]
    rfl
  · rw [exec_replyEnd out busy receiving begun, if_neg (fun h => notDue ((acceptDue_iff _ _).1 h))]

end Sys2Proof.Machine
end

section
/-! SUPPORT. OFFLINE (R25, R161) and RESTART up to its wait (R24). -/

namespace Sys2Proof.Machine

/-! ### The exchange of any segment is CUT (R25) -/

theorem cutAny_only (s : State) : OnlyChanges cutBlocks s (cutAny s) := by
  unfold cutAny
  split
  · exact finish_cut_only _ s
  · exact .refl _ s

theorem cutAny_xeng (s : State) : (cutAny s).xeng = none := by
  unfold cutAny
  split
  case h_1 x on => exact finish_xeng .cut x s
  case h_2 free => exact free

theorem cutAny_port (s : State) : SamePort s (cutAny s) := by
  unfold cutAny
  split
  · exact finish_cut_port _ s
  · exact .refl s

theorem cutAny_rings (s : State) : SameRings s (cutAny s) := by
  unfold cutAny
  split
  · exact finish_cut_rings _ s
  · exact .refl s

theorem cutAny_of_free {s : State} (free : s.xeng = none) : cutAny s = s := by
  unfold cutAny
  rw [free]

/-- A CUT changes nothing in an entry but answers its fence (R70). -/
theorem getEntry_finish_cut (x : Exchange) (s : State) (i : EntryIx) : getEntry (finish .cut x s) i =
    if i = x.entry ∧ i ≠ 0 then { getEntry s i with fenceGranted := (getEntry s i).fence } else getEntry s i := by
  rw [getEntry_finish]
  cases x.rewritten <;> rfl

theorem getEntry_cutAny_zero (s : State) : getEntry (cutAny s) 0 = getEntry s 0 := by
  unfold cutAny
  split
  · rw [getEntry_finish_cut, if_neg (fun h => h.2 rfl)]
  · rfl

/-- Apart from a fence answered, the entries are those before the CUT. -/
theorem getEntry_cutAny (s : State) (i : EntryIx) :
    ∃ g, getEntry (cutAny s) i = { getEntry s i with fenceGranted := g } := by
  unfold cutAny
  split
  · rw [getEntry_finish_cut]
    split
    · exact ⟨_, rfl⟩
    · exact ⟨_, rfl⟩
  · exact ⟨_, rfl⟩

/-! ### Everything on the host bus given up (R14) -/

/-- Only the outstanding read stays, to complete into nothing (R14, R24, log 61). -/
theorem cancelAllReads_reads (s : State) : (cancelAllReads s).hport.reads =
    ((s.hport.reads.take 1).filter (fun r => !r.fresh)).map (fun r => { r with reader := .discard }) := by
  unfold cancelAllReads cancelReads giveUpFront
  cases reads : s.hport.reads with
  | nil => rfl
  | cons r rest => cases fresh : r.fresh <;> simp [fresh]

theorem discardedItems_of_same {s t : State} (wq : t.wq = s.wq) (write : t.hport.write = s.hport.write) :
    discardedItems t = discardedItems s := by
  unfold discardedItems
  rw [wq, write]

/-- Settles O20: the CUT, then what OFFLINE makes of every block. -/
theorem offlineClearsTheWork : Obligations.OfflineClearsTheWork := by
  intro w s out command op
  have ok : refusal w s = .none := by simp [refusal, refusedWith, op]
  have accepted : exec .offline s = .next (acceptOffline w s) := exec_of_accepted rfl out command op ok
  refine ⟨fun off => accepted.trans (congrArg _ (if_pos off)), fun on => ⟨_, accepted.trans (congrArg _ (if_neg on)), ?_⟩⟩
  have frame := cutAny_only s
  have seq : (cutAny s).seq = s.seq := frame .seq (by decide)
  have ctim : (cutAny s).ctim = s.ctim := frame .ctim (by decide)
  have segA : (cutAny s).segA = s.segA := frame .segA (by decide)
  have segB : (cutAny s).segB = s.segB := frame .segB (by decide)
  have rx : (cutAny s).rx = s.rx := frame .rx (by decide)
  have dau : (cutAny s).dau = s.dau := frame .dau (by decide)
  have aiu : (cutAny s).aiu = s.aiu := frame .aiu (by decide)
  have edges (e : BitVec 11) : (e &&& 0x080#11) ||| 0x080#11 = 0x080#11 := by
    revert e
    decide
  have table (i : EntryIx) := getEntry_mapEntries (fun e => { e with valid := false, fence := false, fenceGranted := false })
    (cutAny s) i
  have kept (b : Bool) : { (cutAny s).seq with
        state := .offline, busy := false, command := none, restartInHand := false, restartFaulted := false, sealPending := false,
        writesDiscarded := b } = ({ s.seq with
        state := .offline, busy := false, command := none, restartInHand := false, restartFaulted := false, sealPending := false,
        writesDiscarded := b } : Sequencer) := by rw [seq]
  refine ⟨kept _, fun stuck => ?_, fun free => ?_, cutAny_xeng s, rfl,
    congrArg (fun c : CycleTimer => { c with remain := c.len, number := 0, lenPending := none }) ctim,
    congrArg Segment.offline segA, congrArg Segment.offline segB, fun i ne => ?_, ?_, fun c => ?_, (cutAny_rings s).anchorReg,
    rfl, rfl, getSlot_of_slots rfl, rfl, rfl, rfl, rfl, rfl, congrArg (fun r : Receive => { r with fifo := [] }) rx, ?_, ?_,
    fun r left => ?_, fun w left => ?_, (cutAny_port s).fill, ?_⟩
  · show ((cutAny s).seq.writesDiscarded || _) = true
    rw [seq, stuck]
    rfl
  · show ((cutAny s).seq.writesDiscarded || !(discardedItems _).isEmpty) = _
    have same (u : State) (wq : u.wq = (cutAny s).wq) (write : u.hport.write = (cutAny s).hport.write) :
        discardedItems u = discardedItems s := by
      rw [cutAny_of_free free] at wq write
      exact discardedItems_of_same wq write
    rw [seq, same _ (by rfl) (by rfl)]
  · refine (getEntry_of_table (s := mapEntries _ (cutAny s)) rfl i).trans ((table i).trans ?_)
    obtain ⟨g, cut⟩ := getEntry_cutAny s i
    rw [if_neg ne, cut]
  · refine (getEntry_of_table (s := mapEntries _ (cutAny s)) rfl 0).trans ((table 0).trans ?_)
    rw [if_pos rfl, getEntry_cutAny_zero]
  · cases c <;> rfl
  · exact congrArg (fun d : Direct => { d with
      pending := [], done := [], directFlushed := d.directFlushed || !(d.pending.isEmpty && d.done.isEmpty) }) dau
  · show { (cutAny s).aiu with queue := [], edges := ((cutAny s).aiu.edges &&& 0x080#11) ||| 0x080#11 } = _
    rw [aiu, edges]
  · obtain ⟨q, given, rfl⟩ := List.mem_map.1 left
    refine ⟨?_, rfl⟩
    rw [cancelAllReads_reads] at given
    obtain ⟨p, -, rfl⟩ := List.mem_map.1 given
    rfl
  · obtain ⟨q, given, rfl⟩ := Option.map_eq_some_iff.1 left
    obtain ⟨p, -, rfl⟩ := Option.map_eq_some_iff.1 given
    exact ⟨rfl, rfl⟩
  · refine (frame.mono (by decide)).trans ?_
    intro b other
    cases b <;> first | rfl | exact absurd (by decide) other

/-! ### RESTART's share of the walker's work (R24, log 26) -/

/-- A turn's end keeps the front of the queue as it is and gives the reserved slots back. -/
theorem endTurn_wq (t : Turn) (stop : Option Cause) (s : State) :
    (endTurn t stop s).wq = { s.wq with items := (endTurn t stop s).wq.items, reserved := 0 } := by
  have joined (b : Bool) (i : WqItem) : (if b = true then enqueue i s else s).wq =
      { s.wq with items := (if b = true then enqueue i s else s).wq.items,
                  reserved := (if b = true then enqueue i s else s).wq.reserved } := by
    split
    · unfold enqueue
      split <;> rfl
    · rfl
  unfold endTurn
  dsimp only
  split <;> exact (congrArg (fun q : WriteQueue => { q with reserved := 0 }) (joined _ _))

theorem enqueue_wq (i : WqItem) (s : State) :
    (enqueue i s).wq = { s.wq with items := (enqueue i s).wq.items, reserved := (enqueue i s).wq.reserved } := by
  unfold enqueue
  split <;> rfl

/-- Without a visit, skip steps or a stop a turn's end writes nothing (R81). -/
theorem endTurn_items_of_silent {t : Turn} (silent : (if t.made = 0 then none else t.last) = none) (plain : t.skipping = none)
    (s : State) : (endTurn t none s).wq.items = s.wq.items := by
  unfold endTurn
  dsimp only
  rw [silent, plain]
  split <;> rfl

/-- The end of an unfinished or finished skip as a turn's end. -/
theorem finishSkip_wq (t : Turn) (link : Word) (complete : Bool) (s : State) : (finishSkip t link complete s).wq =
    { s.wq with items := (finishSkip t link complete s).wq.items, reserved := 0 } := by
  unfold finishSkip
  rw [endTurn_wq, enqueue_wq]

theorem finishSkip_walk (t : Turn) (link : Word) (complete : Bool) (s : State) : (finishSkip t link complete s).walk =
    { s.walk with hand := .nothing, waiting := false, pass := if t.inPass then s.walk.pass.map (fun p =>
      { p with prev := some t.addr, next := t.head.w0, fetched := p.fetched + 1 }) else s.walk.pass } := by
  unfold finishSkip
  rw [endTurn_walk, enqueue_walk]

/-- The head status word of a turn with skip steps in it (R89). -/
theorem headStatusWord_skips (w3 : Word) (visit : Option XOutcome) (skipping : Bool) :
    let w := headStatusWord w3 visit (some skipping) none
    w.getLsbD 1 = skipping ∧ w.extractLsb' 16 8 = w3.extractLsb' 16 8 + (if visit.isSome then 1#8 else 0#8) ∧
      w.getLsbD 0 = w3.getLsbD 0 ∧ (∀ o, visit = some o → w.extractLsb' 8 4 = outcomeCode o) := by
  intro w
  cases visit with
  | some o =>
    obtain ⟨visits, outcome, skips, stopped, -⟩ := headStatusWord_visit w3 o (some skipping) none
    exact ⟨skips, visits, stopped.trans (Bool.false_or _), fun p same => by cases same; exact outcome⟩
  | none =>
    have flag : (flagBit skipping)[0] = skipping := by cases skipping <;> rfl
    simp [w, headStatusWord, extractLsb'_putField_apart, getElem_putField, flag]

/-- The two writes of a skip's end, where the queue has room for both (R89). -/
theorem finishSkip_items (t : Turn) (link : Word) (complete : Bool) {s : State} (room : s.wq.items.length + 2 ≤ 32) :
    let visit := if t.made = 0 then none else t.last
    (finishSkip t link complete s).wq.items = s.wq.items ++ [.link t.addr link t.head.w0,
      .status t.addr (headStatusWord t.head.w3 visit (some !complete) none) t.cls (headEntry t.head)
        (visit.isSome && headNotifyVisit t.head) none t.head.w0] := by
  have joined := enqueue_items_of_room (s := s) (.link t.addr link t.head.w0) (.inl (by omega))
  unfold finishSkip
  rw [endTurn_items _ none (.inl (by rw [joined]; simp; omega)), joined]
  simp [headEntry, headNotifyVisit]

theorem handAtRestart_shape (s : State) :
    (handAtRestart s).walk = { s.walk with hand := (handAtRestart s).walk.hand, waiting := (handAtRestart s).walk.waiting,
                                           pass := (handAtRestart s).walk.pass } ∧
      (handAtRestart s).wq = { s.wq with items := (handAtRestart s).wq.items, reserved := (handAtRestart s).wq.reserved } := by
  have ends (t : Turn) := And.intro (endTurn_walk t none s) (endTurn_wq t none s)
  unfold handAtRestart
  split
  case h_1 t turn =>
    split
    · exact ⟨rfl, rfl⟩
    · exact ⟨rfl, rfl⟩
    · exact ⟨rfl, rfl⟩
    · exact ⟨by rw [finishSkip_walk], by rw [finishSkip_wq]⟩
    · exact ⟨by rw [endTurn_walk], by rw [endTurn_wq]⟩
    · exact ⟨by rw [endTurn_walk], by rw [endTurn_wq]⟩
    · exact ⟨by rw [endTurn_walk], by rw [endTurn_wq]⟩
  case h_2 => exact ⟨rfl, rfl⟩

/-- Settles O18: `handAtRestart`, phase by phase. -/
theorem restartBeginsItsWait : Obligations.RestartBeginsItsWait := by
  intro w s out command op ok
  obtain ⟨b, begun⟩ : ∃ b, b = setLook .nothing (cancelAllReads { s with
    seq := { s.seq with command := none, restartInHand := true, restartFaulted := false } }) := ⟨_, rfl⟩
  have accepted : exec .restart s = .next (acceptRestart w s) := exec_of_accepted rfl out command op ok
  rw [show acceptRestart w s = handAtRestart b by rw [begun]; rfl] at accepted
  have walk : b.walk = { s.walk with look := .nothing } := by rw [begun]; rfl
  have wq : b.wq = s.wq := by rw [begun]; rfl
  have frame : OnlyChanges [.seq, .hport, .walk] s b := by
    rw [begun]
    intro c other
    cases c <;> first | rfl | exact absurd (by decide) other
  have hand {u : Turn} (turn : s.walk.hand = .turn u) : b.walk.hand = .turn u := by rw [walk]; exact turn
  have later := handAtRestart_only b
  obtain ⟨walkShape, wqShape⟩ := handAtRestart_shape b
  refine ⟨_, accepted, (later .seq (by decide)).trans (by rw [begun]; rfl),
    (later .hport (by decide)).trans ?_, walkShape.trans ?_, wqShape.trans ?_, fun u turn goesOn => ?_, fun none => ?_,
    fun u turn => ?_, (frame.mono (by decide)).trans (later.mono (by decide))⟩
  · rw [begun]
    exact congrArg (fun r => { s.hport with reads := r }) (cancelAllReads_reads _)
  · rw [walk]
  · rw [wq]
  · have stays : handAtRestart b = b := by
      unfold handAtRestart
      rw [hand turn]
      obtain under | ⟨code, n, snap, got⟩ | ⟨link, snap, got⟩ := goesOn
      · simp only [under]
      · simp only [got]
      · simp only [got]
    rw [stays]
    exact ⟨walk, wq⟩
  · have given : handAtRestart b = setHand .nothing (releaseSlots b) := by
      unfold handAtRestart
      split
      case h_1 u turn => exact absurd (by rw [walk] at turn; exact turn) (none u)
      case h_2 => rfl
    rw [given]
    exact ⟨congrArg (fun k : Walker => { k with hand := .nothing }) walk,
      congrArg (fun q : WriteQueue => { q with reserved := 0 }) wq⟩
  · intro visit status ended
    refine ⟨fun waits plain => ?_, fun link skips room => ?_⟩
    · have ends : handAtRestart b = endTurn u .none b := by
        unfold handAtRestart
        rw [hand turn]
        obtain got | got | ⟨code, n, got⟩ := waits
        · simp only [got]
        · simp only [got]
        · simp only [got]
      have isOver : ended := by
        refine ⟨?_, ?_, ?_⟩
        · rw [ends, endTurn_walk]
        · rw [ends, endTurn_wq]
        · rw [ends, endTurn_walk, walk]
      refine ⟨isOver, fun silent => ?_, fun o ended' room => ⟨_, ?_, visitWord_headStatusWord u o .none⟩⟩
      · rw [ends, endTurn_items_of_silent silent plain, wq]
      · rw [ends, endTurn_items u .none (by rw [wq]; exact .inl room), wq, plain]
        simp only [visit] at ended'
        simp [ended', status, visit]
    · have ends : handAtRestart b = finishSkip u link false b := by
        unfold handAtRestart
        rw [hand turn]
        simp only [skips]
      obtain ⟨skipping, visits, stopped, outcome⟩ := headStatusWord_skips u.head.w3 visit true
      refine ⟨?_, _, ?_, skipping, visits, stopped, outcome⟩
      · refine ⟨?_, ?_, ?_⟩
        · rw [ends, finishSkip_walk]
        · rw [ends, finishSkip_wq]
        · rw [ends, finishSkip_walk, walk]
      · rw [ends, finishSkip_items u link false (by rw [wq]; exact room), wq]
        rfl

end Sys2Proof.Machine
end

section
/-! SUPPORT. A segment leaves its state (R36, R38, R43, R44): the CUT, the change, the fall to READY. -/

namespace Sys2Proof.Machine

/-! ### The items a turn's end adds -/

theorem enqueue_items_or (i : WqItem) (s : State) :
    (enqueue i s).wq.items = s.wq.items ∨ (enqueue i s).wq.items = s.wq.items ++ [i] := by
  unfold enqueue
  split
  · exact .inl rfl
  · exact .inr rfl

theorem endTurn_items_or (t : Turn) (stop : Option Cause) (s : State) :
    (endTurn t stop s).wq.items = s.wq.items ∨ ∃ i, (endTurn t stop s).wq.items = s.wq.items ++ [i] := by
  have joined (b : Bool) (i : WqItem) : (if b = true then enqueue i s else s).wq.items = s.wq.items ∨
      ∃ j, (if b = true then enqueue i s else s).wq.items = s.wq.items ++ [j] := by
    split
    · exact (enqueue_items_or i s).imp_right fun h => ⟨i, h⟩
    · exact .inl rfl
  unfold endTurn
  dsimp only
  split <;> exact joined _ _

/-- A turn that waits for the next exchange of its burst: the one that a decision given up ends (R97, log 23). -/
def burstWaits (s : State) : Prop := ∃ t, s.walk.hand = .turn t ∧ (t.phase = .burstFetch ∨ t.phase = .burstReady)

/-- A decision given up leaves the queue and the pass alone, unless it ends a waiting burst with its one write. -/
theorem abandonDecision_queue (s : State) :
    ((abandonDecision s).wq.items = s.wq.items ∧ (abandonDecision s).walk.pass = s.walk.pass) ∨
      (burstWaits s ∧ ∃ i, (abandonDecision s).wq.items = s.wq.items ++ [i]) ∨
      (burstWaits s ∧ (abandonDecision s).wq.items = s.wq.items) := by
  have ends {t : Turn} (turn : s.walk.hand = .turn t) (waits : t.phase = .burstFetch ∨ t.phase = .burstReady) :=
    endTurn_items_or t none (cancelReads decisionReader (setLook .nothing s))
  unfold abandonDecision
  dsimp only
  split
  case h_1 => exact .inl ⟨rfl, rfl⟩
  case h_2 t turn =>
    split
    case h_1 fetch =>
      obtain same | more := ends turn (.inl fetch)
      · exact .inr (.inr ⟨⟨t, turn, .inl fetch⟩, same⟩)
      · exact .inr (.inl ⟨⟨t, turn, .inl fetch⟩, more⟩)
    case h_2 ready =>
      obtain same | more := ends turn (.inr ready)
      · exact .inr (.inr ⟨⟨t, turn, .inr ready⟩, same⟩)
      · exact .inr (.inl ⟨⟨t, turn, .inr ready⟩, more⟩)
    case h_3 => exact .inl ⟨rfl, rfl⟩
  case h_3 => exact .inl ⟨rfl, rfl⟩

theorem setCtrl_queue (c : CtrlState) (s : State) :
    ((setCtrl c s).wq.items = s.wq.items ∧ (setCtrl c s).walk.pass = s.walk.pass) ∨
      (burstWaits s ∧ ∃ i, (setCtrl c s).wq.items = s.wq.items ++ [i]) ∨
      (burstWaits s ∧ (setCtrl c s).wq.items = s.wq.items) := by
  unfold setCtrl
  split
  · exact .inl ⟨rfl, rfl⟩
  · dsimp only
    split
    · exact .inl ⟨rfl, rfl⟩
    · exact abandonDecision_queue _

theorem setCtrl_hand_of_idle {s : State} (c : CtrlState) (idle : s.walk.hand = .nothing) :
    (setCtrl c s).walk.hand = .nothing := by
  unfold setCtrl
  split
  · exact idle
  · dsimp only
    split
    · exact idle
    · rw [abandonDecision_of_idle (by exact idle)]
      exact idle

/-! ### The fall to READY (R27) -/

theorem fallIfLast_eq (wasLive : Bool) (s : State) :
    fallIfLast wasLive s = s ∨ (fallIfLast wasLive s = setCtrl .ready s ∧ s.seq.state ≠ .ready) := by
  unfold fallIfLast
  split
  case isTrue falls =>
    refine .inr ⟨rfl, fun ready => ?_⟩
    simp [ready] at falls
  case isFalse => exact .inl rfl

theorem fallIfLast_raises (wasLive : Bool) (s : State) : OnlyRaises s (fallIfLast wasLive s) := by
  obtain same | ⟨falls, -⟩ := fallIfLast_eq wasLive s
  · rw [same]
    exact .refl s
  · rw [falls]
    exact setCtrl_raises .ready s

theorem fallIfLast_queue (wasLive : Bool) (s : State) :
    ((fallIfLast wasLive s).wq.items = s.wq.items ∧ (fallIfLast wasLive s).walk.pass = s.walk.pass) ∨
      (burstWaits s ∧ ∃ i, (fallIfLast wasLive s).wq.items = s.wq.items ++ [i]) ∨
      (burstWaits s ∧ (fallIfLast wasLive s).wq.items = s.wq.items) := by
  obtain same | ⟨falls, -⟩ := fallIfLast_eq wasLive s
  · rw [same]
    exact .inl ⟨rfl, rfl⟩
  · rw [falls]
    exact setCtrl_queue .ready s

/-! ### The CUT of an event on a segment (R115) -/

theorem cutOn_of_segment {s : State} {g : Seg} {x : Exchange} (busy : s.xeng = some x) (here : x.segment = g) :
    cutOn g s = finish .cut x s := by
  unfold cutOn
  split
  case h_1 y engine =>
    cases busy.symm.trans engine
    exact if_pos here
  case h_2 free => cases busy.symm.trans free

theorem cutOn_xeng (g : Seg) (s : State) : (cutOn g s).xeng = if exchangeOn s g then none else s.xeng := by
  by_cases on : exchangeOn s g = true
  · rw [if_pos on]
    unfold exchangeOn at on
    split at on
    case h_1 x busy =>
      rw [cutOn_of_segment busy (by simpa using on)]
      exact finish_xeng .cut x s
    case h_2 => cases on
  · rw [if_neg on, cutOn_of_other (Bool.eq_false_iff.2 on)]

theorem cutsEntry_of_busy {s : State} {x : Exchange} (busy : s.xeng = some x) (g : Seg) (i : EntryIx) :
    cutsEntry s g i = (x.segment == g && x.entry == i) := by
  unfold cutsEntry
  rw [busy]

theorem cutsEntry_of_free {s : State} (free : s.xeng = none) (g : Seg) (i : EntryIx) : cutsEntry s g i = false := by
  unfold cutsEntry
  rw [free]

theorem exchangeOn_of_busy {s : State} {x : Exchange} (busy : s.xeng = some x) (g : Seg) :
    exchangeOn s g = (x.segment == g) := by
  unfold exchangeOn
  rw [busy]

theorem exchangeOn_of_free {s : State} (free : s.xeng = none) (g : Seg) : exchangeOn s g = false := by
  unfold exchangeOn
  rw [free]

theorem getEntry_cutOn (g : Seg) (s : State) (i : EntryIx) (ne : i ≠ 0) : getEntry (cutOn g s) i =
    if cutsEntry s g i then { getEntry s i with fenceGranted := (getEntry s i).fence } else getEntry s i := by
  cases engine : s.xeng with
  | none =>
    rw [cutOn_of_other (exchangeOn_of_free engine g), cutsEntry_of_free engine, if_neg Bool.false_ne_true]
  | some x =>
    rw [cutsEntry_of_busy engine]
    by_cases here : x.segment = g
    · rw [cutOn_of_segment engine here, getEntry_finish_cut, beq_iff_eq.mpr here, Bool.true_and]
      by_cases own : x.entry = i
      · rw [if_pos ⟨own.symm, ne⟩, if_pos (beq_iff_eq.mpr own)]
      · rw [if_neg (fun h => own h.1.symm), if_neg (mt beq_iff_eq.mp own)]
    · have apart : (x.segment == g) = false := beq_eq_false_iff_ne.mpr here
      rw [cutOn_of_other ((exchangeOn_of_busy engine g).trans apart), apart, Bool.false_and, if_neg Bool.false_ne_true]

theorem getEntry_cutOn_zero (g : Seg) (s : State) : getEntry (cutOn g s) 0 = getEntry s 0 := by
  unfold cutOn
  split
  · split
    · rw [getEntry_finish_cut, if_neg (fun h => h.2 rfl)]
    · rfl
  · rfl

/-- A CUT adds at most the status write of its visit, and then the hand is empty. -/
theorem finish_cut_queue (x : Exchange) (s : State) : (finish .cut x s).wq.items = s.wq.items ∨
    ((finish .cut x s).walk.hand = .nothing ∧ ∃ i, (finish .cut x s).wq.items = s.wq.items ++ [i]) := by
  have before := settledEnd_cut_only x s
  have wq : (settledEnd .cut x s).wq = s.wq := before .wq (by decide)
  have walked : (finish .cut x s).walk = (handOver x .cut (haltsByStrike x .cut s) (settledEnd .cut x s)).walk :=
    grantFence_only _ _ .walk (by decide)
  have queued : (finish .cut x s).wq = (handOver x .cut (haltsByStrike x .cut s) (settledEnd .cut x s)).wq :=
    grantFence_only _ _ .wq (by decide)
  rw [walked, queued, ← wq]
  unfold handOver
  split
  · rw [directOutcome_cut]
    exact .inl rfl
  · unfold ringOutcome
    split
    case h_1 t turn =>
      dsimp only
      split
      · exact .inl rfl
      · obtain same | ⟨i, more⟩ := endTurn_items_or { t with made := t.made + 1, last := some .cut } none (settledEnd .cut x s)
        · exact .inl same
        · exact .inr ⟨by rw [endTurn_walk], i, more⟩
    case h_2 => exact .inl rfl

theorem cutOn_queue (g : Seg) (s : State) : (cutOn g s).wq.items = s.wq.items ∨
    ((cutOn g s).walk.hand = .nothing ∧ ∃ i, (cutOn g s).wq.items = s.wq.items ++ [i]) := by
  unfold cutOn
  split
  · split
    · exact finish_cut_queue _ s
    · exact .inl rfl
  · exact .inl rfl

/-! ### The whole change -/

/-- Segment `g` has left its state in `u`, with the exchange on it CUT, before the fall to READY. -/
structure Left (g : Seg) (f : Entry → Entry) (s u : State) : Prop where
  walk : u.walk = { (cutOn g s).walk with waiting := false }
  entries : ∀ i, i ≠ 0 → getEntry u i = f (getEntry (cutOn g s) i)
  null : getEntry u 0 = getEntry (cutOn g s) 0
  raises : OnlyRaises s u
  seg : u.aiu.edges.getLsbD 6 = true
  dead : liveMode (getSeg u g).mode = false
  frame : OnlyChanges [segBlock g, .table, .walk, .aiu, .elog] (cutOn g s) u

theorem Left.other {g : Seg} {f : Entry → Entry} {s u : State} (h : Left g f s u) :
    getSeg u (otherSeg g) = getSeg s (otherSeg g) := by
  refine (getSeg_of_only h.frame ?_).trans (getSeg_of_only (cutOn_only g s) ?_)
  · cases g <;> decide
  · cases g <;> decide

theorem Left.anyLive {g : Seg} {f : Entry → Entry} {s u : State} (h : Left g f s u) :
    anyLive u = segLive s (otherSeg g) := by
  have dead := h.dead
  have other := h.other
  cases g
  · show (liveMode (getSeg u .a).mode || liveMode (getSeg u (otherSeg .a)).mode) = _
    rw [dead, other]
    rfl
  · show (liveMode (getSeg u (otherSeg .b)).mode || liveMode (getSeg u .b).mode) = _
    rw [dead, other, Bool.or_false]
    rfl

section
variable {g : Seg} {f : Entry → Entry} {s u : State}

theorem Left.seq (h : Left g f s u) : u.seq = s.seq :=
  (h.frame .seq (by cases g <;> decide)).trans (cutOn_only g s .seq (by decide))

theorem Left.wq (h : Left g f s u) : u.wq = (cutOn g s).wq := h.frame .wq (by cases g <;> decide)

theorem Left.stage (h : Left g f s u) : u.stage = (cutOn g s).stage := h.frame .stage (by cases g <;> decide)

theorem Left.hand (h : Left g f s u) : u.walk.hand = (cutOn g s).walk.hand := by rw [h.walk]

theorem Left.pass (h : Left g f s u) : u.walk.pass = (cutOn g s).walk.pass := by rw [h.walk]

/-- The state as the row leaves it: the fall to READY, then the queue goes on. -/
theorem Left.afterSeq (h : Left g f s u) : (pumpQueue (fallIfLast (segLive s g) u)).seq = { s.seq with
    state := if segLive s g = true ∧ segLive s (otherSeg g) = false ∧ s.seq.restartInHand = false ∧
      (s.seq.state = .armed ∨ s.seq.state = .running ∨ s.seq.state = .stopping) then .ready else s.seq.state } := by
  rw [pumpQueue_seq, fallIfLast_seq, h.anyLive, h.seq]

theorem Left.rings (h : Left g f s u) : SameRings s (pumpQueue (fallIfLast (segLive s g) u)) := by
  refine (cutOn_rings g s).trans (SameRings.trans ?_ ((fallIfLast_rings _ u).trans (.of_walk (pumpQueue_walk _))))
  constructor <;> rw [h.walk]

theorem Left.tellsSeq (h : Left g f s u) (moved : (pumpQueue (fallIfLast (segLive s g) u)).seq.state ≠ s.seq.state) :
    (pumpQueue (fallIfLast (segLive s g) u)).aiu.edges.getLsbD 7 = true := by
  obtain same | ⟨falls, on⟩ := fallIfLast_eq (segLive s g) u
  · rw [same, pumpQueue_seq, h.seq] at moved
    exact absurd rfl moved
  · refine (pumpQueue_raises _).2 7 ?_
    rw [falls]
    exact setCtrl_sets_seq on

/-- Where the state stays no decision is given up. -/
theorem Left.stays (h : Left g f s u) (same : (pumpQueue (fallIfLast (segLive s g) u)).seq.state = s.seq.state) :
    fallIfLast (segLive s g) u = u := by
  obtain still | ⟨falls, on⟩ := fallIfLast_eq (segLive s g) u
  · exact still
  · rw [falls, pumpQueue_seq, setCtrl_seq] at same
    rw [h.seq] at on
    exact absurd same.symm on

/-- At most one write joins the queue: the status write of the visit cut, or of a burst that waits. -/
theorem Left.queue (h : Left g f s u) :
    (pumpQueue (fallIfLast (segLive s g) u)).wq.items.take s.wq.items.length = s.wq.items ∧
      (pumpQueue (fallIfLast (segLive s g) u)).wq.items.length ≤ s.wq.items.length + 1 := by
  have one {l m : List WqItem} (j : WqItem) (same : l = m ++ [j]) : l.take m.length = m ∧ l.length ≤ m.length + 1 := by
    rw [same]
    simp
  have none {l m : List WqItem} (same : l = m) : l.take m.length = m ∧ l.length ≤ m.length + 1 := by
    rw [same]
    simp
  have kept (same : (fallIfLast (segLive s g) u).wq.items = u.wq.items) :
      (fallIfLast (segLive s g) u).wq.items.take s.wq.items.length = s.wq.items ∧
        (fallIfLast (segLive s g) u).wq.items.length ≤ s.wq.items.length + 1 := by
    rw [same, h.wq]
    obtain same | ⟨-, j, more⟩ := cutOn_queue g s
    · exact none same
    · exact one j more
  rw [pumpQueue_items]
  obtain ⟨fallen, -⟩ | ⟨⟨t, turn, -⟩, i, more⟩ | ⟨-, fallen⟩ := fallIfLast_queue (segLive s g) u
  · exact kept fallen
  · rw [more, h.wq]
    obtain same | ⟨idle, -⟩ := cutOn_queue g s
    · rw [same]
      exact one i rfl
    · rw [h.hand, idle] at turn
      cases turn
  · exact kept fallen

/-- With no exchange on the segment and no burst given up, the queue and the pass are left alone. -/
theorem Left.calm (h : Left g f s u) (free : exchangeOn s g = false)
    (calm : (pumpQueue (fallIfLast (segLive s g) u)).seq.state = s.seq.state ∨
      ∀ t, s.walk.hand = .turn t → t.phase ≠ .burstFetch ∧ t.phase ≠ .burstReady) :
    (pumpQueue (fallIfLast (segLive s g) u)).wq.items = s.wq.items ∧
      (pumpQueue (fallIfLast (segLive s g) u)).walk.pass = s.walk.pass := by
  have still := cutOn_of_other free
  rw [pumpQueue_items, pumpQueue_walk]
  have kept (items : (fallIfLast (segLive s g) u).wq.items = u.wq.items)
      (passes : (fallIfLast (segLive s g) u).walk.pass = u.walk.pass) :
      (fallIfLast (segLive s g) u).wq.items = s.wq.items ∧ (fallIfLast (segLive s g) u).walk.pass = s.walk.pass := by
    rw [items, passes, h.wq, h.pass, still]
    exact ⟨rfl, rfl⟩
  have waits (burst : burstWaits u) : fallIfLast (segLive s g) u = u := by
    obtain ⟨t, turn, phase⟩ := burst
    rw [h.hand, still] at turn
    obtain same | none := calm
    · exact h.stays same
    · exact absurd phase (not_or.2 (none t turn))
  obtain ⟨items, passes⟩ | ⟨burst, -⟩ | ⟨burst, -⟩ := fallIfLast_queue (segLive s g) u
  · exact kept items passes
  · exact kept (by rw [waits burst]) (by rw [waits burst])
  · exact kept (by rw [waits burst]) (by rw [waits burst])

theorem Left.ends (h : Left g f s u) {x : Exchange} (busy : s.xeng = some x) (here : x.segment = g) :
    CutEndsTheVisit x s (pumpQueue (fallIfLast (segLive s g) u)) := by
  have left : CutEndsTheVisit x s (cutOn g s) := cutOn_of_segment busy here ▸ finish_cut_ends x s
  refine left.of_same rfl rfl rfl ?_ ?_ fun idle => ?_
  · rw [pumpQueue_stage, fallIfLast_only _ u .stage (by decide), h.stage]
  · rw [h.rings.slots, (cutOn_rings g s).slots]
  · rw [pumpQueue_walk, pumpQueue_items]
    have idle' : u.walk.hand = .nothing := h.hand.trans idle
    have gone : (fallIfLast (segLive s g) u).walk.hand = .nothing := by
      obtain same | ⟨falls, -⟩ := fallIfLast_eq (segLive s g) u
      · rw [same]
        exact idle'
      · rw [falls]
        exact setCtrl_hand_of_idle .ready idle'
    have noBurst : ¬ burstWaits u := by
      rintro ⟨t, turn, -⟩
      rw [idle'] at turn
      cases turn
    obtain ⟨items, passes⟩ | ⟨burst, -⟩ | ⟨burst, -⟩ := fallIfLast_queue (segLive s g) u
    · exact ⟨gone, by rw [items, h.wq], by rw [passes, h.pass]⟩
    · exact absurd burst noBurst
    · exact absurd burst noBurst

theorem Left.leaves (h : Left g f s u) :
    LeavesSegment g (getSeg u g) f s (pumpQueue (fallIfLast (segLive s g) u)) := by
  have fall := fallIfLast_only (segLive s g) u
  have table : (pumpQueue (fallIfLast (segLive s g) u)).table = u.table := (pumpQueue_table _).trans (fall .table (by decide))
  have raises := (fallIfLast_raises (segLive s g) u).trans (pumpQueue_raises _)
  refine {
    segment := (getSeg_of_only (pumpQueue_only _) (by cases g <;> decide)).trans (getSeg_of_only fall (by cases g <;> decide))
    engine := (pumpQueue_xeng _).trans ((fall .xeng (by decide)).trans
      ((h.frame .xeng (by cases g <;> decide)).trans (cutOn_xeng g s)))
    entries := fun i ne => by rw [getEntry_of_table table, h.entries i ne, getEntry_cutOn g s i ne]
    null := by rw [getEntry_of_table table, h.null, getEntry_cutOn_zero]
    controller := h.afterSeq
    raises := h.raises.trans raises
    seg := raises.2 6 h.seg
    seq := h.tellsSeq
    slots := fun i => getSlot_of_same h.rings.slots i
    rings := ⟨h.rings.service, h.rings.bulk, h.rings.latched, h.rings.anchorReg, h.rings.anchorWritten⟩
    cycle := ⟨h.rings.window, h.rings.timedDone, h.rings.streamDone, h.rings.aperiodicOver⟩
    queue := h.queue
    untouched := fun free => ⟨?_, fun same => ?_, h.calm free⟩
    cut := fun x busy here => h.ends busy here
    frame := ?_ }
  · rw [pumpQueue_stage, fall .stage (by decide), h.stage, cutOn_of_other free]
  · rw [pumpQueue_walk, pumpQueue_reserved, h.stays same, h.walk, h.wq, cutOn_of_other free]
    exact ⟨rfl, rfl⟩
  · refine ((cutOn_only g s).mono ?_).trans ((h.frame.mono ?_).trans ((fall.mono ?_).trans ((pumpQueue_only _).mono ?_)))
    · simp [cutBlocks]
    · simp
    · simp
    · simp

end

end Sys2Proof.Machine
end

section
/-! SUPPORT. The segment operations and line events (R34 to R46, R156, R158). -/

namespace Sys2Proof.Machine

/-! ### A segment's change with its SEG edge -/

/-- Segment `g` becomes `v`, which sets SEG and is an event of R95. -/
def settleSeg (g : Seg) (v : Segment) (s : State) : State := wakeWalker (setEdge irqSeg (setSeg g v s))

theorem setMode_eq_settleSeg (g : Seg) (m : SegMode) (s : State) :
    setMode g m s = settleSeg g ((getSeg s g).changedTo m) s := rfl

theorem getSeg_settleSeg (g : Seg) (v : Segment) (s : State) : getSeg (settleSeg g v s) g = v := by cases g <;> rfl

theorem settleSeg_only (g : Seg) (v : Segment) (s : State) : OnlyChanges [segBlock g, .aiu, .walk] s (settleSeg g v s) := by
  intro b other
  cases g <;> cases b <;> first | rfl | exact absurd (by decide) other

theorem settleSeg_aiu (g : Seg) (v : Segment) (s : State) :
    (settleSeg g v s).aiu = { s.aiu with edges := s.aiu.edges ||| 0x040#11 } := by cases g <;> rfl

theorem settleSeg_walk (g : Seg) (v : Segment) (s : State) : (settleSeg g v s).walk = { s.walk with waiting := false } := by
  cases g <;> rfl

theorem getSeg_cutOn (g h : Seg) (s : State) : getSeg (cutOn g s) h = getSeg s h :=
  getSeg_of_only (cutOn_only g s) (by cases h <;> decide)

/-- A segment silenced and moved is the segment without its beacon in the new mode. -/
theorem setMode_silenceSegment (g : Seg) (m : SegMode) (s : State) : setMode g m (silenceSegment g s) =
    settleSeg g { (getSeg s g).changedTo m with beacon := none } (cutOn g s) := by
  rw [← getSeg_cutOn g g s]
  cases g <;> rfl

theorem setMode_clearQuarantine_silenceSegment (g : Seg) (m : SegMode) (s : State) :
    setMode g m (clearQuarantine g (silenceSegment g s)) =
      settleSeg g { (getSeg s g).changedTo m with beacon := none, quarantined := false } (cutOn g s) := by
  rw [← getSeg_cutOn g g s]
  cases g <;> rfl

/-- A change of mode behind the CUT. -/
theorem left_settleSeg (g : Seg) (v : Segment) (s : State) (dead : liveMode v.mode = false) :
    Left g id s (settleSeg g v (cutOn g s)) where
  walk := settleSeg_walk g v _
  entries i _ := getEntry_of_table (settleSeg_only g v _ .table (by cases g <;> decide)) i
  null := getEntry_of_table (settleSeg_only g v _ .table (by cases g <;> decide)) 0
  raises := by
    have aiu : (cutOn g s).aiu = s.aiu := cutOn_only g s .aiu (by decide)
    refine (OnlyRaises.of_aiu aiu).trans (.of_edge (i := 6) ?_)
    exact settleSeg_aiu g v _
  seg := by
    rw [settleSeg_aiu]
    simp
  dead := by rw [getSeg_settleSeg, dead]
  frame := (settleSeg_only g v _).mono (by simp)

theorem Left.mapEntries {g : Seg} {s u : State} (h : Left g id s u) (f : Entry → Entry) : Left g f s (mapEntries f u) where
  walk := h.walk
  entries i ne := by rw [getEntry_mapEntries, if_neg ne, h.entries i ne]; rfl
  null := by rw [getEntry_mapEntries, if_pos rfl, h.null]
  raises := h.raises
  seg := h.seg
  dead := by cases g <;> exact h.dead
  frame := h.frame.trans ((mapEntries_only f u).mono (by simp))

theorem fallIfLast_pump_elog (wasLive : Bool) (s : State) : (pumpQueue (fallIfLast wasLive s)).elog = s.elog :=
  (pumpQueue_elog _).trans (fallIfLast_only wasLive s .elog (by decide))

theorem settleSeg_cutOn_elog (g : Seg) (v : Segment) (s : State) : (settleSeg g v (cutOn g s)).elog = s.elog :=
  (settleSeg_only g v _ .elog (by cases g <;> decide)).trans (cutOn_only g s .elog (by decide))

/-! ### The rows outside OFFLINE -/

theorem next_unlessOffline {s : State} (out : awake s) (on : s.seq.state ≠ .offline) (f : State → State) :
    (.next (unlessHeld (unlessOffline f) s) : Host.Outcome State Fault Refusal) = .next (f s) := by
  rw [next_unlessHeld out]
  exact congrArg _ (if_neg on)

/-! ### RESET, DISABLE -/

theorem resetEntry_eq_zeroedBy (g : Seg) : resetEntry g = zeroedBy g := by
  funext e
  unfold resetEntry zeroedBy
  simp only [Bool.and_eq_true, beq_iff_eq]

/-- Settles O24. -/
theorem resetEntersResetting : Obligations.ResetEntersResetting := by
  intro g s out on mode
  have takes : takesReset (getSeg s g).mode = true := by
    obtain h | h | h | h := mode <;> rw [h] <;> rfl
  have row : segReset g s = pumpQueue (fallIfLast (segLive s g) (mapEntries (zeroedBy g)
      (settleSeg g { (getSeg s g).changedTo .resetting with beacon := none } (cutOn g s)))) := by
    unfold segReset
    rw [if_pos takes, resetEntry_eq_zeroedBy, setMode_silenceSegment]
  have left := (left_settleSeg g { (getSeg s g).changedTo .resetting with beacon := none } s rfl).mapEntries (zeroedBy g)
  have seg : getSeg (mapEntries (zeroedBy g) (settleSeg g { (getSeg s g).changedTo .resetting with beacon := none } (cutOn g s))) g =
      { (getSeg s g).changedTo .resetting with beacon := none } := by cases g <;> rfl
  have leaves := left.leaves
  rw [seg] at leaves
  refine ⟨_, (next_unlessOffline out on _).trans (congrArg _ row), leaves, ?_, ?_⟩
  · rw [leaves.segment]
    rfl
  · rw [fallIfLast_pump_elog, mapEntries_elog, settleSeg_cutOn_elog]

/-- Settles O25. -/
theorem disableEntersDark : Obligations.DisableEntersDark := by
  intro g s out on
  refine ⟨fun dark => (next_unlessOffline out on _).trans (congrArg _ (if_pos dark)), fun lit => ?_⟩
  have row : segDisable g s = pumpQueue (fallIfLast (segLive s g)
      (settleSeg g { (getSeg s g).changedTo .dark with beacon := none, quarantined := false } (cutOn g s))) := by
    unfold segDisable
    rw [if_neg lit, setMode_clearQuarantine_silenceSegment]
  have leaves := (left_settleSeg g { (getSeg s g).changedTo .dark with beacon := none, quarantined := false } s rfl).leaves
  rw [getSeg_settleSeg] at leaves
  refine ⟨_, (next_unlessOffline out on _).trans (congrArg _ row), leaves, ?_, ?_⟩
  · rw [leaves.segment]
    rfl
  · rw [fallIfLast_pump_elog, settleSeg_cutOn_elog]

/-! ### A change of bias -/

/-- What a segment's state is before it is left does not matter but for its being live. -/
theorem LeavesSegment.of_setSeg {g : Seg} {v after : Segment} {f : Entry → Entry} {s t : State}
    (h : LeavesSegment g after f (setSeg g v s) t) (live : liveMode v.mode = segLive s g) : LeavesSegment g after f s t := by
  have lives : segLive (setSeg g v s) g = segLive s g := by
    unfold segLive
    rw [getSeg_setSeg_same, live]
    rfl
  have other : segLive (setSeg g v s) (otherSeg g) = segLive s (otherSeg g) := by
    unfold segLive
    rw [getSeg_setSeg_other]
  have controller := h.controller
  rw [lives, other] at controller
  have frame : OnlyChanges [segBlock g, .seq, .table, .walk, .xeng, .stage, .wq, .aiu, .elog, .hport] s t :=
    ((setSeg_only g v s).mono (by simp)).trans h.frame
  cases g <;> exact ⟨h.segment, h.engine, h.entries, h.null, controller, h.raises, h.seg, h.seq, h.slots, h.rings, h.cycle,
    h.queue, h.untouched, h.cut, frame⟩

theorem mode_setBias (g : Seg) (level : Bool) (s : State) : (getSeg (setBias g level s) g).mode = (getSeg s g).mode := by
  cases g <;> rfl

/-- In DARK and FAULTED a change of bias only shows (R35). -/
theorem biasChange_of_dead {g : Seg} {level : Bool} {s : State} (differs : (getSeg s g).bias ≠ level)
    (dead : (getSeg s g).mode = .dark ∨ (getSeg s g).mode = .faulted) : biasChange g level s = setBias g level s := by
  unfold biasChange
  rw [if_neg differs]
  dsimp only
  rw [mode_setBias]
  obtain mode | mode := dead
  · rw [mode]
  · rw [mode]

theorem biasChange_of_idle {g : Seg} {s : State} (differs : (getSeg s g).bias ≠ true) (idle : (getSeg s g).mode = .idle) :
    biasChange g true s = setMode g .present (setBias g true s) := by
  unfold biasChange
  rw [if_neg differs]
  dsimp only
  rw [mode_setBias, idle]

/-- The loss of bias in the other states is a detach (R36). -/
theorem biasChange_of_loss {g : Seg} {s : State} (differs : (getSeg s g).bias ≠ false) (lit : (getSeg s g).mode ≠ .dark)
    (alive : (getSeg s g).mode ≠ .faulted) (moved : (getSeg s g).mode ≠ .idle) :
    biasChange g false s = leaveTo g .idle (setBias g false s) := by
  unfold biasChange
  rw [if_neg differs]
  dsimp only
  rw [mode_setBias]
  cases mode : (getSeg s g).mode with
  | dark => exact absurd mode lit
  | faulted => exact absurd mode alive
  | idle => exact absurd mode moved
  | present | resetting | enabled | dozing | waking => rfl

theorem leaveTo_eq (g : Seg) (m : SegMode) (s : State) : leaveTo g m s = pumpQueue (fallIfLast (segLive s g)
    (settleSeg g { (getSeg s g).changedTo m with beacon := none } (cutOn g s))) := by
  unfold leaveTo
  rw [setMode_silenceSegment]

/-- Settles O26. -/
theorem biasChangeMovesTheSegment : Obligations.BiasChangeMovesTheSegment := by
  intro g level s out differs c
  have row : exec (.biasChange g level) s = .next (biasChange g level s) := next_unlessHeld out _
  refine ⟨fun dead => row.trans (congrArg _ (biasChange_of_dead differs dead)), fun idle up => ?_,
    fun lit alive moved down => ?_⟩
  · subst up
    rw [row, biasChange_of_idle differs idle]
    cases g <;> rfl
  · subst down
    have seg : getSeg (setBias g false s) g = c := getSeg_setSeg_same g c s
    have leaves := (left_settleSeg g { c.changedTo .idle with beacon := none } (setSeg g c s) rfl).leaves
    rw [getSeg_settleSeg] at leaves
    refine ⟨_, row.trans (congrArg _ ?_), leaves.of_setSeg rfl, ?_⟩
    · rw [biasChange_of_loss differs lit alive moved, leaveTo_eq, seg]
      rfl
    · rw [fallIfLast_pump_elog, settleSeg_cutOn_elog]
      cases g <;> rfl

/-! ### Babble -/

theorem babbleWatched_iff (s : State) (g : Seg) : babbleWatched s g = true ↔
    (getSeg s g).mode = .idle ∨ (getSeg s g).mode = .present ∨ (getSeg s g).mode = .enabled ∨ (getSeg s g).mode = .dozing ∨
      ((getSeg s g).mode = .resetting ∧ 2 ≤ (getSeg s g).counted) ∨
      ((getSeg s g).mode = .waking ∧ 1 ≤ (getSeg s g).counted) := by
  unfold babbleWatched
  cases (getSeg s g).mode <;> simp

theorem masterSends_iff (s : State) (g : Seg) (driving : Bool) : masterSends s g driving = true ↔
    (∃ b, (getSeg s g).beacon = some b ∧ (driving = true ∨ b.outlived = false)) ∨
    ∃ x, s.xeng = some x ∧ x.segment = g ∧ (x.phase = .sending ∨ (x.phase = .accepting ∧ driving = true)) := by
  unfold masterSends
  rw [Bool.or_eq_true, beaconGoesOut_iff]
  cases s.xeng <;> simp

/-- The segment as LINE_FAULT leaves it (R44). -/
def faultedSeg (c : Segment) : Segment :=
  { c.changedTo .faulted with beacon := none, quarantined := true, faultSeen := true }

/-- What watched babble makes of the state before the fall to READY. -/
def babbled (g : Seg) (s : State) : State :=
  offerBus codeLineFault (some g) (cutEntry s g) (flagFault g (setMode g .faulted (silenceSegment g s)))

theorem flagFault_setMode_silenceSegment (g : Seg) (s : State) : flagFault g (setMode g .faulted (silenceSegment g s)) =
    setEdge irqSeg (settleSeg g { (getSeg s g).changedTo .faulted with beacon := none, faultSeen := true } (cutOn g s)) := by
  rw [setMode_silenceSegment]
  cases g <;> rfl

/-- A quarantine is an event of R95 and nothing more to the walker. -/
theorem quarantine_walk (g : Seg) (s : State) :
    (quarantine g s).walk = s.walk ∨ (quarantine g s).walk = { s.walk with waiting := false } := by
  unfold quarantine
  split
  · exact .inl rfl
  · exact .inr (by cases g <;> rfl)

theorem offerBus_walk (c : BitVec 8) (g : Seg) (i : EntryIx) (s : State) :
    (offerBus c (some g) i s).walk = s.walk ∨ (offerBus c (some g) i s).walk = { s.walk with waiting := false } := by
  unfold offerBus
  dsimp only
  split
  · exact quarantine_walk g _
  · exact .inl rfl

theorem getSeg_babbled (g : Seg) (s : State) : getSeg (babbled g s) g = faultedSeg (getSeg s g) := by
  unfold babbled
  rw [getSeg_offerBus, flagFault_setMode_silenceSegment]
  cases g <;> simp [faultedSeg, getSeg, settleSeg, setSeg, setEdge, wakeWalker, codeLineFault, fatalCode]

theorem left_babbled (g : Seg) (s : State) : Left g id s (babbled g s) := by
  have left := left_settleSeg g { (getSeg s g).changedTo .faulted with beacon := none, faultSeen := true } s rfl
  obtain ⟨u, before⟩ : ∃ u, u = setEdge irqSeg
      (settleSeg g { (getSeg s g).changedTo .faulted with beacon := none, faultSeen := true } (cutOn g s)) := ⟨_, rfl⟩
  have offered : babbled g s = offerBus codeLineFault (some g) (cutEntry s g) u := by
    rw [before, ← flagFault_setMode_silenceSegment]
    rfl
  have frame : OnlyChanges [segBlock g, .table, .walk, .aiu, .elog] (cutOn g s) u := by
    rw [before]
    exact left.frame.trans ((setEdge_only _ _).mono (by simp))
  have later := offerBus_only codeLineFault g (cutEntry s g) u
  have raises : OnlyRaises s u := by
    rw [before]
    exact left.raises.trans (setEdge_raises _ _)
  have aiu := offerBus_aiu codeLineFault (some g) (cutEntry s g) u
  have walk : u.walk = { (cutOn g s).walk with waiting := false } := by
    rw [before]
    exact left.walk
  have table : (babbled g s).table = (cutOn g s).table := by
    rw [offered]
    exact (later .table (by cases g <;> decide)).trans (by rw [before]; exact settleSeg_only g _ _ .table (by cases g <;> decide))
  have offerRaises : OnlyRaises u (offerBus codeLineFault (some g) (cutEntry s g) u) := .of_edge aiu
  refine {
    walk := ?_
    entries := fun i _ => getEntry_of_table table i
    null := getEntry_of_table table 0
    raises := by rw [offered]; exact raises.trans offerRaises
    seg := ?_
    dead := by rw [getSeg_babbled]; rfl
    frame := by rw [offered]; exact frame.trans (later.mono (by simp)) }
  · rw [offered]
    obtain same | woken := offerBus_walk codeLineFault g (cutEntry s g) u
    · rw [same, walk]
    · rw [woken, walk]
  · rw [offered]
    refine offerRaises.2 6 ?_
    rw [before]
    exact (setEdge_raises _ _).2 6 left.seg

theorem babble_of_watched {g : Seg} {driving : Bool} {s : State} (watched : babbleWatched s g = true)
    (quiet : masterSends s g driving = false) : babble g driving s = pumpQueue (fallIfLast (segLive s g) (babbled g s)) := by
  unfold babble
  rw [watched, quiet]
  rfl

/-- Settles O27. -/
theorem babbleFaultsTheSegment : Obligations.BabbleFaultsTheSegment := by
  intro g driving s out
  have row : exec (.babble { seg := g, driving := driving }) s = .next (babble g driving s) := next_unlessHeld out _
  have unheard (h : babbleWatched s g = false ∨ masterSends s g driving = true) : babble g driving s = s := by
    unfold babble
    refine if_neg ?_
    obtain unwatched | sends := h
    · simp [unwatched]
    · simp [sends]
  refine ⟨fun mode beacon frame => ?_, fun mode => row.trans (congrArg _ (unheard ?_)),
    fun x busy here phase => row.trans (congrArg _ (unheard (.inr ((masterSends_iff s g driving).2 (.inr ⟨x, busy, here, phase⟩)))))⟩
  · have quiet : masterSends s g driving = false := by
      rw [Bool.eq_false_iff, ne_eq, masterSends_iff]
      rintro (⟨b, lit, drives⟩ | ⟨x, busy, here, phase⟩)
      · obtain ⟨outlived, off⟩ := beacon b lit
        simp [outlived, off] at drives
      · obtain ⟨unsent, accepts⟩ := frame x busy here
        obtain sending | ⟨accepting, on⟩ := phase
        · exact unsent sending
        · rw [accepts accepting] at on
          cases on
    have leaves := (left_babbled g s).leaves
    rw [getSeg_babbled] at leaves
    refine ⟨_, row.trans (congrArg _ (babble_of_watched ((babbleWatched_iff s g).2 mode) quiet)), leaves, ?_, ?_, ?_⟩
    · rw [leaves.segment]
      rfl
    · have before : OnlyChanges [.table, .walk, .wq, .hport, .stage, .xeng, segBlock g, .aiu] s
          (flagFault g (setMode g .faulted (silenceSegment g s))) := by
        rw [flagFault_setMode_silenceSegment]
        exact ((cutOn_only g s).mono (by simp [cutBlocks])).trans (((settleSeg_only g _ _).mono (by simp)).trans
          ((setEdge_only _ _).mono (by simp)))
      have cycle : cycleLow12 (flagFault g (setMode g .faulted (silenceSegment g s))) = cycleLow12 s := by
        unfold cycleLow12
        rw [before .ctim (by cases g <;> decide)]
      rw [fallIfLast_pump_elog, babbled, offerBus_elog, before .elog (by cases g <;> decide), cycle]
      rfl
    · refine ((fallIfLast_raises _ _).trans (pumpQueue_raises _)).2 8 ?_
      rw [babbled, offerBus_aiu]
      simp [irqErrlog]
  · obtain dark | faulted | ⟨resetting, few⟩ | ⟨waking, few⟩ | ⟨b, lit, drives⟩ := mode
    · exact .inl (by simp [babbleWatched, dark])
    · exact .inl (by simp [babbleWatched, faulted])
    · exact .inl (by simp [babbleWatched, resetting, few])
    · exact .inl (by simp [babbleWatched, waking, few])
    · exact .inr ((masterSends_iff s g driving).2 (.inl ⟨b, lit, drives⟩))

/-! ### The other operations (R37, R41, R42, R46, R158) -/

theorem ignoreOp_eq (g : Seg) (s : State) : ignoreOp g s = ignoredBy g s := by cases g <;> rfl

/-- Settles O23. -/
theorem segmentOperationsAreTakenOrIgnored : Obligations.SegmentOperationsAreTakenOrIgnored := by
  intro g s out moved
  have settles (c : Segment) : settleSeg g c s = moved c := by cases g <;> rfl
  have modes (m : SegMode) : setMode g m s = moved ((getSeg s g).changedTo m) := settles _
  have wake (atStart : Bool) : exec (.wakeRequest g atStart) s = .next (wakeRequest g atStart s) := next_unlessHeld out _
  refine ⟨fun on dark allowed => ⟨(next_unlessOffline out on _).trans (congrArg _ ?_), ?_⟩,
    fun on enabled => (next_unlessOffline out on _).trans (congrArg _ ((if_pos enabled).trans (modes _))),
    fun on dozing => (next_unlessOffline out on _).trans (congrArg _ ((if_pos dozing).trans (modes _))),
    fun on bad live mild => (next_unlessOffline out on _).trans (congrArg _ ?_),
    fun atStart dozing free => (wake atStart).trans (congrArg _ ?_),
    fun atStart other => (wake atStart).trans (congrArg _ ?_), fun on => ?_⟩
  · exact (if_pos ⟨dark, allowed⟩).trans (modes _)
  · cases (getSeg s g).bias <;> rfl
  · refine (if_pos ⟨bad, live, mild⟩).trans ?_
    cases g <;> rfl
  · refine (if_pos ⟨dozing, free⟩).trans ?_
    have twice (e : BitVec 11) : (e ||| 0x040#11) ||| 0x040#11 = e ||| 0x040#11 := by rw [BitVec.or_assoc, BitVec.or_self]
    have flagged : flagWake g atStart (setMode g .waking s) = setEdge irqSeg
        (settleSeg g { (getSeg s g).changedTo .waking with wakeSeen := true, wakeAtStart := atStart } s) := by
      cases g <;> rfl
    rw [flagged, settles]
    cases g
    · exact congrArg (fun e => { moved { (getSeg s .a).changedTo .waking with wakeSeen := true, wakeAtStart := atStart } with
        aiu := { s.aiu with edges := e } }) (twice _)
    · exact congrArg (fun e => { moved { (getSeg s .b).changedTo .waking with wakeSeen := true, wakeAtStart := atStart } with
        aiu := { s.aiu with edges := e } }) (twice _)
  · refine if_neg ?_
    rintro ⟨dozing, free⟩
    obtain awake | busy := other
    · exact awake dozing
    · exact absurd (free.symm.trans busy) (by decide)
  · have ignored {f : State → State} (h : f s = ignoreOp g s) :
        (.next (unlessHeld (unlessOffline f) s) : Host.Outcome State Fault Refusal) = .next (ignoredBy g s) := by
      rw [next_unlessOffline out on, h, ignoreOp_eq]
    refine ⟨fun shut => ignored (if_neg shut), fun mode => ignored (if_neg ?_), fun mode => ignored (if_neg mode),
      fun mode => ignored (if_neg mode), fun why => ignored (if_neg ?_)⟩
    · obtain h | h | h | h := mode <;> rw [h] <;> decide
    · rintro ⟨bad, live, mild⟩
      obtain good | dead | fatal := why
      · exact absurd (good.symm.trans bad) (by decide)
      · exact live dead
      · exact absurd (mild.symm.trans fatal) (by decide)

/-! ### SEG_CFG (R47) -/

/-- A written byte would change rate or timeout where they may not be changed (R47). -/
def retimes (g : Seg) (b : BitVec 8) (s : State) : Bool :=
  (b.getLsbD 2 != (getSeg s g).reduced || b.extractLsb' 3 2 != (getSeg s g).timeout) && !mayRetime (getSeg s g).mode

/-- The segment as the write of its byte leaves it (R47). -/
def configuredBy (b : BitVec 8) (c : Segment) : Segment :=
  { c with
    allow := b.getLsbD 0, guarded := b.getLsbD 1, reduced := if mayRetime c.mode then b.getLsbD 2 else c.reduced,
    timeout := if mayRetime c.mode then b.extractLsb' 3 2 else c.timeout }

theorem writeSegCfgByte_eq (g : Seg) (b : BitVec 8) (s : State) : writeSegCfgByte g b s =
    if retimes g b s then ignoredBy g (setSeg g (configuredBy b (getSeg s g)) s)
    else setSeg g (configuredBy b (getSeg s g)) s := by
  unfold writeSegCfgByte retimes configuredBy
  dsimp only
  cases open' : mayRetime (getSeg s g).mode with
  | true => simp
  | false =>
    simp only [Bool.false_eq_true, if_false, Bool.not_false, Bool.and_true, Bool.or_eq_true, bne_iff_ne, ignoreOp_eq]
    by_cases same : b.getLsbD 2 = (getSeg s g).reduced ∧ b.extractLsb' 3 2 = (getSeg s g).timeout
    · rw [if_pos same, if_neg (by rw [same.1, same.2]; simp)]
    · rw [if_neg same, if_pos (by by_contra h; exact same (by simpa [not_or] using h))]

theorem ignoredBy_setSeg (g : Seg) (v : Segment) (s : State) : ignoredBy g (setSeg g v s) =
    setSeg g { v with cmdIgnored := true } { s with
      elog := busAfterOffer s.elog 0x02 (segDetail g) 0 (cycleLow12 s), aiu := { s.aiu with edges := s.aiu.edges ||| 0x100#11 } } := by
  cases g <;> rfl

/-- One byte's share of the write, block by block. -/
structure ByteWritten (g : Seg) (b : BitVec 8) (s u : State) : Prop where
  segment : getSeg u g =
    { configuredBy b (getSeg s g) with cmdIgnored := (getSeg s g).cmdIgnored || retimes g b s }
  other : getSeg u (otherSeg g) = getSeg s (otherSeg g)
  log : u.elog = if retimes g b s then busAfterOffer s.elog 0x02 (segDetail g) 0 (cycleLow12 s) else s.elog
  aiu : u.aiu = { s.aiu with edges := s.aiu.edges ||| if retimes g b s then 0x100#11 else 0#11 }
  frame : OnlyChanges [segBlock g, .elog, .aiu] s u

theorem writeSegCfgByte_written (g : Seg) (b : BitVec 8) (s : State) : ByteWritten g b s (writeSegCfgByte g b s) := by
  rw [writeSegCfgByte_eq]
  cases h : retimes g b s with
  | true =>
    rw [if_pos rfl, ignoredBy_setSeg]
    refine ⟨?_, ?_, ?_, ?_, ?_⟩
    · rw [getSeg_setSeg_same, h, Bool.or_true]
    · cases g <;> rfl
    · rw [h]
      cases g <;> rfl
    · rw [h]
      cases g <;> rfl
    · intro c other
      cases g <;> cases c <;> first | rfl | exact absurd (by decide) other
  | false =>
    rw [if_neg Bool.false_ne_true]
    refine ⟨?_, ?_, ?_, ?_, ?_⟩
    · rw [getSeg_setSeg_same, h, Bool.or_false]
      rfl
    · cases g <;> rfl
    · rw [h]
      cases g <;> rfl
    · rw [h, if_neg Bool.false_ne_true, BitVec.or_zero]
      cases g <;> rfl
    · intro c other
      cases g <;> cases c <;> first | rfl | exact absurd (by decide) other

/-- Settles O28: the byte of segment A, then that of segment B, which sees its segment as it was. -/
theorem segCfgWriteActsPerSegment : Obligations.SegCfgWriteActsPerSegment := by
  intro v s out open' byte changes
  have row : exec (.segCfgWrite v) s = .next (writeSegCfg v s) := next_unlessHeld out _
  have first := writeSegCfgByte_written .a (cfgByte .a v) s
  obtain ⟨u, written⟩ : ∃ u, u = writeSegCfgByte .a (cfgByte .a v) s := ⟨_, rfl⟩
  rw [← written] at first
  have second := writeSegCfgByte_written .b (cfgByte .b v) u
  have result : writeSegCfg v s = writeSegCfgByte .b (cfgByte .b v) u := by
    rw [written]
    rfl
  have segB : getSeg u .b = getSeg s .b := first.other
  have late : retimes .b (cfgByte .b v) u = retimes .b (cfgByte .b v) s := by
    unfold retimes
    rw [segB]
  have cycle : cycleLow12 u = cycleLow12 s := by
    unfold cycleLow12
    rw [first.frame .ctim (by decide)]
  have told (g : Seg) : (changes g && !open' g) = retimes g (cfgByte g v) s := by cases g <;> rfl
  refine ⟨_, row.trans (congrArg _ result), fun g => ?_, ?_, ?_, ?_⟩
  · rw [told]
    cases g with
    | a => exact second.other.trans first.segment
    | b => rw [second.segment, late, segB]; rfl
  · rw [second.log, first.log, late, cycle]
    simp only [told, List.filter]
    cases retimes .a (cfgByte .a v) s <;> cases retimes .b (cfgByte .b v) s <;> rfl
  · rw [second.aiu, first.aiu, late]
    simp only [told, List.any]
    cases retimes .a (cfgByte .a v) s <;> cases retimes .b (cfgByte .b v) s <;> simp [BitVec.or_assoc]
  · exact (first.frame.mono (by decide)).trans (second.frame.mono (by decide))

end Sys2Proof.Machine
end

section
/-! SUPPORT. The Station Table's window (R64, R70 to R72) and the registers of the receive ring (R122, R123). -/

namespace Sys2Proof.Machine

/-! ### A write of an entry -/

theorem acceptsW0_iff (e : Entry) (v : Word) : acceptsW0 e v = true ↔
    v.getLsbD 0 = false ∨ e.valid = false ∨ e.fenceGranted = true ∨ withW0 e v = e := by
  simp [acceptsW0, writable, bitAt, or_assoc]

theorem acceptsW1_iff (e : Entry) (v : Word) : acceptsW1 e v = true ↔
    e.valid = false ∨ e.fenceGranted = true ∨ withW1 e v = e := by
  simp [acceptsW1, writable, or_assoc]

theorem clearCounts_withW0 (e : Entry) (v : Word) : clearCounts e (withW0 e v) =
    if e.valid = false ∧ v.getLsbD 0 = true then { withW0 e v with doneCount := 0, deferCount := 0 } else withW0 e v := by
  unfold clearCounts
  simp [withW0, bitAt]

theorem clearCounts_withW0_fences (e : Entry) (v : Word) : (clearCounts e (withW0 e v)).fence = e.fence ∧
    (clearCounts e (withW0 e v)).fenceGranted = e.fenceGranted := by
  unfold clearCounts
  split <;> exact ⟨rfl, rfl⟩

/-- The fence handshake is R70's table, whatever else the write changed (R70). -/
theorem applyFence_eq {e old : Entry} (raise isEngaged : Bool) (fence : e.fence = old.fence)
    (granted : e.fenceGranted = old.fenceGranted) : applyFence raise isEngaged e =
      { e with fence := (fenceAfter raise isEngaged old).1, fenceGranted := (fenceAfter raise isEngaged old).2 } := by
  unfold applyFence fenceAfter
  rw [← fence, ← granted]
  cases raise
  · rfl
  · cases up : e.fence
    · simp
    · cases e
      simp_all

theorem refuseTable_eq (i : EntryIx) (g : Seg) (s : State) : refuseTable i g s = { s with
    seq := { s.seq with tableRefused := true }, elog := busAfterOffer s.elog 0x01 (segDetail g) i (cycleLow12 s),
    aiu := { s.aiu with edges := s.aiu.edges ||| 0x100#11 } } := rfl

/-- What follows an accepted write (R72, R95), on the state with the entry written. -/
structure Accepted (i : EntryIx) (e : Entry) (rewrites : Bool) (s t : State) : Prop where
  entry : getEntry t i = e
  others : ∀ j, j ≠ i → getEntry t j = getEntry s j
  engine : t.xeng = if engaged s i = true ∧ rewrites = true then s.xeng.map (fun x => { x with rewritten := true }) else s.xeng
  walk : t.walk = { s.walk with waiting := false }
  frame : OnlyChanges [.table, .xeng, .walk] s t

theorem afterAccepted_accepted {i : EntryIx} (ne : i ≠ 0) (e : Entry) (rewrites : Bool) (s : State) :
    Accepted i e rewrites s (afterAccepted i rewrites (setEntry i e s)) := by
  have table : (afterAccepted i rewrites (setEntry i e s)).table = (setEntry i e s).table := by
    unfold afterAccepted
    split <;> rfl
  have same : engaged (setEntry i e s) i = engaged s i := by
    unfold engaged
    rw [setEntry_xeng]
  refine ⟨?_, fun j other => ?_, ?_, ?_, ?_⟩
  · rw [getEntry_of_table table, getEntry_setEntry_same e s ne]
  · rw [getEntry_of_table table, getEntry_setEntry_of_ne e s other]
  · unfold afterAccepted
    rw [same]
    cases engaged s i <;> cases rewrites <;> simp [markRewritten]
  · unfold afterAccepted
    split <;> simp [wakeWalker, markRewritten]
  · refine ((setEntry_only i e s).mono (by decide)).trans ?_
    unfold afterAccepted
    split
    · intro b other
      cases b <;> first | rfl | exact absurd (by decide) other
    · exact (wakeWalker_only _).mono (by decide)

/-- Settles O34. -/
theorem entryW0WriteIsJudged : Obligations.EntryW0WriteIsJudged := by
  intro v s out e fields taken f accepted
  have row : exec (.entryW0Write v) s = .next (writeEntryW0 v s) := next_unlessHeld out _
  have accepts : acceptsW0 e v = true ↔ accepted := acceptsW0_iff e v
  have written (live : s.select ≠ 0) : writeEntryW0 v s =
      if acceptsW0 e v then afterAccepted s.select (!bitAt v 0 || writable e) (setEntry s.select (entryAfterW0 e v (engaged s s.select)) s)
      else refuseTable s.select e.segment (setEntry s.select (entryAfterW0 e v (engaged s s.select)) s) := by
    unfold writeEntryW0
    exact if_neg live
  refine ⟨fun null => row.trans (congrArg _ (if_pos null)), fun live ok => ?_, fun live bad => ?_⟩
  · have entry : entryAfterW0 e v (engaged s s.select) = { taken with fence := f.1, fenceGranted := f.2 } := by
      obtain ⟨fence, granted⟩ := clearCounts_withW0_fences e v
      unfold entryAfterW0
      rw [if_pos (accepts.2 ok), applyFence_eq _ _ fence granted, clearCounts_withW0]
      rfl
    have done := afterAccepted_accepted live (entryAfterW0 e v (engaged s s.select)) (!bitAt v 0 || writable e) s
    refine ⟨_, row.trans (congrArg _ ((written live).trans (if_pos (accepts.2 ok)))), done.entry.trans entry, done.others, ?_,
      done.walk, done.frame⟩
    rw [done.engine]
    simp [writable, bitAt, e]
  · have entry : entryAfterW0 e v (engaged s s.select) = { e with fence := f.1, fenceGranted := f.2 } := by
      unfold entryAfterW0
      rw [if_neg (mt accepts.1 bad)]
      exact applyFence_eq _ _ rfl rfl
    refine ⟨_, row.trans (congrArg _ ((written live).trans ((if_neg (mt accepts.1 bad)).trans (refuseTable_eq _ _ _)))),
      ?_, fun i other => ?_, ?_, ?_, ?_, ?_⟩
    · exact (getEntry_setEntry_same _ s live).trans entry
    · exact getEntry_setEntry_of_ne _ s other
    · simp
    · simp [cycleLow12]
    · simp
    · refine ((setEntry_only s.select (entryAfterW0 e v (engaged s s.select)) s).mono (by decide)).trans ?_
      intro b other
      cases b <;> first | rfl | exact absurd (by decide) other

/-- Settles O35. -/
theorem entryW1WriteIsJudged : Obligations.EntryW1WriteIsJudged := by
  intro v s out e taken accepted
  have row : exec (.entryW1Write v) s = .next (writeEntryW1 v s) := next_unlessHeld out _
  have same : withW1 e v = taken := by simp [withW1, taken, bitAt, field, entryFaultOf]
  have accepts : acceptsW1 e v = true ↔ accepted := by
    rw [acceptsW1_iff, same]
  have written (live : s.select ≠ 0) : writeEntryW1 v s =
      if acceptsW1 e v then afterAccepted s.select (writable e) (setEntry s.select (withW1 e v) s)
      else refuseTable s.select e.segment s := by
    unfold writeEntryW1
    exact if_neg live
  refine ⟨fun null => row.trans (congrArg _ (if_pos null)), fun live ok => ?_, fun live bad => ?_⟩
  · have done := afterAccepted_accepted live (withW1 e v) (writable e) s
    refine ⟨_, row.trans (congrArg _ ((written live).trans (if_pos (accepts.2 ok)))), done.entry.trans same, done.others, ?_,
      done.walk, done.frame⟩
    rw [done.engine]
    simp [writable, e]
  · exact row.trans (congrArg _ ((written live).trans ((if_neg (mt accepts.1 bad)).trans (refuseTable_eq _ _ _))))

/-! ### The receive ring's registers -/

theorem isPacket_eq_false_iff (i : WqItem) : isPacket i = false ↔ (writeOf i).isSome = true := by
  cases i <;> simp [isPacket, writeOf]

theorem ringConfigurable_iff (s : State) : ringConfigurable s = true ↔
    (s.seq.state = .offline ∨ s.seq.state = .ready) ∧ ∀ i ∈ s.wq.items, (writeOf i).isSome = true := by
  simp [ringConfigurable, ← isPacket_eq_false_iff]

theorem rxSizeOf_eq (size : BitVec 11) : rxSizeOf (size.setWidth 32) =
    if size ∈ [8, 16, 32, 64, 128, 256, 512, 1024] then some size else none := by
  unfold rxSizeOf
  have widen (c : BitVec 11) : size.setWidth 32 = c.setWidth 32 ↔ size = c := by
    constructor
    · intro same
      bv_omega
    · intro same
      rw [same]
  have narrow : (size.setWidth 32).setWidth 11 = size := by bv_omega
  simp only [List.mem_cons, List.not_mem_nil, or_false, ← widen, narrow]
  rfl

theorem pumpQueue_of_empty {s : State} (empty : s.wq.items = []) : pumpQueue s = s := by
  unfold pumpQueue
  rw [empty]
  exact ite_self _

/-- Settles O50. -/
theorem ringRegisterWritesAreTested : Obligations.RingRegisterWritesAreTested := by
  intro v s out open' size baseOk sizeOk refused
  have opens : ringConfigurable s = true ↔ open' := ringConfigurable_iff s
  have turns (off : Word) : refuseRxConfig off s = refused off := rfl
  have base : (ringConfigurable s && aligned v || v == s.rx.base) = true ↔ baseOk := by
    simp [opens, baseOk, aligned, field]
  have sized : writeRxSize v s =
      if sizeOk then { s with rx := { s.rx with size := size, fill := 0, ret := 0 } } else refused 0x054 := by
    unfold writeRxSize
    rw [show field v 0 11 = size from rfl, rxSizeOf_eq]
    by_cases legal : size ∈ [8, 16, 32, 64, 128, 256, 512, 1024]
    · rw [if_pos legal]
      by_cases free : open' ∨ size = s.rx.size
      · rw [if_pos (show sizeOk from ⟨free, legal⟩)]
        exact if_pos (by simpa [opens] using free)
      · rw [if_neg (fun ok : sizeOk => free ok.1)]
        exact if_neg (by simpa [opens] using free)
    · rw [if_neg legal, if_neg (fun ok : sizeOk => legal ok.2)]
      rfl
  refine ⟨fun ok => (next_unlessHeld out (writeRxBase v)).trans (congrArg _ (if_pos (base.2 ok))),
    fun bad => (next_unlessHeld out (writeRxBase v)).trans (congrArg _ ((if_neg (mt base.1 bad)).trans (turns _))),
    fun ok => (next_unlessHeld out (writeRxSize v)).trans (congrArg _ (sized.trans (if_pos ok))),
    fun bad => (next_unlessHeld out (writeRxSize v)).trans (congrArg _ (sized.trans (if_neg bad))),
    fun fits => ⟨_, (next_unlessHeld out (writeRxReturn v)).trans (congrArg _ (if_pos fits)), ?_, ?_, fun empty => ?_, ?_⟩,
    fun large => (next_unlessHeld out (writeRxReturn v)).trans (congrArg _ ((if_neg (Nat.not_lt.2 large)).trans (turns _)))⟩
  · rw [pumpQueue_rx]
    rfl
  · rw [pumpQueue_items]
  · rw [pumpQueue_rx, pumpQueue_of_empty (by exact empty)]
  · refine OnlyChanges.trans ?_ ((pumpQueue_only _).mono (by decide))
    intro b other
    cases b <;> first | rfl | exact absurd (by decide) other

end Sys2Proof.Machine
end

section
/-! SUPPORT. The beginning of an exchange: its request frame, the end of the frame, the staging fills (R100 to R103, R117). -/

namespace Sys2Proof.Machine

/-! ### EXCHANGE_START -/

theorem regnumBytes_eq (r : BitVec 16) : regnumBytes r = [r.extractLsb' 0 8, r.extractLsb' 8 8] := by
  have low : r.setWidth 8 = r.extractLsb' 0 8 := by
    ext i h
    simp
  have high : (r >>> 8).setWidth 8 = r.extractLsb' 8 8 := by
    ext i h
    simp
  rw [regnumBytes, low, high]

theorem requestFrame_eq_byRules (x : Exchange) (s : State) : requestFrame x s =
    frameByRules x.request (getEntry s x.entry) (stagedBytes s) ((s.dau.pending.head?.map DirReq.regnum).getD 0) := by
  unfold requestFrame frameByRules
  cases q : x.request <;>
    simp [frameKindOf, frameChannel, frameSeq, frameSize, framePayload, regnumBytes_eq]

theorem segOpen_iff (s : State) (g : Seg) :
    segOpen s g = true ↔ (getSeg s g).mode = .enabled ∧ (getSeg s g).quarantined = false := by
  simp [segOpen]

theorem mayBegin_iff (x : Exchange) (s : State) : mayBegin x s = true ↔
    s.seq.restartInHand = false ∧ (s.seq.state = .running ∨ (x.direct = true ∧ s.seq.state = .armed)) ∧
      (getEntry s x.entry).fenceGranted = false ∧ (getEntry s x.entry).valid = true ∧ (getEntry s x.entry).address ≠ 0 ∧
      (x.direct = true ∨ (getEntry s x.entry).halted = false) ∧
      (getSeg s (getEntry s x.entry).segment).mode = .enabled ∧
      (getSeg s (getEntry s x.entry).segment).quarantined = false := by
  unfold mayBegin
  simp only [Bool.and_eq_true, segOpen_iff, usableDirect]
  cases x.direct
  · simp
    tauto
  · simp
    tauto

theorem dropHeld_xeng (x : Exchange) (s : State) : (dropHeld x s).xeng = none := by
  unfold dropHeld
  dsimp only
  split
  · rfl
  · split
    · split
      · rfl
      · split
        · exact endTurn_only _ _ _ .xeng (by decide)
        · split
          · exact putBack_only _ _ .xeng (by decide)
          · exact putBack_only _ _ .xeng (by decide)
    · rfl

/-- Settles O42. -/
theorem exchangeStartBuildsTheFrame : Obligations.ExchangeStartBuildsTheFrame := by
  intro s x out busy held e may
  have row : exec .exchangeStart s = .next (if mayBegin x s then
      { s with xeng := some { x with phase := .sending, segment := e.segment, frame := some (requestFrame x s) } }
      else pumpQueue (dropHeld x s)) := by
    refine (next_unlessHeld out exchangeStart).trans (congrArg _ ?_)
    unfold exchangeStart
    split
    case h_1 y engine =>
      cases busy.symm.trans engine
      rw [if_pos held]
    case h_2 free => cases busy.symm.trans free
  refine ⟨fun ok => ?_, fun bad => ⟨_, row.trans (congrArg _ (if_neg (mt (mayBegin_iff x s).1 bad))), ?_, ?_⟩⟩
  · rw [row, if_pos ((mayBegin_iff x s).2 ok), requestFrame_eq_byRules]
  · rw [pumpQueue_xeng, dropHeld_xeng]
  · exact ((dropHeld_only x s).mono (by decide)).trans ((pumpQueue_only _).mono (by decide))

/-! ### The end of the request frame -/

/-- Giving up the reads of some requesters leaves none of them in the stream. -/
theorem cancelReads_without {p : Reader → Bool} (spares : p .discard = false) (s : State) :
    ∀ r ∈ (cancelReads p s).hport.reads, p r.reader = false := by
  intro r left
  unfold cancelReads giveUpFront at left
  dsimp only at left
  split at left
  · cases left
  case h_2 f rest =>
    obtain front | behind := List.mem_append.1 left
    · split at front
      · split at front
        · cases front
        · rw [List.mem_singleton.1 front]
          exact spares
      · next kept =>
        rw [List.mem_singleton.1 front]
        exact Bool.eq_false_iff.2 kept
    · have kept := (List.mem_filter.1 behind).2
      simpa using kept

/-- The staging buffer is kept, or emptied by a seal. -/
def KeepsStage (s t : State) : Prop := t.stage = s.stage ∨ t.stage = { buf := .empty, waiting := none }

theorem KeepsStage.refl (s : State) : KeepsStage s s := .inl rfl

theorem ringBroken_stage (a : Word) (s : State) : KeepsStage s (ringBroken a s) := by
  unfold ringBroken hostFault
  dsimp only
  split
  · exact .inl rfl
  · exact .inl rfl
  · exact .inr rfl

theorem lookRings_stage (l : List RingClass) (s : State) : KeepsStage s (lookRings l s) := by
  induction l with
  | nil => exact .refl s
  | cons c rest ih =>
    unfold lookRings
    split
    · exact .inl rfl
    · exact ih
    · exact ringBroken_stage _ s
    · exact ih

theorem lookFound_stage {after : State → State} (f : Found) {s : State} (h : KeepsStage s (after s)) :
    KeepsStage s (lookFound after f s) := by
  unfold lookFound
  split
  · exact .inl rfl
  · exact h
  · exact ringBroken_stage _ s
  · exact .refl s

theorem lookStream_stage (s : State) : KeepsStage s (lookStream s) := by
  unfold lookStream
  split
  · exact .refl s
  · exact lookFound_stage _ (.refl s)

theorem lookPasses_stage (s : State) : KeepsStage s (lookPasses s) := by
  unfold lookPasses
  split
  · exact lookStream_stage s
  · exact lookFound_stage _ (lookStream_stage s)

theorem lookPass_stage (s : State) : KeepsStage s (lookPass s) := by
  have behind (c : RingClass) : KeepsStage s (afterPass c s) := by
    unfold afterPass
    split
    · exact lookStream_stage s
    · exact .refl s
  unfold lookPass
  dsimp only
  split
  · exact lookPasses_stage s
  · split
    · split <;> exact lookFound_stage _ (behind _)
    · exact lookFound_stage _ (behind _)

theorem lookAperiodic_stage (s : State) : KeepsStage s (lookAperiodic s) := by
  unfold lookAperiodic
  split
  · exact .refl s
  · exact lookRings_stage _ s

/-- What is STAGED has no bytes or was STAGED before: bytes come from the host bus, later (R117, R118). -/
def StagesNoBytes (s t : State) : Prop :=
  ∀ tag bytes, t.stage.buf = .staged tag bytes → bytes = [] ∨ s.stage.buf = .staged tag bytes

theorem KeepsStage.noBytes {s t : State} (h : KeepsStage s t) : StagesNoBytes s t := by
  intro tag bytes staged
  obtain same | empty := h
  · exact .inr (same ▸ staged)
  · rw [empty] at staged
    cases staged

theorem requestFill_noBytes (q : FillReq) (s : State) : StagesNoBytes s (requestFill q s) := by
  have now : StagesNoBytes s (stageNow q.tag [] s) := by
    intro tag bytes staged
    cases staged
    exact .inl rfl
  have fill : StagesNoBytes s (startFill q s) := fun tag bytes staged => by cases staged
  have same : StagesNoBytes s s := fun tag bytes staged => .inr staged
  unfold requestFill
  split
  · split
    · exact now
    · exact fill
  · split
    · exact same
    · split
      · exact now
      · exact fill
  · split
    · exact same
    · split
      · exact now
      · split
        · exact same
        · exact fun tag bytes staged => .inr staged

theorem lookLate_noBytes (s : State) : StagesNoBytes s (lookLate s) := by
  unfold lookLate
  split
  · unfold lookBurst
    split
    · exact (lookAperiodic_stage s).noBytes
    · exact requestFill_noBytes _ s
    · exact (KeepsStage.refl s).noBytes
    · exact fun tag bytes staged => .inr staged
  · exact (lookAperiodic_stage s).noBytes

theorem lookAhead_noBytes (s : State) : StagesNoBytes s (lookAhead s) := by
  unfold lookAhead
  split
  · have begun (t : State) (h : StagesNoBytes (cancelReads lookReader (setLook .nothing s)) t) : StagesNoBytes s t := h
    dsimp only
    split
    · exact begun _ (lookPasses_stage _).noBytes
    · exact begun _ (lookPass_stage _).noBytes
    · exact begun _ (lookLate_noBytes _)
    · exact fun tag bytes staged => .inr staged
  · exact (KeepsStage.refl s).noBytes

theorem lookAhead_of_not_running {s : State} (off : s.seq.state ≠ .running) : lookAhead s = s :=
  if_neg fun h => off h.1

theorem exec_requestSent {s : State} (out : awake s) {x : Exchange} (busy : s.xeng = some x) (sending : x.phase = .sending) :
    ((∃ n, x.request = .pull n ∨ x.request = .peek n) →
      exec .requestSent s = .next (lookAhead { s with xeng := some { x with phase := .window } })) ∧
    ((∃ n, x.request = .push n ∨ x.request = .open ∨ x.request = .poke n) →
      exec .requestSent s = .next (lookAhead (emptyStaging { s with xeng := some { x with phase := .window } }))) := by
  have row : exec .requestSent s = .next (requestSent s) := next_unlessHeld out _
  have here : ∀ y, s.xeng = some y → y = x := fun y engine => Option.some.inj (engine.symm.trans busy)
  refine ⟨fun ⟨n, q⟩ => row.trans (congrArg _ ?_), fun ⟨n, q⟩ => row.trans (congrArg _ ?_)⟩
  · unfold requestSent
    split
    case h_1 y engine =>
      obtain rfl := here y engine
      rw [if_pos sending]
      obtain q | q := q
      · simp only [q]
      · simp only [q]
    case h_2 free => cases busy.symm.trans free
  · unfold requestSent
    split
    case h_1 y engine =>
      obtain rfl := here y engine
      rw [if_pos sending]
      obtain q | q | q := q
      · simp only [q]
      · simp only [q]
      · simp only [q]
    case h_2 free => cases busy.symm.trans free

/-- Settles O43. -/
theorem frameSentOpensTheReplyWindow : Obligations.FrameSentOpensTheReplyWindow := by
  intro s x out busy
  refine ⟨fun sending off => ⟨fun q => ?_, fun q => ?_⟩, fun sending on => ?_, fun window => ?_⟩
  · exact ((exec_requestSent out busy sending).1 q).trans (congrArg _ (lookAhead_of_not_running (by exact off)))
  · have sent : exec .requestSent s = .next (emptyStaging { s with xeng := some { x with phase := .window } }) :=
      ((exec_requestSent out busy sending).2 q).trans (congrArg _ (lookAhead_of_not_running (by exact off)))
    refine ⟨_, sent, rfl, rfl, rfl, fun r left => ?_, ?_⟩
    · simpa using cancelReads_without (p := fun r => r == .staging) rfl _ r left
    · refine OnlyChanges.trans ?_ ((emptyStaging_only _).mono (by decide))
      exact (setEngine_only _ s).mono (by decide)
  · have opened (u : State) (row : exec .requestSent s = .next (lookAhead u))
        (engine : u.xeng = some { x with phase := .window })
        (kept : ∀ tag bytes, u.stage.buf = .staged tag bytes →
          s.stage.buf = .staged tag bytes ∧ ∃ n, x.request = .pull n ∨ x.request = .peek n)
        (frame : OnlyChanges [.xeng, .stage, .hport] s u) :
        ∃ t, exec .requestSent s = .next t ∧ t.xeng = some { x with phase := .window } ∧
          (∀ tag bytes, t.stage.buf = .staged tag bytes → bytes = [] ∨
            (s.stage.buf = .staged tag bytes ∧ ∃ n, x.request = .pull n ∨ x.request = .peek n)) ∧
          OnlyChanges [.xeng, .elog, .aiu, .stage, .hport, .seq, .walk] s t :=
      ⟨_, row, (lookAhead_only u .xeng (by decide)).trans engine,
        fun tag bytes staged => (lookAhead_noBytes u tag bytes staged).imp_right (kept tag bytes),
        (frame.mono (by decide)).trans ((lookAhead_only u).mono (by decide))⟩
    have direct := setEngine_only { x with phase := .window } s
    have kept (q : ∃ n, x.request = .pull n ∨ x.request = .peek n) :=
      opened _ ((exec_requestSent out busy sending).1 q) rfl (fun tag bytes staged => ⟨staged, q⟩) (direct.mono (by decide))
    have emptied (q : ∃ n, x.request = .push n ∨ x.request = .open ∨ x.request = .poke n) :=
      opened _ ((exec_requestSent out busy sending).2 q) rfl (fun tag bytes staged => by cases staged)
        ((direct.mono (by decide)).trans ((emptyStaging_only _).mono (by decide)))
    match q : x.request with
    | .pull n => exact q ▸ kept ⟨n, .inl q⟩
    | .peek n => exact q ▸ kept ⟨n, .inr q⟩
    | .push n => exact q ▸ emptied ⟨n, .inl q⟩
    | .open => exact q ▸ emptied ⟨0, .inr (.inl q)⟩
    | .poke n => exact q ▸ emptied ⟨n, .inr (.inr q)⟩
  · refine (next_unlessHeld out replyBegun).trans (congrArg _ ?_)
    unfold replyBegun
    split
    case h_1 y engine =>
      cases busy.symm.trans engine
      exact if_pos window
    case h_2 free => cases busy.symm.trans free

/-! ### STAGING_FILL_DONE -/

/-- Settles O47. -/
theorem fillDoneStagesThePacket : Obligations.FillDoneStagesThePacket := by
  intro s q later bytes out stream kind len
  have row : exec (.stagingFillDone bytes) s = .next (stagingFillDone bytes s) := next_unlessHeld out _
  have front : frontRead s = some q := by rw [frontRead, stream]; rfl
  have rest : s.hport.reads.tail = later := by rw [stream]; rfl
  refine ⟨fun tag reader fills => ?_, fun reader fills => ?_, fun tag w reader fills => ?_, fun reader => ?_⟩
  · rw [row]
    unfold stagingFillDone popRead serveWaiting
    rw [front, rest]
    simp [kind, len, reader, fills, wakeWalker]
  · rw [row]
    unfold stagingFillDone popRead serveWaiting
    rw [front, rest]
    simp [kind, len, reader, fills, wakeWalker]
  · rw [row]
    unfold stagingFillDone popRead serveWaiting
    rw [front, rest]
    simp [kind, len, reader, fills, wakeWalker, startFill, setStage, requestRead, joinStream_staging]
    cases tag <;> rfl
  · rw [row]
    unfold stagingFillDone popRead
    rw [front, rest]
    simp [kind, len, reader]

end Sys2Proof.Machine
end

section
/-! SUPPORT. The Write Queue at work (8.3 to 8.6): what the front item does next where the queue performs its items,
what a performed write releases, and the settlements of O48 and O49. -/

namespace Sys2Proof.Machine

theorem queueActive_of_performs {s : State} (on : performs s) : queueActive s = true := by
  obtain ⟨state, restart⟩ := on
  obtain st | st | st | st := state <;> simp [queueActive, st, restart]

/-- The front one-write item, not begun, gets its write where the channel is free. -/
theorem pumpQueue_of_oneWrite {s : State} (on : performs s) {j : WqItem} {later : List WqItem} {k : BitVec 4} {addr word : Word}
    (front : s.wq.items = j :: later) (one : writeOf j = some (k, addr, word)) (begun : s.wq.started = false)
    (free : s.hport.write = none) : pumpQueue s = issueWrite k addr (wordBytes word) s := by
  unfold pumpQueue
  rw [if_pos (queueActive_of_performs on), front]
  cases j with
  | packet => cases one
  | segment => cases one; simp [begun, free, itemWrite]
  | link => cases one; simp [begun, free, itemWrite]
  | status => cases one; simp [begun, free, itemWrite]

/-- A receive packet at the front takes its next step. -/
theorem pumpQueue_of_packet {s : State} (on : performs s) {len : Nat} {i : EntryIx} {c : RingClass} {cycle : BitVec 16}
    {mark : Bool} {rest : List WqItem} (front : s.wq.items = .packet len i c cycle mark :: rest) :
    pumpQueue s = drainStep len i c cycle mark s := by
  unfold pumpQueue
  rw [if_pos (queueActive_of_performs on), front]

/-- A write that counts goes on with the queue (R12). -/
theorem exec_hostWriteComplete {s : State} (out : awake s) {w : WriteAcc} (channel : s.hport.write = some w) (live : w.live = true) :
    exec .hostWriteComplete s = .next (pumpQueue (writePerformed { s with hport := { s.hport with write := none } })) := by
  refine (next_unlessHeld out hostWriteComplete).trans (congrArg _ ?_)
  unfold hostWriteComplete
  rw [channel]
  exact if_pos live

/-! ### What a one-write item releases (R98, R128) -/

/-- The offers of R98 in their order. -/
def offeredAll (rs : List (Cause × RingClass × EntryIx × Word)) (s : State) : State :=
  rs.foldl (fun s r => offerAttn r.1 r.2.1 r.2.2.1 r.2.2.2 s) s

theorem offeredAll_aiu (rs : List (Cause × RingClass × EntryIx × Word)) (s : State) :
    (offeredAll rs s).aiu = rs.foldl (fun u r => attnAfterOffer u
      { cause := r.1, cls := r.2.1, entry := r.2.2.1, cycle := s.ctim.number.extractLsb' 0 12, head := r.2.2.2 }) s.aiu := by
  induction rs generalizing s with
  | nil => rfl
  | cons r rs ih => exact ih _

theorem offeredAll_edges (rs : List (Cause × RingClass × EntryIx × Word)) (s : State) :
    (offeredAll rs s).aiu.edges = s.aiu.edges := by
  induction rs generalizing s with
  | nil => rfl
  | cons r rs ih => exact (ih _).trans (attnAfterOffer_edges _ _)

/-- The DONE edge of R98. -/
def doneEdge : Option Nat → State → State
  | some n, s => setEdge n s
  | none, s => s

theorem releaseReports_eq (i : WqItem) (s : State) :
    releaseReports i s = doneEdge (doneBitOf i) (offeredAll (reportsOf i) s) := by
  cases i with
  | packet => rfl
  | link => rfl
  | segment record word code endXfer notify c entry head =>
    have bit : irqDone c = 2 + (classCode c).toNat := by cases c <;> rfl
    unfold releaseReports releaseSegment doneBitOf reportsOf offeredAll
    by_cases missed : code = .missed <;> cases notify <;> cases endXfer <;> simp [missed, doneEdge, bit]
  | status head word c entry visit stop more =>
    unfold releaseReports releaseStatus doneBitOf reportsOf offeredAll
    cases visit <;> cases stop <;> rfl

theorem doneBitOf_lt {i : WqItem} {n : Nat} (bit : doneBitOf i = some n) : n < 10 := by
  cases i with
  | segment record word code endXfer notify c entry head =>
    have small := (classCode c).isLt
    simp only [doneBitOf] at bit
    split at bit
    · cases bit
      omega
    · cases bit
  | packet => cases bit
  | link => cases bit
  | status => cases bit

theorem doneEdge_aiu (d : Option Nat) (s : State) : (doneEdge d s).aiu = { s.aiu with edges := (doneEdge d s).aiu.edges } := by
  cases d <;> rfl

theorem doneEdge_bit {d : Option Nat} (small : ∀ n, d = some n → n < 10) (n : Nat) (s : State) :
    (doneEdge d s).aiu.edges.getLsbD n = true ↔ s.aiu.edges.getLsbD n = true ∨ d = some n := by
  cases d with
  | none => simp [doneEdge]
  | some k =>
    have := small k rfl
    rw [doneEdge, setEdge_bit k n s (by omega), Bool.or_eq_true, decide_eq_true_eq, Option.some.injEq, eq_comm (a := n)]

/-- The one-write item at the front is performed: it leaves, and its reports are offered. -/
theorem writePerformed_of_oneWrite {s : State} {i : WqItem} {rest : List WqItem} (front : s.wq.items = i :: rest)
    (one : (writeOf i).isSome = true) : writePerformed s = wakeWalker (releaseReports i (popItem s)) := by
  unfold writePerformed
  rw [front]
  cases i with
  | packet => cases one
  | segment => rfl
  | link => rfl
  | status => rfl

/-- RXLOW alone can be set where the queue goes on (R126). -/
theorem pumpQueue_aiu_rest (s : State) : (pumpQueue s).aiu = { s.aiu with edges := (pumpQueue s).aiu.edges } ∧
    ∀ n, n ≠ 10 → (pumpQueue s).aiu.edges.getLsbD n = s.aiu.edges.getLsbD n := by
  obtain same | raised := pumpQueue_aiu s
  · rw [same]
    exact ⟨rfl, fun _ _ => rfl⟩
  · refine ⟨by rw [raised], fun n other => ?_⟩
    rw [raised]
    exact (setEdge_bit 10 n s (by decide)).trans (by simp [other])

/-- The state after a one-write item is performed, before the queue goes on. -/
structure Performed (s u : State) (i : WqItem) (rest : List WqItem) : Prop where
  wq : u.wq = { s.wq with items := rest, started := false, drain := .needs }
  hport : u.hport = { s.hport with write := none }
  reports : u.aiu = { (offeredAll (reportsOf i) s).aiu with edges := u.aiu.edges }
  edges : ∀ n, u.aiu.edges.getLsbD n = true ↔ s.aiu.edges.getLsbD n = true ∨ doneBitOf i = some n
  only : OnlyChanges [.wq, .aiu, .walk, .hport] s u

theorem writePerformed_performed {s : State} {i : WqItem} {rest : List WqItem} (front : s.wq.items = i :: rest)
    (one : (writeOf i).isSome = true) :
    Performed s (writePerformed { s with hport := { s.hport with write := none } }) i rest := by
  rw [writePerformed_of_oneWrite (by exact front) one]
  have released := releaseReports_only i (popItem { s with hport := { s.hport with write := none } })
  have popped : (popItem { s with hport := { s.hport with write := none } }).wq =
      { s.wq with items := rest, started := false, drain := .needs } := by
    simp only [popItem, front, List.tail_cons]
  refine ⟨(released .wq (by decide)).trans popped, released .hport (by decide), ?_, fun n => ?_, ?_⟩
  · rw [releaseReports_eq, wakeWalker_aiu, doneEdge_aiu, offeredAll_aiu, offeredAll_aiu]
    rfl
  · rw [releaseReports_eq, wakeWalker_aiu, doneEdge_bit fun n => doneBitOf_lt, offeredAll_edges]
    rfl
  · have direct : OnlyChanges [.wq, .hport] s (popItem { s with hport := { s.hport with write := none } }) := by
      intro b other
      cases b <;> first | rfl | exact absurd (by decide) other
    exact (direct.mono (by decide)).trans ((released.mono (by decide)).trans ((wakeWalker_only _).mono (by decide)))

/-- Settles O48. -/
theorem performedWriteReleasesItsReports : Obligations.PerformedWriteReleasesItsReports := by
  intro s w i rest out on channel live front one
  have done := writePerformed_performed front one
  have row := exec_hostWriteComplete out channel live
  generalize writePerformed { s with hport := { s.hport with write := none } } = u at row done
  have goes : performs u := by
    unfold performs
    rw [done.only .seq (by decide)]
    exact on
  have items : u.wq.items = rest := by rw [done.wq]
  have begun : u.wq.started = false := by rw [done.wq]
  have free : u.hport.write = none := by rw [done.hport]
  obtain ⟨aiu, edges⟩ := pumpQueue_aiu_rest u
  refine ⟨pumpQueue u, row, by simp [items], by simp [done.wq], ?_, fun n other => ?_, fun j later k addr word next oneWrite => ?_,
    fun none => ?_, done.only.trans ((pumpQueue_only u).mono (by decide))⟩
  · have offered := done.reports
    rw [offeredAll_aiu] at offered
    dsimp only
    rw [aiu]
    exact congrArg (fun a : Aiu => { a with edges := (pumpQueue u).aiu.edges }) offered
  · rw [edges n other]
    exact done.edges n
  · rw [pumpQueue_of_oneWrite goes (items.trans next) oneWrite begun free]
    exact ⟨rfl, rfl⟩
  · rw [pumpQueue_of_empty (items.trans none)]
    exact ⟨free, begun⟩

/-! ### The descriptor steps (R123 to R126) -/

theorem wordBytes_descW3 (cycle : BitVec 16) :
    wordBytes (descW3 cycle) = [cycle.extractLsb' 0 8, cycle.extractLsb' 8 8, 0, 0] := by
  have low : field (descW3 cycle) 0 8 = cycle.extractLsb' 0 8 := by
    ext k hk
    simp [field, descW3, place]
    omega
  have high : field (descW3 cycle) 8 8 = cycle.extractLsb' 8 8 := by
    ext k hk
    simp [field, descW3, place]
    omega
  have none2 : field (descW3 cycle) 16 8 = 0 := by
    ext k hk
    simp [field, descW3, place]
  have none3 : field (descW3 cycle) 24 8 = 0 := by
    ext k hk
    simp [field, descW3, place]
    exact fun _ => BitVec.getLsbD_of_ge cycle (24 + k) (by omega)
  simp only [wordBytes, low, high, none2, none3]

theorem getLsbD_place {n : Nat} (v : BitVec n) (lo k : Nat) (small : k < 32) :
    (place v lo).getLsbD k = (decide (lo ≤ k) && v.getLsbD (k - lo)) := by
  simp only [place, BitVec.getLsbD_shiftLeft, BitVec.getLsbD_setWidth, small, decide_true, Bool.true_and]
  by_cases below : k < lo
  · simp [below]
  · simp [below, show lo ≤ k by omega, show k - lo < 32 by omega]

/-- The bits of a descriptor's W2 (8.3). -/
theorem getLsbD_descW2 (n : Nat) (i : EntryIx) (e x m : Bool) (c : RingClass) (k : Nat) (small : k < 32) :
    (descW2 n i e x m c).getLsbD k =
      if k < 16 then (BitVec.ofNat 15 n).getLsbD k else if k < 24 then i.getLsbD (k - 16) else if k = 24 then e
      else if k = 25 then x else if k < 28 then decide (k = 26) && m else (classCode c).getLsbD (k - 28) := by
  have flag (b : Bool) (j : Nat) : (flagBit b).getLsbD j = (decide (j = 0) && b) := by
    cases b <;> simp [flagBit, BitVec.getLsbD_one]
  simp only [descW2, placeFlag, BitVec.getLsbD_or, getLsbD_place _ _ _ small, flag, Nat.sub_zero, Nat.zero_le, decide_true,
    Bool.true_and]
  by_cases count : k < 16
  · simp [count, show ¬16 ≤ k by omega, show ¬24 ≤ k by omega, show ¬25 ≤ k by omega, show ¬26 ≤ k by omega,
      show ¬28 ≤ k by omega]
  · rw [BitVec.getLsbD_of_ge (BitVec.ofNat 15 n) k (by omega), if_neg count]
    by_cases entry : k < 24
    · simp [entry, show 16 ≤ k by omega, show ¬24 ≤ k by omega, show ¬25 ≤ k by omega, show ¬26 ≤ k by omega,
        show ¬28 ≤ k by omega]
    · rw [BitVec.getLsbD_of_ge i (k - 16) (by omega)]
      interval_cases k <;> simp

theorem descW2_fields (n : Nat) (i : EntryIx) (e x m : Bool) (c : RingClass) :
    (descW2 n i e x m c).extractLsb' 0 15 = BitVec.ofNat 15 n ∧ (descW2 n i e x m c).extractLsb' 16 6 = i ∧
    (descW2 n i e x m c).getLsbD 24 = e ∧ (descW2 n i e x m c).getLsbD 25 = x ∧
    (descW2 n i e x m c).getLsbD 26 = m ∧ (descW2 n i e x m c).extractLsb' 28 2 = classCode c := by
  refine ⟨?_, ?_, getLsbD_descW2 n i e x m c 24 (by decide), getLsbD_descW2 n i e x m c 25 (by decide),
    (getLsbD_descW2 n i e x m c 26 (by decide)).trans (by simp), ?_⟩
  · refine BitVec.eq_of_getLsbD_eq fun k hk => ?_
    rw [BitVec.getLsbD_extractLsb', getLsbD_descW2 n i e x m c (0 + k) (by omega), if_pos (by omega)]
    simp [hk]
  · refine BitVec.eq_of_getLsbD_eq fun k hk => ?_
    rw [BitVec.getLsbD_extractLsb', getLsbD_descW2 n i e x m c (16 + k) (by omega), if_neg (by omega), if_pos (by omega)]
    simp [hk]
  · refine BitVec.eq_of_getLsbD_eq fun k hk => ?_
    rw [BitVec.getLsbD_extractLsb', getLsbD_descW2 n i e x m c (28 + k) (by omega), if_neg (by omega), if_neg (by omega),
      if_neg (by omega), if_neg (by omega), if_neg (by omega)]
    simp [hk]

theorem freeCount_eq_zero {r : Receive} (fill : r.fill.toNat < r.size.toNat) (ret : r.ret.toNat < r.size.toNat) :
    freeCount r = 0 ↔ r.fill = r.ret := by
  unfold freeCount
  rw [Nat.mod_eq_of_lt fill, ← BitVec.toNat_inj]
  by_cases behind : r.ret.toNat < r.fill.toNat
  · rw [Nat.mod_eq_of_lt (by omega)]
    omega
  · rw [show r.ret.toNat + (r.size.toNat - r.fill.toNat) = (r.ret.toNat - r.fill.toNat) + r.size.toNat by omega,
      Nat.add_mod_right, Nat.mod_eq_of_lt (by omega)]
    omega

theorem nextFill_lt {r : Receive} (some : 0 < r.size.toNat) : (nextFill r).toNat < r.size.toNat := by
  unfold nextFill
  split
  · rw [BitVec.toNat_add, show (1 : BitVec 10).toNat = 1 from rfl]
    omega
  · exact some

theorem joinStream_descriptor {q : ReadReq} (kind : q.kind = 3) (stream : List ReadReq) :
    joinStream q stream = firstOfItsMoment q stream := by
  have rank : readRank q = 0 := by simp [readRank, kind]
  have behind (r : ReadReq) : (!(r.fresh && decide (readRank q < readRank r))) = (!r.fresh || r.kind == 3) := by
    rw [rank]
    unfold readRank
    by_cases three : r.kind = 3
    · simp [three]
    · by_cases four : r.kind = 4
      · simp [four]
      · simp [show ¬r.kind = 3#4 from three, show ¬r.kind = 4#4 from four]
  rw [joinStream_split]
  simp only [behind]
  rfl

/-- The write-back of a descriptor after `n` bytes of the packet `b` at the FIFO's front (R124, R125). -/
theorem writeBack_spec (desc : Word) (len : Nat) (i : EntryIx) (c : RingClass) (cycle : BitVec 16) (mark : Bool) (n : Nat)
    {s : State} {b : List Byte} {bs : List (List Byte)} (fifo : s.rx.fifo = b :: bs) :
    ∃ word : Word,
      (writeBack desc len i c cycle mark n s).hport = { s.hport with write := some {
        kind := 9, addr := desc + 8, live := true,
        bytes := [word.extractLsb' 0 8, word.extractLsb' 8 8, word.extractLsb' 16 8, word.extractLsb' 24 8,
                  cycle.extractLsb' 0 8, cycle.extractLsb' 8 8, 0, 0] } } ∧
      (word.extractLsb' 0 15 = BitVec.ofNat 15 n ∧ word.extractLsb' 16 6 = i ∧
        word.getLsbD 24 = decide (b.length = n) ∧ word.getLsbD 25 = (decide (b.length = n) && mark) ∧
        word.getLsbD 26 = decide (len = 0) ∧ word.extractLsb' 28 2 = classCode c) ∧
      (writeBack desc len i c cycle mark n s).wq = { s.wq with started := true, drain := .writingBack n } := by
  have front : frontPacket s.rx = b := by simp [frontPacket, fifo]
  refine ⟨descW2 n i (b.length == n) (b.length == n && mark) (len == 0) c, ?_, descW2_fields _ _ _ _ _ _, rfl⟩
  unfold writeBack
  rw [wordBytes_descW3, front]
  rfl

/-- RECORD_FETCH_DONE with a descriptor at the front of the stream. -/
theorem exec_recordFetchDone {s : State} (out : awake s) {q : ReadReq} {later : List ReadReq} (stream : s.hport.reads = q :: later)
    (fetch : q.kind ≠ 4) (w0 w1 w2 w3 : Word) :
    exec (.recordFetchDone w0 w1 w2 w3) s =
      .next (pumpQueue (popRead (snapshotReturned q { w0 := w0, w1 := w1, w2 := w2, w3 := w3 } s))) := by
  have front : frontRead s = some q := by rw [frontRead, stream]; rfl
  refine (next_unlessHeld out (recordFetchDone { w0 := w0, w1 := w1, w2 := w2, w3 := w3 })).trans (congrArg _ ?_)
  unfold recordFetchDone
  rw [front]
  exact if_neg fetch

theorem snapshotReturned_descriptor {s : State} {q : ReadReq} (reader : q.reader = .descriptor) (fetching : s.wq.drain = .fetching)
    (r : Rec) : snapshotReturned q r s = pumpQueue (setDrain (.holds q.addr r.w0 (descSize r.w1)) s) := by
  unfold snapshotReturned descriptorReturned
  simp only [reader, fetching]

/-- A held descriptor with no room, or under a packet of no bytes, is written back at once. -/
theorem drainStep_holds_none {s : State} {len : Nat} {i : EntryIx} {c : RingClass} {cycle : BitVec 16} {mark : Bool}
    {desc buffer : Word} {size : Nat} (drain : s.wq.drain = .holds desc buffer size) (free : s.hport.write = none)
    (none : min size (frontPacket s.rx).length = 0) :
    drainStep len i c cycle mark s = writeBack desc len i c cycle mark 0 s := by
  unfold drainStep
  simp [drain, free, none]

theorem drainStep_holds_some {s : State} {len : Nat} {i : EntryIx} {c : RingClass} {cycle : BitVec 16} {mark : Bool}
    {desc buffer : Word} {size : Nat} (drain : s.wq.drain = .holds desc buffer size) (free : s.hport.write = none)
    (some : min size (frontPacket s.rx).length ≠ 0) :
    drainStep len i c cycle mark s =
      setDrain (.writing desc (min size (frontPacket s.rx).length))
        (issueWrite 8 buffer ((frontPacket s.rx).take (min size (frontPacket s.rx).length)) s) := by
  unfold drainStep
  simp [drain, free, some]

/-- A packet under way takes no further step of its own. -/
theorem pumpQueue_of_busy {s : State} (on : performs s) {len : Nat} {i : EntryIx} {c : RingClass} {cycle : BitVec 16}
    {mark : Bool} {rest : List WqItem} (front : s.wq.items = .packet len i c cycle mark :: rest)
    (busy : (∃ d n, s.wq.drain = .writing d n) ∨ ∃ n, s.wq.drain = .writingBack n) : pumpQueue s = s := by
  rw [pumpQueue_of_packet on front]
  unfold drainStep
  obtain ⟨d, n, drain⟩ | ⟨n, drain⟩ := busy
  · rw [drain]
  · rw [drain]

theorem frontPacket_of {s : State} {b : List Byte} {bs : List (List Byte)} (fifo : s.rx.fifo = b :: bs) : frontPacket s.rx = b := by
  rw [frontPacket, fifo]
  rfl

theorem writePerformed_of_writing {s : State} {len : Nat} {i : EntryIx} {c : RingClass} {cycle : BitVec 16} {mark : Bool}
    {rest : List WqItem} (front : s.wq.items = .packet len i c cycle mark :: rest) {desc : Word} {n : Nat}
    (drain : s.wq.drain = .writing desc n) : writePerformed s = setDrain (.written desc n) s := by
  unfold writePerformed
  rw [front]
  dsimp only
  rw [drain]

theorem writePerformed_of_back {s : State} {len : Nat} {i : EntryIx} {c : RingClass} {cycle : BitVec 16} {mark : Bool}
    {rest : List WqItem} (front : s.wq.items = .packet len i c cycle mark :: rest) {n : Nat}
    (drain : s.wq.drain = .writingBack n) : writePerformed s = descriptorDone n s := by
  unfold writePerformed
  rw [front]
  dsimp only
  rw [drain]

/-- The last descriptor of a packet is written back (R123, R125). -/
theorem descriptorDone_of_last {s : State} {b : List Byte} {bs : List (List Byte)} (fifo : s.rx.fifo = b :: bs) {n : Nat}
    (all : b.length ≤ n) :
    descriptorDone n s = wakeWalker (popItem { s with rx := { s.rx with fill := nextFill s.rx, fifo := bs } }) := by
  unfold descriptorDone
  rw [frontPacket_of fifo, fifo]
  exact if_pos (List.isEmpty_iff.mpr (List.drop_eq_nil_iff.mpr all))

/-- A descriptor is written back and bytes of its packet are left. -/
theorem descriptorDone_of_more {s : State} {b : List Byte} {bs : List (List Byte)} (fifo : s.rx.fifo = b :: bs) {n : Nat}
    (more : n < b.length) :
    descriptorDone n s = setDrain .needs { s with rx := { s.rx with fill := nextFill s.rx, fifo := b.drop n :: bs } } := by
  unfold descriptorDone
  rw [frontPacket_of fifo, fifo]
  exact if_neg fun empty => absurd (List.drop_eq_nil_iff.mp (List.isEmpty_iff.mp empty)) (by omega)

/-- A packet that needs a descriptor waits for one, or fetches it (R125, R126). -/
theorem drainStep_needs {s : State} {len : Nat} {i : EntryIx} {c : RingClass} {cycle : BitVec 16} {mark : Bool}
    (drain : s.wq.drain = .needs) :
    drainStep len i c cycle mark s =
      if freeCount s.rx = 0 then setEdge irqRxlow (setDrain .waits s) else fetchDescriptor s := by
  unfold drainStep
  rw [drain]

/-- The fetch of the descriptor at RX_FILL joins the stream before the other fetches of its moment (R12). -/
theorem fetchDescriptor_eq (s : State) :
    fetchDescriptor s = { s with
      hport := { s.hport with reads := firstOfItsMoment {
        kind := 3, addr := s.rx.base + 16 * s.rx.fill.setWidth 32, len := 16, reader := .descriptor, fresh := s.hport.moment } s.hport.reads },
      wq := { s.wq with started := true, drain := .fetching } } := by
  unfold fetchDescriptor requestRead
  rw [joinStream_descriptor rfl]
  rfl

theorem drainStep_waits {s : State} {len : Nat} {i : EntryIx} {c : RingClass} {cycle : BitVec 16} {mark : Bool}
    (drain : s.wq.drain = .waits) :
    drainStep len i c cycle mark s = if freeCount s.rx = 0 then s else fetchDescriptor s := by
  unfold drainStep
  rw [drain]

/-- Settles O49. -/
theorem descriptorStepsDrainThePacket : Obligations.DescriptorStepsDrainThePacket := by
  intro s len i c cycle mark rest b bs out on front fifo
  have packet := frontPacket_of fifo
  refine ⟨fun q later w0 w1 w2 w3 stream kind reader fetching free => ?_, fun w desc n channel live drain => ?_,
    fun w n channel live drain => ?_, fun v drain fill ret => ?_⟩
  · have row := exec_recordFetchDone out stream kind w0 w1 w2 w3
    generalize given : setDrain (.holds q.addr w0 (descSize w1)) s = held at row
    have holds : held.wq.drain = .holds q.addr w0 (descSize w1) := by rw [← given]; rfl
    have same : frontPacket held.rx = b := by rw [← given]; exact packet
    have pumped : snapshotReturned q { w0 := w0, w1 := w1, w2 := w2, w3 := w3 } s = drainStep len i c cycle mark held := by
      rw [snapshotReturned_descriptor reader fetching, given,
        pumpQueue_of_packet (by rw [← given]; exact on) (by rw [← given]; exact front)]
    rw [pumped] at row
    refine ⟨fun some bytes => ?_, fun none => ?_⟩
    · have takes : min (descSize w1) (frontPacket held.rx).length ≠ 0 := by
        have := List.length_pos_iff.mpr bytes
        rw [same]
        exact Nat.ne_of_gt (lt_min some this)
      rw [drainStep_holds_some holds (by rw [← given]; exact free) takes, same,
        pumpQueue_of_busy (by rw [← given]; exact on) (by rw [← given]; exact front) (.inl ⟨_, _, rfl⟩)] at row
      rw [row, ← given]
      have rest : s.hport.reads.tail = later := by rw [stream]; rfl
      simp [popRead, issueWrite, setDrain, beginItem, rest, descSize, field]
    · have takes : min (descSize w1) (frontPacket held.rx).length = 0 := by
        rw [same]
        obtain size | empty := none
        · exact Nat.min_eq_zero_iff.mpr (.inl size)
        · simp [empty]
      obtain ⟨word, port, back, queue⟩ := writeBack_spec q.addr len i c cycle mark 0 (s := held) (b := b) (bs := bs)
        (by rw [← given]; exact fifo)
      rw [drainStep_holds_none holds (by rw [← given]; exact free) takes,
        pumpQueue_of_busy (by rw [← given]; exact on) (by rw [← given]; exact front) (.inr ⟨_, by exact congrArg WriteQueue.drain queue⟩)] at row
      refine ⟨_, word, row, ?_, back, ?_, ?_⟩
      · dsimp only [popRead]
        rw [port, ← given]
        simp [setDrain, stream]
      · dsimp only [popRead]
        rw [queue, ← given]
        rfl
      · rw [← given]
        intro block other
        cases block <;> first | rfl | exact absurd (by decide) other
  · have row := exec_hostWriteComplete out channel live
    rw [writePerformed_of_writing (by exact front) (by exact drain), pumpQueue_of_packet (by exact on) (by exact front)] at row
    obtain ⟨word, port, back, queue⟩ := writeBack_spec desc len i c cycle mark n (b := b) (bs := bs)
      (s := setDrain (.written desc n) { s with hport := { s.hport with write := none } }) fifo
    refine ⟨_, word, row, port, back, queue, ?_⟩
    intro block other
    cases block <;> first | rfl | exact absurd (by decide) other
  · intro fill
    have row := exec_hostWriteComplete out channel live
    rw [writePerformed_of_back (by exact front) (by exact drain)] at row
    generalize freed : ({ s with hport := { s.hport with write := none } } : State) = s0 at row
    have same : s0.rx.fifo = b :: bs := freed ▸ fifo
    have kept : OnlyChanges [.hport] s s0 := by
      rw [← freed]
      intro block other
      cases block <;> first | rfl | exact absurd (by decide) other
    refine ⟨_, row, fun all => ⟨?_, ?_⟩, fun more => ⟨?_, ?_⟩, fun more room => ?_, ?_⟩
    · rw [pumpQueue_items, descriptorDone_of_last same all]
      subst freed
      simp [front]
    · rw [pumpQueue_rx, descriptorDone_of_last same all]
      subst freed
      rfl
    · rw [pumpQueue_items, descriptorDone_of_more same more]
      subst freed
      rfl
    · rw [pumpQueue_rx, descriptorDone_of_more same more]
      subst freed
      rfl
    · have filled : nextFill s.rx = fill := rfl
      have size : 0 < s.rx.size.toNat := by omega
      have step : pumpQueue (descriptorDone n s0) =
          if nextFill s.rx = s.rx.ret then setEdge irqRxlow (setDrain .waits (descriptorDone n s0))
          else fetchDescriptor (descriptorDone n s0) := by
        rw [descriptorDone_of_more same more, pumpQueue_of_packet (by subst freed; exact on) (by subst freed; exact front),
          drainStep_needs (by rfl)]
        have none := freeCount_eq_zero (r := { s0.rx with fill := nextFill s0.rx, fifo := b.drop n :: bs })
          (by subst freed; exact nextFill_lt size) (by subst freed; exact room)
        subst freed
        exact if_congr none rfl rfl
      rw [step]
      refine ⟨fun low => ?_, fun some => ?_⟩
      · rw [if_pos (by exact low), descriptorDone_of_more same more]
        subst freed
        exact ⟨rfl, rfl, rfl⟩
      · rw [if_neg (by exact some), descriptorDone_of_more same more, fetchDescriptor_eq]
        subst freed
        exact ⟨rfl, rfl, rfl⟩
    · exact (kept.mono (by decide)).trans (((descriptorDone_only n s0).mono (by decide)).trans
        ((pumpQueue_only _).mono (by decide)))
  · have row : exec (.rxReturnWrite v) s = .next (writeRxReturn v s) := next_unlessHeld out _
    have none := freeCount_eq_zero (r := { s.rx with ret := v.extractLsb' 0 10 }) fill ret
    have step : writeRxReturn v s = if s.rx.fill = v.extractLsb' 0 10 then { s with rx := { s.rx with ret := v.extractLsb' 0 10 } }
        else fetchDescriptor { s with rx := { s.rx with ret := v.extractLsb' 0 10 } } := by
      unfold writeRxReturn
      rw [if_pos (show (field v 0 10).toNat < s.rx.size.toNat from ret), pumpQueue_of_packet (by exact on) (by exact front),
        drainStep_waits (by exact drain)]
      exact if_congr none rfl rfl
    rw [row, step]
    refine ⟨fun low => ?_, fun some => ?_⟩
    · exact congrArg _ (if_pos low.symm)
    · rw [if_neg (Ne.symm some), fetchDescriptor_eq]

end Sys2Proof.Machine
end

section
/-! SUPPORT. A host-memory fault and the two parts of a seal (R13, R159), with the settlements of O51 and O52. -/

namespace Sys2Proof.Machine

/-! ### Error completions -/

theorem offsetFits_iff (kind : BitVec 4) (len : Nat) (offset : BitVec 10) :
    offsetFits kind len offset = true ↔ (if kind = 4 ∨ kind = 8 then offset.toNat < len else offset = 0) := by
  unfold offsetFits
  by_cases four : kind = 4
  · simp [four]
  · by_cases eight : kind = 8
    · simp [eight]
    · simp [show ¬kind = 4#4 from four, show ¬kind = 8#4 from eight]

theorem exec_readFault {s : State} (out : awake s) {r : ReadReq} {rest : List ReadReq} (stream : s.hport.reads = r :: rest)
    {offset : BitVec 10} (fits : offsetFits r.kind r.len offset = true) :
    exec (.hostMemoryFault .read offset) s =
      .next (popRead (accessFault r.left (faultCodeOf r.kind) r.kind (r.addr + offset.setWidth 32) s)) := by
  refine (next_unlessHeld out (hostMemoryFault .read offset)).trans (congrArg _ ?_)
  unfold hostMemoryFault readFault
  rw [stream]
  exact if_pos fits

theorem exec_writeFault {s : State} (out : awake s) {w : WriteAcc} (channel : s.hport.write = some w)
    {offset : BitVec 10} (fits : offsetFits w.kind w.bytes.length offset = true) :
    exec (.hostMemoryFault .write offset) s =
      .next (pumpQueue (accessFault w.left (faultCodeOf w.kind) w.kind (w.addr + offset.setWidth 32)
        { s with hport := { s.hport with write := none },
                 wq := { s.wq with started := s.wq.started && (w.left || !w.live && !s.seq.sealPending) } })) := by
  refine (next_unlessHeld out (hostMemoryFault .write offset)).trans (congrArg _ ?_)
  unfold hostMemoryFault writeFault
  rw [channel]
  exact if_pos fits

/-- The fault of an access that counts, in a working controller: it is logged, and the controller seals (R29). -/
theorem accessFault_of_working {s : State} (offline : s.seq.state ≠ .offline) (closed : s.seq.state ≠ .sealed) (code : BitVec 8)
    (kind : BitVec 4) (addr : Word) : accessFault false code kind addr s = sealNow (offerHost code kind addr s) := by
  show hostFault code kind addr s = _
  unfold hostFault
  dsimp only
  split
  case h_1 state => exact absurd state offline
  case h_2 state => exact absurd state closed
  case h_3 => rfl

/-- Where no seal follows, a fault leaves the entry in the log, and in SEALED the mark for a RESTART in hand (R24). -/
theorem accessFault_of_logged {s : State} {left : Bool} (logged : left = true ∨ s.seq.state = .offline ∨ s.seq.state = .sealed)
    (code : BitVec 8) (kind : BitVec 4) (addr : Word) :
    accessFault left code kind addr s = { offerHost code kind addr s with
      seq := { s.seq with restartFaulted := s.seq.restartFaulted ||
        (decide (s.seq.state = .sealed ∧ left = false) && s.seq.restartInHand) } } := by
  by_cases marked : s.seq.state = .sealed ∧ left = false
  · obtain ⟨state, rfl⟩ := marked
    rw [decide_eq_true ⟨state, rfl⟩, Bool.true_and]
    show hostFault code kind addr s = _
    unfold hostFault
    dsimp only
    split
    case h_1 other => cases state.symm.trans other
    case h_2 => rfl
    case h_3 _ other => exact absurd state other
  · rw [decide_eq_false marked, Bool.false_and, Bool.or_false]
    cases left with
    | true => rfl
    | false =>
      show hostFault code kind addr s = _
      unfold hostFault
      dsimp only
      split
      case h_1 => rfl
      case h_2 state => exact absurd ⟨state, rfl⟩ marked
      case h_3 offline closed =>
        obtain left | state | state := logged
        · cases left
        · exact absurd state offline
        · exact absurd state closed

/-- With the queue at rest nothing is performed. -/
theorem pumpQueue_of_rest {s : State} (rest : s.seq.state = .offline ∨ s.seq.state = .sealed) : pumpQueue s = s := by
  unfold pumpQueue queueActive
  obtain state | state := rest
  · rw [state]; rfl
  · rw [state]; rfl

/-- What the queue does of itself on the host bus: it requests a read, or issues a write that no OFFLINE left. -/
theorem pumpQueue_hport (s : State) :
    (pumpQueue s).hport = { s.hport with reads := (pumpQueue s).hport.reads, write := (pumpQueue s).hport.write } ∧
    ((pumpQueue s).hport.write = s.hport.write ∨ ∃ w, (pumpQueue s).hport.write = some w ∧ w.left = false) ∧
    ∀ r ∈ s.hport.reads, r ∈ (pumpQueue s).hport.reads := by
  unfold pumpQueue
  split
  · split
    · exact ⟨rfl, .inl rfl, fun _ => id⟩
    · unfold drainStep
      split
      · split
        · exact ⟨rfl, .inl rfl, fun _ => id⟩
        · exact ⟨rfl, .inl rfl, fun r held => (mem_joinStream _ r _).mpr (.inr held)⟩
      · split
        · exact ⟨rfl, .inl rfl, fun _ => id⟩
        · exact ⟨rfl, .inl rfl, fun r held => (mem_joinStream _ r _).mpr (.inr held)⟩
      · split
        · exact ⟨rfl, .inl rfl, fun _ => id⟩
        · dsimp only
          split
          · exact ⟨rfl, .inr ⟨_, rfl, rfl⟩, fun _ => id⟩
          · exact ⟨rfl, .inr ⟨_, rfl, rfl⟩, fun _ => id⟩
      · split
        · exact ⟨rfl, .inl rfl, fun _ => id⟩
        · exact ⟨rfl, .inr ⟨_, rfl, rfl⟩, fun _ => id⟩
      · exact ⟨rfl, .inl rfl, fun _ => id⟩
    · split
      · exact ⟨rfl, .inl rfl, fun _ => id⟩
      · exact ⟨rfl, .inr ⟨_, rfl, rfl⟩, fun _ => id⟩
  · exact ⟨rfl, .inl rfl, fun _ => id⟩

theorem accessFault_elog (left : Bool) (code : BitVec 8) (kind : BitVec 4) (addr : Word) (s : State) :
    (accessFault left code kind addr s).elog = hostAfterOffer s.elog code kind addr ∧
    (accessFault left code kind addr s).hport = { s.hport with
      reads := (accessFault left code kind addr s).hport.reads, write := (accessFault left code kind addr s).hport.write } := by
  by_cases logged : left = true ∨ s.seq.state = .offline ∨ s.seq.state = .sealed
  · rw [accessFault_of_logged logged]
    exact ⟨rfl, rfl⟩
  · obtain ⟨live, offline, closed⟩ := not_or.mp logged |>.imp_right not_or.mp
    rw [Bool.not_eq_true] at live
    rw [live, accessFault_of_working offline closed]
    exact ⟨rfl, rfl⟩

/-- Parts 1 to 4 of R159, as the fault that seals leaves the blocks it changes. -/
theorem sealNow_spec (code : BitVec 8) (kind : BitVec 4) (addr : Word) (s : State) :
    (sealNow (offerHost code kind addr s)).seq = { s.seq with
      state := .sealed, sealPending := true, restartFaulted := s.seq.restartFaulted || s.seq.restartInHand } ∧
    (sealNow (offerHost code kind addr s)).aiu = { s.aiu with edges := s.aiu.edges ||| 0x180#11 } ∧
    (sealNow (offerHost code kind addr s)).walk = { s.walk with hand := handAtSeal s.walk.hand, look := .nothing, waiting := false } ∧
    (sealNow (offerHost code kind addr s)).hport.reads = (cancelAllReads s).hport.reads ∧
    (sealNow (offerHost code kind addr s)).hport.write = s.hport.write.map (fun w => { w with live := false }) := by
  refine ⟨rfl, ?_, rfl, rfl, rfl⟩
  show ({ s.aiu with edges := s.aiu.edges ||| (1#11 <<< irqErrlog) ||| (1#11 <<< irqSeq) } : Aiu) = _
  rw [BitVec.or_assoc]
  rfl

theorem handAtSeal_exchanging {u : Turn} (phase : u.phase = .exchanging) : handAtSeal (.turn u) = .turn u := if_pos phase

theorem handAtSeal_of_none {h : Hand} (none : ∀ u, h = .turn u → u.phase ≠ .exchanging) : handAtSeal h = .nothing := by
  cases h with
  | turn u => exact if_neg (none u rfl)
  | _ => rfl

theorem faultCodeOf_eq (kind : BitVec 4) :
    faultCodeOf kind = if kind.toNat ≤ 3 then 0x20 else if kind = 4 then 0x21 else 0x22 := by
  simp only [faultCodeOf, beq_iff_eq]
  rfl

/-- The bit of ERRLOG is set by every fault (R152). -/
theorem edges_errlog (e : BitVec 11) : (e ||| 1#11 <<< irqErrlog).getLsbD 8 = true := by
  simp [irqErrlog]

/-- Settles O51. -/
theorem hostMemoryFaultSeals : Obligations.HostMemoryFaultSeals := by
  intro ch offset s kind addr len out access fits
  rw [← offsetFits_iff] at fits
  dsimp only
  rw [← faultCodeOf_eq]
  cases ch with
  | read =>
    obtain ⟨r, stream, rfl, rfl, rfl⟩ : ∃ r, s.hport.reads.head? = some r ∧ r.kind = kind ∧ r.addr = addr ∧ r.len = len := by
      simpa [outstandingOn] using access
    obtain ⟨rest, stream⟩ := List.head?_eq_some_iff.mp stream
    have left : leftOn s .read = r.left := by simp [leftOn, stream]
    obtain ⟨log, port⟩ := accessFault_elog r.left (faultCodeOf r.kind) r.kind (r.addr + offset.setWidth 32) s
    refine ⟨_, exec_readFault out stream fits, log, ?_, fun offline closed none => ?_, fun idle => ?_, fun marked => ?_⟩
    · exact congrArg (fun p : HostPort => { p with reads := p.reads.tail }) port
    · rw [left] at none
      rw [none, accessFault_of_working offline closed]
      obtain ⟨seq, aiu, walk, reads, write⟩ := sealNow_spec (faultCodeOf r.kind) r.kind (r.addr + offset.setWidth 32) s
      have gone : (popRead (sealNow (offerHost (faultCodeOf r.kind) r.kind (r.addr + offset.setWidth 32) s))).hport.reads = [] := by
        refine (congrArg List.tail (reads.trans (cancelAllReads_reads s))).trans ?_
        rw [stream]
        cases fresh : r.fresh <;> simp [fresh]
      refine ⟨rfl, fun h => (by cases h), seq, aiu, rfl, fun _ => gone, by simp [gone], by simp [gone], fun w held => ?_, walk,
        fun u hand phase => ?_, fun quiet => ?_, ?_⟩
      · obtain ⟨w', -, rfl⟩ := Option.map_eq_some_iff.mp (write.symm.trans held)
        rfl
      · exact (congrArg Walker.hand walk).trans (by rw [hand]; exact handAtSeal_exchanging phase)
      · exact (congrArg Walker.hand walk).trans (handAtSeal_of_none quiet)
      · exact ((offerHost_only _ _ _ s).mono (by decide)).trans (((sealNow_only _).mono (by decide)).trans ((popRead_only _).mono (by decide)))
    · rw [left, accessFault_of_logged (.inr idle)]
      refine ⟨rfl, rfl, fun h => (by cases h), rfl, fun _ => rfl, fun h => (by cases h), ?_⟩
      intro block other
      cases block <;> first | rfl | exact absurd (by decide) other
    · rw [left] at marked
      rw [marked]
      refine ⟨rfl, rfl, edges_errlog _, fun _ => ⟨rfl, ?_⟩, fun h => (by cases h)⟩
      intro block other
      cases block <;> first | rfl | exact absurd (by decide) other
  | write =>
    obtain ⟨w, channel, rfl, rfl, rfl⟩ : ∃ w, s.hport.write = some w ∧ w.kind = kind ∧ w.addr = addr ∧ w.bytes.length = len := by
      simpa [outstandingOn] using access
    have left : leftOn s .write = w.left := by simp [leftOn, channel]
    have row := exec_writeFault out channel fits
    generalize freed : ({ s with
      hport := { s.hport with write := none },
      wq := { s.wq with started := s.wq.started && (w.left || !w.live && !s.seq.sealPending) } } : State) = s0 at row
    obtain ⟨log, port⟩ := accessFault_elog w.left (faultCodeOf w.kind) w.kind (w.addr + offset.setWidth 32) s0
    have seq0 : s0.seq = s.seq := by rw [← freed]
    have none0 : s0.hport.write = none := by rw [← freed]
    have free0 : OnlyChanges [.wq, .hport] s s0 := by
      rw [← freed]
      intro block other
      cases block <;> first | rfl | exact absurd (by decide) other
    refine ⟨_, row, ?_, ?_, fun offline closed none => ?_, fun idle => ?_, fun marked => ?_⟩
    · rw [pumpQueue_elog, log, ← freed]
    · refine (pumpQueue_hport _).1.trans ?_
      generalize pumpQueue _ = u
      rw [port, ← freed]
    · rw [left] at none
      rw [none, accessFault_of_working (by rw [seq0]; exact offline) (by rw [seq0]; exact closed), pumpQueue_of_rest (.inr rfl)]
      obtain ⟨seq, aiu, walk, reads, write⟩ := sealNow_spec (faultCodeOf w.kind) w.kind (w.addr + offset.setWidth 32) s0
      have gone := write.trans (congrArg _ none0)
      subst freed
      have given := reads.trans (cancelAllReads_reads _)
      refine ⟨rfl, fun _ => gone, seq, aiu, rfl, fun h => (by cases h), ?_, ?_, fun w held => ?_, walk,
        fun u hand phase => ?_, fun quiet => ?_, ?_⟩
      · rw [given, List.length_map]
        exact (List.length_filter_le _ _).trans (List.length_take_le 1 _)
      · rw [given]
        intro r held
        obtain ⟨r', -, rfl⟩ := List.mem_map.mp held
        rfl
      · cases gone.symm.trans held
      · exact (congrArg Walker.hand walk).trans (by rw [hand]; exact handAtSeal_exchanging phase)
      · exact (congrArg Walker.hand walk).trans (handAtSeal_of_none quiet)
      · exact (free0.mono (by decide)).trans (((offerHost_only _ _ _ _).mono (by decide)).trans ((sealNow_only _).mono (by decide)))
    · rw [left, accessFault_of_logged (.inr (by rw [seq0]; exact idle)), pumpQueue_of_rest (by subst freed; exact idle)]
      subst freed
      refine ⟨rfl, rfl, fun _ => rfl, rfl, fun h => (by cases h), fun _ => rfl, ?_⟩
      intro block other
      cases block <;> first | rfl | exact absurd (by decide) other
    · rw [left] at marked
      rw [marked]
      obtain ⟨-, kept⟩ := pumpQueue_aiu_rest (accessFault true (faultCodeOf w.kind) w.kind (w.addr + offset.setWidth 32) s0)
      refine ⟨by rw [pumpQueue_seq]; exact seq0, ?_, ?_, fun h => (by cases h), fun _ => ⟨fun v held => ?_, ?_⟩⟩
      · rw [pumpQueue_items]
        subst freed
        rfl
      · rw [kept 8 (by decide)]
        exact edges_errlog _
      · obtain same | ⟨w', issued, fresh⟩ := (pumpQueue_hport (accessFault true (faultCodeOf w.kind) w.kind (w.addr + offset.setWidth 32) s0)).2.1
        · cases (same.symm.trans held).symm.trans none0
        · cases issued.symm.trans held
          exact fresh
      · exact (free0.mono (by decide)).trans (((offerHost_only _ _ _ _).mono (by decide)).trans ((pumpQueue_only _).mono (by decide)))

/-! ### The end of a seal (R143, R159) -/

/-- What the flush of R143 leaves of the direct lists and the Bank. -/
structure Flushed (s t : State) : Prop where
  lists : t.dau = { s.dau with
    bank := t.dau.bank, pending := [],
    done := s.dau.done ++ (s.dau.pending.take (4 - s.dau.done.length)).map (fun r =>
      { poke := r.poke, tag := r.tag, status := .sealed, count := 0 }),
    directFlushed := s.dau.directFlushed || decide (4 - s.dau.done.length < s.dau.pending.length) }
  filled : ∀ i, i < 64 → (s.hport.fill = true ∧ ∃ r ∈ s.dau.pending.take (4 - s.dau.done.length), r.poke = false ∧
    r.offset.toNat ≤ i ∧ i < r.offset.toNat + r.len) → bankByte t i = 0xFF
  kept : ∀ i, i < 64 → ¬(s.hport.fill = true ∧ ∃ r ∈ s.dau.pending.take (4 - s.dau.done.length), r.poke = false ∧
    r.offset.toNat ≤ i ∧ i < r.offset.toNat + r.len) → bankByte t i = bankByte s i

/-- A PEEK that completes SEALED fills its range where fill is 1, and a POKE writes nothing (R140). -/
theorem bankByte_completeDirect_sealed {s : State} {r : DirReq} {rest : List DirReq} (front : s.dau.pending = r :: rest) (i : Nat)
    (inside : i < 64) : bankByte (completeDirect .sealed [] s) i =
      if s.hport.fill = true ∧ r.poke = false ∧ r.offset.toNat ≤ i ∧ i < r.offset.toNat + r.len then 0xFF else bankByte s i := by
  unfold completeDirect bankByte bankAfter
  rw [front]
  dsimp only
  cases poke : r.poke
  · cases fill : s.hport.fill
    · simp
    · have filled := putBank_get (List.replicate r.len 0xFF) s.dau.bank r.offset.toNat i inside
      have byte (low : r.offset.toNat ≤ i ∧ i < r.offset.toNat + r.len) :
          (List.replicate r.len (0xFF : Byte)).getD (i - r.offset.toNat) 0 = 0xFF := by
        rw [List.getD_eq_getElem?_getD, List.getElem?_replicate_of_lt (by omega)]
        rfl
      simp only [List.length_replicate] at filled
      simp only [true_and, if_true]
      rw [List.getD_eq_getElem?_getD, Vector.getElem?_toList, Vector.getElem?_eq_getElem inside, Option.getD_some]
      refine filled.trans ?_
      by_cases hit : r.offset.toNat ≤ i ∧ i < r.offset.toNat + r.len
      · rw [if_pos hit, if_pos hit, byte hit]
      · rw [if_neg hit, if_neg hit, List.getD_eq_getElem?_getD, Vector.getElem?_toList, Vector.getElem?_eq_getElem inside]
        rfl
  · simp

theorem completeDirect_sealed_dau {s : State} {r : DirReq} {rest : List DirReq} (front : s.dau.pending = r :: rest) :
    (completeDirect .sealed [] s).dau = { s.dau with
      bank := (completeDirect .sealed [] s).dau.bank, pending := rest,
      done := s.dau.done ++ [{ poke := r.poke, tag := r.tag, status := .sealed, count := 0 }] } := by
  unfold completeDirect
  rw [front]
  rfl

/-- With nothing to be served, the flush leaves the Bank alone. -/
theorem Flushed.of_none {s t : State} (none : s.dau.pending.take (4 - s.dau.done.length) = [])
    (lists : t.dau = { s.dau with
      pending := [], directFlushed := s.dau.directFlushed || decide (4 - s.dau.done.length < s.dau.pending.length) }) :
    Flushed s t := by
  refine ⟨?_, fun i inside filled => ?_, fun i inside _ => ?_⟩
  · rw [none, lists]
    simp
  · rw [none] at filled
    simp at filled
  · rw [bankByte, lists]
    rfl

theorem sealFlush_flushed (n : Nat) (s : State) (all : s.dau.pending.length = n) : Flushed s (sealFlush s n) := by
  induction n generalizing s with
  | zero =>
    have empty := List.length_eq_zero_iff.mp all
    refine .of_none (by simp [empty]) ?_
    simp only [sealFlush, empty, List.length_nil, Nat.not_lt_zero, decide_false, Bool.or_false]
    rw [← empty]
  | succ n ih =>
    obtain ⟨r, rest, front⟩ := List.exists_cons_of_length_eq_add_one all
    unfold sealFlush
    rw [if_neg (by simp [front])]
    by_cases room : s.dau.done.length < 4
    · rw [if_pos (by exact room)]
      have dau := completeDirect_sealed_dau front
      have byte := bankByte_completeDirect_sealed front
      have fill : (completeDirect .sealed [] s).hport = s.hport := completeDirect_only _ _ s .hport (by decide)
      generalize completeDirect .sealed [] s = u at dau byte fill
      have served : s.dau.pending.take (4 - s.dau.done.length) = r :: u.dau.pending.take (4 - u.dau.done.length) := by
        rw [dau, front, show 4 - s.dau.done.length = (4 - (s.dau.done.length + 1)) + 1 by omega]
        simp
      have rest' : u.dau.pending.length = n := by
        rw [dau]
        simpa [front] using all
      obtain ⟨lists, filled, kept⟩ := ih u rest'
      refine ⟨?_, fun i inside hit => ?_, fun i inside miss => ?_⟩
      · refine lists.trans ?_
        have overflow : 4 - u.dau.done.length < u.dau.pending.length ↔ 4 - s.dau.done.length < s.dau.pending.length := by
          rw [dau, front]
          simp only [List.length_append, List.length_cons, List.length_nil]
          omega
        rw [served]
        simp only [overflow]
        generalize (sealFlush u n).dau.bank = bank
        generalize u.dau.pending.take (4 - u.dau.done.length) = behind
        rw [dau]
        simp only [List.map_cons, List.append_assoc, List.singleton_append]
      · rw [fill] at filled kept
        rw [served] at hit
        by_cases behind : s.hport.fill = true ∧ ∃ q ∈ u.dau.pending.take (4 - u.dau.done.length), q.poke = false ∧
            q.offset.toNat ≤ i ∧ i < q.offset.toNat + q.len
        · exact filled i inside behind
        · obtain ⟨on, q, place, range⟩ := hit
          obtain rfl | place := List.mem_cons.mp place
          · exact (kept i inside behind).trans ((byte i inside).trans (if_pos ⟨on, range⟩))
          · exact absurd ⟨on, q, place, range⟩ behind
      · rw [fill] at kept
        rw [served] at miss
        refine (kept i inside fun ⟨on, q, place, range⟩ => miss ⟨on, q, List.mem_cons_of_mem r place, range⟩).trans ?_
        exact (byte i inside).trans (if_neg fun ⟨on, range⟩ => miss ⟨on, r, List.mem_cons_self, range⟩)
    · rw [if_neg (by exact room)]
      have full : 4 - s.dau.done.length = 0 := by omega
      refine .of_none (by rw [full]; rfl) ?_
      simp [full, front]

/-- Settles O52. -/
theorem sealCompletionEmptiesTheQueues : Obligations.SealCompletionEmptiesTheQueues := by
  intro s out pending free served
  have row : exec .sealCompletion s = .next (sealCompletion s) := next_unlessHeld out _
  generalize gone : { discardQueue s with seq := { (discardQueue s).seq with sealPending := false } } = u
  have step : sealCompletion s = sealFlush u u.dau.pending.length := by
    unfold sealCompletion
    rw [pending, free, ← gone]
    rfl
  have flushed := sealFlush_flushed _ u rfl
  have only := sealFlush_only u u.dau.pending.length
  rw [row, step]
  have kept := sealCompletion_only s
  rw [step] at kept
  generalize sealFlush u u.dau.pending.length = t at flushed only kept
  have dau : u.dau = s.dau := by rw [← gone]; rfl
  have same : ∀ i, bankByte u i = bankByte s i := fun i => by unfold bankByte; rw [dau]
  have fill : u.hport.fill = s.hport.fill := by rw [← gone]; rfl
  obtain ⟨lists, filled, rest⟩ := flushed
  rw [dau] at lists
  rw [dau, fill] at filled rest
  refine ⟨t, rfl, ?_, ?_, ?_, lists, fun i inside => ?_, fun w held => ?_, kept.mono (by decide)⟩
  · rw [only .seq (by decide), ← gone]
    rfl
  · rw [only .wq (by decide), ← gone]
    rfl
  · rw [only .rx (by decide), ← gone]
    rfl
  · split
    · exact filled i inside ‹_›
    · exact (rest i inside ‹_›).trans (same i)
  · have orphan : t.hport.write = s.hport.write.map (fun w => { w with live := false }) := by
      rw [only .hport (by decide), ← gone]
      rfl
    obtain ⟨w', -, rfl⟩ := Option.map_eq_some_iff.mp (orphan.symm.trans held)
    rfl

end Sys2Proof.Machine
end

section
/-! SUPPORT. What the walker's tests come to (R83), the progress slots, what the Write Queue keeps of the read stream, and
the end of a record and of its skip steps: the settlements of O40 and O41. -/

namespace Sys2Proof.Machine

/-! ### The tests of R83 -/

theorem aligned_iff (w : Word) : aligned w = true ↔ w.extractLsb' 0 4 = 0#4 := by
  simp [aligned, field]

theorem usableFor_iff (c : RingClass) (e : Entry) : usableFor c e = true ↔
    e.valid = true ∧ e.address ≠ 0 ∧ e.payloadCode ≠ 7 ∧ (e.classLock = 0 ∨ e.classLock.toNat = (classCode c).toNat + 1) := by
  have lock : e.classLock = lockCode c ↔ e.classLock.toNat = (classCode c).toNat + 1 := by
    rw [← BitVec.toNat_inj]
    cases c <;> rfl
  simp [usableFor, lock, and_assoc]

/-- Tests 4 to 9 of R83 are passed. -/
theorem testEntry_iff (s : State) (c : RingClass) (h : Rec) : testEntry s c h = .work ↔
    (getEntry s (headEntry h)).fenceGranted = false ∧ h.w2.extractLsb' 0 4 = 0#4 ∧ headEntry h ≠ 0 ∧
    usableFor c (getEntry s (headEntry h)) = true ∧ (getEntry s (headEntry h)).halted = false ∧
    segOpen s (getEntry s (headEntry h)).segment = true ∧ recordPending s h.w2 = false := by
  unfold testEntry
  dsimp only
  rw [← aligned_iff]
  split_ifs with fenced link entry halted shut pending
  · simp [fenced]
  · simp_all
  · simp only [Bool.or_eq_true, beq_iff_eq, Bool.not_eq_true'] at entry
    obtain null | unusable := entry
    · simp [null]
    · simp [unusable]
  · simp [halted]
  · simp_all
  · simp [pending]
  · simp_all

theorem workTest_iff (s : State) (c : RingClass) (h : Rec) : workTest s c h = .work ↔ passesTests s c h := by
  have own : (!headEnabled h || headStopped h || h.w2 == 0) = false ↔
      h.w1.getLsbD 0 = true ∧ h.w3.getLsbD 0 = false ∧ h.w2 ≠ 0 := by
    simp [headEnabled, headStopped, bitAt, and_assoc]
  have entry := testEntry_iff s c h
  rw [usableFor_iff, segOpen_iff] at entry
  unfold workTest passesTests
  cases test : !headEnabled h || headStopped h || h.w2 == 0
  · obtain ⟨on, going, some⟩ := own.mp test
    rw [if_neg (by decide), entry]
    simp only [on, going, some, ne_eq, not_false_eq_true, true_and]
    tauto
  · rw [if_pos rfl]
    simp only [reduceCtorEq, false_iff]
    rintro ⟨on, going, some, -⟩
    cases test.symm.trans (own.mpr ⟨on, going, some⟩)

theorem testEntry_of_passes {s : State} {c : RingClass} {h : Rec} (passes : passesTests s c h) : testEntry s c h = .work := by
  have work := (workTest_iff s c h).mpr passes
  unfold workTest at work
  split at work
  · cases work
  · exact work

/-- The tests look at the table, the segments and the record's pending write-back alone. -/
theorem testEntry_congr {s t : State} {c : RingClass} {h : Rec} (table : t.table = s.table) (a : t.segA = s.segA)
    (b : t.segB = s.segB) (pending : recordPending t h.w2 = recordPending s h.w2) : testEntry t c h = testEntry s c h := by
  have seg (g : Seg) : getSeg t g = getSeg s g := by cases g <;> assumption
  have entry : getEntry t (headEntry h) = getEntry s (headEntry h) := getEntry_of_table table _
  unfold testEntry segOpen
  rw [entry]
  dsimp only
  rw [seg, pending]

/-! ### The progress slots (R85) -/

@[simp] theorem getSlot_setSlot_same {i : EntryIx} (real : i ≠ 0) (v : Option Slot) (s : State) : getSlot (setSlot i v s) i = v := by
  unfold getSlot setSlot
  rw [if_neg (by simpa using real)]
  simp

@[simp] theorem getSlot_setSlot_apart {i j : EntryIx} (apart : j ≠ i) (v : Option Slot) (s : State) :
    getSlot (setSlot i v s) j = getSlot s j := by
  have places : i.toNat ≠ j.toNat := fun h => apart (BitVec.eq_of_toNat_eq h.symm)
  unfold getSlot setSlot
  split
  · rfl
  · simp [places]

/-! ### What the queue keeps of the read stream (R12) -/

theorem pumpQueue_reads (s : State) : ∀ r ∈ s.hport.reads, r ∈ (pumpQueue s).hport.reads :=
  (pumpQueue_hport s).2.2

theorem asked_pumpQueue {s : State} {kind : BitVec 4} {addr : Word} {len : Nat} {reader : Reader} (h : asked s kind addr len reader) :
    asked (pumpQueue s) kind addr len reader := by
  obtain ⟨q, place, rest⟩ := h
  exact ⟨q, pumpQueue_reads s q place, rest⟩

theorem asked_requestRead (kind : BitVec 4) (addr : Word) (len : Nat) (reader : Reader) (s : State) :
    asked (requestRead kind addr len reader s) kind addr len reader :=
  ⟨_, (mem_joinStream _ _ _).mpr (.inl rfl), rfl, rfl, rfl, rfl⟩

/-! ### A consumed record (R90) -/

theorem recStatusWord_fields (code : RecCode) (count : Nat) :
    (recStatusWord code count).getLsbD 0 = true ∧ (recStatusWord code count).extractLsb' 4 4 = recCode code ∧
    (recStatusWord code count).extractLsb' 16 14 = BitVec.ofNat 14 count := by
  refine ⟨?_, ?_, ?_⟩
  · simp [recStatusWord]
  · simp only [recStatusWord, BitVec.extractLsb'_or]
    rw [extractLsb'_place_same _ (by decide), extractLsb'_place_disjoint _ 4 4 (by decide)]
    simp
  · simp only [recStatusWord, BitVec.extractLsb'_or]
    rw [extractLsb'_place_same _ (by decide), extractLsb'_place_disjoint _ 16 14 (by decide)]
    simp

/-- The first two items of R90 are queued, and the entry's slot is emptied. -/
def consumed (t : Turn) (code : RecCode) (count : Nat) (link : Word) (s : State) : State :=
  enqueue (.link t.addr link t.head.w0) (enqueue (recordItem t code count) (setSlot (headEntry t.head) none s))

/-- The turn goes on behind the record. -/
def behindRecord (t : Turn) (link : Word) : Turn :=
  { t with written := t.record :: t.written, head := { t.head with w2 := link } }

/-- With no skip steps due, the turn goes on with a burst or is over. -/
theorem consumeTurn_of_plain {t : Turn} {code : RecCode} (plain : code ≠ .short ∨ recEnd t.seg = true ∨ t.cls = .stream)
    (count : Nat) (link : Word) (s : State) : consumeTurn t code count link s =
      if t.cls = .bulk ∧ 0 < t.made then burstContinue (behindRecord t link) false (consumed t code count link s)
      else endTurn (behindRecord t link) none (consumed t code count link s) := by
  unfold consumeTurn
  dsimp only
  rw [if_neg (by rintro ⟨short, more, other⟩; simp_all)]
  rfl

/-- A record that completes SHORT without an exchange and has none behind it ends its turn (R85, R89). -/
theorem consumeTurn_of_last {t : Turn} (made : t.made = 0) (code : RecCode) (count : Nat) (s : State) :
    consumeTurn t code count 0 s = endTurn (behindRecord t 0) none (consumed t code count 0 s) := by
  unfold consumeTurn
  dsimp only
  split
  · unfold skipFrom
    rw [if_pos rfl, if_pos (by exact made)]
    rfl
  · rw [if_neg (by rw [made]; exact fun h => absurd h.2 (by decide))]
    rfl

theorem consumed_only (t : Turn) (code : RecCode) (count : Nat) (link : Word) (s : State) :
    OnlyChanges [.walk, .wq] s (consumed t code count link s) :=
  ((setSlot_only _ _ s).mono (by decide)).trans
    (((enqueue_only _ _).mono (by decide)).trans ((enqueue_only _ _).mono (by decide)))

theorem consumed_walk (t : Turn) (code : RecCode) (count : Nat) (link : Word) (s : State) :
    (consumed t code count link s).walk = (setSlot (headEntry t.head) none s).walk := by
  unfold consumed
  rw [enqueue_walk, enqueue_walk]

theorem consumed_wq (t : Turn) (code : RecCode) (count : Nat) (link : Word) {s : State} (room : s.wq.items.length + 2 ≤ 32) :
    (consumed t code count link s).wq = { s.wq with
      items := s.wq.items ++ [recordItem t code count, .link t.addr link t.head.w0], reserved := s.wq.reserved - 2 } := by
  have first := enqueue_of_room (s := setSlot (headEntry t.head) none s) (recordItem t code count) (by rw [setSlot_wq]; omega)
  rw [setSlot_wq] at first
  unfold consumed
  rw [enqueue_of_room _ (by rw [first]; simp; omega), first]
  simp [List.append_assoc, Nat.sub_sub]

theorem getSlot_consumed (t : Turn) (code : RecCode) (count : Nat) (link : Word) (s : State) (real : headEntry t.head ≠ 0) :
    getSlot (consumed t code count link s) (headEntry t.head) = none ∧
    ∀ i, i ≠ headEntry t.head → getSlot (consumed t code count link s) i = getSlot s i := by
  have same (i : EntryIx) : getSlot (consumed t code count link s) i = getSlot (setSlot (headEntry t.head) none s) i :=
    getSlot_of_same (by rw [consumed_walk]) i
  exact ⟨(same _).trans (getSlot_setSlot_same real _ _), fun i apart => (same i).trans (getSlot_setSlot_apart apart _ _)⟩

theorem exec_consumeRecord {s : State} (out : awake s) {t : Turn} (hand : s.walk.hand = .turn t) {code : RecCode} {count : Nat}
    {snap : Rec} (phase : t.phase = .refetched code count snap) :
    exec .consumeRecord s = .next (pumpQueue (consumeTurn t code count snap.w0 s)) := by
  refine (next_unlessHeld out consumeRecord).trans (congrArg _ ?_)
  unfold consumeRecord
  rw [hand]
  dsimp only
  rw [phase]

/-- What the end of a turn behind a consumed record leaves. -/
structure RecordEnds (t : Turn) (s u : State) : Prop where
  reserved : u.wq.reserved = 0
  slot : getSlot u (headEntry t.head) = none
  slots : ∀ i, i ≠ headEntry t.head → getSlot u i = getSlot s i
  hand : u.walk.hand = .nothing
  waiting : u.walk.waiting = false
  pass : u.walk.pass = if t.inPass then
    s.walk.pass.map (fun p => { p with prev := some t.addr, next := t.head.w0, fetched := p.fetched + 1 }) else s.walk.pass
  only : OnlyChanges [.walk, .wq, .hport, .aiu] s u

theorem setSlot_pass (i : EntryIx) (v : Option Slot) (s : State) : (setSlot i v s).walk.pass = s.walk.pass := by
  unfold setSlot
  split <;> rfl

theorem recordEnds (t : Turn) (code : RecCode) (count : Nat) (link : Word) (s : State) (real : headEntry t.head ≠ 0) :
    RecordEnds t s (pumpQueue (endTurn (behindRecord t link) none (consumed t code count link s))) := by
  have walk := endTurn_walk (behindRecord t link) none (consumed t code count link s)
  have slots := getSlot_consumed t code count link s real
  have same (i : EntryIx) : getSlot (pumpQueue (endTurn (behindRecord t link) none (consumed t code count link s))) i =
      getSlot (consumed t code count link s) i := getSlot_of_same (by rw [pumpQueue_walk, walk]) i
  refine ⟨?_, (same _).trans slots.1, fun i apart => (same i).trans (slots.2 i apart), ?_, ?_, ?_, ?_⟩
  · rw [pumpQueue_reserved, endTurn_wq]
  · rw [pumpQueue_walk, walk]
  · rw [pumpQueue_walk, walk]
  · rw [pumpQueue_walk, walk, consumed_walk, setSlot_pass]
    rfl
  · exact ((consumed_only t code count link s).mono (by decide)).trans
      (((endTurn_only _ _ _).mono (by decide)).trans ((pumpQueue_only _).mono (by decide)))

/-! ### A burst that goes on with its next record (R97) -/

theorem topUp_of_room {s : State} (room : s.wq.items.length + 4 ≤ 32) : topUp s = some (reserve (4 - s.wq.reserved) s) := by
  unfold topUp freeSlots Config.writeQueueSize
  split
  · rw [show 4 - s.wq.reserved = 0 by omega]
    rfl
  · rw [if_pos (by omega)]

/-- Every test of R97 is passed: the next record is fetched. -/
theorem burstContinue_of_next {t : Turn} {s : State} (opened : burstOpen s = true) (more : t.made < headBurst t.head + 1)
    (link : t.head.w2 ≠ 0) (test : testEntry s t.cls t.head = .work) (unwritten : t.head.w2 ∉ t.written)
    (room : s.wq.items.length + 4 ≤ 32) : burstContinue t false s =
      setHand (.turn { t with record := t.head.w2, phase := .burstFetch })
        (requestRead 2 t.head.w2 16 .burst (reserve (4 - s.wq.reserved) s)) := by
  unfold burstContinue
  rw [if_pos ⟨opened, more, link⟩, test, topUp_of_room room]
  simp [unwritten]

/-- A burst that may give no further exchange ends its turn. -/
theorem burstContinue_of_closed {t : Turn} {s : State} (closed : ¬(burstOpen s = true ∧ t.made < headBurst t.head + 1 ∧ t.head.w2 ≠ 0))
    (same : Bool) : burstContinue t same s = endTurn t none s := if_neg closed

theorem recordPending_consumed {t : Turn} {code : RecCode} {count : Nat} {link a : Word} {s : State}
    (room : s.wq.items.length + 2 ≤ 32) (other : a ≠ t.record) :
    recordPending (consumed t code count link s) a = recordPending s a := by
  unfold recordPending
  rw [consumed_wq t code count link room]
  simp [recordItem, other.symm]

theorem burstOpen_iff (s : State) : burstOpen s = true ↔
    s.seq.state = .running ∧ s.seq.restartInHand = false ∧ s.walk.window = .late ∧ s.walk.turnOver = false := by
  simp [burstOpen, and_assoc]

theorem setSlot_window (i : EntryIx) (v : Option Slot) (s : State) :
    (setSlot i v s).walk.window = s.walk.window ∧ (setSlot i v s).walk.turnOver = s.walk.turnOver := by
  unfold setSlot
  split
  · exact ⟨rfl, rfl⟩
  · exact ⟨rfl, rfl⟩

/-- Settles O40. -/
theorem consumedRecordQueuesItsWrites : Obligations.ConsumedRecordQueuesItsWrites := by
  refine ⟨fun s t code count snap o out hand phase plain made last unskipped real room => ⟨fun over' => ?_, fun bulk running restart late turn more passes other unwritten space => ?_⟩,
    fun s t code count snap out hand phase plain made unskipped real room => ?_⟩
  · have ended : consumeTurn t code count snap.w0 s =
        endTurn (behindRecord t snap.w0) none (consumed t code count snap.w0 s) := by
      rw [consumeTurn_of_plain plain]
      split
      case isTrue bulk =>
        refine burstContinue_of_closed (fun ⟨_, more, link⟩ => ?_) false
        obtain other | none | given := over'
        · exact other bulk.1
        · exact link none
        · exact absurd more (Nat.not_lt.mpr given)
      case isFalse => rfl
    have wq := consumed_wq t code count snap.w0 (s := s) (by omega)
    have items := endTurn_visit (behindRecord t snap.w0) o none (s := consumed t code count snap.w0 s)
      (by rw [wq]; simp; omega) (by exact Nat.ne_of_gt made) last
    obtain ⟨visits, outcome, skips, stopped, -⟩ := headStatusWord_visit t.head.w3 o none none
    obtain ⟨done, given, bytes⟩ := recStatusWord_fields code count
    have ends := recordEnds t code count snap.w0 s real
    refine ⟨_, headStatusWord t.head.w3 (some o) none none, (exec_consumeRecord out hand phase).trans (by rw [ended]), ?_,
      visits, outcome, stopped, skips, done, given, bytes, ends.reserved, ends.slot, ends.slots, ends.hand, ends.waiting, ends.only⟩
    rw [pumpQueue_items, items, wq]
    simp [behindRecord, unskipped, recordItem, headNotifyVisit, bitAt, headEntry]
  · have wq := consumed_wq t code count snap.w0 (s := s) (by omega)
    generalize read : consumed t code count snap.w0 s = v at wq
    have kept : OnlyChanges [.walk, .wq] s v := read ▸ consumed_only t code count snap.w0 s
    have walk : v.walk = (setSlot (headEntry t.head) none s).walk := read ▸ consumed_walk t code count snap.w0 s
    have slots := read ▸ getSlot_consumed t code count snap.w0 s real
    have goes : consumeTurn t code count snap.w0 s =
        setHand (.turn { behindRecord t snap.w0 with record := snap.w0, phase := .burstFetch })
          (requestRead 2 snap.w0 16 .burst (reserve (4 - v.wq.reserved) v)) := by
      rw [consumeTurn_of_plain plain, if_pos ⟨bulk, made⟩, read]
      refine burstContinue_of_next ?_ more passes.2.2.1 ?_ ?_ (by rw [wq]; simp; omega)
      · obtain ⟨window, over'⟩ := setSlot_window (headEntry t.head) none s
        rw [burstOpen_iff, kept .seq (by decide), walk, window, over']
        exact ⟨running, restart, late, turn⟩
      · rw [testEntry_congr (s := s) (kept .table (by decide)) (kept .segA (by decide)) (kept .segB (by decide))]
        · exact (congrArg (testEntry s · _) bulk).trans (testEntry_of_passes passes)
        · rw [← read]
          exact recordPending_consumed (by omega) other
      · exact fun held => (List.mem_cons.mp held).elim other unwritten
    refine ⟨_, (exec_consumeRecord out hand phase).trans (by rw [goes]), ?_, ?_, ?_, ?_, ?_, fun i apart => ?_, ?_⟩
    · rw [pumpQueue_items]
      show v.wq.items = _
      rw [wq, ← bulk]
      rfl
    · rw [pumpQueue_walk]
      rfl
    · exact asked_pumpQueue (asked_requestRead 2 snap.w0 16 .burst _)
    · rw [pumpQueue_reserved]
      show 4 ≤ v.wq.reserved + (4 - v.wq.reserved)
      omega
    · exact (getSlot_of_same (by rw [pumpQueue_walk]; rfl) _).trans slots.1
    · exact (getSlot_of_same (by rw [pumpQueue_walk]; rfl) i).trans (slots.2 i apart)
    · have own : OnlyChanges [.wq, .walk, .hport] v (setHand (.turn { behindRecord t snap.w0 with record := snap.w0, phase := .burstFetch })
          (requestRead 2 snap.w0 16 .burst (reserve (4 - v.wq.reserved) v))) :=
        ((reserve_only _ v).mono (by decide)).trans (((requestRead_only _ _ _ _ _).mono (by decide)).trans ((setHand_only _ _).mono (by decide)))
      exact (kept.mono (by decide)).trans ((own.mono (by decide)).trans ((pumpQueue_only _).mono (by decide)))
  · have ended : consumeTurn t code count snap.w0 s =
        endTurn (behindRecord t snap.w0) none (consumed t code count snap.w0 s) := by
      by_cases last : snap.w0 = 0
      · rw [last]
        exact consumeTurn_of_last made code count s
      · rw [consumeTurn_of_plain (by tauto), if_neg (by rw [made]; exact fun h => absurd h.2 (by decide))]
    have ends := recordEnds t code count snap.w0 s real
    refine ⟨_, (exec_consumeRecord out hand phase).trans (by rw [ended]), ?_, ends.reserved, ends.slot, ends.slots, ends.hand,
      ends.waiting, ends.pass, ends.only⟩
    rw [pumpQueue_items, endTurn_items_of_silent (t := behindRecord t snap.w0) (if_pos made) unskipped, consumed_wq t code count snap.w0 (by omega)]
    rfl

/-! ### A skip step (R89) -/

theorem exec_skipStep {s : State} (out : awake s) {t : Turn} (hand : s.walk.hand = .turn t) {link : Word} {snap : Rec}
    (phase : t.phase = .skipGot link snap) : exec .skipStep s = .next (pumpQueue (skipTurn t link snap s)) := by
  refine (next_unlessHeld out skipStep).trans (congrArg _ ?_)
  unfold skipStep
  rw [hand]
  dsimp only
  rw [phase]

/-- The write-back of a skipped record. -/
def skippedItem (t : Turn) (link : Word) (snap : Rec) : WqItem :=
  .segment link (recStatusWord .skipped 0) .skipped (recEnd snap) (recNotify snap) t.cls (headEntry t.head) t.addr

theorem skipTurn_of_last {t : Turn} {snap : Rec} (last : recEnd snap = true ∨ snap.w0 = 0) (link : Word) (s : State) :
    skipTurn t link snap s =
      finishSkip { t with written := link :: t.written } snap.w0 true (enqueue (skippedItem t link snap) s) := by
  unfold skipTurn
  exact if_pos (by simpa using last)

theorem skipTurn_of_more {t : Turn} {snap : Rec} (more : recEnd snap = false) (next : snap.w0 ≠ 0) (link : Word) (s : State) :
    skipTurn t link snap s = skipFrom { t with written := link :: t.written } snap.w0 (enqueue (skippedItem t link snap) s) := by
  unfold skipTurn
  exact if_neg (by simpa [more] using next)

/-- The end of a skip, finished or not, behind the write-back of its last record. -/
theorem skip_ends (t : Turn) (link : Word) (snap : Rec) (complete : Bool) {s : State} (room : s.wq.items.length + 3 ≤ 32) :
    let visit : Option XOutcome := if t.made = 0 then none else t.last
    let word := headStatusWord t.head.w3 visit (some !complete) none
    let u := pumpQueue (finishSkip { t with written := link :: t.written } snap.w0 complete (enqueue (skippedItem t link snap) s))
    u.wq.items = s.wq.items ++ [skippedItem t link snap, .link t.addr snap.w0 t.head.w0,
        .status t.addr word t.cls (headEntry t.head) (visit.isSome && headNotifyVisit t.head) none t.head.w0] ∧
      word.getLsbD 1 = (!complete) ∧ (word.extractLsb' 16 8 = t.head.w3.extractLsb' 16 8 + (if visit.isSome then 1#8 else 0#8) ∧
      (∀ o, visit = some o → word.extractLsb' 8 4 = outcomeCode o)) ∧
      u.walk.hand = .nothing ∧ u.wq.reserved = 0 ∧ OnlyChanges [.walk, .wq, .hport, .aiu] s u := by
  intro visit word u
  obtain ⟨skips, visits, -, outcome⟩ := headStatusWord_skips t.head.w3 visit (!complete)
  have joined := enqueue_items_of_room (s := s) (skippedItem t link snap) (.inl (by omega))
  refine ⟨?_, skips, ⟨visits, outcome⟩, ?_, ?_, ?_⟩
  · show (pumpQueue _).wq.items = _
    rw [pumpQueue_items, finishSkip_items _ _ _ (by rw [joined]; simp; omega), joined, List.append_assoc]
    rfl
  · show (pumpQueue _).walk.hand = _
    rw [pumpQueue_walk, finishSkip_walk]
  · show (pumpQueue _).wq.reserved = _
    rw [pumpQueue_reserved, finishSkip_wq]
  · exact ((enqueue_only _ s).mono (by decide)).trans (((finishSkip_only _ _ _ _).mono (by decide)).trans ((pumpQueue_only _).mono (by decide)))

/-- Settles O41. -/
theorem skipStepTakesOneRecord : Obligations.SkipStepTakesOneRecord := by
  intro s t link snap out hand phase restart reserved room visit counted skipped
  have row := exec_skipStep out hand phase
  have joined := enqueue_of_room (s := s) (skippedItem t link snap) (.inl (by omega))
  refine ⟨fun last => ?_, fun more next straight free other unwritten slot => ?_, fun more next barred => ?_⟩
  · obtain ⟨items, skips, counts, none, empty, only⟩ := skip_ends t link snap true room
    exact ⟨_, _, row.trans (by rw [skipTurn_of_last last]), items, skips, counts, none, empty, only⟩
  · have goes : skipTurn t link snap s = setHand (.turn { t with phase := .skipFetch snap.w0, written := link :: t.written })
        (requestRead 2 snap.w0 16 .skip (reserve 1 (enqueue (skippedItem t link snap) s))) := by
      have pending : recordPending (enqueue (skippedItem t link snap) s) snap.w0 = false := by
        unfold recordPending at free ⊢
        rw [joined]
        simpa [skippedItem, other.symm] using free
      have slots : freeSlots (enqueue (skippedItem t link snap) s) ≠ 0 := by
        unfold freeSlots Config.writeQueueSize
        rw [joined]
        simp only [List.length_append, List.length_singleton]
        omega
      rw [skipTurn_of_more more next]
      unfold skipFrom
      rw [if_neg next, if_neg]
      simp [(aligned_iff snap.w0).mpr straight, pending, other, unwritten, slots, restart]
    refine ⟨_, row.trans (by rw [goes]), ?_, ?_, ?_, ?_, ?_⟩
    · rw [pumpQueue_items]
      exact enqueue_items_of_room _ (.inl (by omega))
    · rw [pumpQueue_walk]
      show ({ (enqueue (skippedItem t link snap) s).walk with hand := _ } : Walker) = _
      rw [enqueue_walk]
    · rw [pumpQueue_reserved]
      show (enqueue (skippedItem t link snap) s).wq.reserved + 1 = _
      rw [joined]
      show s.wq.reserved - 1 + 1 = _
      omega
    · exact asked_pumpQueue (asked_requestRead 2 snap.w0 16 .skip _)
    · exact ((enqueue_only _ s).mono (by decide)).trans (((reserve_only _ _).mono (by decide)).trans
        (((requestRead_only _ _ _ _ _).mono (by decide)).trans (((setHand_only _ _).mono (by decide)).trans
          ((pumpQueue_only _).mono (by decide)))))
  · have ended : skipTurn t link snap s =
        finishSkip { t with written := link :: t.written } snap.w0 false (enqueue (skippedItem t link snap) s) := by
      rw [skipTurn_of_more more next]
      unfold skipFrom
      rw [if_neg next, if_pos]
      obtain ⟨full, some⟩ | same | written := barred
      · have slots : freeSlots (enqueue (skippedItem t link snap) s) = 0 := by
          unfold freeSlots Config.writeQueueSize
          rw [joined]
          simp only [List.length_append, List.length_singleton]
          omega
        simp [slots]
      · simp [same]
      · simp [written]
    obtain ⟨items, skips, counts, none, -, only⟩ := skip_ends t link snap false room
    exact ⟨_, _, row.trans (by rw [ended]), items, skips, counts, none, only⟩

end Sys2Proof.Machine
end

section
/-! SUPPORT. The cycle start in its steps (R54): beacons, the latch of the written anchors, the counted starts, the transitions
of step 7, and the settlement of O30. -/

namespace Sys2Proof.Machine

/-! ### Beacons (R54 step 4, R56) -/

theorem sendsBeacons_of_on {c : CtrlState} (on : c ≠ .offline) :
    sendsBeacons c = decide (c = .armed ∨ c = .running ∨ c = .stopping ∨ c = .sealed) := by
  cases c with
  | offline => exact absurd rfl on
  | _ => rfl

theorem startBeacon_seg (g : Seg) (s : State) : getSeg (startBeacon g s) g =
    { getSeg s g with beacon := if getsBeacon s g then some (beaconOf s g) else none } := by
  unfold startBeacon stopDriving
  split
  · cases g <;> rfl
  · cases g <;> rfl

/-- The beacons of both segments, the second one's mark made on the first as it was before its beacon. -/
theorem startBeacons_segs {s : State} (on : s.seq.state ≠ .offline) :
    let sends := decide (s.seq.state = .armed ∨ s.seq.state = .running ∨ s.seq.state = .stopping ∨ s.seq.state = .sealed)
    (startBeacon .b (startBeacon .a s)).segA = { s.segA with beacon := beaconAtStart sends s.ctim.number s.segA s.segB } ∧
    (startBeacon .b (startBeacon .a s)).segB = { s.segB with beacon := beaconAtStart sends s.ctim.number s.segB s.segA } := by
  intro sends
  have seq : (startBeacon .a s).seq = s.seq := startBeacon_only .a s .seq (by decide)
  have ctim : (startBeacon .a s).ctim = s.ctim := startBeacon_only .a s .ctim (by decide)
  have segB : (startBeacon .a s).segB = s.segB := startBeacon_only .a s .segB (by decide)
  have segA : (startBeacon .a s).segA = _ := startBeacon_seg .a s
  refine ⟨(startBeacon_only .b _ .segA (by decide)).trans (segA.trans ?_), (startBeacon_seg .b (startBeacon .a s)).trans ?_⟩
  · unfold getsBeacon beaconOf getsBeacon beaconAtStart
    rw [sendsBeacons_of_on on]
    rfl
  · unfold getsBeacon beaconOf getsBeacon beaconAtStart
    simp only [getSeg, otherSeg, seq, ctim, segB, segA, sendsBeacons_of_on on]
    rfl

/-! ### The anchors written since the last latch (R78) -/

/-- The latch of one class, if its register has been written. -/
def latchIfWritten (c : RingClass) (s : State) : State :=
  if s.walk.anchorWritten.get (classIx c) then latchAnchor c s else s

theorem latchWritten_eq (s : State) : latchWritten s =
    latchIfWritten .stream (latchIfWritten .timed (latchIfWritten .bulk (latchIfWritten .service s))) := rfl

theorem latchedAnchor_latchIfWritten (c d : RingClass) (s : State) : latchedAnchor (latchIfWritten c s) d =
    if d = c ∧ s.walk.anchorWritten.get (classIx d) = true then s.walk.anchorReg.get (classIx d) else latchedAnchor s d := by
  unfold latchIfWritten
  by_cases same : d = c
  · subst same
    split
    · simp [latchedAnchor_latchAnchor, *]
    · simp [*]
  · split
    · simp [latchedAnchor_latchAnchor, same]
    · simp [same]

theorem anchorWritten_latchIfWritten (c d : RingClass) (s : State) :
    (latchIfWritten c s).walk.anchorWritten.get (classIx d) = (decide (d ≠ c) && s.walk.anchorWritten.get (classIx d)) := by
  unfold latchIfWritten
  by_cases same : d = c
  · subst same
    split
    · simp [anchorWritten_latchAnchor]
    · simp [*]
  · split
    · simp [anchorWritten_latchAnchor, same]
    · simp [same]

@[simp] theorem anchorReg_latchIfWritten (c : RingClass) (s : State) : (latchIfWritten c s).walk.anchorReg = s.walk.anchorReg := by
  unfold latchIfWritten
  split
  · exact anchorReg_latchAnchor c s
  · rfl

theorem latchedAnchor_latchWritten (c : RingClass) (s : State) : latchedAnchor (latchWritten s) c =
    if s.walk.anchorWritten.get (classIx c) then s.walk.anchorReg.get (classIx c) else latchedAnchor s c := by
  rw [latchWritten_eq]
  simp only [latchedAnchor_latchIfWritten, anchorWritten_latchIfWritten, anchorReg_latchIfWritten]
  cases c <;> simp

theorem anchorWritten_latchWritten (c : RingClass) (s : State) : (latchWritten s).walk.anchorWritten.get (classIx c) = false := by
  rw [latchWritten_eq]
  simp only [anchorWritten_latchIfWritten]
  cases c <;> simp

/-- Beside the latch the written anchor of SERVICE or BULK resets its ring's rotation. -/
theorem latchWritten_walk (s : State) : (latchWritten s).walk = { s.walk with
    latched := (latchWritten s).walk.latched, anchorWritten := (latchWritten s).walk.anchorWritten,
    service := if s.walk.anchorWritten.get (classIx .service) then Rotation.empty else s.walk.service,
    bulk := if s.walk.anchorWritten.get (classIx .bulk) then Rotation.empty else s.walk.bulk } := by
  have one (c : RingClass) (u : State) : (latchIfWritten c u).walk = { u.walk with
      latched := (latchIfWritten c u).walk.latched, anchorWritten := (latchIfWritten c u).walk.anchorWritten,
      service := if c = .service ∧ u.walk.anchorWritten.get (classIx .service) = true then Rotation.empty else u.walk.service,
      bulk := if c = .bulk ∧ u.walk.anchorWritten.get (classIx .bulk) = true then Rotation.empty else u.walk.bulk } := by
    unfold latchIfWritten
    cases c <;> split <;> simp_all [latchAnchor, setRot]
  have written := anchorWritten_latchIfWritten .service .bulk s
  rw [latchWritten_eq, one .stream, one .timed, one .bulk, one .service]
  simp [written]

/-! ### The walker and the staging buffer (R54 step 5) -/

/-- The parts of the walker that a cycle start sets or keeps, `s` before it and `t` after. -/
structure WalkerStarts (s t : State) : Prop where
  anchorReg : t.walk.anchorReg = s.walk.anchorReg
  latched : ∀ c, latchedAnchor t c =
    if s.walk.anchorWritten.get (classIx c) then s.walk.anchorReg.get (classIx c) else latchedAnchor s c
  written : ∀ c, t.walk.anchorWritten.get (classIx c) = false
  service : t.walk.service = if s.walk.anchorWritten.get (classIx .service) then Rotation.empty else s.walk.service
  bulk : t.walk.bulk = if s.walk.anchorWritten.get (classIx .bulk) then Rotation.empty else s.walk.bulk
  slots : t.walk.slots = s.walk.slots
  window : t.walk.window = if beaconsOut t then .starting else .early
  timedDone : t.walk.timedDone = false
  streamDone : t.walk.streamDone = false
  aperiodicOver : t.walk.aperiodicOver = false
  pass : t.walk.pass = none

/-- The latch on a walker whose windows and passes have been set for the new cycle. -/
theorem latchWritten_starts {s v : State} (kept : v.walk.anchorReg = s.walk.anchorReg ∧ v.walk.anchorWritten = s.walk.anchorWritten ∧
      v.walk.latched = s.walk.latched ∧ v.walk.service = s.walk.service ∧ v.walk.bulk = s.walk.bulk ∧ v.walk.slots = s.walk.slots)
    (set : v.walk.window = (if beaconsOut v then .starting else .early) ∧ v.walk.timedDone = false ∧ v.walk.streamDone = false ∧
      v.walk.aperiodicOver = false ∧ v.walk.pass = none) : WalkerStarts s (wakeWalker (latchWritten v)) := by
  obtain ⟨reg, written, latched, service, bulk, slots⟩ := kept
  obtain ⟨window, timed, stream, over', pass⟩ := set
  have walk := latchWritten_walk v
  have anchors := fun c => latchedAnchor_latchWritten c v
  have clear := fun c => anchorWritten_latchWritten c v
  have beacons : beaconsOut (latchWritten v) = beaconsOut v := by
    unfold beaconsOut
    rw [latchWritten_only v .segA (by decide), latchWritten_only v .segB (by decide)]
  generalize latchWritten v = l at walk anchors clear beacons ⊢
  rw [written] at walk anchors
  refine ⟨?_, fun c => ?_, clear, ?_, ?_, ?_, ?_, ?_, ?_, ?_, ?_⟩
  case refine_2 =>
    have same := anchors c
    rw [reg] at same
    exact same.trans (if_congr Iff.rfl rfl (congrArg (fun l => Vector.get l (classIx c)) latched))
  · exact (congrArg Walker.anchorReg walk).trans reg
  · exact (congrArg Walker.service walk).trans (if_congr Iff.rfl rfl service)
  · exact (congrArg Walker.bulk walk).trans (if_congr Iff.rfl rfl bulk)
  · exact (congrArg Walker.slots walk).trans slots
  · exact (congrArg Walker.window walk).trans (window.trans (if_congr (by rw [← beacons]; rfl) rfl rfl))
  · exact (congrArg Walker.timedDone walk).trans timed
  · exact (congrArg Walker.streamDone walk).trans stream
  · exact (congrArg Walker.aperiodicOver walk).trans over'
  · exact (congrArg Walker.pass walk).trans pass

theorem startWalker_starts (s : State) : WalkerStarts s (startWalker latchWritten s) := by
  have given := abandonDecision_only s
  have rings := abandonDecision_rings s
  unfold startWalker
  generalize abandonDecision s = u at given rings ⊢
  have segs (v : State) : (stageAtCycleStart v).segA = v.segA := stageAtCycleStart_only v .segA (by decide)
  have segs' (v : State) : (stageAtCycleStart v).segB = v.segB := stageAtCycleStart_only v .segB (by decide)
  have walk (v : State) : (stageAtCycleStart v).walk = v.walk := stageAtCycleStart_only v .walk (by decide)
  refine latchWritten_starts ?_ ?_
  · rw [walk]
    exact ⟨rings.anchorReg, rings.anchorWritten, rings.latched, rings.service, rings.bulk, rings.slots⟩
  · rw [walk]
    refine ⟨if_congr ?_ rfl rfl, rfl, rfl, rfl, rfl⟩
    unfold beaconsOut
    rw [segs, segs']

theorem stageAtCycleStart_congr {s t : State} (same : t.stage = s.stage) :
    (stageAtCycleStart t).stage = (stageAtCycleStart s).stage := by
  unfold stageAtCycleStart setStage
  rw [same]
  cases s.stage.buf <;> rfl

theorem startWalker_stage (s : State) : (startWalker latchWritten s).stage = (stageAtCycleStart s).stage := by
  have kept (v : State) : (wakeWalker (latchWritten v)).stage = v.stage := by
    rw [wakeWalker_stage]
    exact latchWritten_only v .stage (by decide)
  unfold startWalker
  rw [kept]
  exact stageAtCycleStart_congr (abandonDecision_only s .stage (by decide))

/-- The staging buffer of a new cycle (R117). -/
theorem stageAtCycleStart_stage (s : State) :
    (∀ tag bytes, (stageAtCycleStart s).stage.buf ≠ .staged tag bytes) ∧
    (∀ tag, s.stage.buf = .filling tag →
      (stageAtCycleStart s).stage = { buf := .filling none, waiting := s.stage.waiting.filter (fun q => !q.late) }) ∧
    ((∀ tag, s.stage.buf ≠ .filling tag) → (stageAtCycleStart s).stage = { buf := .empty, waiting := none }) := by
  unfold stageAtCycleStart setStage
  cases buf : s.stage.buf with
  | filling tag => exact ⟨nofun, fun _ _ => rfl, fun other => absurd rfl (other tag)⟩
  | empty => exact ⟨nofun, nofun, fun _ => rfl⟩
  | staged tag bytes => exact ⟨nofun, nofun, fun _ => rfl⟩

/-! ### The counted starts (R54 step 6) -/

/-- What a counted start makes of a segment (R40, R42). -/
def countedAt (pin : Bool) (c : Segment) : Segment :=
  if c.mode = .resetting then
    (if c.counted = 2 then c.changedTo (if pin then .enabled else .idle) else { c with counted := c.counted + 1 })
  else if c.mode = .waking then
    (if c.wakeAtStart then { c with wakeAtStart := false }
     else if c.counted = 1 then c.changedTo .enabled else { c with counted := c.counted + 1 })
  else c

theorem segAtStart_eq (sends pin : Bool) (n : Word) (c other : Segment) :
    segAtStart sends pin n c other = countedAt pin { c with biasPin := pin, beacon := beaconAtStart sends n c other } := rfl

theorem countedAt_beacon (pin : Bool) (c : Segment) : (countedAt pin c).beacon = c.beacon := by
  unfold countedAt Segment.changedTo
  split_ifs <;> rfl

theorem setSeg_same (g : Seg) (s : State) : setSeg g (getSeg s g) s = s := by cases g <;> rfl

/-- A counted start ends its segment's state, with the SEG edge, or changes the segment alone. -/
theorem countStart_eq (g : Seg) (pin : Bool) (s : State) : countStart g pin s =
    if (countedAt pin (getSeg s g)).mode = (getSeg s g).mode then setSeg g (countedAt pin (getSeg s g)) s
    else settleSeg g (countedAt pin (getSeg s g)) s := by
  unfold countStart
  dsimp only
  split
  case h_1 mode =>
    by_cases last : (getSeg s g).counted = 2
    · have ends : countedAt pin (getSeg s g) = (getSeg s g).changedTo (if pin then .enabled else .idle) := by
        simp [countedAt, mode, last]
      have moves : ¬((getSeg s g).changedTo (if pin then .enabled else .idle)).mode = (getSeg s g).mode := by
        rw [mode]
        cases pin <;> exact nofun
      rw [if_pos (by omega), ends, if_neg moves, setMode_eq_settleSeg]
    · have counts : countedAt pin (getSeg s g) = { getSeg s g with counted := (getSeg s g).counted + 1 } := by
        simp [countedAt, mode, last]
      rw [if_neg (by omega), counts, if_pos rfl]
  case h_2 mode =>
    by_cases entering : (getSeg s g).wakeAtStart = true
    · have enters : countedAt pin (getSeg s g) = { getSeg s g with wakeAtStart := false } := by
        simp [countedAt, mode, entering]
      rw [if_pos entering, enters, if_pos rfl]
    · by_cases last : (getSeg s g).counted = 1
      · have ends : countedAt pin (getSeg s g) = (getSeg s g).changedTo .enabled := by simp [countedAt, mode, entering, last]
        have moves : ¬((getSeg s g).changedTo .enabled).mode = (getSeg s g).mode := by
          rw [mode]
          exact nofun
        rw [if_neg entering, if_pos (by omega), ends, if_neg moves, setMode_eq_settleSeg]
      · have counts : countedAt pin (getSeg s g) = { getSeg s g with counted := (getSeg s g).counted + 1 } := by
          simp [countedAt, mode, entering, last]
        rw [if_neg entering, if_neg (by omega), counts, if_pos rfl]
  case h_3 other1 other2 =>
    have same : countedAt pin (getSeg s g) = getSeg s g := by
      unfold countedAt
      rw [if_neg other1, if_neg other2]
    rw [same, if_pos rfl, setSeg_same]

/-- What a counted start leaves, `c` being its segment before it. -/
structure Counts (g : Seg) (pin : Bool) (s t : State) : Prop where
  seg : getSeg t g = countedAt pin (getSeg s g)
  aiu : t.aiu = { s.aiu with edges :=
    if (countedAt pin (getSeg s g)).mode = (getSeg s g).mode then s.aiu.edges else s.aiu.edges ||| 0x040#11 }
  walk : t.walk = { s.walk with waiting := t.walk.waiting }
  only : OnlyChanges [segBlock g, .aiu, .walk] s t

theorem countStart_counts (g : Seg) (pin : Bool) (s : State) : Counts g pin s (countStart g pin s) := by
  refine ⟨?_, ?_, ?_, countStart_only g pin s⟩
  all_goals rw [countStart_eq]
  · split
    · cases g <;> rfl
    · exact getSeg_settleSeg g _ s
  · split
    · cases g <;> rfl
    · exact settleSeg_aiu g _ s
  · split
    · cases g <;> rfl
    · exact settleSeg_walk g _ s

theorem Counts.bit {g : Seg} {pin : Bool} {s t : State} (h : Counts g pin s t) (n : Nat) : t.aiu.edges.getLsbD n =
    (s.aiu.edges.getLsbD n || decide (n = 6 ∧ (getSeg t g).mode ≠ (getSeg s g).mode)) := by
  rw [h.aiu, h.seg]
  dsimp only
  split
  case isTrue same => simp [same]
  case isFalse moves => exact (setEdge_bit 6 n s (by decide)).trans (by simp [moves])

theorem Counts.raises {g : Seg} {pin : Bool} {s t : State} (h : Counts g pin s t) : OnlyRaises s t := by
  refine ⟨by rw [h.aiu], fun n set => ?_⟩
  rw [h.bit n, set]
  rfl

/-! ### The transitions of step 7 -/

/-- STOPPING becomes ARMED (R28), and READY where step 6 has made a segment live (R27). -/
def startArms (wasLive : Bool) (s : State) : Prop :=
  s.seq.state = .stopping ∨ (s.seq.state = .ready ∧ wasLive = false ∧ anyLive s = true ∧ s.seq.restartInHand = false)

theorem setCtrl_pass_of_none {s : State} (c : CtrlState) (none : s.walk.pass = none) : (setCtrl c s).walk.pass = .none := by
  have given (u : State) (h : u.walk.pass = .none) : (abandonDecision u).walk.pass = .none := by
    have left : (cancelReads decisionReader (setLook .nothing u)).walk.pass = .none := h
    unfold abandonDecision
    dsimp only
    split
    · exact left
    · split
      · rw [endTurn_walk, left]
        exact ite_self _
      · rw [endTurn_walk, left]
        exact ite_self _
      · exact left
    · exact left
  unfold setCtrl
  split
  · exact none
  · dsimp only
    split
    · exact none
    · exact given _ none

/-- The last step of a cycle start. -/
structure Arms (p : Prop) (s t : State) : Prop where
  armed : p → t.seq = { s.seq with state := .armed }
  stays : ¬p → t = s
  bit : ∀ n, t.aiu.edges.getLsbD n = true ↔ s.aiu.edges.getLsbD n = true ∨ (n = 7 ∧ p)
  raises : OnlyRaises s t
  rings : SameRings s t
  pass : s.walk.pass = none → t.walk.pass = none
  only : OnlyChanges [.seq, .aiu, .walk, .wq, .hport] s t

theorem startTransitions_arms (wasLive : Bool) (s : State) : Arms (startArms wasLive s) s (startTransitions wasLive s) := by
  have arms (p : startArms wasLive s) (other : s.seq.state ≠ .armed) : Arms (startArms wasLive s) s (setCtrl .armed s) := by
    refine ⟨fun _ => setCtrl_seq .armed s, fun h => absurd p h, fun n => ?_, setCtrl_raises .armed s, setCtrl_rings .armed s,
      setCtrl_pass_of_none .armed, setCtrl_only .armed s⟩
    rw [setCtrl_aiu, if_neg other]
    show (setEdge 7 s).aiu.edges.getLsbD n = true ↔ _
    rw [setEdge_bit 7 n s (by decide)]
    simp [p]
  have rests (p : ¬startArms wasLive s) : Arms (startArms wasLive s) s s :=
    ⟨fun h => absurd h p, fun _ => rfl, fun n => by simp [p], .refl s, .refl s, id, .refl _ s⟩
  unfold startTransitions
  split
  case h_1 state => exact arms (.inl state) (by rw [state]; exact nofun)
  case h_2 state =>
    split
    case isTrue live =>
      simp only [Bool.and_eq_true, Bool.not_eq_true'] at live
      exact arms (.inr ⟨state, live.1.1, live.1.2, live.2⟩) (by rw [state]; exact nofun)
    case isFalse dead =>
      refine rests ?_
      rintro (stopping | ⟨-, was, now, free⟩)
      · cases state.symm.trans stopping
      · exact dead (by simp [was, now, free])
  case h_3 notStopping notReady =>
    refine rests ?_
    rintro (stopping | ⟨ready, -⟩)
    · exact notStopping stopping
    · exact notReady ready

theorem anyLive_congr {s t : State} (a : t.segA.mode = s.segA.mode) (b : t.segB.mode = s.segB.mode) : anyLive t = anyLive s := by
  simp [anyLive, segLive, getSeg, a, b]

/-! ### The steps together -/

/-- Steps 1 to 3 of R54, with the levels sensed. -/
def startTimer (a b : Bool) (s : State) : State := setEdge irqCycle (startSample (startReload true (setPins a b s)))

/-- The cycle start as its steps. -/
theorem exec_cycleStart {s : State} (out : awake s) (on : s.seq.state ≠ .offline) (free : s.xeng = none) (a b : Bool) :
    exec (.cycleStart a b) s =
      .next (pumpQueue (startTransitions (anyLive (startWalker latchWritten (startBeacon .b (startBeacon .a (startTimer a b s)))))
        (countStart .b b (countStart .a a (startWalker latchWritten (startBeacon .b (startBeacon .a (startTimer a b s)))))))) := by
  refine (next_unlessHeld out (cycleStart a b)).trans (congrArg _ ?_)
  unfold cycleStart
  rw [if_neg on, cutoff_of_free free]
  rfl

/-- A cycle start by its steps: `s2` after the timer's, `s3` with the beacons, `s4` with the walker's, `s5` and `s6` with the
counted starts, `s7` after the transitions, and `t` with the queue's next access. -/
structure StartSteps (a b : Bool) (s s2 s3 s4 s5 s6 s7 t : State) : Prop where
  on : s.seq.state ≠ .offline
  timer : s2 = startTimer a b s
  beacons : s3 = startBeacon .b (startBeacon .a s2)
  walker : s4 = startWalker latchWritten s3
  countA : s5 = countStart .a a s4
  countB : s6 = countStart .b b s5
  arms : s7 = startTransitions (anyLive s4) s6
  pump : t = pumpQueue s7

/-- Whether the controller's state sends beacons (R16). -/
def sendsIn (s : State) : Bool :=
  decide (s.seq.state = .armed ∨ s.seq.state = .running ∨ s.seq.state = .stopping ∨ s.seq.state = .sealed)

section
variable {a b : Bool} {s s2 s3 s4 s5 s6 s7 t : State} (h : StartSteps a b s s2 s3 s4 s5 s6 s7 t)
include h

theorem StartSteps.timer_only : OnlyChanges [.segA, .segB, .ctim, .aiu] s s2 := by
  rw [h.timer]
  intro block other
  cases block <;> first | rfl | exact absurd (by decide) other

theorem StartSteps.beacons_only : OnlyChanges [.segA, .segB] s2 s3 := by
  rw [h.beacons]
  exact ((startBeacon_only .a s2).mono (by decide)).trans ((startBeacon_only .b _).mono (by decide))

theorem StartSteps.walker_only : OnlyChanges [.wq, .walk, .hport, .stage] s3 s4 := by
  rw [h.walker]
  exact startWalker_only latchWritten latchWritten_only s3

theorem StartSteps.countedA : Counts .a a s4 s5 := by
  rw [h.countA]
  exact countStart_counts .a a s4

theorem StartSteps.countedB : Counts .b b s5 s6 := by
  rw [h.countB]
  exact countStart_counts .b b s5

theorem StartSteps.armed : Arms (startArms (anyLive s4) s6) s6 s7 := by
  rw [h.arms]
  exact startTransitions_arms (anyLive s4) s6

theorem StartSteps.pump_only : OnlyChanges [.wq, .hport, .aiu] s7 t := by
  rw [h.pump]
  exact pumpQueue_only s7

/-- What the later steps leave alone. -/
theorem StartSteps.end_only : OnlyChanges [.seq, .segA, .segB, .walk, .wq, .aiu, .hport] s4 t :=
  (h.countedA.only.mono (by decide)).trans ((h.countedB.only.mono (by decide)).trans
    ((h.armed.only.mono (by decide)).trans (h.pump_only.mono (by decide))))

/-- What all the steps leave alone. -/
theorem StartSteps.only : OnlyChanges [.seq, .segA, .segB, .ctim, .walk, .stage, .wq, .aiu, .hport] s t :=
  (h.timer_only.mono (by decide)).trans ((h.beacons_only.mono (by decide)).trans ((h.walker_only.mono (by decide)).trans
    (h.end_only.mono (by decide))))

theorem StartSteps.segs_at_walker :
    s4.segA = { s.segA with biasPin := a, beacon := beaconAtStart (sendsIn s) (s.ctim.number + 1) s.segA s.segB } ∧
    s4.segB = { s.segB with biasPin := b, beacon := beaconAtStart (sendsIn s) (s.ctim.number + 1) s.segB s.segA } := by
  have on2 : s2.seq.state ≠ .offline := by
    rw [h.timer_only .seq (by decide)]
    exact h.on
  obtain ⟨segA, segB⟩ := startBeacons_segs on2
  rw [h.walker_only .segA (by decide), h.walker_only .segB (by decide), h.beacons, segA, segB, h.timer]
  exact ⟨rfl, rfl⟩

/-- Both segments at the end (R54 steps 4 and 6). -/
theorem StartSteps.segs : t.segA = segAtStart (sendsIn s) a (s.ctim.number + 1) s.segA s.segB ∧
    t.segB = segAtStart (sendsIn s) b (s.ctim.number + 1) s.segB s.segA ∧ t.segA = s6.segA ∧ t.segB = s6.segB := by
  obtain ⟨startedA, startedB⟩ := h.segs_at_walker
  have segA6 : t.segA = s6.segA := (h.pump_only .segA (by decide)).trans (h.armed.only .segA (by decide))
  have segB6 : t.segB = s6.segB := (h.pump_only .segB (by decide)).trans (h.armed.only .segB (by decide))
  refine ⟨?_, ?_, segA6, segB6⟩
  · rw [segA6, h.countedB.only .segA (by decide), segAtStart_eq, ← startedA]
    exact h.countedA.seg
  · rw [segB6, segAtStart_eq, ← startedB, ← h.countedA.only .segB (by decide)]
    exact h.countedB.seg

theorem StartSteps.modes_at_walker : s4.segA.mode = s.segA.mode ∧ s4.segB.mode = s.segB.mode := by
  obtain ⟨startedA, startedB⟩ := h.segs_at_walker
  exact ⟨by rw [startedA], by rw [startedB]⟩

theorem StartSteps.seq_before : s6.seq = s.seq := by
  rw [h.countedB.only .seq (by decide), h.countedA.only .seq (by decide), h.walker_only .seq (by decide),
    h.beacons_only .seq (by decide), h.timer_only .seq (by decide)]

theorem StartSteps.arms_iff : startArms (anyLive s4) s6 ↔ s.seq.state = .stopping ∨
    (s.seq.state = .ready ∧ anyLive s = false ∧ anyLive t = true ∧ s.seq.restartInHand = false) := by
  obtain ⟨modeA, modeB⟩ := h.modes_at_walker
  obtain ⟨-, -, segA, segB⟩ := h.segs
  rw [startArms, h.seq_before, anyLive_congr modeA modeB, ← anyLive_congr (s := s6) (t := t) (by rw [segA]) (by rw [segB])]

/-- The controller's state at the end (R54 step 7). -/
theorem StartSteps.seq : t.seq = { s.seq with
    state := if s.seq.state = .stopping then .armed
    else if s.seq.state = .ready ∧ anyLive s = false ∧ anyLive t = true ∧ s.seq.restartInHand = false then .armed
    else s.seq.state } := by
  rw [h.pump_only .seq (by decide)]
  by_cases p : startArms (anyLive s4) s6
  · rw [h.armed.armed p, h.seq_before]
    obtain stopping | ready := h.arms_iff.mp p
    · rw [if_pos stopping]
    · rw [if_neg (by rw [ready.1]; exact nofun), if_pos ready]
  · obtain ⟨notStopping, notReady⟩ := not_or.mp (mt h.arms_iff.mpr p)
    rw [h.armed.stays p, if_neg notStopping, if_neg notReady, h.seq_before]

theorem StartSteps.moves_iff : startArms (anyLive s4) s6 ↔ t.seq.state ≠ s.seq.state := by
  rw [h.pump_only .seq (by decide)]
  by_cases p : startArms (anyLive s4) s6
  · rw [h.armed.armed p]
    refine iff_of_true p ?_
    obtain stopping | ready := h.arms_iff.mp p
    · rw [stopping]
      exact nofun
    · rw [ready.1]
      exact nofun
  · rw [h.armed.stays p, h.seq_before]
    exact iff_of_false p (fun other => other rfl)

/-- The walker's rings, the cycle's windows and passes at the end (R54 step 5). -/
theorem StartSteps.walks : WalkerStarts s t := by
  have starts : WalkerStarts s3 s4 := by
    rw [h.walker]
    exact startWalker_starts s3
  have walk3 : s3.walk = s.walk := (h.beacons_only .walk (by decide)).trans (h.timer_only .walk (by decide))
  have counted {g : Seg} {pin : Bool} {u v : State} (k : Counts g pin u v) : SameRings u v ∧ v.walk.pass = u.walk.pass := by
    refine ⟨?_, by rw [k.walk]⟩
    constructor <;> rw [k.walk]
  have done : t.walk = s7.walk := h.pump_only .walk (by decide)
  have rings : SameRings s4 t :=
    ((counted h.countedA).1.trans (counted h.countedB).1).trans (h.armed.rings.trans (.of_walk done))
  have pass : t.walk.pass = none := by
    rw [done]
    exact h.armed.pass ((counted h.countedB).2.trans ((counted h.countedA).2.trans starts.pass))
  have beacons : beaconsOut t = beaconsOut s4 := by
    obtain ⟨segA, segB, -⟩ := h.segs
    obtain ⟨startedA, startedB⟩ := h.segs_at_walker
    unfold beaconsOut
    rw [segA, segB, segAtStart_eq, segAtStart_eq, countedAt_beacon, countedAt_beacon, startedA, startedB]
  have anchors := congrArg (fun l c => Vector.get l (classIx c)) rings.latched
  refine ⟨?_, fun c => ?_, fun c => ?_, ?_, ?_, ?_, ?_, rings.timedDone.trans starts.timedDone,
    rings.streamDone.trans starts.streamDone, rings.aperiodicOver.trans starts.aperiodicOver, pass⟩
  · rw [rings.anchorReg, starts.anchorReg, walk3]
  · have same : latchedAnchor t c = latchedAnchor s4 c := congrFun anchors c
    rw [same, starts.latched c, latchedAnchor, walk3]
    rfl
  · rw [rings.anchorWritten]
    exact starts.written c
  · rw [rings.service, starts.service, walk3]
  · rw [rings.bulk, starts.bulk, walk3]
  · rw [rings.slots, starts.slots, walk3]
  · rw [rings.window, starts.window, beacons]

theorem StartSteps.stage : t.stage = (stageAtCycleStart s).stage := by
  have walker : s4.stage = (stageAtCycleStart s3).stage := by
    rw [h.walker]
    exact startWalker_stage s3
  rw [h.end_only .stage (by decide), walker]
  exact stageAtCycleStart_congr ((h.beacons_only .stage (by decide)).trans (h.timer_only .stage (by decide)))

theorem StartSteps.ctim : t.ctim = { s.ctim with
    remain := s.ctim.len, number := s.ctim.number + 1, len := s.ctim.lenPending.getD s.ctim.len, lenPending := none,
    openSampled := s.ctim.periodicOpen, markSampled := s.ctim.lateMark } := by
  rw [h.end_only .ctim (by decide), h.walker_only .ctim (by decide), h.beacons_only .ctim (by decide), h.timer]
  rfl

theorem StartSteps.edge_of_timer : s2.aiu = { s.aiu with edges := s.aiu.edges ||| (1#11 <<< irqCycle) } := by
  rw [h.timer]
  rfl

theorem StartSteps.raises : OnlyRaises s2 t := by
  have quiet : OnlyRaises s2 s4 := .of_aiu ((h.walker_only .aiu (by decide)).trans (h.beacons_only .aiu (by decide)))
  have pumped : OnlyRaises s7 t := by
    rw [h.pump]
    exact pumpQueue_raises s7
  exact (quiet.trans h.countedA.raises).trans ((h.countedB.raises.trans h.armed.raises).trans pumped)

/-- The edges a cycle start sets, RXLOW aside: CYCLE, SEG and SEQ (R149). -/
theorem StartSteps.bit {n : Nat} (other : n ≠ 10) : t.aiu.edges.getLsbD n = true ↔ ((s.aiu.edges.getLsbD n = true ∨ n = 0) ∨
    (n = 6 ∧ (t.segA.mode ≠ s.segA.mode ∨ t.segB.mode ≠ s.segB.mode))) ∨ (n = 7 ∧ t.seq.state ≠ s.seq.state) := by
  obtain ⟨-, -, segA, segB⟩ := h.segs
  obtain ⟨modeA, modeB⟩ := h.modes_at_walker
  have a6 : (getSeg s5 .a).mode ≠ (getSeg s4 .a).mode ↔ t.segA.mode ≠ s.segA.mode := by
    rw [segA, h.countedB.only .segA (by decide), ← modeA]
    rfl
  have b6 : (getSeg s6 .b).mode ≠ (getSeg s5 .b).mode ↔ t.segB.mode ≠ s.segB.mode := by
    rw [segB, ← modeB, ← h.countedA.only .segB (by decide)]
    rfl
  have bit4 : s4.aiu.edges.getLsbD n = (s.aiu.edges.getLsbD n || decide (n = 0)) := by
    rw [h.walker_only .aiu (by decide), h.beacons_only .aiu (by decide), h.edge_of_timer]
    exact setEdge_bit 0 n s (by decide)
  have pumped : t.aiu.edges.getLsbD n = s7.aiu.edges.getLsbD n := by
    rw [h.pump]
    exact (pumpQueue_aiu_rest s7).2 n other
  rw [pumped, h.armed.bit n, h.countedB.bit n, h.countedA.bit n, bit4, ← a6, ← b6, ← h.moves_iff]
  simp only [Bool.or_eq_true, decide_eq_true_eq]
  tauto

end

/-- Settles O30. -/
theorem cycleStartTakesItsSteps : Obligations.CycleStartTakesItsSteps := by
  intro a b s out on free sends
  have h : StartSteps a b s _ _ _ _ _ _ _ := ⟨on, rfl, rfl, rfl, rfl, rfl, rfl, rfl⟩
  obtain ⟨segA, segB, -⟩ := h.segs
  obtain ⟨staged, filling, empty⟩ := stageAtCycleStart_stage s
  have walks := h.walks
  refine ⟨_, exec_cycleStart out on free a b, h.ctim, segA, segB, walks.latched, walks.written, walks.service, walks.bulk, ?_,
    walks.timedDone, walks.streamDone, walks.pass, walks.aperiodicOver, walks.slots, walks.anchorReg, ?_, ?_, ?_, h.seq,
    (OnlyRaises.of_edge h.edge_of_timer).trans h.raises, ?_, ?_, ?_, h.only⟩
  · rw [walks.window]
    exact if_congr (by simp [beaconsOut]) rfl rfl
  · rw [h.stage]
    exact staged
  · rw [h.stage]
    exact filling
  · rw [h.stage]
    exact empty
  · exact (h.bit (by decide)).mpr (.inl (.inl (.inr rfl)))
  · rw [Bool.eq_iff_iff, h.bit (by decide)]
    simp [or_assoc]
  · rw [Bool.eq_iff_iff, h.bit (by decide)]
    simp

end Sys2Proof.Machine
end

section
/-! SUPPORT. A walker decision from its beginning to the reads that join the stream (R95, R12), the windows of a cycle (R57, R58)
and the direct path (R137, R138): the settlements of O31, O36 and O37. -/

namespace Sys2Proof.Machine

/-! ### A decision and what follows it -/

/-- A decision begins with no look-ahead. -/
def decisionFrom (s : State) : State := cancelReads lookReader (setLook .nothing s)

/-- Behind a decision the queue goes on, and the reads it has asked for join the stream (R12). -/
def decided (n : Nat) (v : State) : State := joinReads n (pumpQueue v)

/-- The walker may decide at all: no exchange is on the bus, no RESTART is in hand, and the controller is READY, ARMED or
RUNNING (log 23, log 26). -/
structure MayDecide (s : State) : Prop where
  awake : awake s
  free : s.xeng = none
  restart : s.seq.restartInHand = false
  working : s.seq.state = .ready ∨ s.seq.state = .armed ∨ s.seq.state = .running

theorem decisionFrom_only (s : State) : OnlyChanges [.walk, .hport] s (decisionFrom s) :=
  ((setLook_only _ s).mono (by decide)).trans ((cancelReads_only _ _).mono (by decide))

theorem decided_only (n : Nat) (v : State) : OnlyChanges [.wq, .hport, .aiu] v (decided n v) :=
  (pumpQueue_only v).trans ((joinReads_only n _).mono (by decide))

theorem decided_walk (n : Nat) (v : State) : (decided n v).walk = v.walk := decided_only n v .walk (by decide)

theorem decided_wq (n : Nat) (v : State) : (decided n v).wq.items = v.wq.items ∧ (decided n v).wq.reserved = v.wq.reserved :=
  ⟨pumpQueue_items v, pumpQueue_reserved v⟩

theorem decided_aiu (n : Nat) (v : State) : (decided n v).aiu = { v.aiu with edges := (decided n v).aiu.edges } :=
  (pumpQueue_aiu_rest v).1

theorem mem_joinOrder {q : ReadReq} {l : List ReadReq} : q ∈ joinOrder l ↔ q ∈ l := by
  have rank := readRank_le q
  simp only [joinOrder, List.mem_append, List.mem_filter, beq_iff_eq]
  constructor
  · tauto
  · intro held
    simp only [held, true_and]
    omega

/-- A read that a decision asks for is in the stream behind it, unless the decision has sealed the controller. -/
theorem asked_decided {n : Nat} {v : State} (open' : v.seq.state ≠ .sealed) {kind : BitVec 4} {addr : Word} {len : Nat}
    {reader : Reader} (h : asked v kind addr len reader) : asked (decided n v) kind addr len reader := by
  obtain ⟨q, place, rest⟩ := asked_pumpQueue h
  refine ⟨q, ?_, rest⟩
  have unsealed : (pumpQueue v).seq.state ≠ .sealed := by rw [pumpQueue_seq]; exact open'
  show q ∈ (pumpQueue v).hport.reads.take n ++ (if (pumpQueue v).seq.state = .sealed then [] else
    joinOrder ((pumpQueue v).hport.reads.drop n))
  rw [if_neg unsealed, List.mem_append, mem_joinOrder, ← List.mem_append, List.take_append_drop]
  exact place

theorem MayDecide.guard {s : State} (h : MayDecide s) : (s.xeng.isSome || s.seq.restartInHand ||
    !(s.seq.state == .ready || s.seq.state == .armed || s.seq.state == .running)) = false := by
  obtain st | st | st := h.working <;> simp [h.free, h.restart, st]

theorem exec_decision_fresh {s : State} (h : MayDecide s) (hand : s.walk.hand = .nothing) (waits : s.walk.waiting = false) :
    exec .walkerDecision s = .next (decided (decisionFrom s).hport.reads.length (freshDecision (decisionFrom s))) := by
  refine (next_unlessHeld h.awake walkerDecision).trans (congrArg _ ?_)
  unfold walkerDecision
  rw [h.guard, hand, waits]
  rfl

/-! ### The windows (R57, R58) -/

theorem freshDecision_of_starting {s : State} (window : s.walk.window = .starting) :
    freshDecision s = walkerWaits (beginDecision s) := by
  have begun : (beginDecision s).walk.window = .starting := window
  unfold freshDecision
  dsimp only
  rw [begun]

/-- The decision that finds the countdown at PERIODIC_OPEN, or a later one of the periodic window. -/
def enterPeriodic (s : State) : State := { s with walk := { s.walk with waiting := true, window := .periodic } }

theorem freshDecision_of_periodic {s : State} (window : s.walk.window = .periodic ∨
    (s.walk.window = .early ∧ s.ctim.remain.toNat ≤ s.ctim.openSampled.toNat)) :
    freshDecision s = periodicStage (enterPeriodic s) := by
  unfold freshDecision
  dsimp only
  obtain window | ⟨window, due⟩ := window
  · have begun : (beginDecision s).walk.window = .periodic := window
    rw [begun]
    have same : beginDecision s = enterPeriodic s := by
      unfold beginDecision enterPeriodic
      rw [← window]
    exact congrArg periodicStage same
  · have begun : (beginDecision s).walk.window = .early := window
    rw [begun]
    exact if_pos due

/-- The first fetch of a pass at its latched anchor. -/
def firstOfPass (c : RingClass) (anchor : Word) : Seek :=
  { stage := .pass c, start := some anchor, fetched := 1, cur := anchor, rot := Rotation.empty, firstEmpty := false }

/-- A fresh pass with an anchor that may be fetched begins there (6.9). -/
theorem freshPass_of_anchor {s : State} {c : RingClass} (some : latchedAnchor s c ≠ 0)
    (free : pendingHeadLink s (latchedAnchor s c) = none) : freshPass s c = .head (firstOfPass c (latchedAnchor s c)) none := by
  unfold freshPass traverseBound
  rw [if_neg some]
  unfold traverse
  simp [passSeek, endsAt, Config.traversalLimit, free, firstOfPass]

theorem freshPass_of_zero {s : State} {c : RingClass} (zero : latchedAnchor s c = 0) : freshPass s c = .ended Rotation.empty := by
  unfold freshPass
  rw [if_pos zero]

theorem streamStage_of_anchor {s : State} (pass : s.walk.pass = none) (todo : s.walk.streamDone = false)
    (some : latchedAnchor s .stream ≠ 0) (free : pendingHeadLink s (latchedAnchor s .stream) = none) :
    streamStage s = issueHead (firstOfPass .stream (latchedAnchor s .stream)) none s := by
  unfold streamStage beginPass
  rw [todo, pass]
  dsimp only
  rw [freshPass_of_anchor some free]
  rfl

theorem streamStage_of_none {s : State} (pass : s.walk.pass = none)
    (none : s.walk.streamDone = true ∨ latchedAnchor s .stream = 0) : streamStage s = aperiodicDecision (closePasses s) := by
  unfold streamStage beginPass
  split
  case isTrue => rfl
  case isFalse todo =>
    obtain done | zero := none
    · exact absurd done todo
    · rw [pass]
      dsimp only
      rw [freshPass_of_zero zero]

theorem periodicStage_of_timed {s : State} (running : s.seq.state = .running) (pass : s.walk.pass = none)
    (todo : s.walk.timedDone = false) (some : latchedAnchor s .timed ≠ 0)
    (free : pendingHeadLink s (latchedAnchor s .timed) = none) :
    periodicStage s = issueHead (firstOfPass .timed (latchedAnchor s .timed)) none s := by
  unfold periodicStage beginPass
  rw [if_neg (by simp [running]), todo, pass]
  dsimp only
  rw [freshPass_of_anchor some free]
  rfl

/-- The TIMED pass is done, or has no head. -/
def timedOver (s : State) : State := { s with walk := { s.walk with timedDone := true, pass := none } }

theorem periodicStage_of_no_timed {s : State} (running : s.seq.state = .running) (pass : s.walk.pass = none)
    (none : s.walk.timedDone = true ∨ latchedAnchor s .timed = 0) : periodicStage s = streamStage (timedOver s) := by
  unfold periodicStage beginPass
  rw [if_neg (by simp [running])]
  split
  case isTrue done =>
    unfold timedOver
    rw [← done, ← pass]
  case isFalse todo =>
    obtain done | zero := none
    · exact absurd done todo
    · rw [pass]
      dsimp only
      rw [freshPass_of_zero zero]
      rfl

theorem periodicStage_of_idle {s : State} (off : s.seq.state ≠ .running) :
    periodicStage s = aperiodicDecision (closePasses s) := if_pos off

/-- What the fetch of a pass's first head leaves. -/
theorem issueHead_firstOfPass (c : RingClass) (anchor : Word) (s : State) :
    (issueHead (firstOfPass c anchor) none s).walk = { s.walk with
      hand := .headWait (firstOfPass c anchor),
      pass := some { prev := none, next := anchor, start := some anchor, fetched := 0 } } ∧
    asked (issueHead (firstOfPass c anchor) none s) 1 anchor 16 .head ∧
    OnlyChanges [.walk, .hport] s (issueHead (firstOfPass c anchor) none s) := by
  rw [issueHead_of_pass (c := c) rfl]
  refine ⟨rfl, asked_requestRead 1 anchor 16 .head _, ?_⟩
  intro block other
  cases block <;> first | rfl | exact absurd (by decide) other

/-- The first fetch of a pass, with what follows the decision (R12). -/
theorem pass_begins (n : Nat) (c : RingClass) (anchor : Word) {s v : State} (kept : OnlyChanges [.walk, .hport] s v)
    (running : s.seq.state = .running) (window : v.walk.window = .periodic) :
    let t := decided n (issueHead (firstOfPass c anchor) none v)
    (∃ k, t.walk.hand = .headWait k ∧ k.stage = .pass c ∧ k.cur = anchor ∧ k.start = some anchor ∧ k.fetched = 1 ∧
      asked t 1 anchor 16 .head ∧
      t.walk.pass = some { prev := none, next := anchor, start := some anchor, fetched := 0 } ∧
      t.walk.window = .periodic ∧ OnlyChanges [.walk, .hport, .wq, .aiu] s t) ∧
    t.walk.timedDone = v.walk.timedDone ∧ t.walk.streamDone = v.walk.streamDone := by
  intro t
  obtain ⟨walk, reads, only⟩ := issueHead_firstOfPass c anchor v
  have walk' : t.walk = _ := (decided_walk n _).trans walk
  have open' : (issueHead (firstOfPass c anchor) none v).seq.state ≠ .sealed := by
    rw [only .seq (by decide), kept .seq (by decide), running]
    exact nofun
  refine ⟨⟨firstOfPass c anchor, ?_, rfl, rfl, rfl, rfl, asked_decided open' reads, ?_, ?_, ?_⟩, ?_, ?_⟩
  · rw [walk']
  · rw [walk']
  · rw [walk']
    exact window
  · exact (kept.mono (by decide)).trans ((only.mono (by decide)).trans ((decided_only n _).mono (by decide)))
  · rw [walk']
  · rw [walk']

/-- What the late window opens with (R58): no pass is left, whatever the decision then comes to. -/
theorem late_opens (n : Nat) (v : State) :
    let t := decided n (aperiodicDecision (closePasses v))
    t.walk.window = .late ∧ t.walk.timedDone = true ∧ t.walk.streamDone = true ∧ t.walk.pass = none := by
  intro t
  have same := (aperiodicDecision_decides (closePasses v)).sameCycle
  have walk : t.walk = (aperiodicDecision (closePasses v)).walk := decided_walk n _
  rw [walk]
  exact ⟨same.window, same.timedDone, same.streamDone, same.pass⟩

theorem enterPeriodic_only (s : State) : OnlyChanges [.walk] s (enterPeriodic s) := by
  intro block other
  cases block <;> first | rfl | exact absurd (by decide) other

theorem timedOver_only (s : State) : OnlyChanges [.walk] s (timedOver s) := by
  intro block other
  cases block <;> first | rfl | exact absurd (by decide) other

/-- Outside RUNNING no ring is offered, and nothing is looked at ahead. -/
theorem offerRings_of_idle {s : State} (off : s.seq.state ≠ .running) : offerRings (windowRings s) s = walkerWaits s := by
  unfold windowRings
  rw [if_neg off]
  exact lookAhead_of_not_running (by exact off)

theorem aperiodic_idle_only (n : Nat) {s : State} (off : s.seq.state ≠ .running) :
    OnlyChanges [.walk, .xeng, .stage, .dau, .hport] s (aperiodic n s) := by
  have waits {u : State} (h : u.seq.state ≠ .running) : OnlyChanges [.walk, .xeng, .stage, .dau, .hport] u (waitLook u) := by
    unfold waitLook
    rw [lookAhead_of_not_running (by exact h)]
    exact (walkerWaits_only u).mono (by decide)
  have rings {u : State} (h : u.seq.state ≠ .running) :
      OnlyChanges [.walk, .xeng, .stage, .dau, .hport] u (offerRings (windowRings u) u) := by
    rw [offerRings_of_idle h]
    exact (walkerWaits_only u).mono (by decide)
  induction n generalizing s with
  | zero => exact rings off
  | succ n ih =>
    unfold aperiodic
    split
    · split
      · exact rings off
      · split
        · refine ((completeDirect_only _ _ s).mono (by decide)).trans (ih ?_)
          rw [completeDirect_only _ _ s .seq (by decide)]
          exact off
        · split
          · exact (chooseDirect_only _ s).mono (by decide)
          · have over' : OnlyChanges [.walk] s (endAperiodic s) := by
              intro block other
              cases block <;> first | rfl | exact absurd (by decide) other
            exact (over'.mono (by decide)).trans (waits (by exact off))
    · exact rings off

/-- In READY and ARMED a decision has the direct path alone. -/
theorem aperiodicDecision_idle_only {s : State} (off : s.seq.state ≠ .running) :
    OnlyChanges [.walk, .xeng, .stage, .dau, .hport] s (aperiodicDecision s) := by
  unfold aperiodicDecision
  split
  · unfold waitLook
    rw [lookAhead_of_not_running (by exact off)]
    exact (walkerWaits_only s).mono (by decide)
  · exact aperiodic_idle_only _ off

/-- Settles O31. -/
theorem windowsOpenInOrder : Obligations.WindowsOpenInOrder := by
  intro s out decides periodic begins noPass lateOpens
  have fresh (d : decides) (work : s.seq.state = .ready ∨ s.seq.state = .armed ∨ s.seq.state = .running) :
      exec .walkerDecision s = .next (decided (decisionFrom s).hport.reads.length (freshDecision (decisionFrom s))) := by
    obtain ⟨free, restart, hand, waits⟩ := d
    exact exec_decision_fresh ⟨out, free, restart, work⟩ hand waits
  generalize (decisionFrom s).hport.reads.length = n at fresh
  have entered : OnlyChanges [.walk, .hport] s (enterPeriodic (decisionFrom s)) :=
    (decisionFrom_only s).trans ((enterPeriodic_only _).mono (by decide))
  refine ⟨fun starting => ?_, fun other => ?_, fun on due => ?_, fun off => ?_, fun d starting work => ?_,
    fun d p pass running => ⟨fun todo some free => ?_, fun timed todo some free => ?_, fun timed stream => ?_⟩, fun d p idle => ?_⟩
  · refine (next_unlessHeld out beaconEnd).trans (congrArg _ ?_)
    unfold beaconEnd
    rw [if_pos starting]
    rfl
  · refine (next_unlessHeld out beaconEnd).trans (congrArg _ ?_)
    exact if_neg other
  · refine (next_unlessHeld out periodicOpenReached).trans (congrArg _ ?_)
    unfold periodicOpenReached
    rw [if_neg (by rintro (h | h); exacts [on h, absurd h (Nat.not_lt.mpr due)])]
    rfl
  · refine (next_unlessHeld out periodicOpenReached).trans (congrArg _ ?_)
    exact if_pos off
  · refine ⟨_, fresh d work, ?_, ?_⟩
    · rw [decided_walk, freshDecision_of_starting (by exact starting)]
      obtain ⟨-, -, hand, -⟩ := d
      show ({ s.walk with waiting := true, look := .nothing, hand := .nothing } : Walker) = _
      rw [← hand]
    · rw [freshDecision_of_starting (by exact starting)]
      refine OnlyChanges.trans ?_ ((decided_only n _).mono (by decide))
      exact (decisionFrom_only s).mono (by decide) |>.trans (by
        intro block other
        cases block <;> first | rfl | exact absurd (by decide) other)
  · have step : freshDecision (decisionFrom s) = issueHead (firstOfPass .timed (latchedAnchor s .timed)) none (enterPeriodic (decisionFrom s)) := by
      rw [freshDecision_of_periodic (by exact p)]
      exact periodicStage_of_timed running pass todo some free
    obtain ⟨first, timed, stream⟩ := pass_begins n .timed (latchedAnchor s .timed) entered running rfl
    exact ⟨_, (fresh d (.inr (.inr running))).trans (by rw [step]), first, timed.trans todo, stream⟩
  · have step : freshDecision (decisionFrom s) =
        issueHead (firstOfPass .stream (latchedAnchor s .stream)) none (timedOver (enterPeriodic (decisionFrom s))) := by
      rw [freshDecision_of_periodic (by exact p), periodicStage_of_no_timed (by exact running) (by exact pass) (by exact timed)]
      exact streamStage_of_anchor rfl todo some free
    obtain ⟨first, timed, stream⟩ := pass_begins n .stream (latchedAnchor s .stream)
      (entered.trans ((timedOver_only _).mono (by decide))) running rfl
    exact ⟨_, (fresh d (.inr (.inr running))).trans (by rw [step]), first, timed, stream.trans todo⟩
  · have step : freshDecision (decisionFrom s) =
        aperiodicDecision (closePasses (timedOver (enterPeriodic (decisionFrom s)))) := by
      rw [freshDecision_of_periodic (by exact p), periodicStage_of_no_timed (by exact running) (by exact pass) (by exact timed)]
      exact streamStage_of_none rfl stream
    refine ⟨_, (fresh d (.inr (.inr running))).trans (by rw [step]), late_opens n _, ?_⟩
    rw [← step]
    exact ((decisionFrom_only s).mono (by decide)).trans (((freshDecision_only _).mono (by decide)).trans
      ((decided_only n _).mono (by decide)))
  · have off : s.seq.state ≠ .running := by
      obtain st | st := idle <;> rw [st] <;> exact nofun
    have step : freshDecision (decisionFrom s) = aperiodicDecision (closePasses (enterPeriodic (decisionFrom s))) := by
      rw [freshDecision_of_periodic (by exact p)]
      exact periodicStage_of_idle off
    refine ⟨_, (fresh d (idle.imp_right .inl)).trans (by rw [step]), late_opens n _, ?_⟩
    exact (entered.mono (by decide)).trans (((closePasses_only _).mono (by decide)).trans
      (((aperiodicDecision_idle_only (by exact off)).mono (by decide)).trans ((decided_only n _).mono (by decide))))

/-! ### The direct path (R95, R137, R138) -/

/-- A window of aperiodic work (R57, R95). -/
def aperiodicWindow (s : State) : Prop :=
  s.walk.window = .late ∨ (s.walk.window = .early ∧ s.ctim.openSampled.toNat < s.ctim.remain.toNat)

theorem freshDecision_of_aperiodic {s : State} (window : aperiodicWindow s) :
    freshDecision s = aperiodicDecision (beginDecision s) := by
  unfold freshDecision
  dsimp only
  obtain window | ⟨window, before⟩ := window
  · have begun : (beginDecision s).walk.window = .late := window
    rw [begun]
  · have begun : (beginDecision s).walk.window = .early := window
    rw [begun]
    exact if_neg (Nat.not_le.mpr before)

/-- An aperiodic decision that the start rule has not ended begins with the direct path. -/
theorem exec_decision_aperiodic {s : State} (h : MayDecide s) (hand : s.walk.hand = .nothing) (waits : s.walk.waiting = false)
    (window : aperiodicWindow s) (more : s.walk.aperiodicOver = false) :
    exec .walkerDecision s = .next (decided (decisionFrom s).hport.reads.length
      (aperiodic s.dau.pending.length (beginDecision (decisionFrom s)))) := by
  rw [exec_decision_fresh h hand waits, freshDecision_of_aperiodic (by exact window)]
  refine congrArg (fun v => Host.Outcome.next (decided _ v)) ?_
  exact if_neg (by rw [show (beginDecision (decisionFrom s)).walk.aperiodicOver = false from more]; decide)

theorem frontTest_eq_barredBy (s : State) (r : DirReq) : frontTest s r = barredBy s r := by
  have unusable : (!usableDirect (getEntry s r.entry)) = true ↔
      (getEntry s r.entry).valid = false ∨ (getEntry s r.entry).address = 0 := by
    simp only [usableDirect, Bool.not_eq_true', Bool.and_eq_false_iff, bne_eq_false_iff_eq]
  unfold frontTest barredBy
  simp only [unusable]

theorem directOffered_iff (s : State) : directOffered s = true ↔
    (s.seq.state = .armed ∨ s.seq.state = .running) ∧ s.dau.pending ≠ [] ∧ s.dau.done.length < 4 := by
  have room : decide (s.dau.done.length < Config.directListSize) = true ↔ s.dau.done.length < 4 := decide_eq_true_iff
  simp only [directOffered, room, Bool.and_eq_true, Bool.or_eq_true, beq_iff_eq, Bool.not_eq_true',
    List.isEmpty_eq_false_iff, and_assoc]

/-- The estimate of a direct request on a segment (R59). -/
theorem estimateTicks_direct (r : DirReq) (g : Segment) : estimateTicks (directRequestOf r) g =
    directSymbols r.poke r.len (timeoutSymbols g.timeout) * (if g.reduced then 4 else 1) := by
  have symbols (T : Nat) : estimateSymbols (directRequestOf r) T = directSymbols r.poke r.len T := by
    unfold directRequestOf directSymbols
    cases r.poke
    · show frameCost 3 + T + frameCost r.len + frameCost 0 = 102 + 10 * r.len + T
      unfold frameCost
      omega
    · show frameCost (2 + r.len) + T + frameCost 0 = 68 + 10 * r.len + T
      unfold frameCost
      omega
  unfold estimateTicks ticksPerSymbol
  rw [symbols]

/-- The front request that is not barred and fits gets the turn. -/
theorem aperiodic_of_front {s : State} {r : DirReq} {rest : List DirReq} {n : Nat} (offered : directOffered s = true)
    (front : s.dau.pending = r :: rest) (may : barredBy s r = none)
    (fits : startRule s (directRequestOf r) (getEntry s r.entry).segment = true) : aperiodic (n + 1) s = chooseDirect r s := by
  unfold aperiodic
  rw [if_pos offered, front]
  dsimp only
  rw [frontTest_eq_barredBy, may]
  exact if_pos fits

/-- Settles O36: the direct path comes first, and its front request gets the turn. -/
theorem decisionGivesTheDirectTurn : Obligations.DecisionGivesTheDirectTurn := by
  intro s r rest out free restart work hand waits window more front room e fence valid address mode clean fits
  have row := exec_decision_aperiodic ⟨out, free, restart, .inr work⟩ hand waits window more
  have may : barredBy s r = none := by
    unfold barredBy
    dsimp only
    rw [if_neg (by rw [fence]; exact nofun), if_neg (by rw [valid]; exact fun h => h.elim nofun address),
      if_neg (by rw [clean]; exact nofun), if_neg (fun h => h mode)]
  have chosen : aperiodic s.dau.pending.length (beginDecision (decisionFrom s)) = chooseDirect r (beginDecision (decisionFrom s)) := by
    rw [front]
    refine aperiodic_of_front (rest := rest) ?_ front may ?_
    · rw [directOffered_iff]
      refine ⟨work, ?_, room⟩
      show s.dau.pending ≠ []
      rw [front]
      exact nofun
    · show decide (estimateTicks (directRequestOf r) (getSeg s e.segment) + s.ctim.markSampled.toNat ≤ s.ctim.remain.toNat) = true
      rw [estimateTicks_direct]
      exact decide_eq_true fits
  rw [chosen] at row
  have kept := decided_only (decisionFrom s).hport.reads.length (chooseDirect r (beginDecision (decisionFrom s)))
  refine ⟨_, row, ?_, ?_, ?_, ?_⟩
  · rw [kept .xeng (by decide)]
    unfold chooseDirect directRequestOf
    cases r.poke <;> rfl
  · rw [kept .stage (by decide)]
    unfold chooseDirect
    cases r.poke <;> rfl
  · have walk : (chooseDirect r (beginDecision (decisionFrom s))).walk =
        { s.walk with look := .nothing, waiting := false, hand := .nothing } := by
      unfold chooseDirect
      cases r.poke <;> rfl
    rw [kept .walk (by decide), walk, ← hand, ← waits]
  · have begun : OnlyChanges [.walk] (decisionFrom s) (beginDecision (decisionFrom s)) := by
      intro block other
      cases block <;> first | rfl | exact absurd (by decide) other
    exact ((decisionFrom_only s).mono (by decide)).trans ((begun.mono (by decide)).trans
      (((chooseDirect_only r _).mono (by decide)).trans (kept.mono (by decide))))

end Sys2Proof.Machine
end

section
/-! SUPPORT. The direct path of an aperiodic decision: the barred requests at the front complete one after another
(R137, R138, R140). -/

namespace Sys2Proof.Machine

theorem completeDirect_of_front {s : State} {r : DirReq} {rest : List DirReq} (front : s.dau.pending = r :: rest)
    (st : DirStatus) (bytes : List Byte) :
    completeDirect st bytes s = { s with dau := directDone r rest st bytes s } := by
  unfold completeDirect
  rw [front]
  rfl

theorem barredDone_of_barred {s : State} {r : DirReq} {rest : List DirReq} {st : DirStatus} (room : s.dau.done.length < 4)
    (bar : barredBy s r = some st) :
    barredDone (r :: rest) s = barredDone rest { s with dau := directDone r rest st [] s } := by
  conv_lhs => unfold barredDone
  rw [if_pos room, bar]

theorem barredDone_of_free {s : State} {r : DirReq} {rest : List DirReq} (may : barredBy s r = none) :
    barredDone (r :: rest) s = s.dau := by
  unfold barredDone
  rw [may]
  exact ite_self _

theorem barredDone_of_full {s : State} (l : List DirReq) (full : 4 ≤ s.dau.done.length) : barredDone l s = s.dau := by
  cases l with
  | nil => rfl
  | cons r rest => exact if_neg (Nat.not_lt.mpr full)

/-- A request moves from one list to the other, and none comes back. -/
theorem barredDone_counts (l : List DirReq) {s : State} (all : s.dau.pending = l) :
    (barredDone l s).done.length + (barredDone l s).pending.length = s.dau.done.length + l.length ∧
      s.dau.done.length ≤ (barredDone l s).done.length := by
  induction l generalizing s with
  | nil =>
    refine ⟨?_, Nat.le_refl _⟩
    show s.dau.done.length + s.dau.pending.length = _
    rw [all]
  | cons r rest ih =>
    by_cases room : s.dau.done.length < 4
    · cases bar : barredBy s r with
      | none =>
        rw [barredDone_of_free bar, all]
        exact ⟨rfl, Nat.le_refl _⟩
      | some st =>
        obtain ⟨sum, more⟩ := ih (s := { s with dau := directDone r rest st [] s }) rfl
        have one : (directDone r rest st [] s).done.length = s.dau.done.length + 1 := List.length_append
        rw [barredDone_of_barred room bar, List.length_cons]
        rw [one] at sum more
        exact ⟨by omega, by omega⟩
    · rw [barredDone_of_full _ (Nat.not_lt.mp room), all]
      exact ⟨rfl, Nat.le_refl _⟩

/-- The beginning of a decision counts for nothing on the direct path. -/
theorem barredDone_begun (l : List DirReq) (s : State) :
    barredDone l (beginDecision (decisionFrom s)) = barredDone l s := by
  induction l generalizing s with
  | nil => rfl
  | cons r rest ih =>
    unfold barredDone
    rw [show barredBy (beginDecision (decisionFrom s)) r = barredBy s r from rfl]
    cases barredBy s r with
    | none => rfl
    | some st => exact if_congr Iff.rfl (ih { s with dau := directDone r rest st [] s }) rfl

/-- What the direct path comes to: the barred requests have completed, and where none is left to be offered the bus stays
free, and in ARMED nothing else changes. -/
structure DirectPath (s t : State) : Prop where
  dau : t.dau = barredDone s.dau.pending s
  idle : t.dau.pending = [] ∨ 4 ≤ t.dau.done.length →
    t.xeng = none ∧ (s.seq.state = .armed → OnlyChanges [.dau, .walk] s t)

/-- Without a request to offer the rings follow. -/
theorem directPath_of_exhausted {s : State} (free : s.xeng = none) (exhausted : s.dau.pending = [] ∨ 4 ≤ s.dau.done.length) :
    DirectPath s (offerRings (windowRings s) s) := by
  have kept := offerRings_only (windowRings s) s
  refine ⟨?_, fun _ => ⟨(kept .xeng (by decide)).trans free, fun armed => ?_⟩⟩
  · rw [show (offerRings (windowRings s) s).dau = s.dau from kept .dau (by decide)]
    obtain empty | full := exhausted
    · rw [empty]
      rfl
    · rw [barredDone_of_full _ full]
  · rw [offerRings_of_idle (by rw [armed]; exact nofun)]
    exact (walkerWaits_only s).mono (by decide)

/-- A front request that may run keeps its place: it gets the turn, or the start rule bars it. -/
theorem directPath_of_free {s t : State} {r : DirReq} {rest : List DirReq} (front : s.dau.pending = r :: rest)
    (room : s.dau.done.length < 4) (may : barredBy s r = none) (dau : t.dau = s.dau) : DirectPath s t := by
  refine ⟨by rw [front, barredDone_of_free may]; exact dau, fun exhausted => ?_⟩
  rw [dau, front] at exhausted
  obtain empty | full := exhausted
  · exact nomatch empty
  · exact absurd room (Nat.not_lt.mpr full)

theorem directPath_of_barred {s t : State} {r : DirReq} {rest : List DirReq} {st : DirStatus}
    (front : s.dau.pending = r :: rest) (room : s.dau.done.length < 4) (bar : barredBy s r = some st)
    (later : DirectPath { s with dau := directDone r rest st [] s } t) : DirectPath s t := by
  refine ⟨?_, fun exhausted => ⟨(later.idle exhausted).1, fun armed => ?_⟩⟩
  · rw [later.dau, front, barredDone_of_barred room bar]
    rfl
  · have first : OnlyChanges [.dau, .walk] s { s with dau := directDone r rest st [] s } := by
      intro block other
      cases block <;> first | rfl | exact absurd (by decide) other
    exact first.trans ((later.idle exhausted).2 armed)

theorem aperiodic_directPath (n : Nat) {s : State} (work : s.seq.state = .armed ∨ s.seq.state = .running)
    (free : s.xeng = none) (enough : s.dau.pending.length ≤ n) : DirectPath s (aperiodic n s) := by
  induction n generalizing s with
  | zero => exact directPath_of_exhausted free (.inl (List.eq_nil_of_length_eq_zero (Nat.le_zero.mp enough)))
  | succ n ih =>
    unfold aperiodic
    by_cases offered : directOffered s = true
    · rw [if_pos offered]
      obtain ⟨-, some, room⟩ := (directOffered_iff s).mp offered
      cases front : s.dau.pending with
      | nil => exact absurd front some
      | cons r rest =>
        dsimp only
        rw [frontTest_eq_barredBy]
        cases bar : barredBy s r with
        | some st =>
          dsimp only
          rw [completeDirect_of_front front]
          rw [front] at enough
          exact directPath_of_barred front room bar (ih work free (Nat.le_of_succ_le_succ enough))
        | none =>
          dsimp only
          split
          · exact directPath_of_free front room bar (chooseDirect_only r s .dau (by decide))
          · exact directPath_of_free front room bar (waitLook_only _ .dau (by decide))
    · rw [if_neg offered]
      refine directPath_of_exhausted free ?_
      rw [directOffered_iff] at offered
      by_cases some : s.dau.pending = []
      · exact .inl some
      · exact .inr (Nat.not_lt.mp fun room => offered ⟨work, some, room⟩)

/-- Settles O37: by induction on the requests of the Pending list that a decision can come to. -/
theorem decisionCompletesABarredRequest : Obligations.DecisionCompletesABarredRequest := by
  intro s r rest out free restart work hand waits window more front room barred
  have row := exec_decision_aperiodic ⟨out, free, restart, .inr work⟩ hand waits window more
  have path := aperiodic_directPath s.dau.pending.length (s := beginDecision (decisionFrom s)) work free (Nat.le_refl _)
  have begun : OnlyChanges [.walk, .hport] s (beginDecision (decisionFrom s)) := by
    have step : OnlyChanges [.walk] (decisionFrom s) (beginDecision (decisionFrom s)) := by
      intro block other
      cases block <;> first | rfl | exact absurd (by decide) other
    exact ((decisionFrom_only s).mono (by decide)).trans (step.mono (by decide))
  have frame := aperiodic_only s.dau.pending.length (beginDecision (decisionFrom s))
  generalize aperiodic s.dau.pending.length (beginDecision (decisionFrom s)) = v at row path frame
  have kept := decided_only (decisionFrom s).hport.reads.length v
  generalize decided (decisionFrom s).hport.reads.length v = t at row kept
  have same : barredDone s.dau.pending (beginDecision (decisionFrom s)) = barredDone (r :: rest) s := by
    rw [front]
    exact barredDone_begun (r :: rest) s
  have dau : t.dau = barredDone (r :: rest) s := (kept .dau (by decide)).trans (path.dau.trans same)
  obtain ⟨sum, -⟩ := barredDone_counts (r :: rest) front
  have grows : s.dau.done.length < t.dau.done.length := by
    obtain ⟨st, bar⟩ := Option.ne_none_iff_exists'.mp barred
    have later := (barredDone_counts rest (s := { s with dau := directDone r rest st [] s }) rfl).2
    rw [dau, barredDone_of_barred room bar]
    have one : (directDone r rest st [] s).done.length = s.dau.done.length + 1 := List.length_append
    rw [one] at later
    exact later
  have idle (exhausted : t.dau.pending = [] ∨ 4 ≤ t.dau.done.length) := by
    rw [kept .dau (by decide)] at exhausted
    exact path.idle exhausted
  rw [← dau, ← front] at sum
  exact ⟨t, row, dau, by omega, grows, fun exhausted => (kept .xeng (by decide)).trans (idle exhausted).1,
    fun armed exhausted => (begun.mono (by decide)).trans
      ((((idle exhausted).2 armed).mono (by decide)).trans (kept.mono (by decide))),
    (begun.mono (by decide)).trans ((frame.mono (by decide)).trans (kept.mono (by decide)))⟩

end Sys2Proof.Machine
end

section
/-! SUPPORT. The walker's share of the end of an exchange (R92, R116 step 4). -/

namespace Sys2Proof.Machine

/-! ### The state the walker's share begins in -/

theorem OnlyChanges.drop {b : Block} {bs : List Block} {s t : State} (h : OnlyChanges (b :: bs) s t) (same : sameBlock s t b) :
    OnlyChanges bs s t := by
  intro c other
  by_cases own : c = b
  · exact own ▸ same
  · exact h c (by simp [own, other])

/-- The codes of an outcome wake the walker at most. -/
theorem offerCodes_walk (l : List (BitVec 8)) (g : Seg) (i : EntryIx) (s : State) :
    (offerCodes l g i s).walk = { s.walk with waiting := (offerCodes l g i s).walk.waiting } := by
  induction l generalizing s with
  | nil => rfl
  | cons c l ih =>
    refine (ih (offerBus c (some g) i s)).trans ?_
    obtain same | woken := offerBus_walk c g i s
    · rw [same]
      rfl
    · rw [woken]
      rfl

theorem offerCodes_raises (l : List (BitVec 8)) (g : Seg) (i : EntryIx) (s : State) : OnlyRaises s (offerCodes l g i s) := by
  induction l generalizing s with
  | nil => exact .refl s
  | cons c l ih => exact (OnlyRaises.of_edge (offerBus_aiu c (some g) i s)).trans (ih _)

/-- The Receive FIFO and the attention queue take their share of an outcome; only an OVERRUN offers an attention (R121). -/
theorem outcomeFifo_aiu {o : XOutcome} (fits : o ≠ .overrun) (x : Exchange) (s : State) : (outcomeFifo x o s).aiu = s.aiu := by
  unfold outcomeFifo
  split
  case h_1 => rfl
  case h_2 => exact absurd rfl fits
  case h_3 => rfl

/-- What steps 1 to 3 of R116 leave to the hand-over of an exchange that was not CUT. -/
structure Settles (o : XOutcome) (x : Exchange) (s v : State) : Prop where
  walk : v.walk = { s.walk with waiting := v.walk.waiting }
  raises : o ≠ .overrun → OnlyRaises s v
  only : OnlyChanges [.rx, .table, .aiu, .elog, segBlock x.segment, .walk, .xeng] s v

theorem settledEnd_settles {o : XOutcome} (uncut : o ≠ .cut) (x : Exchange) (s : State) : Settles o x s (settledEnd o x s) := by
  have whole : settledEnd o x s =
      { outcomeLog x o (haltsByStrike x o s) (outcomeFifo x o (outcomeEntry x o s)) with xeng := none } := by
    unfold settledEnd cutStaging
    rw [if_neg uncut]
  have stored : OnlyChanges [.rx, .table, .aiu] s (outcomeFifo x o (outcomeEntry x o s)) :=
    ((outcomeEntry_only x o s).mono (by decide)).trans ((outcomeFifo_only x o _).mono (by decide))
  have logged := outcomeLog_eq_offerCodes x o (haltsByStrike x o s) (outcomeFifo x o (outcomeEntry x o s))
  rw [whole]
  refine ⟨?_, fun fits => ?_, ?_⟩
  · show (outcomeLog x o _ _).walk = _
    rw [logged, offerCodes_walk, stored .walk (by decide)]
  · have before : OnlyRaises s (outcomeFifo x o (outcomeEntry x o s)) :=
      .of_aiu ((outcomeFifo_aiu fits x _).trans (outcomeEntry_only x o s .aiu (by decide)))
    have codes := offerCodes_raises ((trustCode (getSeg (outcomeFifo x o (outcomeEntry x o s)) x.segment).guarded o).toList ++
      if haltsByStrike x o s then [0x10] else []) x.segment x.entry (outcomeFifo x o (outcomeEntry x o s))
    rw [← logged] at codes
    exact before.trans codes
  · refine ((stored.mono (by simp)).trans ((outcomeLog_only x o (haltsByStrike x o s) _).mono (by simp))).trans ?_
    exact (clearEngine_only _).mono (by simp)

theorem Settles.wq {o : XOutcome} {x : Exchange} {s v : State} (h : Settles o x s v) : v.wq = s.wq :=
  h.only .wq (by cases x.segment <;> decide)

theorem Settles.slots {o : XOutcome} {x : Exchange} {s v : State} (h : Settles o x s v) : v.walk.slots = s.walk.slots := by
  rw [h.walk]

theorem Settles.hand {o : XOutcome} {x : Exchange} {s v : State} (h : Settles o x s v) : v.walk.hand = s.walk.hand := by
  rw [h.walk]

theorem Settles.seq {o : XOutcome} {x : Exchange} {s v : State} (h : Settles o x s v) : v.seq = s.seq :=
  h.only .seq (by cases x.segment <;> decide)

theorem Settles.ctim {o : XOutcome} {x : Exchange} {s v : State} (h : Settles o x s v) : v.ctim = s.ctim :=
  h.only .ctim (by cases x.segment <;> decide)

/-! ### The walker's share -/

/-- The walker's share of the end of a ring exchange. -/
def walkerShare (o : XOutcome) (x : Exchange) (s : State) : State :=
  ringOutcome x o (haltsByStrike x o s) (settledEnd o x s)

/-- The end of an exchange as a row leaves it. -/
def ended (o : XOutcome) (x : Exchange) (s : State) : State := pumpQueue (finish o x s)

theorem finish_of_ring {x : Exchange} (ring : x.direct = false) (o : XOutcome) (s : State) :
    finish o x s = grantFence x.entry (walkerShare o x s) := by
  rw [finish_eq]
  unfold handOver walkerShare
  rw [if_neg (by rw [ring]; exact nofun)]

section
variable {x : Exchange} (ring : x.direct = false) (o : XOutcome) (s : State)
include ring

theorem ended_walk : (ended o x s).walk = (walkerShare o x s).walk := by
  unfold ended
  rw [finish_of_ring ring, pumpQueue_walk]
  exact grantFence_only _ _ .walk (by decide)

theorem ended_items : (ended o x s).wq.items = (walkerShare o x s).wq.items := by
  unfold ended
  rw [finish_of_ring ring, pumpQueue_items, grantFence_only _ _ .wq (by decide)]

theorem ended_reserved : (ended o x s).wq.reserved = (walkerShare o x s).wq.reserved := by
  unfold ended
  rw [finish_of_ring ring, pumpQueue_reserved, grantFence_only _ _ .wq (by decide)]

theorem ended_asked {kind : BitVec 4} {addr : Word} {len : Nat} {reader : Reader}
    (h : asked (walkerShare o x s) kind addr len reader) : asked (ended o x s) kind addr len reader := by
  unfold ended
  rw [finish_of_ring ring]
  refine asked_pumpQueue ?_
  unfold asked
  rw [grantFence_only _ _ .hport (by decide)]
  exact h

end

/-- The turn with the exchange that has just ended counted. -/
def visited (t : Turn) (o : XOutcome) : Turn := { t with made := t.made + 1, last := some o }

/-- The share of a turn that has just been counted, in a controller that is not SEALED. -/
def turnShare (t : Turn) (x : Exchange) (o : XOutcome) (halts : Bool) (v : State) : State :=
  match o with
  | .cut => endTurn t none v
  | .success => succeeded t x v
  | .refused => haltedOut t .refused .refused v
  | _ => if halts then haltedOut t .strikeOut .strikeOut v else unfinished t o v

theorem ringOutcome_of_turn {v : State} {t : Turn} (hand : v.walk.hand = .turn t) (on : v.seq.state ≠ .sealed) (x : Exchange)
    (o : XOutcome) (halts : Bool) : ringOutcome x o halts v = turnShare (visited t o) x o halts v := by
  unfold ringOutcome
  rw [hand]
  dsimp only
  rw [if_neg on]
  cases o <;> rfl

theorem succeeded_raises (t : Turn) (x : Exchange) (s : State) : OnlyRaises s (succeeded t x s) := by
  have queued (a : Advance) : OnlyRaises s (queuePacket t x a s) := by
    unfold queuePacket
    split
    · exact (OnlyRaises.of_aiu (enqueue_aiu _ s)).trans (pumpQueue_raises _)
    · exact .refl s
  unfold succeeded
  dsimp only
  split
  · exact (queued _).trans (.of_aiu (beginConsume_only _ _ _ _ .aiu (by decide)))
  · refine (queued (successAdvance t x (countSoFar t s))).trans (.of_aiu ?_)
    split
    · exact (burstContinue_only _ _ _ .aiu (by decide)).trans (keepSlot_only _ _ _ _ .aiu (by decide))
    · exact (endTurn_only _ _ _ .aiu (by decide)).trans (keepSlot_only _ _ _ _ .aiu (by decide))

theorem ringOutcome_raises (x : Exchange) (o : XOutcome) (halts : Bool) (s : State) : OnlyRaises s (ringOutcome x o halts s) := by
  unfold ringOutcome
  split
  · dsimp only
    split
    · exact .of_aiu rfl
    · split
      · exact .of_aiu (endTurn_only _ _ _ .aiu (by decide))
      · exact succeeded_raises _ x s
      · exact .of_aiu (haltedOut_only _ _ _ _ .aiu (by decide))
      · split
        · exact .of_aiu (haltedOut_only _ _ _ _ .aiu (by decide))
        · exact .of_aiu (unfinished_only _ _ _ .aiu (by decide))
  · exact .refl s

/-- What the end of a ring exchange raises and changes. -/
theorem ended_raises {x : Exchange} (ring : x.direct = false) {o : XOutcome} (uncut : o ≠ .cut) (fits : o ≠ .overrun) (s : State) :
    OnlyRaises s (ended o x s) := by
  unfold ended
  rw [finish_of_ring ring]
  exact (((settledEnd_settles uncut x s).raises fits).trans (ringOutcome_raises x o _ _)).trans
    ((OnlyRaises.of_aiu (grantFence_only _ _ .aiu (by decide))).trans (pumpQueue_raises _))

theorem ended_only {x : Exchange} (ring : x.direct = false) {o : XOutcome} (uncut : o ≠ .cut) (s : State) :
    OnlyChanges [.rx, .table, .xeng, .walk, .wq, .hport, .aiu, .elog, segBlock x.segment] s (ended o x s) := by
  unfold ended
  rw [finish_of_ring ring]
  exact (((settledEnd_settles uncut x s).only.mono (by simp)).trans ((ringOutcome_only x o _ _).mono (by simp [handBlocks]))).trans
    (((grantFence_only _ _).mono (by simp)).trans ((pumpQueue_only _).mono (by simp)))

/-- Only a PULL commits bytes to the Receive FIFO (R120). -/
theorem ended_rx_of_push {x : Exchange} (push : ∀ p, x.request ≠ .pull p) (o : XOutcome) (s : State) : (ended o x s).rx = s.rx :=
  (pumpQueue_rx _).trans (finish_rx_of_none (fun p pull => absurd pull (push p)) s)

/-! ### What a share of the walker comes to -/

/-- The head status write of a visit that ends now. -/
def visitItem (t : Turn) (word : Word) (stop : Option Cause) : WqItem :=
  .status t.addr word t.cls (headEntry t.head) (t.head.w1.getLsbD 2) stop t.head.w0

section
variable {x : Exchange} (ring : x.direct = false) {o : XOutcome} {s w : State} {t : Turn}
include ring

/-- The visit ends with its status write. -/
theorem ended_of_endTurn {stop : Option Cause} (share : walkerShare o x s = endTurn (visited t o) stop w)
    (room : w.wq.items.length < 32) (plain : t.skipping = none) :
    (ended o x s).wq.items = w.wq.items ++ [visitItem t (headStatusWord t.head.w3 (some o) none stop) stop] ∧
      (ended o x s).walk.hand = .nothing ∧ (ended o x s).walk.slots = w.walk.slots := by
  rw [ended_items ring, ended_walk ring, share, endTurn_walk]
  refine ⟨?_, rfl, rfl⟩
  rw [endTurn_visit (visited t o) o stop (.inl room) (Nat.succ_ne_zero _) rfl]
  rw [show (visited t o).skipping = none from plain]
  rfl

/-- The record is fetched again. -/
theorem ended_of_beginConsume {code : RecCode} {count : Nat} (share : walkerShare o x s = beginConsume (visited t o) code count w) :
    (ended o x s).walk.hand = .turn { visited t o with phase := .refetch code count } ∧
      asked (ended o x s) 2 t.record 16 .refetch ∧ (ended o x s).wq.items = w.wq.items ∧
      (ended o x s).walk.slots = w.walk.slots := by
  rw [ended_items ring, ended_walk ring, share]
  exact ⟨rfl, ended_asked ring o s (share ▸ asked_requestRead 2 t.record 16 .refetch w), rfl, rfl⟩

/-- The record is written back, and the head is stopped. -/
theorem ended_of_haltedOut {code : RecCode} {cause : Cause} (share : walkerShare o x s = haltedOut (visited t o) code cause w)
    (room : w.wq.items.length + 2 ≤ 32) (plain : t.skipping = none) :
    (ended o x s).wq.items = w.wq.items ++ [recordItem t code (countSoFar t w),
        visitItem t (headStatusWord t.head.w3 (some o) none (some cause)) (some cause)] ∧
      (ended o x s).walk.hand = .nothing ∧ (ended o x s).walk.slots = w.walk.slots := by
  have joined := enqueue_items_of_room (s := w) (recordItem (visited t o) code (countSoFar (visited t o) w)) (.inl (by omega))
  obtain ⟨items, hand, slots⟩ := ended_of_endTurn ring (t := t) share (by rw [joined]; simp; omega) plain
  refine ⟨?_, hand, slots.trans (congrArg Walker.slots (enqueue_walk _ w))⟩
  rw [items, joined]
  exact List.append_assoc _ _ _

/-- The burst waits for its next exchange. -/
theorem ended_of_burst {n : Nat} (share : walkerShare o x s =
      wakeWalker (setHand (.turn { visited t o with phase := .burstReady }) (reserve n w))) :
    (ended o x s).walk.hand = .turn { visited t o with phase := .burstReady } ∧ (ended o x s).walk.waiting = false ∧
      (ended o x s).wq.reserved = w.wq.reserved + n ∧ (ended o x s).wq.items = w.wq.items ∧
      (ended o x s).walk.slots = w.walk.slots := by
  rw [ended_items ring, ended_walk ring, ended_reserved ring, share]
  exact ⟨rfl, rfl, rfl, rfl, rfl⟩

end

/-! ### The tests of a burst that goes on (R97) -/

/-- An outcome that is no strike offers nothing to the Bus Log (R112, R114). -/
theorem outcomeLog_of_quiet {o : XOutcome} (quiet : strikes o = false) (x : Exchange) (s v : State) :
    outcomeLog x o (haltsByStrike x o s) v = v := by
  have halts : haltsByStrike x o s = false := by simp [haltsByStrike, strikesHalt, quiet]
  have code : trustCode (getSeg v x.segment).guarded o = none := by cases o <;> first | rfl | cases quiet
  unfold outcomeLog
  rw [code, halts]
  exact if_neg Bool.false_ne_true

theorem settledEnd_quiet_only {o : XOutcome} (quiet : strikes o = false) (uncut : o ≠ .cut) (x : Exchange) (s : State) :
    OnlyChanges [.rx, .table, .aiu, .xeng] s (settledEnd o x s) := by
  have whole : settledEnd o x s = { outcomeFifo x o (outcomeEntry x o s) with xeng := none } := by
    unfold settledEnd cutStaging
    rw [if_neg uncut, outcomeLog_of_quiet quiet]
  rw [whole]
  exact ((outcomeEntry_only x o s).mono (by decide)).trans (((outcomeFifo_only x o _).mono (by decide)).trans
    ((clearEngine_only _).mono (by decide)))

/-- A SUCCESS or a DUPLICATE leaves everything the tests of R83 look at. -/
theorem passesTests_settledEnd {o : XOutcome} (good : o = .success ∨ o = .duplicate) {x : Exchange} {s : State} {c : RingClass}
    {h : Rec} (passes : passesTests s c h) : passesTests (settledEnd o x s) c h := by
  have uncut : o ≠ .cut := by obtain rfl | rfl := good <;> exact nofun
  have quiet : strikes o = false := by obtain rfl | rfl := good <;> rfl
  have kept := settledEnd_quiet_only quiet uncut x s
  have seg (g : Seg) : getSeg (settledEnd o x s) g = getSeg s g := getSeg_of_only kept (by cases g <;> decide)
  have pending (a : Word) : recordPending (settledEnd o x s) a = recordPending s a := by
    unfold recordPending
    rw [kept .wq (by decide)]
  have rules (e : Entry) : entryByRules x.request o e = { e with
      seqOut := (entryByRules x.request o e).seqOut, seqIn := (entryByRules x.request o e).seqIn,
      strikesOut := (entryByRules x.request o e).strikesOut, strikesIn := (entryByRules x.request o e).strikesIn,
      doneCount := (entryByRules x.request o e).doneCount } := by
    obtain rfl | rfl := good <;> cases x.request <;> rfl
  unfold passesTests at passes ⊢
  dsimp only at passes ⊢
  rw [getEntry_settledEnd, seg, pending]
  split
  · rw [rules]
    exact passes
  · exact passes

end Sys2Proof.Machine
end

section
/-! SUPPORT. What the outcome of a PUSH, a NUDGE or an OPEN does to its record and head (R82, R86, R92, R94, R97): the settlement of O45. -/

namespace Sys2Proof.Machine

/-! ### The rows that end an exchange -/

/-- The row `ev` ends the exchange `x` with outcome `o`; only the cut-off moves the countdown first. -/
def RowEnds (ev : Instr) (o : XOutcome) (x : Exchange) (s : State) : Prop :=
  ∃ c : CycleTimer, c.number = s.ctim.number ∧ (ev ≠ .cycleEndCutoff → c = s.ctim) ∧
    exec ev s = .next (ended o x { s with ctim := c })

theorem rowEnds_of_timeout {s : State} (out : awake s) {x : Exchange} (busy : s.xeng = some x) (window : x.phase = .window) :
    RowEnds .replyTimeout .silence x s := ⟨s.ctim, rfl, fun _ => rfl, exec_replyTimeout out busy window⟩

theorem rowEnds_of_cutoff {s : State} (out : awake s) {x : Exchange} (busy : s.xeng = some x) (on : s.seq.state ≠ .offline)
    (receiving : x.phase = .receiving) : RowEnds .cycleEndCutoff .overlong x s := by
  refine ⟨{ s.ctim with remain := 0 }, rfl, fun other => absurd rfl other, (exec_cycleEndCutoff out on busy).trans ?_⟩
  rw [cutoff_of_phase (by exact busy), receiving]
  rfl

theorem rowEnds_of_reply {s : State} (out : awake s) {x : Exchange} (busy : s.xeng = some x) (receiving : x.phase = .receiving)
    {sent : Frame} (begun : x.frame = some sent) {r : Reply} (notDue : acceptDue x.request (classByRules x sent r) = false) :
    RowEnds (.replyEnd r) (classByRules x sent r) x s := by
  refine ⟨s.ctim, rfl, fun _ => rfl, (exec_replyEnd out busy receiving begun r).trans ?_⟩
  rw [if_neg (by rw [notDue]; exact nofun)]
  rfl

theorem rowEnds_of_accept {s : State} (out : awake s) {x : Exchange} (busy : s.xeng = some x) (accepting : x.phase = .accepting)
    {o : XOutcome} {f : Frame} (answered : x.accept = some (o, f)) : RowEnds .acceptSent o x s :=
  ⟨s.ctim, rfl, fun _ => rfl, exec_acceptSent out busy accepting answered⟩

/-- The countdown of the cut-off apart, a row changes what the end of the exchange changes. -/
theorem only_of_row {ev : Instr} {s u : State} {c : CycleTimer} {bs : List Block} (same : ev ≠ .cycleEndCutoff → c = s.ctim)
    (h : OnlyChanges bs { s with ctim := c } u) : OnlyChanges ((if ev = .cycleEndCutoff then [Block.ctim] else []) ++ bs) s u := by
  have first : OnlyChanges (if ev = .cycleEndCutoff then [Block.ctim] else []) s { s with ctim := c } := by
    intro b other
    by_cases own : b = .ctim
    · subst own
      refine same fun cut => other ?_
      rw [if_pos cut]
      decide
    · cases b <;> first | rfl | exact absurd rfl own
  exact (first.mono fun _ => List.mem_append_left _).trans (h.mono fun _ => List.mem_append_right _)

/-! ### The record -/

theorem countSoFar_of_progress {s v : State} {t : Turn} {g : Nat} (at' : atProgress s t g) (slots : v.walk.slots = s.walk.slots) :
    countSoFar t v = g := by
  obtain ⟨-, own, tail, slot⟩ := at'
  have found : slotFor v (headEntry t.head) t.head.w2 (recKind t.seg) =
      some { record := t.record, kind := recKind t.seg, progress := g, tailOnly := tail } := by
    unfold slotFor
    rw [getSlot_of_same slots, slot]
    simp [own]
  unfold countSoFar progressOf
  rw [found]

/-- The receive packet a SUCCESS queues first (R125): marked if the record completes and ends a transfer. -/
def packetItems (t : Turn) (x : Exchange) (a : Advance) (s : State) : List WqItem :=
  match x.request with
  | .pull _ => [.packet x.data.length x.entry t.cls (s.ctim.number.extractLsb' 0 16)
      (match a with | .completes _ _ => t.seg.w2.getLsbD 2 | .stays _ _ => false)]
  | _ => []

theorem packetItems_of_pull {x : Exchange} {p : Nat} (pull : x.request = .pull p) (t : Turn) (a : Advance) (s : State) :
    packetItems t x a s = [.packet x.data.length x.entry t.cls (s.ctim.number.extractLsb' 0 16)
      (match a with | .completes _ _ => t.seg.w2.getLsbD 2 | .stays _ _ => false)] := by
  unfold packetItems
  rw [pull]

theorem packetItems_of_push {x : Exchange} (push : ∀ p, x.request ≠ .pull p) (t : Turn) (a : Advance) (s : State) :
    packetItems t x a s = [] := by
  unfold packetItems
  split
  case h_1 p pull => exact absurd pull (push p)
  case h_2 => rfl

theorem packetItems_length (t : Turn) (x : Exchange) (a : Advance) (s : State) : (packetItems t x a s).length ≤ 1 := by
  unfold packetItems
  split
  · exact Nat.le_refl 1
  · exact Nat.zero_le 1

/-- What the packet's place in the queue leaves. -/
theorem queuePacket_items (t : Turn) (x : Exchange) (a : Advance) {s : State} (room : s.wq.items.length < 32) :
    (queuePacket t x a s).wq.items = s.wq.items ++ packetItems t x a s := by
  unfold queuePacket
  split
  case h_1 p pull =>
    rw [pumpQueue_items, enqueue_items_of_room _ (.inl room), packetItems_of_pull pull]
    rfl
  case h_2 push => rw [packetItems_of_push push, List.append_nil]

theorem recordPending_queuePacket (t : Turn) (x : Exchange) (a : Advance) {s : State} (room : s.wq.items.length < 32) (record : Word) :
    recordPending (queuePacket t x a s) record = recordPending s record := by
  unfold recordPending
  rw [queuePacket_items t x a room, List.any_append]
  unfold packetItems
  split
  · simp
  · simp

theorem succeeded_of_completes {t : Turn} {x : Exchange} {s : State} {code : RecCode} {count : Nat}
    (advance : successAdvance t x (countSoFar t s) = .completes code count) :
    succeeded t x s = beginConsume t code count (queuePacket t x (.completes code count) s) := by
  unfold succeeded
  rw [advance]

theorem succeeded_of_stays {t : Turn} {x : Exchange} {s : State} {progress : Nat} {tailOnly : Bool}
    (advance : successAdvance t x (countSoFar t s) = .stays progress tailOnly) :
    succeeded t x s = if t.cls = .bulk
      then burstContinue t true (keepSlot t progress tailOnly (queuePacket t x (.stays progress tailOnly) s))
      else endTurn t none (keepSlot t progress tailOnly (queuePacket t x (.stays progress tailOnly) s)) := by
  unfold succeeded
  rw [advance]

theorem getSlot_keepSlot {t : Turn} (real : headEntry t.head ≠ 0) (g : Nat) (tailOnly : Bool) (s : State) :
    getSlot (keepSlot t g tailOnly s) (headEntry t.head) =
      some { record := t.record, kind := recKind t.seg, progress := g, tailOnly := tailOnly } :=
  getSlot_setSlot_same real _ s

/-- A burst that stays with its record and passes every test of R97 waits for its next exchange. -/
theorem burstContinue_of_same {t : Turn} {s : State} (opened : burstOpen s = true) (more : t.made < headBurst t.head + 1)
    (link : t.head.w2 ≠ 0) (test : testEntry s t.cls t.head = .work) (room : s.wq.items.length + 4 ≤ 32) :
    burstContinue t true s =
      wakeWalker (setHand (.turn { t with phase := .burstReady }) (reserve (4 - s.wq.reserved) s)) := by
  unfold burstContinue
  rw [if_pos ⟨opened, more, link⟩, test, topUp_of_room room]
  exact if_pos rfl

theorem passesTests_congr {s t : State} {c : RingClass} {h : Rec} (table : t.table = s.table) (a : t.segA = s.segA)
    (b : t.segB = s.segB) (pending : recordPending t h.w2 = recordPending s h.w2) (passes : passesTests s c h) :
    passesTests t c h := by
  rw [← workTest_iff] at passes ⊢
  unfold workTest at passes ⊢
  rw [testEntry_congr table a b pending]
  exact passes

/-- The tests of R97 of a burst whose slot has just been kept. -/
theorem burst_keepSlot {t : Turn} {s : State} {g : Nat} {tailOnly : Bool} (opened : burstOpen s = true)
    (more : t.made < headBurst t.head + 1) (passes : passesTests s t.cls t.head) (room : s.wq.items.length + 4 ≤ 32) :
    burstContinue t true (keepSlot t g tailOnly s) = wakeWalker (setHand (.turn { t with phase := .burstReady })
      (reserve (4 - s.wq.reserved) (keepSlot t g tailOnly s))) := by
  have kept := keepSlot_only t g tailOnly s
  have wq : (keepSlot t g tailOnly s).wq = s.wq := kept .wq (by decide)
  obtain ⟨-, -, link, -⟩ := id passes
  rw [burstContinue_of_same ?_ more link ?_ (by rw [wq]; exact room), wq]
  · obtain ⟨window, over'⟩ := setSlot_window (headEntry t.head)
      (some { record := t.record, kind := recKind t.seg, progress := g, tailOnly := tailOnly }) s
    rw [burstOpen_iff] at opened ⊢
    rw [kept .seq (by decide), show (keepSlot t g tailOnly s).walk.window = _ from window,
      show (keepSlot t g tailOnly s).walk.turnOver = _ from over']
    exact opened
  · rw [testEntry_congr (s := s) (kept .table (by decide)) (kept .segA (by decide)) (kept .segB (by decide))]
    · exact testEntry_of_passes passes
    · unfold recordPending
      rw [wq]

/-! ### Which share the walker takes -/

theorem strikes_iff (o : XOutcome) : strikes o = true ↔
    (o = .silence ∨ o = .corrupt ∨ o = .garbled ∨ o = .overlong ∨ o = .unsolicited) := by
  cases o <;> simp [strikes]

theorem haltsByStrike_out {x : Exchange} (push : (∃ n, x.request = .push n) ∨ x.request = .open) (o : XOutcome) (s : State) :
    haltsByStrike x o s = true ↔
      strikes o = true ∧ struck (getEntry s x.entry).strikesOut = 3 ∧ x.rewritten = false := by
  have counter : strikesHalt x.request o (getEntry s x.entry) =
      (strikes o && (struck (getEntry s x.entry).strikesOut == 3)) := by
    unfold strikesHalt
    obtain ⟨n, request⟩ | request := push <;> rw [request] <;> dsimp only <;> rw [strikeOnce_eq_struck]
  unfold haltsByStrike
  rw [counter]
  simp only [Bool.and_eq_true, Bool.not_eq_true', beq_iff_eq]
  tauto

section
variable {s : State} {t : Turn} (hand : s.walk.hand = .turn t) (on : s.seq.state ≠ .sealed) (x : Exchange)
include hand on

theorem share_of_turn {o : XOutcome} (uncut : o ≠ .cut) :
    walkerShare o x s = turnShare (visited t o) x o (haltsByStrike x o s) (settledEnd o x s) := by
  have settles := settledEnd_settles uncut x s
  exact ringOutcome_of_turn (settles.hand.trans hand) (by rw [settles.seq]; exact on) x o _

theorem share_of_success {o : XOutcome} (ok : o = .success) :
    walkerShare o x s = succeeded (visited t o) x (settledEnd o x s) := by
  subst ok
  exact share_of_turn hand on x nofun

theorem share_of_refused {o : XOutcome} (refused : o = .refused) :
    walkerShare o x s = haltedOut (visited t o) .refused .refused (settledEnd o x s) := by
  subst refused
  exact share_of_turn hand on x nofun

theorem share_of_halt {o : XOutcome} (strike : strikes o = true) (halts : haltsByStrike x o s = true) :
    walkerShare o x s = haltedOut (visited t o) .strikeOut .strikeOut (settledEnd o x s) := by
  rw [share_of_turn hand on x (by rintro rfl; cases strike), halts]
  cases o <;> first | rfl | cases strike

/-- Every outcome that neither finishes nor stops anything leaves the record unfinished. -/
theorem share_of_unfinished {o : XOutcome}
    (other : o = .deferred ∨ o = .duplicate ∨ o = .overrun ∨ (strikes o = true ∧ haltsByStrike x o s = false)) :
    walkerShare o x s = unfinished (visited t o) o (settledEnd o x s) := by
  have still : haltsByStrike x o s = false := by
    obtain rfl | rfl | rfl | ⟨-, still⟩ := other
    · exact Bool.and_false _
    · exact Bool.and_false _
    · exact Bool.and_false _
    · exact still
  rw [share_of_turn hand on x (by rintro rfl; obtain h | h | h | ⟨h, -⟩ := other <;> cases h), still]
  cases o <;> first | rfl | (obtain h | h | h | ⟨h, -⟩ := other <;> cases h)

end

theorem unfinished_of_stream {t : Turn} (stream : t.cls = .stream) (o : XOutcome) (s : State) :
    unfinished t o s = beginConsume t .missed 0 s := if_pos stream

/-- Outside STREAM the visit ends, but for a DUPLICATE of a burst with exchanges left (R97). -/
theorem unfinished_of_other {t : Turn} {o : XOutcome} (other : t.cls ≠ .stream)
    (last : o = .duplicate → t.cls = .bulk → headBurst t.head + 1 ≤ t.made) (s : State) : unfinished t o s = endTurn t none s := by
  unfold unfinished
  rw [if_neg other]
  split
  case isTrue burst => exact burstContinue_of_closed (fun h => absurd h.2.1 (Nat.not_lt.mpr (last burst.1 burst.2))) true
  case isFalse => rfl

/-- A ring exchange `x` of the turn `t` is on the bus, in a controller that is not SEALED. -/
structure InTurn (x : Exchange) (t : Turn) (s : State) : Prop where
  ring : x.direct = false
  hand : s.walk.hand = .turn t
  on : s.seq.state ≠ .sealed

/-- The record is fetched again to be consumed. -/
structure Refetches (t : Turn) (o : XOutcome) (code : RecCode) (count : Nat) (s u : State) : Prop where
  hand : u.walk.hand = .turn { t with made := t.made + 1, last := some o, phase := .refetch code count }
  read : asked u 2 t.record 16 .refetch

/-- The visit ends with its status write behind the items `before`. -/
def VisitEnds (t : Turn) (o : XOutcome) (stop : Option Cause) (before : List WqItem) (s u : State) : Prop :=
  ∃ word, u.wq.items = s.wq.items ++ (before ++ [visitItem t word stop]) ∧ visitWord t o stop word ∧ u.walk.hand = .nothing

/-- The burst waits for its next exchange. -/
structure BurstWaits (t : Turn) (o : XOutcome) (u : State) : Prop where
  hand : u.walk.hand = .turn { t with made := t.made + 1, last := some o, phase := .burstReady }
  waiting : u.walk.waiting = false
  reserved : 4 ≤ u.wq.reserved

theorem kept_items (t : Turn) (x : Exchange) (s : State) (p : Nat) (tailOnly : Bool) (room : s.wq.items.length < 32) :
    (keepSlot (visited t .success) p tailOnly
        (queuePacket (visited t .success) x (.stays p tailOnly) (settledEnd .success x s))).wq.items =
      s.wq.items ++ packetItems t x (.stays p tailOnly) s := by
  have settles := settledEnd_settles (o := .success) nofun x s
  rw [keepSlot_only _ _ _ _ .wq (by decide), queuePacket_items _ _ _ (by rw [settles.wq]; exact room), settles.wq]
  unfold packetItems
  rw [settles.ctim]
  rfl

section
variable {x : Exchange} {t : Turn} {s : State} (turn : InTurn x t s)
include turn

/-- A SUCCESS that finishes the record. -/
theorem ended_of_completes {g : Nat} (progress : atProgress s t g) (room : s.wq.items.length < 32) {code : RecCode} {count : Nat}
    (advance : successAdvance t x g = .completes code count) :
    Refetches t .success code count s (ended .success x s) ∧
      (ended .success x s).wq.items = s.wq.items ++ packetItems t x (.completes code count) s := by
  have settles := settledEnd_settles (o := .success) nofun x s
  have share : walkerShare .success x s = beginConsume (visited t .success) code count
      (queuePacket (visited t .success) x (.completes code count) (settledEnd .success x s)) := by
    rw [share_of_success turn.hand turn.on x rfl]
    refine succeeded_of_completes ?_
    rw [show countSoFar (visited t .success) (settledEnd .success x s) = g from countSoFar_of_progress progress settles.slots]
    exact advance
  obtain ⟨hand, read, items, -⟩ := ended_of_beginConsume turn.ring share
  refine ⟨⟨hand, read⟩, items.trans ?_⟩
  rw [queuePacket_items _ _ _ (by rw [settles.wq]; exact room), settles.wq]
  unfold packetItems
  rw [settles.ctim]
  rfl

/-- A SUCCESS that leaves the record current, for the hand-over. -/
theorem share_of_stays {g p : Nat} {tailOnly : Bool} (progress : atProgress s t g)
    (advance : successAdvance t x g = .stays p tailOnly) :
    walkerShare .success x s = if t.cls = .bulk
      then burstContinue (visited t .success) true (keepSlot (visited t .success) p tailOnly
        (queuePacket (visited t .success) x (.stays p tailOnly) (settledEnd .success x s)))
      else endTurn (visited t .success) none (keepSlot (visited t .success) p tailOnly
        (queuePacket (visited t .success) x (.stays p tailOnly) (settledEnd .success x s))) := by
  have settles := settledEnd_settles (o := .success) nofun x s
  rw [share_of_success turn.hand turn.on x rfl]
  refine succeeded_of_stays ?_
  rw [show countSoFar (visited t .success) (settledEnd .success x s) = g from countSoFar_of_progress progress settles.slots]
  exact advance

/-- A SUCCESS that leaves the record current ends the visit, in BULK after the burst's last exchange. -/
theorem ended_of_stays {g p : Nat} {tailOnly : Bool} (plain : t.skipping = none) (progress : atProgress s t g) (room : s.wq.items.length + 2 ≤ 32)
    (advance : successAdvance t x g = .stays p tailOnly) (last : t.cls = .bulk → headBurst t.head + 1 ≤ t.made + 1) :
    VisitEnds t .success none (packetItems t x (.stays p tailOnly) s) s (ended .success x s) ∧
      getSlot (ended .success x s) (headEntry t.head) =
        some { record := t.record, kind := recKind t.seg, progress := p, tailOnly := tailOnly } := by
  have share := share_of_stays turn progress advance
  have over' : walkerShare .success x s = endTurn (visited t .success) none (keepSlot (visited t .success) p tailOnly
      (queuePacket (visited t .success) x (.stays p tailOnly) (settledEnd .success x s))) := by
    rw [share]
    split
    case isTrue bulk => exact burstContinue_of_closed (fun h => absurd h.2.1 (Nat.not_lt.mpr (last bulk))) true
    case isFalse => rfl
  have kept := kept_items t x s p tailOnly (by omega)
  have one := packetItems_length t x (.stays p tailOnly) s
  obtain ⟨items, hand, slots⟩ := ended_of_endTurn turn.ring over' (by rw [kept, List.length_append]; omega) plain
  refine ⟨⟨_, ?_, visitWord_headStatusWord t .success none, hand⟩, ?_⟩
  · rw [items, kept, List.append_assoc]
  · exact (getSlot_of_same slots _).trans (getSlot_keepSlot (t := visited t .success) progress.1 _ _ _)

/-- A burst that passes every test of R97 goes on after a SUCCESS that leaves its record current. -/
theorem ended_of_burst_stays {g p : Nat} {tailOnly : Bool} (progress : atProgress s t g)
    (advance : successAdvance t x g = .stays p tailOnly) (bulk : t.cls = .bulk) (opened : burstOpen s = true)
    (passes : passesTests s .bulk t.head) (more : t.made + 1 < headBurst t.head + 1)
    (room : s.wq.items.length + (packetItems t x (.stays p tailOnly) s).length + 4 ≤ 32) :
    BurstWaits t .success (ended .success x s) ∧
      (ended .success x s).wq.items = s.wq.items ++ packetItems t x (.stays p tailOnly) s ∧
      getSlot (ended .success x s) (headEntry t.head) =
        some { record := t.record, kind := recKind t.seg, progress := p, tailOnly := tailOnly } := by
  have settles := settledEnd_settles (o := .success) nofun x s
  have share := share_of_stays turn progress advance
  rw [if_pos bulk] at share
  have items := kept_items t x s p tailOnly (by omega)
  have queued := queuePacket_only (visited t .success) x (.stays p tailOnly) (settledEnd .success x s)
  rw [burst_keepSlot ?_ more ?_ ?_] at share
  · obtain ⟨hand, waiting, reserved, joined, slots⟩ := ended_of_burst turn.ring share
    refine ⟨⟨hand, waiting, ?_⟩, joined.trans items,
      (getSlot_of_same slots _).trans (getSlot_keepSlot (t := visited t .success) progress.1 _ _ _)⟩
    rw [reserved, keepSlot_only _ _ _ _ .wq (by decide)]
    omega
  · rw [burstOpen_iff] at opened ⊢
    rw [queued .seq (by decide), queued .walk (by decide), settles.walk, settles.seq]
    exact opened
  · refine passesTests_congr (queued .table (by decide)) (queued .segA (by decide)) (queued .segB (by decide))
      (recordPending_queuePacket _ _ _ (by rw [settles.wq]; omega) _) ?_
    rw [show (visited t .success).cls = .bulk from bulk]
    exact passesTests_settledEnd (.inl rfl) passes
  · rw [keepSlot_only _ _ _ _ .wq (by decide)] at items
    rw [items, List.length_append]
    exact room

/-- A REFUSED, or a strike that halts the entry, stops the head. -/
theorem ended_of_stop {o : XOutcome} {code : RecCode} {cause : Cause} {g : Nat} (plain : t.skipping = none) (uncut : o ≠ .cut)
    (share : walkerShare o x s = haltedOut (visited t o) code cause (settledEnd o x s)) (progress : atProgress s t g)
    (room : s.wq.items.length + 2 ≤ 32) :
    VisitEnds t o (some cause) [recordItem t code g] s (ended o x s) ∧ ∀ i, getSlot (ended o x s) i = getSlot s i := by
  have settles := settledEnd_settles uncut x s
  obtain ⟨items, hand, slots⟩ := ended_of_haltedOut turn.ring share (by rw [settles.wq]; exact room) plain
  rw [countSoFar_of_progress progress settles.slots, settles.wq] at items
  exact ⟨⟨_, items, visitWord_headStatusWord t o (some cause), hand⟩, getSlot_of_same (slots.trans settles.slots)⟩

theorem ended_of_refused {g : Nat} (plain : t.skipping = none) (progress : atProgress s t g) (room : s.wq.items.length + 2 ≤ 32) :
    VisitEnds t .refused (some .refused) [recordItem t .refused g] s (ended .refused x s) ∧
      ∀ i, getSlot (ended .refused x s) i = getSlot s i :=
  ended_of_stop turn plain nofun (share_of_refused turn.hand turn.on x rfl) progress room

theorem ended_of_halt {o : XOutcome} {g : Nat} (plain : t.skipping = none) (strike : strikes o = true) (halts : haltsByStrike x o s = true)
    (progress : atProgress s t g) (room : s.wq.items.length + 2 ≤ 32) :
    VisitEnds t o (some .strikeOut) [recordItem t .strikeOut g] s (ended o x s) ∧
      ∀ i, getSlot (ended o x s) i = getSlot s i :=
  ended_of_stop turn plain (by rintro rfl; cases strike) (share_of_halt turn.hand turn.on x strike halts) progress room

/-- An outcome that leaves the record unfinished ends the visit. -/
theorem ended_of_unfinished {o : XOutcome} (plain : t.skipping = none)
    (unfinished' : o = .deferred ∨ o = .duplicate ∨ o = .overrun ∨ (strikes o = true ∧ haltsByStrike x o s = false))
    (other : t.cls ≠ .stream) (last : o = .duplicate → t.cls = .bulk → headBurst t.head + 1 ≤ t.made + 1)
    (room : s.wq.items.length < 32) :
    VisitEnds t o none [] s (ended o x s) ∧ ∀ i, getSlot (ended o x s) i = getSlot s i := by
  have uncut : o ≠ .cut := by rintro rfl; obtain h | h | h | ⟨h, -⟩ := unfinished' <;> cases h
  have settles := settledEnd_settles uncut x s
  have share := share_of_unfinished turn.hand turn.on x unfinished'
  rw [unfinished_of_other (t := visited t o) other last] at share
  obtain ⟨items, hand, slots⟩ := ended_of_endTurn turn.ring share (by rw [settles.wq]; exact room) plain
  rw [settles.wq] at items
  exact ⟨⟨_, items, visitWord_headStatusWord t o none, hand⟩, getSlot_of_same (slots.trans settles.slots)⟩

/-- A STREAM record that an outcome leaves unfinished is fetched again to complete MISSED (R94). -/
theorem ended_of_missed {o : XOutcome}
    (unfinished' : o = .deferred ∨ o = .duplicate ∨ o = .overrun ∨ (strikes o = true ∧ haltsByStrike x o s = false))
    (stream : t.cls = .stream) : Refetches t o .missed 0 s (ended o x s) ∧ (ended o x s).wq.items = s.wq.items := by
  have uncut : o ≠ .cut := by rintro rfl; obtain h | h | h | ⟨h, -⟩ := unfinished' <;> cases h
  have settles := settledEnd_settles uncut x s
  have share := share_of_unfinished turn.hand turn.on x unfinished'
  rw [unfinished_of_stream (t := visited t o) stream] at share
  obtain ⟨hand, read, items, -⟩ := ended_of_beginConsume turn.ring share
  exact ⟨⟨hand, read⟩, items.trans (by rw [settles.wq])⟩

/-- A DUPLICATE does not end a burst that passes every test of R97. -/
theorem ended_of_duplicate (bulk : t.cls = .bulk) (opened : burstOpen s = true) (passes : passesTests s .bulk t.head)
    (more : t.made + 1 < headBurst t.head + 1) (room : s.wq.items.length + 4 ≤ 32) :
    BurstWaits t .duplicate (ended .duplicate x s) ∧ (ended .duplicate x s).wq.items = s.wq.items ∧
      ∀ i, getSlot (ended .duplicate x s) i = getSlot s i := by
  have settles := settledEnd_settles (o := .duplicate) nofun x s
  have share := share_of_unfinished turn.hand turn.on x (.inr (.inl rfl))
  obtain ⟨-, -, link, -⟩ := id passes
  have goes : unfinished (visited t .duplicate) .duplicate (settledEnd .duplicate x s) =
      burstContinue (visited t .duplicate) true (settledEnd .duplicate x s) := by
    unfold unfinished
    rw [if_neg (by rw [show (visited t .duplicate).cls = .bulk from bulk]; exact nofun), if_pos ⟨rfl, bulk⟩]
  rw [goes, burstContinue_of_same (t := visited t .duplicate) ?_ more link ?_ (by rw [settles.wq]; exact room)] at share
  · obtain ⟨hand, waiting, reserved, items, slots⟩ := ended_of_burst turn.ring share
    refine ⟨⟨hand, waiting, ?_⟩, items.trans (by rw [settles.wq]), getSlot_of_same (slots.trans settles.slots)⟩
    rw [reserved]
    omega
  · rw [burstOpen_iff] at opened ⊢
    rw [settles.walk, settles.seq]
    exact opened
  · rw [show (visited t .duplicate).cls = .bulk from bulk]
    exact testEntry_of_passes (passesTests_settledEnd (.inr rfl) passes)

end

/-! ### The advance of a PUSH (R86) -/

/-- A zero-length tail follows the last data packet (R86). -/
def tailFollows (t : Turn) (p : Nat) : Prop :=
  0 < recLength t.seg ∧ recLength t.seg % p = 0 ∧ t.seg.w2.getLsbD 2 = true ∧ t.seg.w2.getLsbD 3 = false

theorem needsTail_iff {t : Turn} (kind : recKind t.seg = .push) (other : t.cls ≠ .stream) (p : Nat) :
    needsTail t.cls p t.seg = true ↔ tailFollows t p := by
  unfold needsTail tailFollows recEnd recExact bitAt
  simp [kind, other, and_assoc]

theorem pushLength_of_push {r : Rec} (kind : recKind r = .push) : pushLength r = recLength r := by
  unfold pushLength
  rw [kind]

theorem pushAdvance_stays {t : Turn} {x : Exchange} {n g : Nat} (kind : recKind t.seg = .push) (other : t.cls ≠ .stream)
    (data : x.tail = false) (more : g + n < recLength t.seg ∨ tailFollows t x.maxPayload) :
    pushAdvance t x n g = .stays (g + n) (decide (recLength t.seg ≤ g + n)) := by
  unfold pushAdvance
  rw [if_neg other, data, if_neg Bool.false_ne_true, pushLength_of_push kind]
  by_cases finished : recLength t.seg ≤ g + n
  · rw [if_pos finished, if_pos ((needsTail_iff kind other _).mpr (more.resolve_left (Nat.not_lt.mpr finished))), decide_eq_true finished]
  · rw [if_neg finished, decide_eq_false finished]

theorem pushAdvance_completes {t : Turn} {x : Exchange} {n g : Nat} (kind : recKind t.seg = .push) (other : t.cls ≠ .stream)
    (data : x.tail = false) (finished : recLength t.seg ≤ g + n) (bare : ¬tailFollows t x.maxPayload) :
    pushAdvance t x n g = .completes .ok (g + n) := by
  unfold pushAdvance
  rw [if_neg other, data, if_neg Bool.false_ne_true, pushLength_of_push kind, if_pos finished, if_neg]
  rw [needsTail_iff kind other]
  exact bare

theorem pushAdvance_stream {t : Turn} (kind : recKind t.seg = .push) (stream : t.cls = .stream) (x : Exchange) (n g : Nat) :
    pushAdvance t x n g = .completes .ok (recLength t.seg) := by
  unfold pushAdvance
  rw [if_pos stream, pushLength_of_push kind]

theorem pushAdvance_tail {t : Turn} {x : Exchange} (other : t.cls ≠ .stream) (tail : x.tail = true) (n g : Nat) :
    pushAdvance t x n g = .completes .ok g := by
  unfold pushAdvance
  rw [if_neg other, tail, if_pos rfl]

theorem successAdvance_push {t : Turn} {x : Exchange} {n : Nat} (request : x.request = .push n) (g : Nat) :
    successAdvance t x g = pushAdvance t x n g := by
  unfold successAdvance
  rw [request]

theorem successAdvance_open {t : Turn} {x : Exchange} (request : x.request = .open) (g : Nat) :
    successAdvance t x g = .completes .ok 8 := by
  unfold successAdvance
  rw [request]

/-- Settles O45: the outcome gives the walker its share, and the advance of a PUSH says what a SUCCESS makes of the record. -/
theorem pushOutcomesMoveTheRecord : Obligations.PushOutcomesMoveTheRecord := by
  intro s x t n g ev o out busy ring hand on kinds progress plain room rows len data tail status strike halts frame refetches stops advanced
  have out' : (∃ m, x.request = .push m) ∨ x.request = .open := by
    obtain ⟨request, -⟩ | ⟨request, -⟩ | ⟨request, -⟩ := kinds
    · exact .inl ⟨n, request⟩
    · exact .inl ⟨n, request⟩
    · exact .inr request
  have noPull (p : Nat) : x.request ≠ .pull p := by
    obtain ⟨m, request⟩ | request := out' <;> rw [request] <;> exact nofun
  have notDue (o : XOutcome) : acceptDue x.request o = false := by
    obtain ⟨m, request⟩ | request := out' <;> rw [request] <;> rfl
  have row : RowEnds ev o x s := by
    obtain ⟨rfl, window, rfl⟩ | ⟨rfl, live, receiving, rfl⟩ | ⟨r, sent, rfl, receiving, begun, rfl⟩ := rows
    · exact rowEnds_of_timeout out busy window
    · exact rowEnds_of_cutoff out busy live receiving
    · exact rowEnds_of_reply out busy receiving begun (notDue _)
  clear rows
  obtain ⟨c, -, same, row⟩ := row
  have turn : InTurn x t { s with ctim := c } := ⟨ring, hand, on⟩
  have at' : atProgress { s with ctim := c } t g := progress
  have framed (uncut : o ≠ .cut) (fits : o ≠ .overrun) : frame (ended o x { s with ctim := c }) :=
    ⟨ended_raises ring uncut fits { s with ctim := c },
      only_of_row same ((ended_only ring uncut _).drop (ended_rx_of_push noPull o _))⟩
  have none' (a : Advance) : packetItems t x a { s with ctim := c } = [] := packetItems_of_push noPull t a _
  have pushed (kind : recKind t.seg = .push) : x.request = .push n := by
    obtain ⟨request, -⟩ | ⟨request, -⟩ | ⟨-, -, opens⟩ := kinds
    · exact request
    · exact request
    · cases opens.symm.trans kind
  have completes (ok : o = .success) {code : RecCode} {count : Nat} (advance : successAdvance t x g = .completes code count) :
      ∃ u, exec ev s = .next u ∧ refetches u code count := by
    subst ok
    obtain ⟨again, items⟩ := ended_of_completes turn at' (show s.wq.items.length < 32 by omega) advance
    exact ⟨_, row, again.hand, again.read, by rw [items, none', List.append_nil], framed nofun nofun⟩
  have visit (ok : o = .success) (sent : data) (more : g + n < len ∨ tail) (other : t.cls ≠ .stream)
      (last : t.cls = .bulk → headBurst t.head + 1 ≤ t.made + 1) : ∃ u word, exec ev s = .next u ∧ advanced u ∧
      u.wq.items = s.wq.items ++ [status word none] ∧ visitWord t .success none word ∧ u.walk.hand = .nothing ∧ frame u := by
    subst ok
    obtain ⟨⟨word, items, told, over'⟩, slot⟩ := ended_of_stays turn plain at' room
      ((successAdvance_push (pushed sent.2) g).trans (pushAdvance_stays sent.2 other sent.1 more)) last
    rw [none'] at items
    rw [sent.2] at slot
    exact ⟨_, word, row, slot, items, told, over', framed nofun nofun⟩
  have unfinished' (left : o = .deferred ∨ (strike ∧ ¬halts)) : o = .deferred ∨ o = .duplicate ∨ o = .overrun ∨
      (strikes o = true ∧ haltsByStrike x o { s with ctim := c } = false) := by
    obtain deferred | ⟨struck', still⟩ := left
    · exact .inl deferred
    · refine .inr (.inr (.inr ⟨(strikes_iff o).mpr struck', ?_⟩))
      rw [Bool.eq_false_iff, ne_eq, haltsByStrike_out out', strikes_iff]
      exact still
  have plainOutcome (left : o = .deferred ∨ (strike ∧ ¬halts)) : o ≠ .cut ∧ o ≠ .overrun ∧ o ≠ .duplicate := by
    obtain rfl | ⟨rfl | rfl | rfl | rfl | rfl, -⟩ := left <;> exact ⟨nofun, nofun, nofun⟩
  refine ⟨?_, ?_, ?_, ?_, ?_, ?_, ?_, ?_, ?_, ?_, ?_, ?_⟩
  · intro ok sent more cls
    refine visit ok sent more ?_ (fun bulk => ?_)
    · obtain cls | cls := cls <;> rw [cls] <;> exact nofun
    · obtain cls | cls := cls <;> cases cls.symm.trans bulk
  · intro ok sent more bulk running restart late going own passes left space
    subst ok
    obtain ⟨waits, items, slot⟩ := ended_of_burst_stays turn at'
      ((successAdvance_push (pushed sent.2) g).trans (pushAdvance_stays sent.2 (by rw [bulk]; exact nofun) sent.1 more))
      bulk ((burstOpen_iff _).mpr ⟨running, restart, late, going⟩) passes left (by rw [none']; exact space)
    rw [none', List.append_nil] at items
    rw [sent.2] at slot
    exact ⟨_, row, slot, waits.hand, waits.waiting, waits.reserved, items, framed nofun nofun⟩
  · intro ok sent more bulk last
    exact visit ok sent more (by rw [bulk]; exact nofun) (fun _ => last)
  · intro ok sent finished bare other
    exact completes ok ((successAdvance_push (pushed sent.2) g).trans (pushAdvance_completes sent.2 other sent.1 finished bare))
  · intro ok tailed kind other
    exact completes ok ((successAdvance_push (pushed kind) g).trans (pushAdvance_tail other tailed n g))
  · intro ok kind cls
    obtain ⟨-, push⟩ | ⟨request, -, rfl, tailed, -⟩ | ⟨-, -, opens⟩ := kinds
    · cases push.symm.trans kind
    · exact completes ok ((successAdvance_push request 0).trans
        (pushAdvance_tail (by obtain cls | cls := cls <;> rw [cls] <;> exact nofun) tailed n 0))
    · cases opens.symm.trans kind
  · intro ok kind
    obtain ⟨-, push⟩ | ⟨-, -, -, -, nudge⟩ | ⟨request, -, -⟩ := kinds
    · cases push.symm.trans kind
    · cases nudge.symm.trans kind
    · exact completes ok (successAdvance_open request g)
  · intro ok kind stream
    exact completes ok ((successAdvance_push (pushed kind) g).trans (pushAdvance_stream kind stream x n g))
  · intro refused
    subst refused
    obtain ⟨⟨word, items, told, over'⟩, slots⟩ := ended_of_refused turn plain at' room
    exact ⟨_, row, word, items, told, slots, over', framed nofun nofun⟩
  · intro halted
    obtain ⟨struck', full⟩ := halted
    obtain ⟨⟨word, items, told, over'⟩, slots⟩ := ended_of_halt turn plain ((strikes_iff o).mpr struck')
      ((haltsByStrike_out out' o _).mpr ⟨(strikes_iff o).mpr struck', full⟩) at' room
    have uncut : o ≠ .cut ∧ o ≠ .overrun := by obtain rfl | rfl | rfl | rfl | rfl := struck' <;> exact ⟨nofun, nofun⟩
    exact ⟨_, row, word, items, told, slots, over', framed uncut.1 uncut.2⟩
  · intro left other
    obtain ⟨uncut, fits, fresh⟩ := plainOutcome left
    obtain ⟨⟨word, items, told, over'⟩, slots⟩ := ended_of_unfinished turn plain (unfinished' left) other
      (fun duplicate => absurd duplicate fresh) (show s.wq.items.length < 32 by omega)
    exact ⟨_, word, row, items, told, slots, over', framed uncut fits⟩
  · intro left stream
    obtain ⟨uncut, fits, -⟩ := plainOutcome left
    obtain ⟨again, items⟩ := ended_of_missed turn (unfinished' left) stream
    exact ⟨_, row, again.hand, again.read, items, framed uncut fits⟩

end Sys2Proof.Machine
end

section
/-! SUPPORT. What the outcome of a PULL does to its record, its head and a burst (R88, R92, R94, R97, R110): the settlement of O46. -/

namespace Sys2Proof.Machine

/-! ### The Receive FIFO and the attention queue -/

theorem ended_rx_of_pull {x : Exchange} {p : Nat} (pull : x.request = .pull p) (s : State) :
    (ended .success x s).rx.fifo = s.rx.fifo ++ [x.data] :=
  congrArg Receive.fifo ((pumpQueue_rx _).trans (finish_rx_of_pull pull s))

theorem ended_rx_of_failure {o : XOutcome} (failed : o ≠ .success) (x : Exchange) (s : State) : (ended o x s).rx = s.rx :=
  (pumpQueue_rx _).trans (finish_rx_of_none (fun _ _ => failed) s)

/-- An outcome that is no strike leaves the Bus Log and the segment. -/
theorem ended_quiet_only {x : Exchange} (ring : x.direct = false) {o : XOutcome} (quiet : strikes o = false) (uncut : o ≠ .cut)
    (s : State) : OnlyChanges [.rx, .table, .xeng, .walk, .wq, .hport, .aiu] s (ended o x s) := by
  unfold ended
  rw [finish_of_ring ring]
  exact (((settledEnd_quiet_only quiet uncut x s).mono (by decide)).trans ((ringOutcome_only x o _ _).mono (by decide))).trans
    (((grantFence_only _ _).mono (by decide)).trans ((pumpQueue_only _).mono (by decide)))

/-- A DATA that the Receive FIFO has no room for is offered at once (R121). -/
theorem ended_overrun_queue {x : Exchange} (ring : x.direct = false) {p : Nat} (pull : x.request = .pull p) {s : State} {t : Turn}
    (hand : s.walk.hand = .turn t) : (ended .overrun x s).aiu.queue = (attnAfterOffer s.aiu
      { cause := .rxOverrun, cls := t.cls, entry := x.entry, cycle := s.ctim.number.extractLsb' 0 12, head := t.addr }).queue := by
  have entry := outcomeEntry_only x .overrun s
  have offered : (settledEnd .overrun x s).aiu = attnAfterOffer s.aiu
      { cause := .rxOverrun, cls := t.cls, entry := x.entry, cycle := s.ctim.number.extractLsb' 0 12, head := t.addr } := by
    unfold settledEnd cutStaging
    rw [outcomeLog_of_quiet rfl]
    unfold outcomeFifo
    rw [pull, show (outcomeEntry x .overrun s).walk = s.walk from entry .walk (by decide), hand]
    show attnAfterOffer (outcomeEntry x .overrun s).aiu { cause := .rxOverrun, cls := t.cls, entry := x.entry, cycle := (outcomeEntry x .overrun s).ctim.number.extractLsb' 0 12, head := t.addr } = _
    rw [entry .aiu (by decide), entry .ctim (by decide)]
  have later : OnlyRaises (settledEnd .overrun x s) (ended .overrun x s) := by
    unfold ended
    rw [finish_of_ring ring]
    exact (ringOutcome_raises x .overrun _ _).trans
      ((OnlyRaises.of_aiu (grantFence_only _ _ .aiu (by decide))).trans (pumpQueue_raises _))
  rw [later.1, offered]

/-! ### The advance of a PULL (R88, R94) -/

theorem successAdvance_pull {t : Turn} {x : Exchange} {p : Nat} (request : x.request = .pull p) (g : Nat) :
    successAdvance t x g = pullAdvance t x x.data.length g := by
  unfold successAdvance
  rw [request]

theorem pullAdvance_full {t : Turn} (other : t.cls ≠ .stream) (x : Exchange) {d g : Nat} (all : g + d = recLength t.seg) :
    pullAdvance t x d g = .completes .ok (g + d) := by
  unfold pullAdvance
  rw [if_neg other, if_pos (Nat.le_of_eq all.symm)]

theorem pullAdvance_short {t : Turn} (other : t.cls ≠ .stream) {x : Exchange} {d g : Nat} (left : g + d < recLength t.seg)
    (short : d < x.maxPayload) : pullAdvance t x d g = .completes .short (g + d) := by
  unfold pullAdvance
  rw [if_neg other, if_neg (Nat.not_le.mpr left), if_pos short]

theorem pullAdvance_stays {t : Turn} (other : t.cls ≠ .stream) {x : Exchange} {d g : Nat} (left : g + d < recLength t.seg)
    (full : x.maxPayload ≤ d) : pullAdvance t x d g = .stays (g + d) false := by
  unfold pullAdvance
  rw [if_neg other, if_neg (Nat.not_le.mpr left), if_neg (Nat.not_lt.mpr full)]

theorem pullAdvance_stream {t : Turn} (stream : t.cls = .stream) (x : Exchange) (d g : Nat) :
    pullAdvance t x d g = .completes (if d = recLength t.seg then .ok else .short) d := if_pos stream

theorem haltsByStrike_in {x : Exchange} {p : Nat} (pull : x.request = .pull p) (o : XOutcome) (s : State) :
    haltsByStrike x o s = true ↔
      strikes o = true ∧ struck (getEntry s x.entry).strikesIn = 3 ∧ x.rewritten = false := by
  have counter : strikesHalt x.request o (getEntry s x.entry) = (strikes o && (struck (getEntry s x.entry).strikesIn == 3)) := by
    unfold strikesHalt
    rw [pull]
    dsimp only
    rw [strikeOnce_eq_struck]
  unfold haltsByStrike
  rw [counter]
  simp only [Bool.and_eq_true, Bool.not_eq_true', beq_iff_eq]
  tauto

theorem packet_of_completes {x : Exchange} {p : Nat} (pull : x.request = .pull p) (t : Turn) (code : RecCode) (count : Nat) (s : State) :
    packetItems t x (.completes code count) s =
      [.packet x.data.length x.entry t.cls (s.ctim.number.extractLsb' 0 16) (t.seg.w2.getLsbD 2)] :=
  packetItems_of_pull pull t _ s

theorem packet_of_stays {x : Exchange} {p : Nat} (pull : x.request = .pull p) (t : Turn) (g : Nat) (tailOnly : Bool) (s : State) :
    packetItems t x (.stays g tailOnly) s =
      [.packet x.data.length x.entry t.cls (s.ctim.number.extractLsb' 0 16) false] :=
  packetItems_of_pull pull t _ s

/-- A DATA in its place that the Receive FIFO has no room for is an OVERRUN (R105). -/
theorem classByRules_of_overrun {x : Exchange} {p : Nat} (pull : x.request = .pull p) {sent f : Frame} (data : f.kind = .data)
    (address : f.address = sent.address) (channel : f.channel = sent.channel) (seq : f.seqBit = sent.seqBit)
    (fits : f.payload.length ≤ p) (small : x.room < f.payload.length) : classByRules x sent (.frame f) = .overrun := by
  have asked' : unsolicited x.request sent f = false := by
    rw [Bool.eq_false_iff, ne_eq, unsolicited_iff, pull]
    simp [data, address, channel, kindFits, wantsAccept]
  rw [classByRules_frame x sent f (by rw [data]; exact nofun), asked', if_neg Bool.false_ne_true,
    if_neg (by rw [pull]; exact Nat.not_lt.mpr fits), if_neg (by rw [data]; exact nofun), if_neg (by rw [data]; exact nofun)]
  unfold classifyData
  rw [pull]
  simp [seq, small]

/-- Settles O46: the outcome gives the walker its share, and the advance of a PULL says what a SUCCESS makes of the record. -/
theorem pullOutcomesMoveTheRecord : Obligations.PullOutcomesMoveTheRecord := by
  refine ⟨?_, ?_, ?_⟩
  · intro s x t p g ev o out busy ring pull hand on kind progress plain room rows len d packet status strike halts retried last
      kept overrun frame refetches stops completes
    have row : RowEnds ev o x s := by
      obtain ⟨rfl, window, rfl⟩ | ⟨rfl, live, receiving, rfl⟩ | ⟨r, sent, rfl, receiving, begun, rfl, failed, fresh⟩ |
        ⟨f, rfl, accepting, answered, -⟩ := rows
      · exact rowEnds_of_timeout out busy window
      · exact rowEnds_of_cutoff out busy live receiving
      · refine rowEnds_of_reply out busy receiving begun ?_
        rw [Bool.eq_false_iff, ne_eq, acceptDue_iff]
        exact fun due => due.1.elim failed fresh
      · exact rowEnds_of_accept out busy accepting answered
    clear rows
    obtain ⟨c, number, same, row⟩ := row
    have turn : InTurn x t { s with ctim := c } := ⟨ring, hand, on⟩
    have at' : atProgress { s with ctim := c } t g := progress
    have space : s.wq.items.length < 32 := by omega
    have framed (uncut : o ≠ .cut) : frame (ended o x { s with ctim := c }) := by
      refine ⟨?_, fun failed => ended_rx_of_failure failed x _, fun fits => ended_raises ring uncut fits { s with ctim := c }, ?_,
        only_of_row same ((ended_only ring uncut _).mono (by simp))⟩
      · rintro rfl
        exact ended_rx_of_pull pull _
      · rintro rfl
        refine (ended_overrun_queue ring pull (by exact hand)).trans ?_
        rw [show ({ s with ctim := c } : State).ctim.number = s.ctim.number from number]
    have finishes (ok : o = .success) {code : RecCode} {count : Nat} (advance : pullAdvance t x d g = .completes code count) :
        completes code count := by
      subst ok
      obtain ⟨again, items⟩ := ended_of_completes turn at' space ((successAdvance_pull pull g).trans advance)
      rw [packet_of_completes pull, show ({ s with ctim := c } : State).ctim.number = s.ctim.number from number] at items
      exact ⟨_, row, ⟨again.hand, again.read, framed nofun⟩, items⟩
    have unfinished' (left : retried) : o = .deferred ∨ o = .duplicate ∨ o = .overrun ∨
        (strikes o = true ∧ haltsByStrike x o { s with ctim := c } = false) := by
      obtain duplicate | deferred | over' | ⟨struck', still⟩ := left
      · exact .inr (.inl duplicate)
      · exact .inl deferred
      · exact .inr (.inr (.inl over'))
      · refine .inr (.inr (.inr ⟨(strikes_iff o).mpr struck', ?_⟩))
        rw [Bool.eq_false_iff, ne_eq, haltsByStrike_in pull, strikes_iff]
        exact still
    have uncutOf (left : retried) : o ≠ .cut := by
      obtain rfl | rfl | rfl | ⟨rfl | rfl | rfl | rfl | rfl, -⟩ := left <;> exact nofun
    refine ⟨?_, ?_, ?_, ?_, ?_, ?_, ?_, ?_, ?_⟩
    · intro ok other all
      exact finishes ok (pullAdvance_full other x all)
    · intro ok other left short
      exact finishes ok (pullAdvance_short other left short)
    · intro ok stream
      exact finishes ok (pullAdvance_stream stream x d g)
    · intro ok left full cls
      subst ok
      obtain ⟨⟨word, items, told, over'⟩, slot⟩ := ended_of_stays turn plain at' room ((successAdvance_pull pull g).trans
          (pullAdvance_stays (by obtain cls | cls | ⟨cls, -⟩ := cls <;> rw [cls] <;> exact nofun) left full))
        (fun bulk => by
          obtain cls | cls | ⟨-, none'⟩ := cls
          · cases cls.symm.trans bulk
          · cases cls.symm.trans bulk
          · exact none')
      rw [packet_of_stays pull, show ({ s with ctim := c } : State).ctim.number = s.ctim.number from number] at items
      rw [kind] at slot
      exact ⟨_, word, row, slot, items, told, over', framed nofun⟩
    · intro left cls
      obtain ⟨⟨word, items, told, over'⟩, slots⟩ := ended_of_unfinished turn plain (unfinished' left)
        (by obtain cls | cls | ⟨cls, -⟩ := cls <;> rw [cls] <;> exact nofun)
        (fun duplicate bulk => by
          obtain cls | cls | ⟨-, fresh | none'⟩ := cls
          · cases cls.symm.trans bulk
          · cases cls.symm.trans bulk
          · exact absurd duplicate fresh
          · exact none') space
      exact ⟨_, word, row, items, told, slots, over', framed (uncutOf left)⟩
    · intro duplicate bulk running restart late going own passes more space
      subst duplicate
      obtain ⟨waits, items, slots⟩ := ended_of_duplicate turn bulk ((burstOpen_iff _).mpr ⟨running, restart, late, going⟩) passes
        (Nat.not_le.mp more) space
      exact ⟨_, row, slots, waits.hand, waits.waiting, waits.reserved, items, framed nofun⟩
    · intro left stream
      obtain ⟨again, items⟩ := ended_of_missed turn (unfinished' left) stream
      exact ⟨_, row, ⟨again.hand, again.read, framed (uncutOf left)⟩, items⟩
    · intro refused
      subst refused
      obtain ⟨⟨word, items, told, over'⟩, slots⟩ := ended_of_refused turn plain at' room
      exact ⟨_, row, word, items, told, slots, over', framed nofun⟩
    · intro halted
      obtain ⟨struck', full⟩ := halted
      obtain ⟨⟨word, items, told, over'⟩, slots⟩ := ended_of_halt turn plain ((strikes_iff o).mpr struck')
        ((haltsByStrike_in pull o _).mpr ⟨(strikes_iff o).mpr struck', full⟩) at' room
      have uncut : o ≠ .cut := by obtain rfl | rfl | rfl | rfl | rfl := struck' <;> exact nofun
      exact ⟨_, row, word, items, told, slots, over', framed uncut⟩
  · intro s x t f p g out busy accepting answered ring pull hand bulk running restart late going kind progress own passes more left
      full room
    have turn : InTurn x t s := ⟨ring, hand, by rw [running]; exact nofun⟩
    have packet := packet_of_stays pull t (g + x.data.length) false s
    obtain ⟨waits, items, slot⟩ := ended_of_burst_stays turn progress ((successAdvance_pull pull g).trans
        (pullAdvance_stays (by rw [bulk]; exact nofun) left full)) bulk
      ((burstOpen_iff _).mpr ⟨running, restart, late, going⟩) passes more (by rw [packet]; exact room)
    rw [packet, bulk] at items
    rw [kind] at slot
    exact ⟨_, exec_acceptSent out busy accepting answered, waits.hand, waits.waiting, waits.reserved, slot, items,
      ended_rx_of_pull pull s, (ended_quiet_only (o := .success) ring rfl nofun s).mono (by decide)⟩
  · intro s x t sent f p out busy receiving begun ring pull hand cls on plain room data address channel seq fits small
    have found := classByRules_of_overrun pull data address channel seq fits small
    have row := exec_replyEnd out busy receiving begun (.frame f)
    rw [found, if_neg (by rw [acceptDue_iff]; exact fun due => due.1.elim nofun nofun)] at row
    obtain ⟨⟨word, items, told, over'⟩, slots⟩ := ended_of_unfinished (o := .overrun) ⟨ring, hand, on⟩ plain (.inr (.inr (.inl rfl)))
      (by obtain cls | cls := cls <;> rw [cls] <;> exact nofun) nofun (show s.wq.items.length < 32 by omega)
    exact ⟨_, word, row, ended_overrun_queue ring pull hand, items, told, slots, over',
      (ended_quiet_only (o := .overrun) ring rfl nofun s).drop (ended_rx_of_failure (o := .overrun) nofun x s)⟩

end Sys2Proof.Machine
end

section
/-! SUPPORT. The links of a ring and the searches of its rotation (R79, R96), and what a look-ahead leaves (R118). -/

namespace Sys2Proof.Machine

/-! ### What a look-ahead leaves -/

theorem ringBroken_queue (addr : Word) (s : State) : (ringBroken addr s).aiu.queue = s.aiu.queue := by
  unfold ringBroken hostFault
  dsimp only
  split <;> rfl

/-- No decision offers an attention. -/
theorem Decides.queue {keeps : Walker → Walker → Prop} {s t : State} (h : Decides keeps s t) : t.aiu.queue = s.aiu.queue := by
  refine h.same (fun s => s.aiu.queue) fun s t step => ?_
  cases step with
  | broken a => exact ringBroken_queue a s
  | barred st => exact congrArg Aiu.queue (completeDirect_only st [] s .aiu (by decide))
  | walker | request | cancel | stage | choose => rfl

theorem ringBroken_idle {addr : Word} {s : State} (idle : s.walk.hand = .nothing) : (ringBroken addr s).walk.hand = .nothing := by
  unfold ringBroken hostFault
  dsimp only
  split
  · exact idle
  · exact idle
  · show handAtSeal s.walk.hand = .nothing
    rw [idle]
    rfl

theorem LookOnly.idle {s t : State} (h : Decides LookOnly s t) (idle : s.walk.hand = .nothing) : t.walk.hand = .nothing := by
  induction h with
  | refl => exact idle
  | tail _ step ih =>
    cases step with
    | walker w kept =>
      show w.hand = .nothing
      rw [kept]
      exact ih
    | broken a => exact ringBroken_idle ih
    | barred st => exact (congrArg Walker.hand (completeDirect_only st [] _ .walk (by decide))).trans ih
    | request | cancel | stage | choose => exact ih

theorem LookOnly.getRot {s t : State} (h : Decides LookOnly s t) (c : RingClass) : getRot t c = getRot s c := by
  have service : t.walk.service = s.walk.service :=
    h.walk Walker.service (fun w v kept => by rw [kept]) (fun _ _ _ _ => rfl)
  have bulk : t.walk.bulk = s.walk.bulk := h.walk Walker.bulk (fun w v kept => by rw [kept]) (fun _ _ _ _ => rfl)
  cases c <;> assumption

/-- Where nothing is found to start the hand is empty, and the rotations are kept. -/
theorem waitLook_hand (s : State) : (waitLook s).walk.hand = .nothing := LookOnly.idle (lookAhead_decides _) rfl

theorem getRot_waitLook (s : State) (c : RingClass) : getRot (waitLook s) c = getRot s c :=
  (LookOnly.getRot (lookAhead_decides _) c).trans (by cases c <;> rfl)

/-! ### Links -/

/-- The link can be followed (R79). -/
def goodLink (link : Word) : Prop := link ≠ 0 ∧ link.extractLsb' 0 4 = 0#4

theorem badLink_of_good {link : Word} (good : goodLink link) : badLink link = false := by
  unfold badLink
  rw [(aligned_iff link).mpr good.2]
  simpa using good.1

theorem badLink_of_bad {link : Word} (bad : link = 0 ∨ link.extractLsb' 0 4 ≠ 0#4) : badLink link = true := by
  unfold badLink
  rw [Bool.or_eq_true, beq_iff_eq, Bool.not_eq_true', Bool.eq_false_iff, ne_eq, aligned_iff]
  exact bad

theorem good_of_followed {s : State} {link : Word} (h : followed s link) : goodLink link := ⟨h.1, h.2.1⟩

theorem free_of_followed {s : State} {link : Word} (h : followed s link) : pendingHeadLink s link = none := h.2.2

section
variable {s : State} {k : Seek} {prev : Option Word} {next : Word}

/-- A link that leads to a head that may be fetched. -/
theorem traverse_of_followed (n : Nat) (link : followed s next) (begins : endsAt s k prev next = false) (few : k.fetched < 256) :
    traverse s (n + 1) k prev next =
      .head { k with start := some (k.start.getD next), cur := next, fetched := k.fetched + 1 } prev := by
  unfold traverse
  rw [badLink_of_good (good_of_followed link), Bool.and_false, begins, if_neg Bool.false_ne_true, if_neg Bool.false_ne_true,
    if_neg (show ¬Config.traversalLimit ≤ k.fetched from Nat.not_le.mpr few)]
  dsimp only
  rw [free_of_followed link]

theorem traverse_of_bad (n : Nat) {from' : Word} (bad : next = 0 ∨ next.extractLsb' 0 4 ≠ 0#4) :
    traverse s (n + 1) k (some from') next = .broken from' := by
  unfold traverse
  rw [badLink_of_bad bad]
  rfl

/-- After 256 fetches the ring is broken (R79). -/
theorem traverse_of_many (n : Nat) {start : Word} (good : goodLink next) (begins : endsAt s k prev next = false)
    (many : 256 ≤ k.fetched) (begun : k.start = some start) : traverse s (n + 1) k prev next = .broken start := by
  unfold traverse
  rw [badLink_of_good good, Bool.and_false, begins, if_neg Bool.false_ne_true, if_neg Bool.false_ne_true,
    if_pos (show Config.traversalLimit ≤ k.fetched from many), begun]
  rfl

/-- A high search that has come round is complete, and the low search begins (R96). -/
theorem traverse_of_high_end (n : Nat) {c : RingClass} (stage : k.stage = .search c .high) (good : goodLink next)
    (back : endsAt s k prev next = true) : traverse s (n + 1) k prev next =
      traverse s n (newSearch c .low { k.rot with high := none, lowTurn := true } k.firstEmpty)
        (searchFrom (latchedAnchor s c) k.rot.low).1 (searchFrom (latchedAnchor s c) k.rot.low).2 := by
  conv_lhs => unfold traverse
  rw [badLink_of_good good, Bool.and_false, back, if_neg Bool.false_ne_true, if_pos rfl, stage]

/-- A low search that has come round is complete: a second high search follows, unless the first was made from an empty cursor. -/
theorem traverse_of_low_end (n : Nat) {c : RingClass} (stage : k.stage = .search c .low) (good : goodLink next)
    (back : endsAt s k prev next = true) : traverse s (n + 1) k prev next =
      if k.firstEmpty then .ended { k.rot with lowTurn := false }
      else traverse s n (newSearch c .second { k.rot with lowTurn := false } k.firstEmpty) none (latchedAnchor s c) := by
  conv_lhs => unfold traverse
  rw [badLink_of_good good, Bool.and_false, back, if_neg Bool.false_ne_true, if_pos rfl, stage]

theorem traverse_of_second_end (n : Nat) {c : RingClass} (stage : k.stage = .search c .second) (good : goodLink next)
    (back : endsAt s k prev next = true) : traverse s (n + 1) k prev next = .ended { k.rot with high := none, lowTurn := true } := by
  unfold traverse
  rw [badLink_of_good good, Bool.and_false, back, if_neg Bool.false_ne_true, if_pos rfl, stage]

end

/-! ### Searches -/

/-- The first fetch of a search. -/
def firstOfSearch (c : RingClass) (n : Search) (head : Word) (rot : Rotation) (firstEmpty : Bool) : Seek :=
  { stage := .search c n, start := some head, fetched := 1, cur := head, rot := rot, firstEmpty := firstEmpty }

theorem searchFrom_head (anchor : Word) (from' : Option Cursor) : (searchFrom anchor from').2 = searchHead anchor from' := by
  cases from' <;> rfl

/-- A search that begins at a head that may be fetched. -/
theorem traverse_newSearch {s : State} {c : RingClass} {n : Search} (m : Nat) {prev : Option Word} {head : Word}
    (link : followed s head) (begins : endsAt s (newSearch c n rot firstEmpty) prev head = false) :
    traverse s (m + 1) (newSearch c n rot firstEmpty) prev head = .head (firstOfSearch c n head rot firstEmpty) prev :=
  traverse_of_followed m link begins (show 0 < 256 by decide)

theorem endsAt_low_new (s : State) (c : RingClass) (rot : Rotation) (firstEmpty : Bool) (prev : Option Word) (next : Word) :
    endsAt s (newSearch c .low rot firstEmpty) prev next = false := rfl

theorem endsAt_from_anchor (s : State) (c : RingClass) (n : Search) (rot : Rotation) (firstEmpty : Bool) (next : Word) :
    endsAt s (newSearch c n rot firstEmpty) none next = false := by
  cases n <;> rfl

/-- The low search of a rotation begins behind the low cursor or at the anchor. -/
theorem traverse_low {s : State} {c : RingClass} (m : Nat) {rot : Rotation} {firstEmpty : Bool}
    (link : followed s (searchHead (latchedAnchor s c) rot.low)) :
    traverse s (m + 1) (newSearch c .low rot firstEmpty) (searchFrom (latchedAnchor s c) rot.low).1
        (searchFrom (latchedAnchor s c) rot.low).2 =
      .head (firstOfSearch c .low (searchHead (latchedAnchor s c) rot.low) rot firstEmpty)
        (searchFrom (latchedAnchor s c) rot.low).1 := by
  rw [searchFrom_head]
  exact traverse_newSearch m link (endsAt_low_new _ _ _ _ _ _)

/-! ### Offering rings -/

theorem getRot_setRot_same {c : RingClass} (searched : c = .service ∨ c = .bulk) (rot : Rotation) (s : State) :
    getRot (setRot c rot s) c = rot := by
  obtain rfl | rfl := searched <;> rfl

theorem setRot_getRot (c : RingClass) (s : State) : setRot c (getRot s c) s = s := by
  cases c <;> rfl

/-- Offering other rings leaves a ring's rotation. -/
theorem getRot_offerRings_apart {c : RingClass} (searched : c = .service) (s : State) :
    getRot (offerRings [.bulk] s) c = getRot s c := by
  subst searched
  unfold offerRings
  split
  case h_1 found =>
    obtain ⟨m, stage⟩ := beginRing_search found
    rw [issueHead_of_search stage]
    rfl
  case h_2 => exact getRot_waitLook _ .service
  case h_3 =>
    obtain ⟨hand, look, waiting, walk⟩ := ringBroken_walk ‹Word› (setHand .nothing s)
    show (walkerBroken _ s).walk.service = s.walk.service
    unfold walkerBroken
    rw [walk]
    rfl
  case h_4 => exact getRot_waitLook _ .service

theorem beginRing_of_zero {s : State} {c : RingClass} (zero : latchedAnchor s c = 0) : beginRing s c = .ended (getRot s c) :=
  if_pos zero

/-- A ring without an anchor is passed over. -/
theorem offerRings_of_zero {s : State} {c : RingClass} (rest : List RingClass) (zero : latchedAnchor s c = 0) :
    offerRings (c :: rest) s = offerRings rest s := by
  conv_lhs => unfold offerRings
  rw [beginRing_of_zero zero]
  dsimp only
  rw [setRot_getRot]

theorem offerRings_of_head {s : State} {c : RingClass} {k : Seek} {prev : Option Word} (rest : List RingClass)
    (found : beginRing s c = .head k prev) : offerRings (c :: rest) s = issueHead k prev s := by
  unfold offerRings
  rw [found]

/-- A decision begins the high search while the low-turn flag is clear. -/
theorem beginRing_high {s : State} {c : RingClass} (some : latchedAnchor s c ≠ 0) (turn : (getRot s c).lowTurn = false) :
    beginRing s c = traverse s traverseBound (newSearch c .high (getRot s c) (getRot s c).high.isNone)
      (searchFrom (latchedAnchor s c) (getRot s c).high).1 (searchFrom (latchedAnchor s c) (getRot s c).high).2 := by
  unfold beginRing
  dsimp only
  rw [if_neg some, turn, if_neg Bool.false_ne_true]

theorem beginRing_low {s : State} {c : RingClass} (some : latchedAnchor s c ≠ 0) (turn : (getRot s c).lowTurn = true) :
    beginRing s c = traverse s traverseBound (newSearch c .low (getRot s c) false)
      (searchFrom (latchedAnchor s c) (getRot s c).low).1 (searchFrom (latchedAnchor s c) (getRot s c).low).2 := by
  unfold beginRing
  dsimp only
  rw [if_neg some, turn, if_pos rfl]

/-- What the fetch of a search's head leaves. -/
theorem issueHead_search {k : Seek} {c : RingClass} {n : Search} (stage : k.stage = .search c n) (prev : Option Word) (s : State) :
    (issueHead k prev s).walk = { s.walk with hand := .headWait k } ∧ asked (issueHead k prev s) 1 k.cur 16 .head ∧
      OnlyChanges [.walk, .hport] s (issueHead k prev s) := by
  refine ⟨?_, ?_, (issueHead_only k prev s).mono (by decide)⟩
  · rw [issueHead_of_search stage]
    rfl
  · rw [issueHead_of_search stage]
    exact asked_requestRead 1 k.cur 16 .head s

end Sys2Proof.Machine
end

section
/-! SUPPORT. What becomes of a head or a record that has been fetched (R83, R84, R87, R93, R96): the settlement of O39. -/

namespace Sys2Proof.Machine

/-! ### Behind a returned fetch -/

/-- The read leaves the stream when what follows from it has been done (R12). -/
def returned (v : State) : State := pumpQueue (popRead v)

theorem returned_only (v : State) : OnlyChanges [.wq, .hport, .aiu] v (returned v) :=
  ((popRead_only v).mono (by decide)).trans (pumpQueue_only _)

theorem returned_decision (v : State) : OnlyChanges decisionBlocks v (returned v) := (returned_only v).mono (by decide)

theorem returned_walk (v : State) : (returned v).walk = v.walk := pumpQueue_walk _

theorem returned_items (v : State) : (returned v).wq.items = v.wq.items := pumpQueue_items _

theorem returned_reserved (v : State) : (returned v).wq.reserved = v.wq.reserved := pumpQueue_reserved _

theorem returned_queue (v : State) : (returned v).aiu.queue = v.aiu.queue := by
  unfold returned
  rw [(pumpQueue_aiu_rest (popRead v)).1]
  rfl

/-- A fetch asked for while another one is being taken joins the stream behind it. -/
theorem asked_returned {u v : State} {q : ReadReq} {later : List ReadReq} (stream : u.hport.reads = q :: later) (front : q.kind ≠ 4)
    {kind : BitVec 4} (plain : kind = 1 ∨ kind = 2) (addr : Word) (len : Nat) (reader : Reader)
    (reads : v.hport = (requestRead kind addr len reader u).hport) : asked (returned v) kind addr len reader := by
  refine asked_pumpQueue ⟨{ kind := kind, addr := addr, len := len, reader := reader, fresh := u.hport.moment }, ?_, rfl, rfl, rfl, rfl⟩
  have rank : ¬ readRank { kind := kind, addr := addr, len := len, reader := reader, fresh := u.hport.moment } < readRank q := by
    have own : readRank { kind := kind, addr := addr, len := len, reader := reader, fresh := u.hport.moment } = 1 := by
      obtain rfl | rfl := plain <;> rfl
    have other : readRank q ≤ 1 := by
      unfold readRank
      split
      · decide
      · exact Nat.le_refl 1
    omega
  show _ ∈ v.hport.reads.tail
  rw [reads]
  show _ ∈ (joinStream _ u.hport.reads).tail
  rw [stream]
  unfold joinStream
  rw [decide_eq_false rank, Bool.and_false, if_neg Bool.false_ne_true]
  exact (mem_joinStream _ _ _).mpr (.inl rfl)

/-! ### The rows -/

section
variable {s : State} (out : awake s) {q : ReadReq} {later : List ReadReq} (stream : s.hport.reads = q :: later) (front : q.kind ≠ 4)
include out stream front

theorem exec_headReturned (reader : q.reader = .head) {k : Seek} (hand : s.walk.hand = .headWait k) (w0 w1 w2 w3 : Word) :
    exec (.recordFetchDone w0 w1 w2 w3) s = .next (returned (headReturned k { w0 := w0, w1 := w1, w2 := w2, w3 := w3 } s)) := by
  rw [exec_recordFetchDone out stream front]
  unfold snapshotReturned
  rw [reader, hand]
  rfl

theorem exec_recordReturned (reader : q.reader = .record) {k : Seek} {h : Rec} (hand : s.walk.hand = .recordWait k h)
    (w0 w1 w2 w3 : Word) : exec (.recordFetchDone w0 w1 w2 w3) s =
      .next (returned (recordReturned k h { w0 := w0, w1 := w1, w2 := w2, w3 := w3 } s)) := by
  rw [exec_recordFetchDone out stream front]
  unfold snapshotReturned
  rw [reader, hand]
  rfl

end

/-! ### A head that is served or stopped -/

theorem headReturned_of_work {k : Seek} {h : Rec} {s : State} (suited : suits s k h = true)
    (test : workTest s (stageClass k.stage) h = .work) (room : stepSlots (stageClass k.stage) h ≤ freeSlots s)
    (plain : skipsFirst (stageClass k.stage) h = false) :
    headReturned k h s = setHand (.recordWait k h) (requestRead 2 h.w2 16 .record (reserve 4 s)) := by
  unfold headReturned
  dsimp only
  rw [suited, test]
  dsimp only
  rw [if_neg (Nat.not_lt.mpr room), plain]
  rfl

theorem headReturned_of_stop {k : Seek} {h : Rec} {s : State} {cause : Cause} (suited : suits s k h = true)
    (test : workTest s (stageClass k.stage) h = .stop cause) :
    headReturned k h s = passOver k h (stopHead (stageClass k.stage) k.cur h cause s) := by
  unfold headReturned
  dsimp only
  rw [suited, test]
  rfl

theorem stopHead_items (c : RingClass) (addr : Word) (h : Rec) (cause : Cause) {s : State} (room : 1 ≤ freeSlots s) :
    (stopHead c addr h cause s).wq.items = s.wq.items ++
      [.status addr (headStatusWord h.w3 none none (some cause)) c (headEntry h) false (some cause) h.w0] := by
  unfold stopHead
  rw [if_neg (by omega), enqueue_items_of_room _ (.inr (Nat.succ_pos _))]
  rfl

/-- The status word of a stop without a visit (R81, R84). -/
theorem headStatusWord_stop (w3 : Word) (cause : Cause) :
    let w := headStatusWord w3 none none (some cause)
    w.getLsbD 0 = true ∧ w.extractLsb' 4 4 = causeCode cause ∧ w.extractLsb' 16 8 = w3.extractLsb' 16 8 := by
  intro w
  simp [w, headStatusWord, extractLsb'_putField_same, extractLsb'_putField_apart, getElem_putField]

/-- Tests 5, 6 and 7 of R83 stop the head (R84). -/
theorem workTest_of_stop {s : State} {c : RingClass} {h : Rec} (on : headEnabled h = true) (going : headStopped h = false)
    (some : h.w2 ≠ 0) (fence : (getEntry s (headEntry h)).fenceGranted = false)
    (fails : aligned h.w2 = false ∨ (headEntry h = 0 ∨ usableFor c (getEntry s (headEntry h)) = false) ∨
      (getEntry s (headEntry h)).halted = true) : workTest s c h = .stop
        (if aligned h.w2 = false then .badLink
          else if headEntry h = 0 ∨ usableFor c (getEntry s (headEntry h)) = false then .badEntry else .stationHalted) := by
  have link : (h.w2 == 0) = false := by simpa using some
  unfold workTest testEntry
  rw [on, going, link]
  dsimp only
  rw [fence]
  have barred : (headEntry h == 0 || !usableFor c (getEntry s (headEntry h))) = true ↔
      headEntry h = 0 ∨ usableFor c (getEntry s (headEntry h)) = false := by simp
  by_cases bad : aligned h.w2 = false
  · rw [if_pos bad, bad]
    rfl
  by_cases unusable : headEntry h = 0 ∨ usableFor c (getEntry s (headEntry h)) = false
  · rw [if_neg bad, if_pos unusable, barred.mpr unusable, Bool.not_eq_false _ |>.mp bad]
    rfl
  · have halted : (getEntry s (headEntry h)).halted = true := (fails.resolve_left bad).resolve_left unusable
    rw [if_neg bad, if_neg unusable, Bool.eq_false_iff.mpr (mt barred.mp unusable), Bool.not_eq_false _ |>.mp bad, halted]
    rfl

/-- A head that is disabled, or of the other priority, is passed over before its tests (log 15). -/
theorem headReturned_of_unsuited {k : Seek} {h : Rec} {s : State} {c : RingClass} {n : Search} (stage : k.stage = .search c n)
    (unsuited : h.w1.getLsbD 0 = false ∨ h.w1.getLsbD 1 = decide (n = .low)) : headReturned k h s = passOver k h s := by
  unfold headReturned
  dsimp only
  split
  case isTrue => rfl
  case isFalse suited =>
    obtain disabled | other := unsuited
    · have over' : workTest s (stageClass k.stage) h = .over := by
        unfold workTest headEnabled bitAt
        rw [disabled]
        rfl
      rw [over']
    · refine absurd ?_ suited
      unfold suits headHigh bitAt
      rw [stage, other]
      cases n <;> rfl

/-! ### A head that is passed over -/

theorem passOver_of_search {k : Seek} {c : RingClass} {n : Search} (stage : k.stage = .search c n) (h : Rec) (s : State) :
    passOver k h s = searchOn c k h (setHand .nothing s) := by
  unfold passOver
  rw [stage]

theorem searchOn_of_head {c : RingClass} {k k' : Seek} {h : Rec} {s : State} {prev : Option Word}
    (found : traverse s traverseBound k (some k.cur) h.w0 = .head k' prev) : searchOn c k h s = issueHead k' prev s := by
  unfold searchOn
  rw [found]

theorem searchOn_of_ended {c : RingClass} {k : Seek} {h : Rec} {s : State} {rot : Rotation}
    (found : traverse s traverseBound k (some k.cur) h.w0 = .ended rot) :
    searchOn c k h s = offerRings (laterClasses s c) (setRot c rot s) := by
  unfold searchOn
  rw [found]

theorem searchOn_of_broken {c : RingClass} {k : Seek} {h : Rec} {s : State} {addr : Word}
    (found : traverse s traverseBound k (some k.cur) h.w0 = .broken addr) : searchOn c k h s = walkerBroken addr s := by
  unfold searchOn
  rw [found]

/-- The seek of a TIMED pass at the head behind the one just done with. -/
def nextInPass (p : PassPos) (link : Word) : Seek :=
  { stage := .pass .timed, start := some (p.start.getD link), fetched := p.fetched + 2, cur := link, rot := Rotation.empty,
    firstEmpty := false }

/-- A TIMED pass goes on with the head behind one that is not served (6.9). -/
theorem passOver_timed {k : Seek} {h : Rec} {s : State} {p : PassPos} (stage : k.stage = .pass .timed)
    (running : s.seq.state = .running) (pass : s.walk.pass = some p) (todo : s.walk.timedDone = false) (few : p.fetched < 255)
    (link : followed s h.w0) (other : h.w0 ≠ latchedAnchor s .timed) :
    passOver k h s = issueHead (nextInPass p h.w0) (some k.cur) (passAfter k.cur h.w0 (setHand .nothing s)) := by
  have position : (passAfter k.cur h.w0 (setHand .nothing s)).walk.pass =
      some { p with prev := some k.cur, next := h.w0, fetched := p.fetched + 1 } := congrArg (Option.map _) pass
  have found : beginPass (passAfter k.cur h.w0 (setHand .nothing s)) .timed = .head (nextInPass p h.w0) (some k.cur) := by
    unfold beginPass
    rw [position]
    refine traverse_of_followed 127 (by exact link) ?_ (show p.fetched + 1 < 256 by omega)
    show (true && h.w0 == latchedAnchor s .timed) = false
    simpa using other
  unfold passOver
  rw [stage]
  dsimp only
  unfold periodicStage
  rw [if_neg (by simp [running]), show (passAfter k.cur h.w0 (setHand .nothing s)).walk.timedDone = false from todo,
    if_neg Bool.false_ne_true, found]

theorem issueHead_nextInPass (p : PassPos) (link prev : Word) (s : State) :
    (issueHead (nextInPass p link) (some prev) s).walk = { s.walk with
      hand := .headWait (nextInPass p link),
      pass := some { prev := some prev, next := link, start := some (p.start.getD link), fetched := p.fetched + 1 } } ∧
    OnlyChanges [.walk, .hport] s (issueHead (nextInPass p link) (some prev) s) := by
  refine ⟨?_, (issueHead_only _ _ s).mono (by decide)⟩
  rw [issueHead_of_pass (c := .timed) rfl]
  rfl

/-! ### The searches of a rotation go on and end (R96) -/

theorem endsAt_search {s : State} {k : Seek} {c : RingClass} {n : Search} (stage : k.stage = .search c n) (at' link : Word) :
    endsAt s k (some at') link = true ↔ (if n = .low then k.start = some link else link = latchedAnchor s c) := by
  unfold endsAt
  rw [stage]
  cases n <;> simp

/-- The next fetch of a search, while a fetched head is being passed over. -/
theorem fetched_of_search {u : State} {q : ReadReq} {later : List ReadReq} (stream : u.hport.reads = q :: later) (front : q.kind ≠ 4)
    {k : Seek} {c : RingClass} {n : Search} (stage : k.stage = .search c n) (prev : Option Word) :
    (returned (issueHead k prev u)).walk = { u.walk with hand := .headWait k } ∧
      asked (returned (issueHead k prev u)) 1 k.cur 16 .head ∧
      OnlyChanges [.walk, .hport, .wq, .aiu] u (returned (issueHead k prev u)) := by
  obtain ⟨walk, -, only⟩ := issueHead_search stage prev u
  refine ⟨(returned_walk _).trans walk, asked_returned stream front (.inl rfl) _ _ _ ?_,
    (only.mono (by decide)).trans ((returned_only _).mono (by decide))⟩
  rw [issueHead_of_search stage]
  rfl

/-- A search that begins at this moment. -/
theorem begins_of_search {u : State} {q : ReadReq} {later : List ReadReq} (stream : u.hport.reads = q :: later) (front : q.kind ≠ 4)
    (c : RingClass) (n : Search) (head : Word) (rot : Rotation) (firstEmpty : Bool) (prev : Option Word) :
    let t := returned (issueHead (firstOfSearch c n head rot firstEmpty) prev u)
    t.walk.hand = .headWait (firstOfSearch c n head rot firstEmpty) ∧ asked t 1 head 16 .head := by
  obtain ⟨walk, reads, -⟩ := fetched_of_search stream front (k := firstOfSearch c n head rot firstEmpty) rfl prev
  exact ⟨by rw [walk], reads⟩

section
variable {s : State} {q : ReadReq} {later : List ReadReq} (stream : s.hport.reads = q :: later) (front : q.kind ≠ 4)

/-- What the end of a ring's last search leaves: the rotation, and BULK behind SERVICE in the late window. -/
structure RotationEnds (c : RingClass) (left : Rotation) (s t : State) : Prop where
  rot : getRot t c = left
  items : t.wq.items = s.wq.items
  hand : c = .bulk ∨ s.walk.window ≠ .late ∨ latchedAnchor s .bulk = 0 → t.walk.hand = .nothing
  bulk : c = .service → s.walk.window = .late → latchedAnchor s .bulk ≠ 0 → s.walk.bulk = Rotation.empty →
    followed s (latchedAnchor s .bulk) → BeginsSearch .bulk .high none Rotation.empty true s t

theorem laterClasses_eq (s : State) (c : RingClass) :
    laterClasses s c = if c = .service ∧ s.walk.window = .late then [.bulk] else [] := rfl

include stream front in
theorem rotationEnds {c : RingClass} (searched : c = .service ∨ c = .bulk) (left : Rotation) :
    RotationEnds c left s (returned (offerRings (laterClasses (setHand .nothing s) c) (setRot c left (setHand .nothing s)))) := by
  have wq : (setRot c left (setHand .nothing s)).wq = s.wq := by cases c <;> rfl
  have window : (setHand .nothing s).walk.window = s.walk.window := rfl
  have anchors (d : RingClass) : latchedAnchor (setRot c left (setHand .nothing s)) d = latchedAnchor s d := by cases c <;> rfl
  refine ⟨?_, ?_, fun idle => ?_, fun service late some empty link => ?_⟩
  · rw [laterClasses_eq, window]
    split
    case isTrue behind =>
      have rot : getRot (returned (offerRings [.bulk] (setRot c left (setHand .nothing s)))) c =
          getRot (offerRings [.bulk] (setRot c left (setHand .nothing s))) c := by
        unfold getRot
        rw [returned_walk]
      rw [rot, getRot_offerRings_apart behind.1, getRot_setRot_same searched]
    case isFalse =>
      have rot : getRot (returned (offerRings [] (setRot c left (setHand .nothing s)))) c =
          getRot (waitLook (setRot c left (setHand .nothing s))) c := by
        unfold getRot
        rw [returned_walk]
        rfl
      rw [rot, getRot_waitLook, getRot_setRot_same searched]
  · rw [returned_items, (offerRings_decides _ _).wq, wq]
  · have waits : offerRings (laterClasses (setHand .nothing s) c) (setRot c left (setHand .nothing s)) =
        waitLook (setRot c left (setHand .nothing s)) := by
      rw [laterClasses_eq, window]
      split
      case isTrue behind =>
        obtain bulk | early | zero := idle
        · cases bulk.symm.trans behind.1
        · exact absurd behind.2 early
        · exact offerRings_of_zero [] ((anchors .bulk).trans zero)
      case isFalse => rfl
    rw [waits, returned_walk]
    exact waitLook_hand _
  · subst service
    have rot : getRot (setRot .service left (setHand .nothing s)) .bulk = Rotation.empty := empty
    have anchor := anchors .bulk
    have found : beginRing (setRot .service left (setHand .nothing s)) .bulk =
        .head (firstOfSearch .bulk .high (latchedAnchor s .bulk) Rotation.empty true) none := by
      rw [beginRing_high (by rw [anchor]; exact some) (by rw [rot]; rfl), rot, anchor]
      exact traverse_newSearch 127 (by exact link) (endsAt_from_anchor _ _ _ _ _ _)
    have goes : offerRings (laterClasses (setHand .nothing s) .service) (setRot .service left (setHand .nothing s)) =
        issueHead (firstOfSearch .bulk .high (latchedAnchor s .bulk) Rotation.empty true) none
          (setRot .service left (setHand .nothing s)) := by
      rw [laterClasses_eq, window, if_pos ⟨rfl, late⟩]
      exact offerRings_of_head [] found
    rw [goes]
    exact begins_of_search (u := setRot .service left (setHand .nothing s)) stream front .bulk .high _ Rotation.empty true none

include stream front in
/-- Behind a head that is passed over the searches go on and end as R96 gives. -/
theorem searchGoesOn {k : Seek} {c : RingClass} {n : Search} (stage : k.stage = .search c n) (searched : c = .service ∨ c = .bulk)
    {h : Rec} (good : goodLink h.w0) : SearchGoesOn c n k h.w0 s (returned (passOver k h s)) := by
  have passed := passOver_of_search stage h s
  have ends := endsAt_search (s := setHand .nothing s) stage k.cur h.w0
  refine ⟨fun begins few link => ?_, fun high back link => ?_, fun low back second link => ?_, fun low back first => ?_, fun last back => ?_⟩
  · have goes : passOver k h s = issueHead { k with start := some (k.start.getD h.w0), cur := h.w0, fetched := k.fetched + 1 }
        (some k.cur) (setHand .nothing s) := by
      rw [passed]
      exact searchOn_of_head (traverse_of_followed 127 (by exact link) (Bool.eq_false_iff.mpr fun h => begins (ends.mp h)) few)
    rw [goes]
    obtain ⟨walk, reads, only⟩ := fetched_of_search (u := setHand .nothing s) stream front
      (k := { k with start := some (k.start.getD h.w0), cur := h.w0, fetched := k.fetched + 1 }) (by exact stage) (some k.cur)
    exact ⟨walk, reads, ((setHand_only .nothing s).mono (by decide)).trans only⟩
  · subst high
    have goes : passOver k h s = issueHead (firstOfSearch c .low (searchHead (latchedAnchor s c) k.rot.low)
        { k.rot with high := none, lowTurn := true } k.firstEmpty) (searchFrom (latchedAnchor s c) k.rot.low).1 (setHand .nothing s) := by
      rw [passed]
      exact searchOn_of_head ((traverse_of_high_end 127 stage good (ends.mpr back)).trans (traverse_low 126 (by exact link)))
    rw [goes]
    exact begins_of_search (u := setHand .nothing s) stream front c .low _ _ _ _
  · subst low
    have goes : passOver k h s = issueHead (firstOfSearch c .second (latchedAnchor s c) { k.rot with lowTurn := false } false) none
        (setHand .nothing s) := by
      rw [passed]
      refine searchOn_of_head ((traverse_of_low_end 127 stage good (ends.mpr back)).trans ?_)
      rw [second, if_neg Bool.false_ne_true]
      exact traverse_newSearch 126 (by exact link) (endsAt_from_anchor _ _ _ _ _ _)
    rw [goes]
    exact begins_of_search (u := setHand .nothing s) stream front c .second _ _ _ _
  · subst low
    have goes : passOver k h s = _ := passed.trans (searchOn_of_ended (rot := { k.rot with lowTurn := false })
      ((traverse_of_low_end 127 stage good (ends.mpr back)).trans (if_pos first)))
    obtain ⟨rot, items, hand, bulk⟩ := rotationEnds stream front searched { k.rot with lowTurn := false }
    rw [goes]
    exact ⟨rot, items, hand, bulk⟩
  · subst last
    have goes : passOver k h s = _ := passed.trans (searchOn_of_ended (rot := { k.rot with high := none, lowTurn := true })
      (traverse_of_second_end 127 stage good (ends.mpr back)))
    obtain ⟨rot, items, hand, bulk⟩ := rotationEnds stream front searched { k.rot with high := none, lowTurn := true }
    rw [goes]
    exact ⟨rot, items, hand, bulk⟩

end

/-! ### A record that has returned (R66, R73, R87) -/

theorem kindRefused_iff (c : RingClass) (p : Nat) (r : Rec) : kindRefused c p r = true ↔ kindBarred c p r := by
  have length : (r.w2.extractLsb' 16 14).toNat = recLength r := rfl
  unfold kindRefused kindBarred
  rw [length]
  cases c <;> cases recKind r <;> simp [kindAllowed]

theorem recordReturned_of_work {k : Seek} {h : Rec} {s : State} (passes : passesTests s (stageClass k.stage) h) (r : Rec) :
    recordReturned k h r s =
      if kindRefused (stageClass k.stage) (payloadMax (getEntry s (headEntry h))) r then refuseKind k h r s
      else setHand (.candidate k (newTurn k h r)) s := by
  unfold recordReturned
  dsimp only
  rw [(workTest_iff _ _ _).mpr passes]

/-- A fence granted meanwhile keeps the head from any report (R73). -/
theorem recordReturned_of_fence {k : Seek} {h : Rec} {s : State} (on : h.w1.getLsbD 0 = true) (going : h.w3.getLsbD 0 = false)
    (some : h.w2 ≠ 0) (fence : (getEntry s (headEntry h)).fenceGranted = true) (r : Rec) :
    recordReturned k h r s = passOver k h (releaseSlots s) := by
  have over' : workTest s (stageClass k.stage) h = .over := by
    have link : (h.w2 == 0) = false := by simpa using some
    unfold workTest testEntry headEnabled headStopped bitAt
    rw [on, going, link]
    dsimp only
    rw [fence]
    rfl
  unfold recordReturned
  dsimp only
  rw [over']

theorem getSlot_dropSlot (i : EntryIx) (record : Word) {s : State} (real : i ≠ 0) {sl : Slot} (held : getSlot s i = some sl) :
    getSlot (dropSlot i record s) i = if sl.record = record then none else some sl := by
  unfold dropSlot
  rw [held]
  dsimp only
  split
  · exact getSlot_setSlot_same real none s
  · exact held

/-- The items of a record refused for its kind (R87). -/
theorem refuseKind_spec (k : Seek) (h r : Rec) {s : State} (room : s.wq.items.length + 2 ≤ 32) :
    (refuseKind k h r s).wq.items = s.wq.items ++
      [recordItem (newTurn k h r) .kindMismatch 0,
        .status k.cur (headStatusWord h.w3 none none (some .kindMismatch)) (stageClass k.stage) (headEntry h) false
          (some .kindMismatch) h.w0] ∧
    (refuseKind k h r s).wq.reserved = 0 ∧
    ∀ i, getSlot (refuseKind k h r s) i = getSlot (dropSlot (headEntry h) h.w2 s) i := by
  have wq : (dropSlot (headEntry h) h.w2 s).wq = s.wq := dropSlot_only _ _ s .wq (by decide)
  have first := enqueue_items_of_room (s := dropSlot (headEntry h) h.w2 s) (recordItem (newTurn k h r) .kindMismatch 0)
    (.inl (by rw [wq]; omega))
  have second := enqueue_items_of_room (s := enqueue (recordItem (newTurn k h r) .kindMismatch 0) (dropSlot (headEntry h) h.w2 s))
    (.status k.cur (headStatusWord h.w3 none none (some .kindMismatch)) (stageClass k.stage) (headEntry h) false
      (some .kindMismatch) h.w0) (.inl (by rw [first, wq]; simp; omega))
  rw [first, wq, List.append_assoc] at second
  unfold refuseKind
  have later := passOver_decides k h (releaseSlots (enqueue
    (.status k.cur (headStatusWord h.w3 none none (some .kindMismatch)) (stageClass k.stage) (headEntry h) false
      (some .kindMismatch) h.w0) (enqueue (recordItem (newTurn k h r) .kindMismatch 0) (dropSlot (headEntry h) h.w2 s))))
  refine ⟨?_, ?_, getSlot_of_same ?_⟩
  · rw [later.wq]
    exact second
  · rw [later.wq]
    rfl
  · rw [later.slots]
    show (enqueue _ (enqueue _ _)).walk.slots = _
    rw [enqueue_walk, enqueue_walk]

end Sys2Proof.Machine
end

section
/-! SUPPORT. A fetched head that seals the controller (R79), and the settlement of O39. -/

namespace Sys2Proof.Machine

/-- A broken ring seals a running controller, which asks for nothing more (R79, R159). -/
theorem returned_walkerBroken {s : State} (running : s.seq.state = .running) (addr : Word) :
    let t := returned (walkerBroken addr s)
    t.elog = hostAfterOffer s.elog 0x23 1 addr ∧ t.seq.state = .sealed ∧ t.seq.sealPending = true ∧ t.walk.hand = .nothing ∧
      t.hport.reads = [] ∧ t.wq = s.wq ∧ t.aiu.queue = s.aiu.queue ∧
      OnlyChanges [.seq, .walk, .stage, .aiu, .elog, .hport] s t := by
  intro t
  have broken : walkerBroken addr s = sealNow (offerHost codeRingBroken 1 addr (setHand .nothing s)) := by
    unfold walkerBroken ringBroken hostFault
    dsimp only
    rw [show (offerHost codeRingBroken 1 addr (setHand .nothing s)).seq.state = .running from running]
  obtain ⟨seq, aiu, walk, reads, -⟩ := sealNow_spec codeRingBroken 1 addr (setHand .nothing s)
  rw [← broken] at seq aiu walk reads
  have rest : t = popRead (walkerBroken addr s) := pumpQueue_of_rest (.inr (by
    show (walkerBroken addr s).seq.state = .sealed
    rw [seq]))
  rw [rest]
  refine ⟨?_, ?_, ?_, ?_, ?_, ?_, ?_, ?_⟩
  · show (walkerBroken addr s).elog = _
    rw [broken]
    rfl
  · show (walkerBroken addr s).seq.state = .sealed
    rw [seq]
  · show (walkerBroken addr s).seq.sealPending = true
    rw [seq]
  · show (walkerBroken addr s).walk.hand = .nothing
    rw [walk]
    rfl
  · show (walkerBroken addr s).hport.reads.tail = []
    rw [reads, cancelAllReads_reads]
    refine List.eq_nil_of_length_eq_zero ?_
    have few := List.length_filter_le (fun r : ReadReq => !r.fresh) ((setHand .nothing s).hport.reads.take 1)
    rw [List.length_tail, List.length_map]
    have one := List.length_take_le 1 (setHand .nothing s).hport.reads
    omega
  · exact (walkerBroken_only addr s .wq (by decide))
  · show (walkerBroken addr s).aiu.queue = _
    rw [aiu]
    rfl
  · exact ((walkerBroken_only addr s).mono (by decide)).trans ((popRead_only _).mono (by decide))

/-- Settles O39: what `headReturned` and `recordReturned` come to, test by test, and where a pass or search goes from there. -/
theorem returnedHeadIsTested : Obligations.ReturnedHeadIsTested := by
  refine ⟨?_, ?_, ?_, ?_⟩
  · intro s k q later w0 w1 w2 w3 out stream front reader hand stage on high going skips some i e usable fence
    have row := exec_headReturned out stream front reader hand w0 w1 w2 w3
    have suited : suits s k { w0 := w0, w1 := w1, w2 := w2, w3 := w3 } = true := by
      unfold suits
      rw [stage]
      exact high
    refine ⟨fun link usable unhalted enabled clean pending room => ?_, fun cause named fails room => ?_⟩
    · obtain ⟨real, valid, address, payload, lock⟩ := usable
      have passes : passesTests s .service { w0 := w0, w1 := w1, w2 := w2, w3 := w3 } := by
        refine ⟨on, going, some, fence, link, real, valid, address, payload, ?_, unhalted, enabled, clean, pending⟩
        obtain free | own := lock
        · exact .inl free
        · exact .inr ((congrArg BitVec.toNat own).trans rfl)
      have plain : skipsFirst .service { w0 := w0, w1 := w1, w2 := w2, w3 := w3 } = false := by
        show (w3.getLsbD 1 && _) = false
        rw [skips]
        rfl
      have goes := headReturned_of_work suited (by rw [stage]; exact (workTest_iff _ _ _).mpr passes)
        (by rw [stage]; show stepSlots .service _ ≤ _; unfold stepSlots; rw [plain]; exact room) (by rw [stage]; exact plain)
      rw [goes] at row
      refine ⟨_, row, (returned_walk _).trans rfl, (returned_reserved _).trans rfl, (returned_items _).trans rfl,
        asked_returned (u := reserve 4 s) stream front (.inr rfl) w2 16 .record rfl, ?_⟩
      have own : OnlyChanges [.wq, .hport, .walk] s (setHand (.recordWait k { w0 := w0, w1 := w1, w2 := w2, w3 := w3 })
          (requestRead 2 w2 16 .record (reserve 4 s))) :=
        ((reserve_only 4 s).mono (by decide)).trans (((requestRead_only _ _ _ _ _).mono (by decide)).trans
          ((setHand_only _ _).mono (by decide)))
      exact (own.mono (by decide)).trans ((returned_only _).mono (by decide))
    · have barred : headEntry { w0 := w0, w1 := w1, w2 := w2, w3 := w3 } = 0 ∨ usableFor .service e = false ↔ ¬usable := by
        rw [← Bool.not_eq_true, usableFor_iff]
        have lock : e.classLock = 1 ↔ e.classLock.toNat = (classCode .service).toNat + 1 := by
          rw [← BitVec.toNat_inj]
          rfl
        rw [← lock]
        show (i = 0 ∨ _) ↔ _
        tauto
      have misaligned : aligned w2 = false ↔ w2.extractLsb' 0 4 ≠ 0#4 := by
        rw [← Bool.not_eq_true, aligned_iff]
      have test := workTest_of_stop (s := s) (c := .service) (h := { w0 := w0, w1 := w1, w2 := w2, w3 := w3 }) on going some fence
        (fails.imp misaligned.mpr (Or.imp_left barred.mpr))
      have cause' : (if aligned w2 = false then Cause.badLink
          else if headEntry { w0 := w0, w1 := w1, w2 := w2, w3 := w3 } = 0 ∨ usableFor .service e = false then .badEntry
          else .stationHalted) = cause := by
        rw [named]
        exact if_congr misaligned rfl (if_congr barred rfl rfl)
      have goes := headReturned_of_stop suited (by rw [stage]; exact test.trans (congrArg Verdict.stop cause'))
      have items := stopHead_items (stageClass k.stage) k.cur { w0 := w0, w1 := w1, w2 := w2, w3 := w3 } cause room
      obtain ⟨stopped, told, visits⟩ := headStatusWord_stop w3 cause
      rw [goes] at row
      refine ⟨_, _, row, ?_, stopped, told, visits, ?_⟩
      · rw [returned_items, (passOver_decides _ _ _).wq, items, stage]
        rfl
      · rw [← goes]
        exact (headReturned_only _ _ _).trans (returned_decision _)
  · intro s k q later w0 w1 w2 w3 out stream front reader hand running
    have row := exec_headReturned out stream front reader hand w0 w1 w2 w3
    refine ⟨fun stage disabled addr broken => ?_, fun p stage ineligible pass todo few real aligned' other free => ?_⟩
    · have found : traverse (setHand .nothing s) traverseBound k (some k.cur) w0 = .broken addr := by
        obtain ⟨rfl, bad⟩ | ⟨start, real, link, other, many⟩ := broken
        · exact traverse_of_bad 127 bad
        · refine traverse_of_many 127 ⟨real, link⟩ (Bool.eq_false_iff.mpr fun back => other ?_) many start
          exact (endsAt_search (s := setHand .nothing s) stage k.cur w0).mp back
      rw [headReturned_of_unsuited stage (.inl disabled), passOver_of_search stage, searchOn_of_broken found] at row
      obtain ⟨elog, sealed', left, idle, reads, wq, queue, only⟩ :=
        returned_walkerBroken (s := setHand .nothing s) running addr
      exact ⟨_, row, elog, sealed', left, idle, reads, wq, queue, ((setHand_only .nothing s).mono (by decide)).trans only⟩
    · have unsuited : suits s k { w0 := w0, w1 := w1, w2 := w2, w3 := w3 } = false := by
        unfold suits
        rw [stage]
        exact beq_eq_false_iff_ne.mpr ineligible
      have goes : headReturned k { w0 := w0, w1 := w1, w2 := w2, w3 := w3 } s =
          issueHead (nextInPass p w0) (some k.cur) (passAfter k.cur w0 (setHand .nothing s)) := by
        unfold headReturned
        dsimp only
        rw [unsuited]
        exact passOver_timed (h := { w0 := w0, w1 := w1, w2 := w2, w3 := w3 }) stage running pass todo few ⟨real, aligned', free⟩ other
      rw [goes] at row
      obtain ⟨walk, only⟩ := issueHead_nextInPass p w0 k.cur (passAfter k.cur w0 (setHand .nothing s))
      have moved := (returned_walk _).trans walk
      have before : OnlyChanges [.walk] s (passAfter k.cur w0 (setHand .nothing s)) :=
        ((setHand_only .nothing s).mono (by decide)).trans (passAfter_only _ _ _)
      have wq : (issueHead (nextInPass p w0) (some k.cur) (passAfter k.cur w0 (setHand .nothing s))).wq = s.wq :=
        (only .wq (by decide)).trans (before .wq (by decide))
      refine ⟨_, nextInPass p w0, row, ?_, rfl, rfl, ?_, ?_, ?_, ?_, ?_, ?_⟩
      · rw [moved]
      · refine asked_returned (u := passAfter k.cur w0 (setHand .nothing s)) stream front (.inl rfl) w0 16 .head ?_
        rw [issueHead_of_pass (c := .timed) rfl]
        rfl
      · rw [moved]
        rfl
      · rw [returned_items, wq]
      · rw [returned_reserved, wq]
      · rw [returned_queue, only .aiu (by decide), before .aiu (by decide)]
      · exact (before.mono (by decide)).trans ((only.mono (by decide)).trans ((returned_only _).mono (by decide)))
  · intro s k q later c n w0 w1 w2 w3 out stream front reader hand running stage searched unsuited real link
    have row := exec_headReturned out stream front reader hand w0 w1 w2 w3
    rw [headReturned_of_unsuited stage unsuited] at row
    exact ⟨_, row, searchGoesOn (h := { w0 := w0, w1 := w1, w2 := w2, w3 := w3 }) stream front stage searched ⟨real, link⟩,
      (passOver_only _ _ _).trans (returned_decision _)⟩
  · intro s k h q later w0 w1 w2 w3 out stream front reader hand c i r barred
    have row := exec_recordReturned out stream front reader hand w0 w1 w2 w3
    have kind := kindRefused_iff c (payloadMax (getEntry s i)) r
    refine ⟨fun passes allowed => ?_, fun passes refused room => ?_, fun on going some fence => ?_⟩
    · rw [recordReturned_of_work passes, if_neg (fun h => allowed (kind.mp h))] at row
      exact ⟨_, row, (returned_walk _).trans rfl,
        ((setHand_only _ s).mono (by decide)).trans ((returned_only _).mono (by decide))⟩
    · rw [recordReturned_of_work passes, if_pos (kind.mpr refused)] at row
      obtain ⟨items, reserved, slots⟩ := refuseKind_spec k h r room
      obtain ⟨stopped, told, visits⟩ := headStatusWord_stop h.w3 .kindMismatch
      have real : i ≠ 0 := by
        obtain ⟨-, -, -, -, -, real, -⟩ := passes
        exact real
      refine ⟨_, _, row, (returned_items _).trans items, stopped, told, visits, (returned_reserved _).trans reserved, fun sl held => ?_,
        (refuseKind_only _ _ _ _).trans (returned_decision _)⟩
      rw [getSlot_of_same (congrArg Walker.slots (returned_walk _)), slots]
      exact getSlot_dropSlot i h.w2 real held
    · rw [recordReturned_of_fence on going some fence] at row
      have later' := passOver_decides k h (releaseSlots s)
      refine ⟨_, row, ?_, ?_, ?_, getSlot_of_same ?_, ?_⟩
      · rw [returned_items, later'.wq]
        rfl
      · rw [returned_reserved, later'.wq]
        rfl
      · rw [returned_queue, later'.queue]
        rfl
      · rw [returned_walk, later'.slots]
        rfl
      · exact ((releaseSlots_only s).mono (by decide)).trans ((passOver_only _ _ _).trans (returned_decision _))

end Sys2Proof.Machine
end

section
/-! SUPPORT. The beginning of the searches at a decision (R95, R96), and what a candidate or a burst's next exchange needs
(R60, R85, R86, R119). -/

namespace Sys2Proof.Machine

/-! ### Decisions that begin the searches of a ring -/

/-- A decision as it begins from the top. -/
def opened (s : State) : State := beginDecision (decisionFrom s)

theorem opened_only (s : State) : OnlyChanges [.walk, .hport] s (opened s) := by
  have begun : OnlyChanges [.walk] (decisionFrom s) (opened s) := by
    intro block other
    cases block <;> first | rfl | exact absurd (by decide) other
  exact (decisionFrom_only s).trans (begun.mono (by decide))

/-- The rings of the window, from the first one with an anchor (R95). -/
theorem offerRings_opened {s : State} (running : s.seq.state = .running) (window : aperiodicWindow s) {c : RingClass}
    (first : c = .service ∨ (c = .bulk ∧ s.walk.window = .late ∧ latchedAnchor s .service = 0)) :
    ∃ rest, offerRings (windowRings (opened s)) (opened s) = offerRings (c :: rest) (opened s) := by
  have early : s.walk.window = .early → windowRings (opened s) = [.service] := fun early => by
    unfold windowRings
    rw [if_pos (by exact running), show (opened s).walk.window = .early from early]
  have late : s.walk.window = .late → windowRings (opened s) = [.service, .bulk] := fun late => by
    unfold windowRings
    rw [if_pos (by exact running), show (opened s).walk.window = .late from late]
  obtain rfl | ⟨rfl, inLate, zero⟩ := first
  · obtain inLate | ⟨inEarly, -⟩ := window
    · exact ⟨[.bulk], by rw [late inLate]⟩
    · exact ⟨[], by rw [early inEarly]⟩
  · exact ⟨[], by rw [late inLate]; exact offerRings_of_zero [.bulk] zero⟩

section
variable {s : State} (may : MayDecide s) (running : s.seq.state = .running) (hand : s.walk.hand = .nothing)
  (waits : s.walk.waiting = false) (more : s.walk.aperiodicOver = false) (quiet : s.dau.pending = []) (window : aperiodicWindow s)
include may hand waits more quiet window

/-- With no direct request the rings are offered. -/
theorem exec_decision_rings : exec .walkerDecision s =
    .next (decided (decisionFrom s).hport.reads.length (offerRings (windowRings (opened s)) (opened s))) := by
  rw [exec_decision_aperiodic may hand waits window more, quiet]
  rfl

include running

/-- A decision that begins a search. -/
theorem decision_begins {c : RingClass}
    (first : c = .service ∨ (c = .bulk ∧ s.walk.window = .late ∧ latchedAnchor s .service = 0)) {n : Search}
    {from' : Option Cursor} {rot : Rotation} {firstEmpty : Bool} {prev : Option Word}
    (found : beginRing (opened s) c =
      .head (firstOfSearch c n (searchHead (latchedAnchor s c) from') rot firstEmpty) prev) :
    ∃ t, exec .walkerDecision s = .next t ∧ BeginsSearch c n from' rot firstEmpty s t ∧
      t.walk = { s.walk with hand := t.walk.hand, look := .nothing, waiting := true } ∧
      OnlyChanges [.walk, .hport, .wq, .aiu] s t := by
  obtain ⟨rest, rings⟩ := offerRings_opened running window first
  have row := exec_decision_rings may hand waits more quiet window
  rw [rings, offerRings_of_head rest found] at row
  obtain ⟨walk, reads, only⟩ := issueHead_search
    (k := firstOfSearch c n (searchHead (latchedAnchor s c) from') rot firstEmpty) rfl prev (opened s)
  have moved := (decided_walk (decisionFrom s).hport.reads.length _).trans walk
  have unsealed : (issueHead (firstOfSearch c n (searchHead (latchedAnchor s c) from') rot firstEmpty) prev (opened s)).seq.state ≠
      .sealed := by
    rw [only .seq (by decide), opened_only s .seq (by decide), running]
    exact nofun
  refine ⟨_, row, ⟨?_, asked_decided unsealed reads⟩, ?_, ?_⟩
  · rw [moved]
    rfl
  · rw [moved]
    rfl
  · exact ((opened_only s).mono (by decide)).trans ((only.mono (by decide)).trans ((decided_only _ _).mono (by decide)))

end

/-- Where no pass has an anchor, the look-ahead of the early window finds nothing. -/
theorem waitLook_early {s : State} (running : s.seq.state = .running) (restart : s.seq.restartInHand = false)
    (early : s.walk.window = .early) (timed : latchedAnchor s .timed = 0) (stream : latchedAnchor s .stream = 0) :
    waitLook s = decisionFrom (walkerWaits s) := by
  have nothing (after : State → State) (c : RingClass) (u : State) (zero : latchedAnchor u c = 0) :
      lookFound after (freshPass u c) u = after u := by
    rw [freshPass_of_zero zero]
    rfl
  have noStream (u : State) (zero : latchedAnchor u .stream = 0) : lookStream u = u := by
    unfold lookStream
    split
    · rfl
    · exact nothing id .stream u zero
  have anchors (c : RingClass) : latchedAnchor (decisionFrom (walkerWaits s)) c = latchedAnchor s c := rfl
  have passes : lookPasses (decisionFrom (walkerWaits s)) = decisionFrom (walkerWaits s) := by
    have rest := noStream (decisionFrom (walkerWaits s)) ((anchors .stream).trans stream)
    unfold lookPasses
    split
    · exact rest
    · exact (nothing lookStream .timed _ ((anchors .timed).trans timed)).trans rest
  unfold waitLook lookAhead
  rw [if_pos ⟨running, restart⟩]
  dsimp only
  rw [show (cancelReads lookReader (setLook .nothing (walkerWaits s))).walk.window = .early from early]
  exact passes

/-! ### The rows of a candidate and of a burst -/

theorem exec_decision_candidate {s : State} (may : MayDecide s) {k : Seek} {t : Turn} (hand : s.walk.hand = .candidate k t) :
    exec .walkerDecision s = .next (decided (decisionFrom s).hport.reads.length (judgeCandidate k t (decisionFrom s))) := by
  refine (next_unlessHeld may.awake walkerDecision).trans (congrArg _ ?_)
  unfold walkerDecision
  rw [may.guard, hand]
  rfl

theorem exec_decision_burst {s : State} (may : MayDecide s) {t : Turn} (hand : s.walk.hand = .turn t) (phase : t.phase = .burstReady) :
    exec .walkerDecision s = .next (decided (decisionFrom s).hport.reads.length (burstExchange t (decisionFrom s))) := by
  refine (next_unlessHeld may.awake walkerDecision).trans (congrArg _ ?_)
  unfold walkerDecision
  rw [may.guard, hand]
  dsimp only
  rw [if_pos phase]
  rfl

/-! ### The slot and the packet of the next exchange (R85, R86) -/

theorem takeSlot_walk (h r : Rec) (s : State) : (takeSlot h r s).walk = { s.walk with slots := (takeSlot h r s).walk.slots } := by
  unfold takeSlot
  split
  · rfl
  · unfold setSlot
    split <;> rfl

theorem slotFor_of_same {s t : State} (same : t.walk.slots = s.walk.slots) (i : EntryIx) (record : Word) (kind : RecKind) :
    slotFor t i record kind = slotFor s i record kind := by
  unfold slotFor
  rw [getSlot_of_same same]

/-- The slot of the next exchange's record (R85). -/
theorem slotFor_takeSlot {s : State} {t : Turn} {g : Nat} {tailOnly : Bool} (done : doneSoFar s t g tailOnly) :
    slotFor (takeSlot t.head t.seg s) (headEntry t.head) t.record (recKind t.seg) =
      some { record := t.record, kind := recKind t.seg, progress := g, tailOnly := tailOnly } := by
  obtain ⟨real, own, held | ⟨empty, rfl, rfl⟩, -⟩ := done
  · have keeps : takeSlot t.head t.seg s = s := by
      unfold takeSlot
      rw [← own, held]
    rw [keeps, held]
  · unfold takeSlot
    rw [← own, empty]
    dsimp only
    unfold slotFor
    rw [getSlot_setSlot_same real]
    simp

theorem progressOf_takeSlot {s : State} {t : Turn} {g : Nat} {tailOnly : Bool} (done : doneSoFar s t g tailOnly) :
    progressOf (takeSlot t.head t.seg s) t.head t.seg = (g, tailOnly) := by
  have held := slotFor_takeSlot done
  obtain ⟨-, own, -⟩ := done
  unfold progressOf
  rw [← own, held]

/-- Software has not shortened the record to its progress. -/
theorem shortened_of_done {s : State} {t : Turn} {g : Nat} {tailOnly : Bool} (done : doneSoFar s t g tailOnly) :
    shortened t.seg g tailOnly = none := by
  obtain ⟨-, -, -, none' | ⟨some, kind⟩ | ⟨all, push, tail⟩⟩ := done
  · rw [none']
    exact if_pos rfl
  · have length : g < recLength t.seg := some
    unfold shortened
    split
    case isTrue => rfl
    case isFalse =>
      obtain push | pull := kind
      · rw [push]
        dsimp only
        rw [pushLength_of_push push, if_neg (by omega)]
      · rw [pull]
        dsimp only
        rw [if_neg (by omega)]
  · have length : g = recLength t.seg := all
    unfold shortened
    split
    case isTrue => rfl
    case isFalse =>
      rw [push]
      dsimp only
      rw [pushLength_of_push push, tail, if_neg (by rintro (h | ⟨-, h⟩); exacts [absurd h (by omega), nomatch h])]

theorem planRequest_eq (p : Nat) (r : Rec) (g : Nat) (tailOnly : Bool) : planRequest p r g tailOnly = packetByRules p r g tailOnly := by
  have length : (r.w2.extractLsb' 16 14).toNat = recLength r := rfl
  unfold planRequest packetByRules
  rw [length]
  match kind : recKind r with
  | .pull => rfl
  | .open => rfl
  | .nudge =>
    dsimp only
    unfold pushLength
    rw [kind]
    simp
  | .push =>
    dsimp only
    rw [pushLength_of_push kind]
    simp

/-- A packet is a tail if it has no bytes. -/
theorem planTail_eq {s : State} {t : Turn} {g : Nat} {tailOnly : Bool} (done : doneSoFar s t g tailOnly) {p : Nat} (some : 0 < p) :
    planTail t.seg tailOnly = decide (packetByRules p t.seg g tailOnly = .push 0) := by
  obtain ⟨-, -, -, progress⟩ := done
  have length : (t.seg.w2.extractLsb' 16 14).toNat = recLength t.seg := rfl
  rw [Bool.eq_iff_iff, decide_eq_true_iff]
  unfold planTail packetByRules
  rw [length] at progress ⊢
  match kind : recKind t.seg with
  | .pull => simp
  | .open => simp
  | .nudge =>
    dsimp only
    unfold pushLength
    rw [kind]
    simp
  | .push =>
    dsimp only
    rw [pushLength_of_push kind]
    by_cases tail : tailOnly = true ∨ recLength t.seg = 0
    · rw [if_pos tail]
      simpa using tail
    · rw [if_neg tail]
      have packet : min p (recLength t.seg - g) ≠ 0 := by
        obtain none' | ⟨left, -⟩ | ⟨-, -, last⟩ := progress
        · omega
        · omega
        · exact absurd (.inl last) tail
      simp only [not_or] at tail
      simp [tail, packet]

end Sys2Proof.Machine
end

section
/-! SUPPORT. The next exchange of a candidate or a burst: its packet, its estimate, its start or its refusal (R60 to R62, R97, R119). -/

namespace Sys2Proof.Machine

/-! ### The packet and the staging buffer (R117, R119) -/

/-- The tag of the packet a request sends. -/
def packetTag (t : Turn) (g : Nat) (q : Request) : StageTag := .packet (headEntry t.head) t.record g ((packetBytes q).getD 0)

/-- The fill of the packet a request sends. -/
def packetFill (t : Turn) (g n : Nat) : FillReq :=
  { tag := .packet (headEntry t.head) t.record g n, addr := t.seg.w1 + BitVec.ofNat 32 g, len := n }

theorem fillFor_eq (t : Turn) (q : Request) (g : Nat) :
    fillFor q (headEntry t.head) t.record t.seg.w1 g = (packetBytes q).map (packetFill t g) := by
  cases q <;> rfl

/-- The state with the packet of the next exchange asked for. -/
def withFill (t : Turn) (q : Request) (g : Nat) (s : State) : State :=
  match packetBytes q with
  | some n => requestFill (packetFill t g n) s
  | none => s

theorem withFill_only (t : Turn) (q : Request) (g : Nat) (s : State) : OnlyChanges [.stage, .hport] s (withFill t q g s) := by
  unfold withFill
  split
  · exact requestFill_only _ s
  · exact .refl _ s

/-- The packet is ready: the request sends none, it is STAGED, or it has no bytes and the buffer is EMPTY. -/
def packetReady (t : Turn) (q : Request) (g : Nat) (s : State) : Prop :=
  packetBytes q = none ∨ stagedFor (packetTag t g q) s = true ∨ (packetBytes q = some 0 ∧ s.stage.buf = .empty)

theorem staged_withFill {t : Turn} {q : Request} {g : Nat} {s : State} (ready : packetReady t q g s) (some : packetBytes q ≠ none) :
    stagedFor (packetTag t g q) (withFill t q g s) = true := by
  obtain ⟨n, bytes⟩ := Option.ne_none_iff_exists'.mp some
  have tag : packetTag t g q = (packetFill t g n).tag := by
    unfold packetTag
    rw [bytes]
    rfl
  have fill : withFill t q g s = requestFill (packetFill t g n) s := by
    unfold withFill
    rw [bytes]
  rw [fill, tag]
  obtain none' | staged | ⟨zero, empty⟩ := ready
  · exact absurd none' some
  · rw [tag] at staged
    have held := staged
    unfold stagedFor at staged
    split at staged
    case h_1 own l buffer =>
      unfold requestFill
      rw [buffer]
      dsimp only
      rw [if_pos (beq_iff_eq.mp staged)]
      exact held
    case h_2 => cases staged
  · cases bytes.symm.trans zero
    unfold requestFill
    rw [empty]
    exact beq_iff_eq.mpr rfl

/-- A packet with bytes is not ready while the buffer is EMPTY. -/
theorem unstaged_withFill {t : Turn} {q : Request} {g n : Nat} {s : State} (bytes : packetBytes q = some n) (some : n ≠ 0)
    (empty : s.stage.buf = .empty) : stagedFor (packetTag t g q) (withFill t q g s) = false := by
  unfold withFill
  rw [bytes]
  dsimp only
  unfold requestFill
  rw [empty]
  dsimp only
  rw [if_neg (show (packetFill t g n).len ≠ 0 from some)]
  rfl

theorem burstPacket_of_ready {t : Turn} {q : Request} {g : Nat} {s : State} (ready : packetReady t q g s) (tail : Bool) :
    burstPacket t q tail g s = chooseRing t q tail (withFill t q g s) := by
  unfold burstPacket
  rw [fillFor_eq]
  cases bytes : packetBytes q with
  | none =>
    unfold withFill
    rw [bytes]
    rfl
  | some n =>
    have staged := staged_withFill ready (by rw [bytes]; exact nofun)
    unfold packetTag withFill at staged
    unfold withFill
    rw [bytes] at staged ⊢
    exact if_pos staged

theorem tryPacket_of_ready {k : Seek} {t : Turn} {q : Request} {g : Nat} {s : State} (ready : packetReady t q g s) (tail : Bool) :
    tryPacket k t q tail g s =
      chooseRing { t with undo := undoOf k (withFill t q g s) } q tail (giveTurn k t.head (withFill t q g s)) := by
  unfold tryPacket
  rw [fillFor_eq]
  cases bytes : packetBytes q with
  | none =>
    unfold withFill
    rw [bytes]
    rfl
  | some n =>
    have staged := staged_withFill ready (by rw [bytes]; exact nofun)
    unfold packetTag withFill at staged
    unfold withFill
    rw [bytes] at staged ⊢
    exact if_pos staged

theorem tryPacket_of_unstaged {k : Seek} {t : Turn} {q : Request} {g n : Nat} {s : State} (bytes : packetBytes q = some n)
    (some : n ≠ 0) (empty : s.stage.buf = .empty) (tail : Bool) :
    tryPacket k t q tail g s = notReady k t (packetTag t g q) (withFill t q g s) := by
  have staged := unstaged_withFill (t := t) (g := g) bytes some empty
  unfold tryPacket
  rw [fillFor_eq]
  unfold packetTag withFill at staged ⊢
  rw [bytes] at staged ⊢
  exact if_neg (Bool.eq_false_iff.mp staged)

/-! ### The estimate (R59, R60) -/

/-- The exchange fits before the late mark. -/
def fitsBeforeMark (s : State) (q : Request) (g : Segment) : Prop :=
  ringSymbols q (timeoutSymbols g.timeout) * (if g.reduced then 4 else 1) + s.ctim.markSampled.toNat ≤ s.ctim.remain.toNat

theorem estimateSymbols_ring {q : Request} (ring : isDirect q = false) (T : Nat) : estimateSymbols q T = ringSymbols q T := by
  match q with
  | .push n =>
    show frameCost n + T + frameCost 0 = 48 + 10 * n + T
    unfold frameCost
    omega
  | .open =>
    show frameCost 8 + T + frameCost 0 = 128 + T
    unfold frameCost
    omega
  | .pull p =>
    show frameCost 0 + T + frameCost p + frameCost 0 = 72 + 10 * p + T
    unfold frameCost
    omega
  | .peek len | .poke len => cases ring

theorem startRule_iff {q : Request} (ring : isDirect q = false) (s : State) (g : Seg) :
    startRule s q g = true ↔ fitsBeforeMark s q (getSeg s g) := by
  unfold startRule estimateTicks fitsBeforeMark
  rw [estimateSymbols_ring ring, decide_eq_true_iff]
  rfl

theorem isDirect_packetByRules (p : Nat) (r : Rec) (g : Nat) (tailOnly : Bool) : isDirect (packetByRules p r g tailOnly) = false := by
  unfold packetByRules
  dsimp only
  match recKind r with
  | .push =>
    dsimp only
    split <;> rfl
  | .pull | .open | .nudge => rfl

/-! ### The start (R60, R96, R97) -/

/-- The exchange of the turn `c` starts with the packet `q`. -/
structure StartsPacket (c : Turn) (q : Request) (g : Nat) (tailOnly : Bool) (s t : State) : Prop where
  engine : t.xeng = some { phase := .held, request := q, direct := false, entry := headEntry c.head,
                           segment := (getEntry s (headEntry c.head)).segment,
                           maxPayload := 8 * 2 ^ (getEntry s (headEntry c.head)).payloadCode.toNat,
                           tail := decide (q = .push 0), frame := none, room := 0, data := [], accept := none,
                           rewritten := false }
  staged : packetBytes q ≠ none → stagedFor (packetTag c g q) t = true
  slot : slotFor t (headEntry c.head) c.record (recKind c.seg) =
    some { record := c.record, kind := recKind c.seg, progress := g, tailOnly := tailOnly }
  only : OnlyChanges [.xeng, .stage, .walk, .hport, .wq, .aiu] s t

theorem startsPacket {c T : Turn} {q : Request} {g : Nat} {tailOnly : Bool} {s w : State}
    (kept : OnlyChanges [.stage, .walk, .hport] s w) (head : T.head = c.head)
    (staged : packetBytes q ≠ none → stagedFor (packetTag c g q) w = true)
    (slot : slotFor w (headEntry c.head) c.record (recKind c.seg) =
      some { record := c.record, kind := recKind c.seg, progress := g, tailOnly := tailOnly }) (n : Nat) :
    StartsPacket c q g tailOnly s (decided n (chooseRing T q (decide (q = .push 0)) w)) := by
  have chosen := chooseRing_only T q (decide (q = .push 0)) w
  have later := decided_only n (chooseRing T q (decide (q = .push 0)) w)
  refine ⟨?_, fun some => ?_, ?_, (kept.mono (by decide)).trans ((chosen.mono (by decide)).trans (later.mono (by decide)))⟩
  · rw [later .xeng (by decide)]
    unfold chooseRing
    dsimp only
    rw [head, getEntry_of_table (kept .table (by decide))]
    rfl
  · have buffer : (decided n (chooseRing T q (decide (q = .push 0)) w)).stage = w.stage :=
      (later .stage (by decide)).trans (chosen .stage (by decide))
    unfold stagedFor at staged ⊢
    rw [buffer]
    exact staged some
  · rw [slotFor_of_same (s := w) (by rw [decided_walk]; rfl)]
    exact slot

end Sys2Proof.Machine
end

section
/-! SUPPORT. What a decision makes of a candidate and of a burst (R60 to R62, R95 to R97): the settlement of O38. -/

namespace Sys2Proof.Machine

/-! ### The judgement of a candidate and of a burst's next exchange -/

/-- The packet of the next exchange of the turn `c`, with the entry as it stands (R66, R74). -/
def nextPacket (s : State) (c : Turn) (g : Nat) (tailOnly : Bool) : Request :=
  packetByRules (8 * 2 ^ (getEntry s (headEntry c.head)).payloadCode.toNat) c.seg g tailOnly

/-- The estimate of the next exchange ends before the late mark (R60). -/
def nextFits (s : State) (c : Turn) (g : Nat) (tailOnly : Bool) : Prop :=
  fitsBeforeMark s (nextPacket s c g tailOnly) (getSeg s (getEntry s (headEntry c.head)).segment)

section
variable {s : State} {c : Turn} {g : Nat} {tailOnly : Bool} (passes : passesTests s c.cls c.head) (done : doneSoFar s c g tailOnly)

theorem planRequest_takeSlot : planRequest (payloadMax (getEntry (takeSlot c.head c.seg s) (headEntry c.head))) c.seg g tailOnly =
    nextPacket s c g tailOnly := by
  rw [planRequest_eq, getEntry_of_table (takeSlot_only c.head c.seg s .table (by decide))]
  rfl

theorem startRule_takeSlot : startRule (takeSlot c.head c.seg s) (nextPacket s c g tailOnly)
    (getEntry (takeSlot c.head c.seg s) (headEntry c.head)).segment = true ↔ nextFits s c g tailOnly := by
  have kept := takeSlot_only c.head c.seg s
  have ring : isDirect (nextPacket s c g tailOnly) = false := isDirect_packetByRules _ _ _ _
  rw [startRule_iff ring, getEntry_of_table (kept .table (by decide)),
    getSeg_of_only kept (by cases (getEntry s (headEntry c.head)).segment <;> decide)]
  unfold fitsBeforeMark nextFits fitsBeforeMark
  rw [kept .ctim (by decide)]

include passes done

/-- A candidate whose tests still pass goes to its packet, or fails the start rule. -/
theorem judgeCandidate_eq {k : Seek} (open' : ¬(s.walk.window = .early ∧ s.ctim.remain.toNat ≤ s.ctim.openSampled.toNat)) :
    judgeCandidate k c s = if startRule (takeSlot c.head c.seg s) (nextPacket s c g tailOnly)
        (getEntry (takeSlot c.head c.seg s) (headEntry c.head)).segment
      then tryPacket k c (nextPacket s c g tailOnly) (decide (nextPacket s c g tailOnly = .push 0)) g (takeSlot c.head c.seg s)
      else failsStart k c (takeSlot c.head c.seg s) := by
  unfold judgeCandidate
  rw [if_neg open', (workTest_iff _ _ _).mpr passes]
  dsimp only
  unfold judgeWork
  dsimp only
  rw [progressOf_takeSlot done]
  dsimp only
  rw [shortened_of_done done]
  dsimp only
  rw [planRequest_takeSlot]
  exact if_congr Iff.rfl (congrArg (tryPacket k c (nextPacket s c g tailOnly) · g (takeSlot c.head c.seg s))
    (planTail_eq done (Nat.mul_pos (by decide) (Nat.two_pow_pos _)))) rfl

theorem burstExchange_eq : burstExchange c s = if startRule (takeSlot c.head c.seg s) (nextPacket s c g tailOnly)
        (getEntry (takeSlot c.head c.seg s) (headEntry c.head)).segment
      then burstPacket c (nextPacket s c g tailOnly) (decide (nextPacket s c g tailOnly = .push 0)) g (takeSlot c.head c.seg s)
      else endTurn c none (endAperiodic (putBack c (takeSlot c.head c.seg s))) := by
  unfold burstExchange
  rw [testEntry_of_passes passes]
  dsimp only
  rw [progressOf_takeSlot done]
  dsimp only
  rw [shortened_of_done done]
  dsimp only
  rw [planRequest_takeSlot]
  exact if_congr Iff.rfl (congrArg (burstPacket c (nextPacket s c g tailOnly) · g (takeSlot c.head c.seg s))
    (planTail_eq done (Nat.mul_pos (by decide) (Nat.two_pow_pos _)))) rfl

end

/-! ### The rotation and the slot -/

theorem giveTurn_slots (k : Seek) (h : Rec) (s : State) : (giveTurn k h s).walk.slots = s.walk.slots := by
  have rot (c : RingClass) (r : Rotation) : (setRot c r s).walk.slots = s.walk.slots := by cases c <;> rfl
  unfold giveTurn
  dsimp only
  split
  · rfl
  · exact rot _ _
  · exact rot _ _

theorem getRot_giveTurn {k : Seek} {r : RingClass} {n : Search} (stage : k.stage = .search r n) (searched : r = .service ∨ r = .bulk)
    (h : Rec) (s : State) : getRot (giveTurn k h s) r = if n = .low
      then { k.rot with low := some { head := k.cur, link := h.w0 }, lowTurn := false }
      else { k.rot with high := some { head := k.cur, link := h.w0 } } := by
  unfold giveTurn
  rw [stage]
  cases n <;> exact getRot_setRot_same searched _ s

theorem undoOf_of_walk {s t : State} (service : t.walk.service = s.walk.service) (bulk : t.walk.bulk = s.walk.bulk) (k : Seek) :
    undoOf k t = undoOf k s := by
  unfold undoOf
  split
  · rfl
  · unfold getRot
    rw [service, bulk]

/-- The state in which the next exchange is chosen. -/
def prepared (c : Turn) (q : Request) (g : Nat) (s : State) : State := withFill c q g (takeSlot c.head c.seg (decisionFrom s))

theorem takeSlot_decisionFrom_only (h r : Rec) (s : State) : OnlyChanges [.walk, .hport] s (takeSlot h r (decisionFrom s)) :=
  (decisionFrom_only s).trans ((takeSlot_only _ _ _).mono (by decide))

theorem prepared_only (c : Turn) (q : Request) (g : Nat) (s : State) : OnlyChanges [.stage, .walk, .hport] s (prepared c q g s) :=
  ((takeSlot_decisionFrom_only _ _ s).mono (by decide)).trans ((withFill_only _ _ _ _).mono (by decide))

theorem prepared_walk (c : Turn) (q : Request) (g : Nat) (s : State) :
    (prepared c q g s).walk = { s.walk with look := .nothing, slots := (prepared c q g s).walk.slots } := by
  have same : (prepared c q g s).walk = (takeSlot c.head c.seg (decisionFrom s)).walk := withFill_only _ _ _ _ .walk (by decide)
  rw [same, takeSlot_walk]
  rfl

theorem slotFor_prepared {s : State} {c : Turn} {g : Nat} {tailOnly : Bool} (done : doneSoFar s c g tailOnly) (q : Request) :
    slotFor (prepared c q g s) (headEntry c.head) c.record (recKind c.seg) =
      some { record := c.record, kind := recKind c.seg, progress := g, tailOnly := tailOnly } := by
  have same : (prepared c q g s).walk = (takeSlot c.head c.seg (decisionFrom s)).walk := withFill_only _ _ _ _ .walk (by decide)
  rw [slotFor_of_same (congrArg Walker.slots same)]
  exact slotFor_takeSlot (s := decisionFrom s) done

/-! ### A start -/

section
variable {s : State} (may : MayDecide s) {c : Turn} {g : Nat} {tailOnly : Bool} (passes : passesTests s c.cls c.head)
  (done : doneSoFar s c g tailOnly) (fits : nextFits s c g tailOnly) (ready : packetReady c (nextPacket s c g tailOnly) g s)
include may passes done fits ready

/-- A burst that goes on starts its next exchange (R97). -/
theorem burst_starts (hand : s.walk.hand = .turn c) (phase : c.phase = .burstReady) :
    ∃ t, exec .walkerDecision s = .next t ∧ StartsPacket c (nextPacket s c g tailOnly) g tailOnly s t ∧
      t.walk.hand = .turn { c with phase := .exchanging } := by
  have row := exec_decision_burst may hand phase
  have ready' : packetReady c (nextPacket s c g tailOnly) g (takeSlot c.head c.seg (decisionFrom s)) := by
    have stage := takeSlot_decisionFrom_only c.head c.seg s .stage (by decide)
    unfold packetReady stagedFor
    rw [show (takeSlot c.head c.seg (decisionFrom s)).stage = s.stage from stage]
    exact ready
  rw [burstExchange_eq (by exact passes) (by exact done), if_pos (startRule_takeSlot.mpr (by exact fits)), burstPacket_of_ready (by exact ready')] at row
  refine ⟨_, row, startsPacket (w := prepared c (nextPacket s c g tailOnly) g s) (prepared_only _ _ _ s) rfl
    (staged_withFill ready') (slotFor_prepared done _) _, ?_⟩
  rw [decided_walk]
  rfl

/-- A candidate starts its packet, with its place in the rotation (R60, R96). -/
theorem candidate_starts {k : Seek} (hand : s.walk.hand = .candidate k c)
    (open' : ¬(s.walk.window = .early ∧ s.ctim.remain.toNat ≤ s.ctim.openSampled.toNat)) :
    ∃ t, exec .walkerDecision s = .next t ∧ StartsPacket c (nextPacket s c g tailOnly) g tailOnly s t ∧
      t.walk.hand = .turn { c with undo := undoOf k s, phase := .exchanging } ∧
      (∀ r n, k.stage = .search r n → r = .service ∨ r = .bulk → getRot t r = (if n = .low
        then { k.rot with low := some { head := k.cur, link := c.head.w0 }, lowTurn := false }
        else { k.rot with high := some { head := k.cur, link := c.head.w0 } })) := by
  have row := exec_decision_candidate may hand
  have ready' : packetReady c (nextPacket s c g tailOnly) g (takeSlot c.head c.seg (decisionFrom s)) := by
    have stage := takeSlot_decisionFrom_only c.head c.seg s .stage (by decide)
    unfold packetReady stagedFor
    rw [show (takeSlot c.head c.seg (decisionFrom s)).stage = s.stage from stage]
    exact ready
  rw [judgeCandidate_eq (by exact passes) (by exact done) (by exact open'), if_pos (startRule_takeSlot.mpr (by exact fits)),
    tryPacket_of_ready (by exact ready')] at row
  have given := giveTurn_only k c.head (prepared c (nextPacket s c g tailOnly) g s)
  have walk := prepared_walk c (nextPacket s c g tailOnly) g s
  have undo : undoOf k (prepared c (nextPacket s c g tailOnly) g s) = undoOf k s :=
    undoOf_of_walk (by rw [walk]) (by rw [walk]) k
  refine ⟨_, row, startsPacket (c := c) (T := { c with undo := undoOf k (prepared c (nextPacket s c g tailOnly) g s) })
    (w := giveTurn k c.head (prepared c (nextPacket s c g tailOnly) g s))
    ((prepared_only _ _ _ s).trans (given.mono (by decide))) rfl (fun some => ?_) ?_ _, ?_, fun r n stage searched => ?_⟩
  · unfold stagedFor
    rw [given .stage (by decide)]
    exact staged_withFill ready' some
  · rw [slotFor_of_same (giveTurn_slots _ _ _)]
    exact slotFor_prepared done _
  · rw [decided_walk]
    exact congrArg (fun u => Hand.turn { c with undo := u, phase := .exchanging }) undo
  · refine Eq.trans ?_ (getRot_giveTurn stage searched c.head (prepared c (nextPacket s c g tailOnly) g s))
    unfold getRot
    rw [decided_walk]
    rfl

end

/-! ### A refusal of the start rule (R62) -/

theorem putBack_eq (t : Turn) (s : State) : (putBack t s).walk.hand = s.walk.hand ∧
    (t.cls = .bulk → (∀ rot, t.undo = some rot → (putBack t s).walk.bulk = rot) ∧ (putBack t s).walk.service = s.walk.service) := by
  have rot (c : RingClass) (r : Rotation) : (setRot c r s).walk.hand = s.walk.hand := by cases c <;> rfl
  unfold putBack
  split
  case h_1 r undo =>
    refine ⟨rot _ _, fun bulk => ?_⟩
    rw [bulk]
    exact ⟨fun own same => Option.some.inj (undo.symm.trans same), rfl⟩
  case h_2 none' => exact ⟨rfl, fun _ => ⟨fun own same => absurd (none'.symm.trans same) nofun, rfl⟩⟩

theorem endAperiodic_only (s : State) : OnlyChanges [.walk] s (endAperiodic s) := by
  intro block other
  cases block <;> first | rfl | exact absurd (by decide) other

/-- A burst that fails the start rule ends with its status write, and its head keeps its place (R62, R97). -/
theorem burst_refused {s : State} (may : MayDecide s) {c : Turn} {g : Nat} {tailOnly : Bool} (passes : passesTests s c.cls c.head)
    (done : doneSoFar s c g tailOnly) (fails : ¬nextFits s c g tailOnly) (hand : s.walk.hand = .turn c) (phase : c.phase = .burstReady)
    {o : XOutcome} (bulk : c.cls = .bulk) (made : 0 < c.made) (last : c.last = some o) (plain : c.skipping = none)
    (room : s.wq.items.length < 32) : ∃ t word, exec .walkerDecision s = .next t ∧
      t.walk.aperiodicOver = true ∧ t.walk.hand = .nothing ∧ t.xeng = none ∧
      t.wq.items = s.wq.items ++ [.status c.addr word .bulk (headEntry c.head) (headNotifyVisit c.head) none c.head.w0] ∧
      word.extractLsb' 8 4 = outcomeCode o ∧ word.getLsbD 0 = c.head.w3.getLsbD 0 ∧ t.wq.reserved = 0 ∧
      (∀ rot, c.undo = some rot → t.walk.bulk = rot) ∧ t.walk.service = s.walk.service ∧
      t.aiu.queue = s.aiu.queue ∧ OnlyChanges [.walk, .hport, .wq, .aiu] s t := by
  have row := exec_decision_burst may hand phase
  rw [burstExchange_eq (by exact passes) (by exact done), if_neg (mt (startRule_takeSlot (s := decisionFrom s)).mp (by exact fails))] at row
  have before : OnlyChanges [.walk, .hport] s (endAperiodic (putBack c (takeSlot c.head c.seg (decisionFrom s)))) :=
    (takeSlot_decisionFrom_only _ _ s).trans (((putBack_only _ _).mono (by decide)).trans ((endAperiodic_only _).mono (by decide)))
  have slot := takeSlot_walk c.head c.seg (decisionFrom s)
  have places := (putBack_eq c (takeSlot c.head c.seg (decisionFrom s))).2 bulk
  have service : (endAperiodic (putBack c (takeSlot c.head c.seg (decisionFrom s)))).walk.service = s.walk.service :=
    places.2.trans (by rw [slot]; rfl)
  have over' : (endAperiodic (putBack c (takeSlot c.head c.seg (decisionFrom s)))).walk.aperiodicOver = true := rfl
  have kept : ∀ rot, c.undo = some rot → (endAperiodic (putBack c (takeSlot c.head c.seg (decisionFrom s)))).walk.bulk = rot :=
    places.1
  generalize endAperiodic (putBack c (takeSlot c.head c.seg (decisionFrom s))) = v at row before service over' kept
  have items := endTurn_visit c o none (s := v) (.inl (by rw [before .wq (by decide)]; exact room)) (Nat.ne_of_gt made) last
  have walk := endTurn_walk c none v
  have only := endTurn_only c none v
  have wq := endTurn_wq c none v
  obtain ⟨-, outcome, -, stopped, -⟩ := headStatusWord_visit c.head.w3 o none none
  refine ⟨_, headStatusWord c.head.w3 (some o) none none, row, ?_, ?_, ?_, ?_, outcome, stopped, ?_, ?_, ?_, ?_, ?_⟩
  · rw [decided_walk, walk]
    exact over'
  · rw [decided_walk, walk]
  · exact (decided_only _ _ .xeng (by decide)).trans ((only .xeng (by decide)).trans ((before .xeng (by decide)).trans may.free))
  · rw [(decided_wq _ _).1, items, before .wq (by decide), plain, bulk]
    rfl
  · rw [(decided_wq _ _).2, wq]
  · rw [decided_walk, walk]
    exact kept
  · rw [decided_walk, walk]
    exact service
  · rw [decided_aiu, only .aiu (by decide), before .aiu (by decide)]
  · exact (before.mono (by decide)).trans ((only.mono (by decide)).trans ((decided_only _ _).mono (by decide)))

/-- With aperiodic work over, the look-ahead of the late window asks for nothing. -/
theorem waitLook_late {s : State} (late : s.walk.window = .late) (over' : s.walk.aperiodicOver = true) :
    OnlyChanges [.walk, .hport] s (waitLook s) := by
  have waits : OnlyChanges [.walk, .hport] s (walkerWaits s) := (walkerWaits_only s).mono (by decide)
  unfold waitLook lookAhead
  split
  case isTrue =>
    dsimp only
    rw [show (cancelReads lookReader (setLook .nothing (walkerWaits s))).walk.window = .late from late]
    have idle : lookLate (decisionFrom (walkerWaits s)) = decisionFrom (walkerWaits s) := by
      unfold lookLate lookAperiodic
      rw [show (decisionFrom (walkerWaits s)).walk.hand = .nothing from rfl,
        show (decisionFrom (walkerWaits s)).walk.aperiodicOver = true from over']
      rfl
    exact waits.trans (idle.symm ▸ decisionFrom_only (walkerWaits s))
  case isFalse => exact waits

/-- A ring's candidate that fails the start rule ends aperiodic work and keeps its place (R62). -/
theorem candidate_refused {s : State} (may : MayDecide s) {c : Turn} {g : Nat} {tailOnly : Bool} (passes : passesTests s c.cls c.head)
    (done : doneSoFar s c g tailOnly) (fails : ¬nextFits s c g tailOnly) {k : Seek} (hand : s.walk.hand = .candidate k c)
    (open' : ¬(s.walk.window = .early ∧ s.ctim.remain.toNat ≤ s.ctim.openSampled.toNat)) {r : RingClass} {n : Search}
    (stage : k.stage = .search r n) : ∃ t, exec .walkerDecision s = .next t ∧
      t.walk.aperiodicOver = true ∧ t.walk.hand = .nothing ∧ t.xeng = none ∧ t.wq.items = s.wq.items ∧
      t.wq.reserved = 0 ∧ t.aiu.queue = s.aiu.queue ∧ t.walk.service = s.walk.service ∧ t.walk.bulk = s.walk.bulk ∧
      (s.walk.window = .late → OnlyChanges [.walk, .hport, .wq, .aiu] s t) := by
  have row := exec_decision_candidate may hand
  rw [judgeCandidate_eq (by exact passes) (by exact done) (by exact open'), if_neg (mt (startRule_takeSlot (s := decisionFrom s)).mp (by exact fails))] at row
  have goes : failsStart k c (takeSlot c.head c.seg (decisionFrom s)) =
      waitLook (releaseSlots (endAperiodic (takeSlot c.head c.seg (decisionFrom s)))) := by
    unfold failsStart
    rw [stage]
  rw [goes] at row
  have before : OnlyChanges [.walk, .hport, .wq] s (releaseSlots (endAperiodic (takeSlot c.head c.seg (decisionFrom s)))) :=
    ((takeSlot_decisionFrom_only _ _ s).mono (by decide)).trans
      (((endAperiodic_only _).mono (by decide)).trans ((releaseSlots_only _).mono (by decide)))
  have slot := takeSlot_walk c.head c.seg (decisionFrom s)
  have walk : (releaseSlots (endAperiodic (takeSlot c.head c.seg (decisionFrom s)))).walk =
      { s.walk with look := .nothing, slots := (takeSlot c.head c.seg (decisionFrom s)).walk.slots, aperiodicOver := true } := by
    show ({ (takeSlot c.head c.seg (decisionFrom s)).walk with aperiodicOver := true } : Walker) = _
    rw [slot]
    rfl
  have items : (releaseSlots (endAperiodic (takeSlot c.head c.seg (decisionFrom s)))).wq = { s.wq with reserved := 0 } := by
    show ({ (takeSlot c.head c.seg (decisionFrom s)).wq with reserved := 0 } : WriteQueue) = _
    rw [takeSlot_decisionFrom_only c.head c.seg s .wq (by decide)]
  generalize releaseSlots (endAperiodic (takeSlot c.head c.seg (decisionFrom s))) = v at row before walk items
  have rot := getRot_waitLook v
  have later := waitLook_decides v
  refine ⟨_, row, ?_, ?_, ?_, ?_, ?_, ?_, ?_, ?_, fun late => ?_⟩
  · rw [decided_walk]
    refine ((lookAhead_decides _).walk Walker.aperiodicOver (fun w u kept => by rw [kept]) (fun _ _ _ _ => rfl)).trans ?_
    show v.walk.aperiodicOver = true
    rw [walk]
  · rw [decided_walk]
    exact waitLook_hand v
  · exact (decided_only _ _ .xeng (by decide)).trans ((waitLook_only v .xeng (by decide)).trans
      ((before .xeng (by decide)).trans may.free))
  · rw [(decided_wq _ _).1, later.wq, items]
  · rw [(decided_wq _ _).2, later.wq, items]
  · rw [decided_aiu]
    exact later.queue.trans (by rw [before .aiu (by decide)])
  · rw [decided_walk]
    exact (rot .service).trans (by unfold getRot; rw [walk])
  · rw [decided_walk]
    exact (rot .bulk).trans (by unfold getRot; rw [walk])
  · exact (before.mono (by decide)).trans (((waitLook_late (by rw [walk]; exact late) (by rw [walk])).mono (by decide)).trans
      ((decided_only _ _).mono (by decide)))

end Sys2Proof.Machine
end

section
/-! SUPPORT. Periodic heads that are late (R61), and the settlement of O38. -/

namespace Sys2Proof.Machine

/-! ### A decision without a direct request -/

theorem aperiodicDecision_of_quiet {s : State} (quiet : s.dau.pending = []) : OnlyChanges lookBlocks s (aperiodicDecision s) := by
  unfold aperiodicDecision
  split
  · exact waitLook_only s
  · rw [quiet]
    exact offerRings_only _ s

theorem closed_of_quiet {s : State} (quiet : s.dau.pending = []) : OnlyChanges lookBlocks s (aperiodicDecision (closePasses s)) :=
  ((closePasses_only s).mono (by decide)).trans (aperiodicDecision_of_quiet (by exact quiet))

theorem streamStage_of_quiet {s : State} (quiet : s.dau.pending = []) : OnlyChanges lookBlocks s (streamStage s) := by
  unfold streamStage
  split
  · exact closed_of_quiet quiet
  · split
    · exact (issueHead_only _ _ s).mono (by decide)
    · exact closed_of_quiet quiet
    · exact walkerBroken_only _ s
    · exact (walkerWaits_only s).mono (by decide)

/-- Where no direct request waits the periodic window chooses no exchange. -/
theorem periodicStage_of_quiet {s : State} (quiet : s.dau.pending = []) : OnlyChanges lookBlocks s (periodicStage s) := by
  unfold periodicStage
  split
  · exact closed_of_quiet quiet
  · split
    · exact streamStage_of_quiet quiet
    · split
      · exact (issueHead_only _ _ s).mono (by decide)
      · have over' : OnlyChanges lookBlocks s { s with walk := { s.walk with timedDone := true, pass := none } } := by
          intro block other
          cases block <;> first | rfl | exact absurd (by decide) other
        exact over'.trans (streamStage_of_quiet (by exact quiet))
      · exact walkerBroken_only _ s
      · exact (walkerWaits_only s).mono (by decide)

theorem passOver_of_quiet {k : Seek} {c : RingClass} (stage : k.stage = .pass c) (h : Rec) {s : State} (quiet : s.dau.pending = []) :
    OnlyChanges lookBlocks s (passOver k h s) := by
  have before : OnlyChanges lookBlocks s (passAfter k.cur h.w0 (setHand .nothing s)) :=
    ((setHand_only .nothing s).mono (by decide)).trans ((passAfter_only _ _ _).mono (by decide))
  unfold passOver
  rw [stage]
  exact before.trans (periodicStage_of_quiet (by exact quiet))

/-! ### LATE (R61) -/

/-- The attention of a late head. -/
def lateAttn (s : State) (c : Turn) : Attn :=
  { cause := .late, cls := c.cls, entry := headEntry c.head, cycle := s.ctim.number.extractLsb' 0 12, head := c.addr }

/-- The packet of the next exchange has bytes, and the staging buffer is EMPTY. -/
def packetUnstaged (q : Request) (s : State) : Prop := packetBytes q ≠ none ∧ packetBytes q ≠ some 0 ∧ s.stage.buf = .empty

section
variable {s : State} (may : MayDecide s) {c : Turn} {g : Nat} {tailOnly : Bool} (passes : passesTests s c.cls c.head)
  (done : doneSoFar s c g tailOnly) (late : ¬nextFits s c g tailOnly ∨ packetUnstaged (nextPacket s c g tailOnly) s)
  {k : Seek} (hand : s.walk.hand = .candidate k c)
  (open' : ¬(s.walk.window = .early ∧ s.ctim.remain.toNat ≤ s.ctim.openSampled.toNat)) {p : RingClass} (stage : k.stage = .pass p)
include passes done late open' stage

/-- A candidate of a pass that does not fit, or whose packet is not staged, is late. -/
theorem judgeCandidate_late : ∃ v, judgeCandidate k c (decisionFrom s) = passLate k c v ∧
    OnlyChanges [.stage, .walk, .hport] s v ∧ v.walk = { s.walk with look := .nothing, slots := v.walk.slots } := by
  have judged := judgeCandidate_eq (s := decisionFrom s) (k := k) (by exact passes) (by exact done) (by exact open')
  by_cases fits : nextFits s c g tailOnly
  · obtain ⟨some, bytes, empty⟩ := late.resolve_left (not_not_intro fits)
    obtain ⟨n, packet⟩ := Option.ne_none_iff_exists'.mp some
    have stays := takeSlot_decisionFrom_only c.head c.seg s .stage (by decide)
    rw [if_pos ((startRule_takeSlot (s := decisionFrom s)).mpr (by exact fits)),
      tryPacket_of_unstaged (by exact packet) (by rintro rfl; exact bytes packet)
        (by rw [show (takeSlot c.head c.seg (decisionFrom s)).stage = s.stage from stays]; exact empty)] at judged
    refine ⟨markLate (packetTag c g (nextPacket s c g tailOnly)) (prepared c (nextPacket s c g tailOnly) g s), judged.trans ?_,
      (prepared_only _ _ _ s).trans ((markLate_only _ _).mono (by decide)), prepared_walk c (nextPacket s c g tailOnly) g s⟩
    unfold notReady
    rw [stage]
    rfl
  · rw [if_neg (mt (startRule_takeSlot (s := decisionFrom s)).mp (by exact fits))] at judged
    refine ⟨takeSlot c.head c.seg (decisionFrom s), judged.trans ?_, (takeSlot_decisionFrom_only _ _ s).mono (by decide), ?_⟩
    · unfold failsStart
      rw [stage]
    · rw [takeSlot_walk]
      rfl

include may hand

/-- A late head of the TIMED pass: the pass goes on with the next head. -/
theorem candidate_late_timed (timed : p = .timed) (own : c.cls = stageClass k.stage) (place : c.addr = k.cur)
    (running : s.seq.state = .running) : ∃ t, exec .walkerDecision s = .next t ∧
      t.aiu.queue = (attnAfterOffer s.aiu (lateAttn s c)).queue ∧ t.wq.items = s.wq.items ∧ t.wq.reserved = 0 ∧
      (s.dau.pending = [] → t.xeng = none) ∧
      (∀ p, s.walk.pass = some p → s.walk.timedDone = false → p.fetched < 255 → followed s c.head.w0 →
        c.head.w0 ≠ latchedAnchor s .timed →
        asked t 1 c.head.w0 16 .head ∧ t.xeng = none ∧
        t.walk.pass = some { prev := some c.addr, next := c.head.w0, start := some (p.start.getD c.head.w0),
                             fetched := p.fetched + 1 }) := by
  subst timed
  have row := exec_decision_candidate may hand
  obtain ⟨v, judged, kept, walk⟩ := judgeCandidate_late passes done late open' stage
  have goes : passLate k c v = passOver k c.head (releaseSlots (offerAttn .late c.cls (headEntry c.head) c.addr v)) := by
    unfold passLate
    rw [own, stage]
    rfl
  rw [judged, goes] at row
  have aiu : (releaseSlots (offerAttn .late c.cls (headEntry c.head) c.addr v)).aiu = attnAfterOffer s.aiu (lateAttn s c) := by
    show attnAfterOffer v.aiu { cause := .late, cls := c.cls, entry := headEntry c.head, cycle := v.ctim.number.extractLsb' 0 12, head := c.addr } = _
    rw [kept .aiu (by decide), kept .ctim (by decide)]
    rfl
  have wq : (releaseSlots (offerAttn .late c.cls (headEntry c.head) c.addr v)).wq = { s.wq with reserved := 0 } := by
    show ({ v.wq with reserved := 0 } : WriteQueue) = _
    rw [kept .wq (by decide)]
  have same : OnlyChanges [.stage, .walk, .hport, .aiu, .wq] s (releaseSlots (offerAttn .late c.cls (headEntry c.head) c.addr v)) :=
    (kept.mono (by decide)).trans (((offerAttn_only _ _ _ _ _).mono (by decide)).trans ((releaseSlots_only _).mono (by decide)))
  have position : (releaseSlots (offerAttn .late c.cls (headEntry c.head) c.addr v)).walk =
      { s.walk with look := .nothing, slots := v.walk.slots } := walk
  generalize releaseSlots (offerAttn .late c.cls (headEntry c.head) c.addr v) = w at row aiu wq same position
  have later := passOver_decides k c.head w
  refine ⟨_, row, ?_, ?_, ?_, fun quiet => ?_, fun p pass todo few link other => ?_⟩
  · rw [decided_aiu]
    exact later.queue.trans (by rw [aiu])
  · rw [(decided_wq _ _).1, later.wq, wq]
  · rw [(decided_wq _ _).2, later.wq, wq]
  · have free := passOver_of_quiet stage c.head (s := w) (by rw [same .dau (by decide)]; exact quiet)
    exact (decided_only _ _ .xeng (by decide)).trans ((free .xeng (by decide)).trans ((same .xeng (by decide)).trans may.free))
  · have next : followed w c.head.w0 := by
      refine ⟨link.1, link.2.1, ?_⟩
      unfold pendingHeadLink
      rw [wq]
      exact link.2.2
    have anchor : latchedAnchor w .timed = latchedAnchor s .timed := by
      unfold latchedAnchor
      rw [position]
    have on : passOver k c.head w = issueHead (nextInPass p c.head.w0) (some k.cur) (passAfter k.cur c.head.w0 (setHand .nothing w)) :=
      passOver_timed stage (by rw [same .seq (by decide)]; exact running) (by rw [position]; exact pass)
        (by rw [position]; exact todo) few next (by rw [anchor]; exact other)
    obtain ⟨moved, only⟩ := issueHead_nextInPass p c.head.w0 k.cur (passAfter k.cur c.head.w0 (setHand .nothing w))
    have passed : OnlyChanges [.walk] w (passAfter k.cur c.head.w0 (setHand .nothing w)) :=
      ((setHand_only .nothing w).mono (by decide)).trans (passAfter_only _ _ _)
    rw [on]
    refine ⟨asked_decided ?_ ?_, ?_, ?_⟩
    · rw [only .seq (by decide), passed .seq (by decide), same .seq (by decide), running]
      exact nofun
    · rw [issueHead_of_pass (c := .timed) rfl]
      exact asked_requestRead 1 c.head.w0 16 .head _
    · exact (decided_only _ _ .xeng (by decide)).trans ((only .xeng (by decide)).trans
        ((passed .xeng (by decide)).trans ((same .xeng (by decide)).trans may.free)))
    · rw [decided_walk, moved, place]

/-- A late STREAM record is fetched again to complete MISSED. -/
theorem candidate_late_stream (stream : p = .stream) (own : c.cls = stageClass k.stage) (unsealed : s.seq.state ≠ .sealed) :
    ∃ t, exec .walkerDecision s = .next t ∧
      t.aiu.queue = (attnAfterOffer s.aiu (lateAttn s c)).queue ∧ t.xeng = none ∧
      t.walk.hand = .turn { c with phase := .refetch .missed 0 } ∧
      asked t 2 c.record 16 .refetch ∧ t.wq.items = s.wq.items ∧
      t.wq.reserved = s.wq.reserved ∧ OnlyChanges [.stage, .walk, .hport, .wq, .aiu] s t := by
  subst stream
  have row := exec_decision_candidate may hand
  obtain ⟨v, judged, kept, walk⟩ := judgeCandidate_late passes done late open' stage
  have goes : passLate k c v = beginConsume c .missed 0 (offerAttn .late c.cls (headEntry c.head) c.addr v) := by
    unfold passLate
    rw [own, stage]
    rfl
  rw [judged, goes] at row
  have aiu : (offerAttn .late c.cls (headEntry c.head) c.addr v).aiu = attnAfterOffer s.aiu (lateAttn s c) := by
    show attnAfterOffer v.aiu { cause := .late, cls := c.cls, entry := headEntry c.head, cycle := v.ctim.number.extractLsb' 0 12, head := c.addr } = _
    rw [kept .aiu (by decide), kept .ctim (by decide)]
    rfl
  have same : OnlyChanges [.stage, .walk, .hport, .aiu] s (offerAttn .late c.cls (headEntry c.head) c.addr v) :=
    (kept.mono (by decide)).trans ((offerAttn_only _ _ _ _ _).mono (by decide))
  generalize offerAttn .late c.cls (headEntry c.head) c.addr v = w at row aiu same
  have only := beginConsume_only c .missed 0 w
  have wq : (beginConsume c .missed 0 w).wq = s.wq := (only .wq (by decide)).trans (same .wq (by decide))
  refine ⟨_, row, ?_, ?_, ?_, asked_decided ?_ (asked_requestRead 2 c.record 16 .refetch w), ?_, ?_, ?_⟩
  · rw [decided_aiu]
    show (beginConsume c .missed 0 w).aiu.queue = _
    rw [only .aiu (by decide), aiu]
  · exact (decided_only _ _ .xeng (by decide)).trans ((only .xeng (by decide)).trans ((same .xeng (by decide)).trans may.free))
  · rw [decided_walk]
    rfl
  · rw [only .seq (by decide), same .seq (by decide)]
    exact unsealed
  · rw [(decided_wq _ _).1, wq]
  · rw [(decided_wq _ _).2, wq]
  · exact (same.mono (by decide)).trans ((only.mono (by decide)).trans ((decided_only _ _).mono (by decide)))

end

/-! ### The decision of the rings -/

section
variable {s : State} (may : MayDecide s) (running : s.seq.state = .running) (hand : s.walk.hand = .nothing)
  (waits : s.walk.waiting = false) (more : s.walk.aperiodicOver = false) (quiet : s.dau.pending = []) (window : aperiodicWindow s)
  {c : RingClass} (first : c = .service ∨ (c = .bulk ∧ s.walk.window = .late ∧ latchedAnchor s .service = 0))
  (anchored : latchedAnchor s c ≠ 0)
include may running hand waits more quiet window first anchored

/-- With the low-turn flag clear the high search begins, unless its cursor leads back to the anchor. -/
theorem decision_begins_high (turn : (getRot s c).lowTurn = false)
    (other : ∀ u, (getRot s c).high = some u → u.link ≠ latchedAnchor s c)
    (link : followed s (searchHead (latchedAnchor s c) (getRot s c).high)) :
    ∃ t, exec .walkerDecision s = .next t ∧ BeginsSearch c .high (getRot s c).high (getRot s c) (getRot s c).high.isNone s t ∧
      t.walk = { s.walk with hand := t.walk.hand, look := .nothing, waiting := true } ∧
      OnlyChanges [.walk, .hport, .wq, .aiu] s t := by
  refine decision_begins may running hand waits more quiet window first (prev := (searchFrom (latchedAnchor s c) (getRot s c).high).1) ?_
  have rot : getRot (opened s) c = getRot s c := by cases c <;> rfl
  have anchor : latchedAnchor (opened s) c = latchedAnchor s c := rfl
  rw [beginRing_high (by rw [anchor]; exact anchored) (by rw [rot]; exact turn), rot, anchor, searchFrom_head]
  refine traverse_newSearch 127 (by exact link) ?_
  cases cursor : (getRot s c).high with
  | none => rfl
  | some u => exact beq_eq_false_iff_ne.mpr (other u cursor)

/-- A high cursor that leads back to the anchor has come round, and the low search begins. -/
theorem decision_begins_low_behind (turn : (getRot s c).lowTurn = false) {u : Cursor} (cursor : (getRot s c).high = some u)
    (back : u.link = latchedAnchor s c) (aligned' : (latchedAnchor s c).extractLsb' 0 4 = 0#4)
    (link : followed s (searchHead (latchedAnchor s c) (getRot s c).low)) :
    ∃ t, exec .walkerDecision s = .next t ∧
      BeginsSearch c .low (getRot s c).low { getRot s c with high := none, lowTurn := true } false s t ∧
      t.walk = { s.walk with hand := t.walk.hand, look := .nothing, waiting := true } ∧
      OnlyChanges [.walk, .hport, .wq, .aiu] s t := by
  refine decision_begins may running hand waits more quiet window first (prev := (searchFrom (latchedAnchor s c) (getRot s c).low).1) ?_
  have rot : getRot (opened s) c = getRot s c := by cases c <;> rfl
  have anchor : latchedAnchor (opened s) c = latchedAnchor s c := rfl
  rw [beginRing_high (by rw [anchor]; exact anchored) (by rw [rot]; exact turn), rot, anchor, cursor]
  have round (firstEmpty : Bool) :
      endsAt (opened s) (newSearch c .high (getRot s c) firstEmpty) (some u.head) u.link = true := beq_iff_eq.mpr back
  have good : goodLink u.link := by
    rw [back]
    exact ⟨anchored, aligned'⟩
  exact (traverse_of_high_end 127 (c := c) rfl good (round _)).trans (traverse_low 126 (by exact link))

theorem decision_begins_low (turn : (getRot s c).lowTurn = true)
    (link : followed s (searchHead (latchedAnchor s c) (getRot s c).low)) :
    ∃ t, exec .walkerDecision s = .next t ∧ BeginsSearch c .low (getRot s c).low (getRot s c) false s t ∧
      t.walk = { s.walk with hand := t.walk.hand, look := .nothing, waiting := true } ∧
      OnlyChanges [.walk, .hport, .wq, .aiu] s t := by
  refine decision_begins may running hand waits more quiet window first (prev := (searchFrom (latchedAnchor s c) (getRot s c).low).1) ?_
  have rot : getRot (opened s) c = getRot s c := by cases c <;> rfl
  have anchor : latchedAnchor (opened s) c = latchedAnchor s c := rfl
  rw [beginRing_low (by rw [anchor]; exact anchored) (by rw [rot]; exact turn), rot, anchor]
  exact traverse_low 127 (by exact link)

end

/-- Without an anchor the walker waits in the early window, and its look-ahead asks for nothing. -/
theorem decision_waits {s : State} (may : MayDecide s) (running : s.seq.state = .running) (hand : s.walk.hand = .nothing)
    (waits : s.walk.waiting = false) (more : s.walk.aperiodicOver = false) (quiet : s.dau.pending = []) (window : aperiodicWindow s)
    (service : latchedAnchor s .service = 0) (early : s.walk.window = .early) (timed : latchedAnchor s .timed = 0)
    (stream : latchedAnchor s .stream = 0) : ∃ t, exec .walkerDecision s = .next t ∧
      t.walk = { s.walk with waiting := true, look := .nothing } ∧ OnlyChanges [.walk, .hport, .wq, .aiu] s t := by
  have row := exec_decision_rings may hand waits more quiet window
  have rings : windowRings (opened s) = [.service] := by
    unfold windowRings
    rw [if_pos (by exact running), show (opened s).walk.window = .early from early]
  rw [rings, offerRings_of_zero [] (by exact service)] at row
  have nothing : offerRings [] (opened s) = decisionFrom (walkerWaits (opened s)) :=
    waitLook_early (by exact running) (by exact may.restart) (by exact early) (by exact timed) (by exact stream)
  rw [nothing] at row
  have kept : OnlyChanges [.walk, .hport] s (decisionFrom (walkerWaits (opened s))) :=
    (opened_only s).trans (((walkerWaits_only _).mono (by decide)).trans (decisionFrom_only _))
  refine ⟨_, row, ?_, (kept.mono (by decide)).trans ((decided_only _ _).mono (by decide))⟩
  rw [decided_walk]
  show ({ s.walk with waiting := true, look := .nothing, hand := .nothing } : Walker) = _
  rw [← hand]

/-- Settles O38: the searches a decision begins, and what it makes of a candidate or of a burst's next exchange. -/
theorem walkerDecisionsServeTheRings : Obligations.WalkerDecisionsServeTheRings := by
  intro s out free restart running
  have may : MayDecide s := ⟨out, free, restart, .inr (.inr running)⟩
  refine ⟨fun hand waits more quiet window => ⟨?_, ?_⟩, ?_⟩
  · intro c first anchor rot begins anchored aligned'
    refine ⟨fun turn other link => ?_, fun turn round link => ?_, fun turn link => ?_⟩
    · exact decision_begins_high may running hand waits more quiet window first anchored turn other link
    · obtain ⟨u, cursor, back⟩ := round
      exact decision_begins_low_behind may running hand waits more quiet window first anchored turn cursor back aligned' link
    · exact decision_begins_low may running hand waits more quiet window first anchored turn link
  · intro service early timed stream
    exact decision_waits may running hand waits more quiet window service early timed stream
  intro c g tailOnly passes done e q fits tag ready unstaged starts
  refine ⟨?_, ?_, ?_⟩
  · intro hand phase room packet
    obtain ⟨t, row, start, goes⟩ := burst_starts may passes done room packet hand phase
    exact ⟨t, ⟨row, start.engine, start.staged, start.slot, start.only⟩, goes⟩
  · intro o hand phase bulk _ made last plain room fails
    exact burst_refused may passes done fails hand phase bulk made last plain room
  intro k hand own place open' late
  refine ⟨?_, ?_, ?_, ?_⟩
  · intro room packet
    obtain ⟨t, row, start, goes, rotation⟩ := candidate_starts may passes done room packet hand open'
    exact ⟨t, ⟨row, start.engine, start.staged, start.slot, start.only⟩, goes, rotation⟩
  · intro r n stage fails
    exact candidate_refused may passes done fails hand open' stage
  · intro stage missed
    obtain ⟨t, row, queue, items, reserved, bus, next⟩ :=
      candidate_late_timed may passes done missed hand open' stage rfl own place running
    exact ⟨t, row, queue, items, reserved, bus,
      fun p pass todo few real link other pending => next p pass todo few ⟨real, link, pending⟩ other⟩
  · intro stage missed
    exact candidate_late_stream may passes done missed hand open' stage rfl own (by rw [running]; exact nofun)

end Sys2Proof.Machine
end
